-- ==== Sys2Proof/Word.lean ====
section
/-! DEFINITION. The word types of the machine: a byte, a 64-bit word (R25), an instruction word (R39) and the
512 bits of a vector register (R192). -/

namespace Sys2Proof

/-- One byte. -/
abbrev Byte := BitVec 8

/-- A 64-bit word: an x register, a k register, a PC, an address, a CSR. -/
abbrev Word := BitVec 64

/-- One 32-bit instruction word (R39). -/
abbrev InstWord := BitVec 32

/-- The 512 bits of a vector register (R192). -/
abbrev VecBits := BitVec 512

end Sys2Proof
end

