-- ==== Sys2Proof/Config.lean ====
section
/-! DEFINITION. What the manual leaves open: free values, as constants with no body. Nothing in Lean can
evaluate one, so a statement proved of the machine holds whatever each of them is. -/

namespace Sys2Proof

/-- Which of the bytes that a fetch may return (the current byte of the I-store or an older one that no FENCE.I
or start message has yet ordered, R127) an unordered fetch returns. Applied to the counter `freeCtr` of the
state; the answer is taken modulo the number of candidates. Log entry 3. -/
opaque Config.staleChoice : Nat → Nat

/-- The bytes of a combined chunk whose tree's entries disagree on ETYPE, KIND or OPER: "not defined" (R278).
Applied to `freeCtr` and the byte's position. Log entry 4. -/
opaque Config.undefinedChunkByte : Nat → Nat → Byte

/-- SHA-256 of a byte string (R323 to R325), left uninterpreted: the manual names the standard function and no
statement rests on a value of it. Log entry 5. -/
opaque Config.sha256 : List Byte → BitVec 256

/-- Whether the RSASSA-PSS RSA-3072 signature of a Finsar image with this digest checks against the fused key
(R323 stage 1). Log entry 5. -/
opaque Config.signatureValid : BitVec 256 → Bool

/-- The session keys that an SPDM key exchange yields (R325), applied to `freeCtr`. Log entry 5. -/
opaque Config.sessionKey : Nat → BitVec 256

/-- The certificate chain in slot 0, which ends in the device identity key (R325). Log entry 5. -/
opaque Config.slot0Chain : List Byte

/-- The signature of an answer with the device identity key, RSASSA-PSS RSA-3072 over SHA-256 (R325), applied to what it signs
and to `freeCtr`. Log entry 5. -/
opaque Config.signature : List Byte → Nat → BitVec 3072

/-- The digest of the mask ROM, "fused at manufacture" (R325, measurement 1). Log entry 5. -/
opaque Config.maskRomDigest : BitVec 256

/-- The receive slots of a scale-out link, whose free count a receiver sends after a mismatch (R288): the manual gives
no number. Log entry 15. -/
opaque Config.linkSlots : Nat

/-- Which buffered line leaves a full memory-side buffer when another line is filled (R159): the manual gives no replacement
order. Applied to the counter `freeCtr`; taken modulo the number of lines of the die. Log entry 40. -/
opaque Config.victim : Nat → Nat

/-- The child slot that a packet of an entry carries where the entry's parent is on another package (R284): no field of the
entry names it. Applied to the tile and the entry. Log entry 55. -/
opaque Config.childSlot : Nat → Nat → Nat

end Sys2Proof
end

