-- ==== Sys2Proof/Syntax.lean ====
section
/-! DEFINITION. The instructions and steps of the machine as syntax: one constructor of `Instr` for each row of
the opcode table (R39 to R66 for the encoded rows, 95_what_each_step_holds.md for the steps without an encoding),
and the operand types they carry. -/

namespace Sys2Proof

/-- A tile number, y × 64 + x (R12). -/
abbrev TileNo := BitVec 12
/-- A hardware context of a tile (R98). -/
abbrev CtxNo := BitVec 4
/-- A queue number (R131). -/
abbrev QueueNo := BitVec 12

/-- A guard: lane i is active when bit i of K[kg] XOR gn is 1 (R29, R48). -/
structure Guard where
  kg : BitVec 3
  gn : BitVec 1
deriving DecidableEq, Repr

/-- The guard `k0`, not inverted: every lane is active (R29). -/
def Guard.none : Guard := ⟨0, 0⟩

/-- The element types of the ty field, codes 0 to 10 (R30, R51). -/
inductive Ty where
  | i8 | n8 | i16 | n16 | i32 | n32 | f16 | bf16 | f32 | e4 | e5
deriving DecidableEq, Repr

/-- The predicates of VCMP in fn order (R50). -/
inductive Pred where
  | eq | ne | lt | le | gt | ge | un | or
deriving DecidableEq, Repr

/-- The operations of VRED (R52). -/
inductive RedOp where
  | add | min | max | and | or | xor
deriving DecidableEq, Repr

/-- The operations of KOP (R362). -/
inductive KOp where
  | and | or | xor | andn
deriving DecidableEq, Repr

/-- The widths of VBCAST (R404). -/
inductive Width where
  | b | h | w | d
deriving DecidableEq, Repr

/-- The scopes of FENCEX and of level words, codes 0 to 5 (R63, R180). -/
inductive Scope where
  | thread | tile | region | die | package | system
deriving DecidableEq, Repr

/-- A host PCIe AtomicOp, 64 bits wide or 32 (R174). -/
inductive HostAtomic where
  | fetchAdd (wide : Bool) (v : Word)
  | swap (wide : Bool) (v : Word)
  | cas (wide : Bool) (compare new : Word)
deriving DecidableEq, Repr

/-- A host read of some bytes or a host write of some bytes (R319). -/
inductive HostAccess where
  | read (len : Nat)
  | write (data : List Byte)
deriving DecidableEq, Repr

/-- An access to a register: a store of a context that reaches a tile control register (R426), a host write of 8 bytes to
BAR0, or any access of the host there, a read or a write of any width (R320). -/
inductive RegWrite where
  | tile (t : TileNo) (c : CtxNo) (n : Nat)
  | hub (off : BitVec 16) (v : Word) (tbit : Bool)
  | bar0 (acc : HostAccess) (off : BitVec 16) (tbit : Bool)
deriving DecidableEq, Repr

/-- Where an uncorrectable error strikes (R310, R311). -/
inductive EccSite where
  | ls (t : TileNo) (off : BitVec 20)
  | istore (t : TileNo) (off : BitVec 16)
  | history (t : TileNo) (off : BitVec 14)
  | main (pa : BitVec 40) (near : Bool)
  | registers (t : TileNo) (c : CtxNo)
  | tidEntry (t : TileNo) (n : BitVec 8)
  | tileEntry (t : TileNo) (n : BitVec 6)
  | slotEntry (t : TileNo) (s : BitVec 4)
  | tlbEntry (t : TileNo) (n : Nat)
  | regionTlbEntry (t : TileNo) (n : Nat)
  | heddleSlot (t : TileNo) (s : BitVec 3)
deriving DecidableEq, Repr

/-- What a package reset finds outside the machine (R323): the Finsar image in the package flash, whether the
Bobbin stacks train, and the first thermal measurement (R328). -/
structure BootInput where
  flash : Option (List Byte)
  bobbinTrains : Bool
  tmax : BitVec 8
deriving DecidableEq, Repr

/-- The virtual channels of the networks (R251); the request, response and stream channels have one for each class. -/
inductive Vc where
  | req (cls : BitVec 2)
  | rsp (cls : BitVec 2)
  | stream (cls : BitVec 2)
  | shuttle | chw | wave | pick
deriving DecidableEq, Repr

/-- The key of a virtual channel in a table. -/
def Vc.key : Vc → Nat
  | .req c => c.toNat
  | .rsp c => 4 + c.toNat
  | .stream c => 8 + c.toNat
  | .shuttle => 12
  | .chw => 13
  | .wave => 14
  | .pick => 15

/-- What a packet of a collective is: a chunk up or down the tree, the completion notice of a REDUCE, the acknowledgement
of one of these or of a request, a request to an alternate placement, the request to resend a retained chunk, and the turn
of a router for its own entry (R284, R285). -/
inductive ChunkKind where
  | up | down | notice | ackUp | ackDown | ackAlt | alt | resend | turn
deriving DecidableEq, Repr

/-- A packet of a collective that comes by a scale-out link (R278, R284, R287): its port, the sender's tile, the node it
concerns, what it is, entry, generation, chunk, the sender's child slot, its elements and their size in bytes, and whether it
goes to the node's alternate placement; the class and the injection loom time of its header; the sequence number of its last flit, the acknowledged one and the credit
return. -/
structure Packet where
  port : BitVec 4
  fromTile : TileNo
  node : TileNo
  entry : BitVec 6
  gen : BitVec 16
  num : Nat
  slot : BitVec 2
  kind : ChunkKind
  data : List Nat
  bytes : Nat
  moved : Bool
  cls : BitVec 2
  born : Nat
  seq : BitVec 12
  ack : BitVec 12
  credit : BitVec 8
deriving DecidableEq, Repr

/-- What an audit message carries beside its two counters: the sender's loom time, with which they are its absolute counts of
flits sent and credits received; or, after a mismatch, a receiver's free slots of a virtual channel, where they mean nothing
(R288, R289). -/
inductive AuditMsg where
  | counts (tm : Word)
  | slots (vc : Vc) (n : Nat)
deriving DecidableEq, Repr

/-- A flit error at a port: `here`, in a flit that came to this package, else in one that it sent (R287). -/
structure FlitError where
  port : BitVec 4
  here : Bool
deriving DecidableEq, Repr

/-- How an engine goes on with a card: how many units it runs, and which element each takes where their order is free, as the
place after the first that is not done (R177). -/
structure CardRun where
  units : Nat
  pick : Nat
deriving DecidableEq, Repr

/-- A packet in flight inside the package, or one that a link brings. -/
inductive PacketRef where
  | here (n : Nat)
  | wire (p : Packet)
deriving DecidableEq, Repr

/-- One constructor for each row of the opcode table; the ones without operands stand last. An asynchronous step names
its tile `t`, its context `c`, the `n`-th request in flight of that context or the `n`-th packet of a network, and,
where a request has elements, the element `k`; what the manual leaves free in a step is an argument too. -/
inductive Instr where
  | lui (xd : BitVec 5) (imm : BitVec 20)
  | auipc (xd : BitVec 5) (imm : BitVec 20)
  | jal (xd : BitVec 5) (imm : BitVec 20)
  | jalr (xd xs1 : BitVec 5) (imm : BitVec 12)
  | beq (xs1 xs2 : BitVec 5) (imm : BitVec 12)
  | bne (xs1 xs2 : BitVec 5) (imm : BitVec 12)
  | blt (xs1 xs2 : BitVec 5) (imm : BitVec 12)
  | bge (xs1 xs2 : BitVec 5) (imm : BitVec 12)
  | bltu (xs1 xs2 : BitVec 5) (imm : BitVec 12)
  | bgeu (xs1 xs2 : BitVec 5) (imm : BitVec 12)
  | lb (xd xs1 : BitVec 5) (imm : BitVec 12)
  | lh (xd xs1 : BitVec 5) (imm : BitVec 12)
  | lw (xd xs1 : BitVec 5) (imm : BitVec 12)
  | ld (xd xs1 : BitVec 5) (imm : BitVec 12)
  | lbu (xd xs1 : BitVec 5) (imm : BitVec 12)
  | lhu (xd xs1 : BitVec 5) (imm : BitVec 12)
  | lwu (xd xs1 : BitVec 5) (imm : BitVec 12)
  | sb (xs2 xs1 : BitVec 5) (imm : BitVec 12)
  | sh (xs2 xs1 : BitVec 5) (imm : BitVec 12)
  | sw (xs2 xs1 : BitVec 5) (imm : BitVec 12)
  | sd (xs2 xs1 : BitVec 5) (imm : BitVec 12)
  | addi (xd xs1 : BitVec 5) (imm : BitVec 12)
  | slti (xd xs1 : BitVec 5) (imm : BitVec 12)
  | sltiu (xd xs1 : BitVec 5) (imm : BitVec 12)
  | xori (xd xs1 : BitVec 5) (imm : BitVec 12)
  | ori (xd xs1 : BitVec 5) (imm : BitVec 12)
  | andi (xd xs1 : BitVec 5) (imm : BitVec 12)
  | slli (xd xs1 : BitVec 5) (sh : BitVec 6)
  | srli (xd xs1 : BitVec 5) (sh : BitVec 6)
  | srai (xd xs1 : BitVec 5) (sh : BitVec 6)
  | add (xd xs1 xs2 : BitVec 5)
  | sub (xd xs1 xs2 : BitVec 5)
  | sll (xd xs1 xs2 : BitVec 5)
  | slt (xd xs1 xs2 : BitVec 5)
  | sltu (xd xs1 xs2 : BitVec 5)
  | xor (xd xs1 xs2 : BitVec 5)
  | srl (xd xs1 xs2 : BitVec 5)
  | sra (xd xs1 xs2 : BitVec 5)
  | or (xd xs1 xs2 : BitVec 5)
  | and (xd xs1 xs2 : BitVec 5)
  | mul (xd xs1 xs2 : BitVec 5)
  | mulh (xd xs1 xs2 : BitVec 5)
  | mulhsu (xd xs1 xs2 : BitVec 5)
  | mulhu (xd xs1 xs2 : BitVec 5)
  | div (xd xs1 xs2 : BitVec 5)
  | divu (xd xs1 xs2 : BitVec 5)
  | rem (xd xs1 xs2 : BitVec 5)
  | remu (xd xs1 xs2 : BitVec 5)
  | lr (xd xs1 : BitVec 5) (w aq rl : BitVec 1)
  | sc (xd xs1 xs2 : BitVec 5) (w aq rl : BitVec 1)
  | amoswap (xd xs1 xs2 : BitVec 5) (w aq rl : BitVec 1)
  | amoadd (xd xs1 xs2 : BitVec 5) (w aq rl : BitVec 1)
  | amoxor (xd xs1 xs2 : BitVec 5) (w aq rl : BitVec 1)
  | amoand (xd xs1 xs2 : BitVec 5) (w aq rl : BitVec 1)
  | amoor (xd xs1 xs2 : BitVec 5) (w aq rl : BitVec 1)
  | amomin (xd xs1 xs2 : BitVec 5) (w aq rl : BitVec 1)
  | amomax (xd xs1 xs2 : BitVec 5) (w aq rl : BitVec 1)
  | amominu (xd xs1 xs2 : BitVec 5) (w aq rl : BitVec 1)
  | amomaxu (xd xs1 xs2 : BitVec 5) (w aq rl : BitVec 1)
  | fence (pred succ : BitVec 4)
  | csrrw (xd : BitVec 5) (csr : BitVec 12) (xs1 : BitVec 5)
  | csrrs (xd : BitVec 5) (csr : BitVec 12) (xs1 : BitVec 5)
  | csrrc (xd : BitVec 5) (csr : BitVec 12) (xs1 : BitVec 5)
  | csrrwi (xd : BitVec 5) (csr : BitVec 12) (uimm : BitVec 5)
  | csrrsi (xd : BitVec 5) (csr : BitVec 12) (uimm : BitVec 5)
  | csrrci (xd : BitVec 5) (csr : BitVec 12) (uimm : BitVec 5)
  | vadd (ty : Ty) (vd vs1 vs2 : BitVec 4) (g : Guard)
  | vsub (ty : Ty) (vd vs1 vs2 : BitVec 4) (g : Guard)
  | vmul (ty : Ty) (vd vs1 vs2 : BitVec 4) (g : Guard)
  | vfma (ty : Ty) (vd vs1 vs2 : BitVec 4) (g : Guard)
  | vmin (ty : Ty) (vd vs1 vs2 : BitVec 4) (g : Guard)
  | vmax (ty : Ty) (vd vs1 vs2 : BitVec 4) (g : Guard)
  | vabs (ty : Ty) (vd vs1 : BitVec 4) (g : Guard)
  | vneg (ty : Ty) (vd vs1 : BitVec 4) (g : Guard)
  | vclamp (ty : Ty) (vd vs1 vs2 : BitVec 4) (g : Guard)
  | vand (ty : Ty) (vd vs1 vs2 : BitVec 4) (g : Guard)
  | vor (ty : Ty) (vd vs1 vs2 : BitVec 4) (g : Guard)
  | vxor (ty : Ty) (vd vs1 vs2 : BitVec 4) (g : Guard)
  | vshl (ty : Ty) (vd vs1 vs2 : BitVec 4) (g : Guard)
  | vshr (ty : Ty) (vd vs1 vs2 : BitVec 4) (g : Guard)
  | vslide (ty : Ty) (vd vs1 n : BitVec 4) (g : Guard)
  | vsel (ty : Ty) (vd vs1 vs2 : BitVec 4) (g : Guard)
  | vcvt (ty dt : Ty) (vd vs1 : BitVec 4) (g : Guard)
  | vred (ty : Ty) (vd vs1 : BitVec 4) (rop : RedOp) (g : Guard)
  | vperm (ty : Ty) (vd vs1 vs2 : BitVec 4) (g : Guard)
  | vdiv (ty : Ty) (vd vs1 vs2 : BitVec 4) (g : Guard)
  | vsqrt (ty : Ty) (vd vs1 : BitVec 4) (g : Guard)
  | vexp2 (ty : Ty) (vd vs1 : BitVec 4) (g : Guard)
  | vlog2 (ty : Ty) (vd vs1 : BitVec 4) (g : Guard)
  | vrsqrt (ty : Ty) (vd vs1 : BitVec 4) (g : Guard)
  | vcmp (pred : Pred) (ty : Ty) (kd : BitVec 3) (dual : BitVec 1) (vs1 vs2 : BitVec 4) (g : Guard)
  | vbcast (wd : Width) (vd : BitVec 4) (xs1 : BitVec 5) (g : Guard)
  | vext (xd : BitVec 5) (vs1 : BitVec 4) (xs1 : BitVec 5)
  | vins (vd : BitVec 4) (xs1 xs2 : BitVec 5)
  | kmovx (xd : BitVec 5) (ks : BitVec 3)
  | kmovk (kd : BitVec 3) (xs1 : BitVec 5) (g : Guard)
  | kpop (xd : BitVec 5) (ks : BitVec 3) (g : Guard)
  | kop (op : KOp) (kd ka kb : BitVec 3) (g : Guard)
  | vld (vd : BitVec 4) (xs1 off : BitVec 5) (g : Guard)
  | vldsB (vd : BitVec 4) (xs1 xs2 : BitVec 5) (g : Guard)
  | vldsH (vd : BitVec 4) (xs1 xs2 : BitVec 5) (g : Guard)
  | vldsW (vd : BitVec 4) (xs1 xs2 : BitVec 5) (g : Guard)
  | vldxB (vd : BitVec 4) (xs1 : BitVec 5) (vs2 : BitVec 4) (g : Guard)
  | vldxH (vd : BitVec 4) (xs1 : BitVec 5) (vs2 : BitVec 4) (g : Guard)
  | vldxW (vd : BitVec 4) (xs1 : BitVec 5) (vs2 : BitVec 4) (g : Guard)
  | vst (vs : BitVec 4) (xs1 off : BitVec 5) (g : Guard)
  | vstsB (vs : BitVec 4) (xs1 xs2 : BitVec 5) (g : Guard)
  | vstsH (vs : BitVec 4) (xs1 xs2 : BitVec 5) (g : Guard)
  | vstsW (vs : BitVec 4) (xs1 xs2 : BitVec 5) (g : Guard)
  | vstxB (vs : BitVec 4) (xs1 : BitVec 5) (vs2 : BitVec 4) (g : Guard)
  | vstxH (vs : BitVec 4) (xs1 : BitVec 5) (vs2 : BitVec 4) (g : Guard)
  | vstxW (vs : BitVec 4) (xs1 : BitVec 5) (vs2 : BitVec 4) (g : Guard)
  | tidset (xs1 xs2 : BitVec 5)
  | tidget (xd xs1 xs2 : BitVec 5)
  | mzero (m : BitVec 2) (xs1 xs2 : BitVec 5)
  | mma (m : BitVec 2) (xs1 xs2 : BitVec 5)
  | mmav (m : BitVec 2) (xs1 : BitVec 5)
  | mmas (m : BitVec 2) (xs1 xs2 : BitVec 5)
  | mread (m : BitVec 2) (xs1 : BitVec 5)
  | mwrite (m : BitVec 2) (xs1 : BitVec 5)
  | fold (xd xs1 xs2 xs3 : BitVec 5)
  | scan (xd xs1 xs2 xs3 : BitVec 5)
  | zip (xd xs1 xs2 xs3 : BitVec 5)
  | outer (xd xs1 xs2 xs3 : BitVec 5)
  | xop (vi : BitVec 1) (slot : BitVec 3) (vd vs1 vs2 : BitVec 4) (g : Guard)
  | xcopy (xd xs1 xs2 : BitVec 5)
  | xfill (xd xs1 xs2 : BitVec 5)
  | wenc (xd xs1 xs2 : BitVec 5)
  | jtime (xd xs1 : BitVec 5)
  | jwait (xs1 : BitVec 5)
  | ttset (xs1 xs2 : BitVec 5)
  | tready (xs1 : BitVec 5)
  | tstat (xd xs1 : BitVec 5)
  | cwait (xs1 xs2 : BitVec 5)
  | pread (xd xs1 xs2 : BitVec 5)
  | hop (xs1 : BitVec 5)
  | give (xs1 xs2 : BitVec 5)
  | qput (xd xs1 xs2 : BitVec 5)
  | qputw (xd xs1 xs2 : BitVec 5)
  | qsig (xs1 xs2 : BitVec 5)
  | xcopym (xd xs1 xs2 xs3 : BitVec 5)
  | trig (xd xs1 xs2 xs3 : BitVec 5)
  | waitc (ld st cp mx : BitVec 5)
  | tspawn (xd xs1 xs2 : BitVec 5)
  | treap (xd xs1 : BitVec 5)
  | tkill (xs1 : BitVec 5)
  | tslot (xs1 xs2 : BitVec 5)
  | tsleep (xs1 : BitVec 5)
  | barreg (xs1 xs2 : BitVec 5)
  | mflush (xs1 xs2 : BitVec 5)
  | minv (xs1 xs2 : BitVec 5)
  | amodr (xd xs1 xs2 : BitVec 5) (slot : BitVec 3)
  | hload (xs1 xs2 : BitVec 5)
  | hdrop (xs1 : BitVec 5)
  | xopx (xd xs1 xs2 : BitVec 5) (slot : BitVec 3)
  | fencex (sc : Scope) (pred succ : BitVec 4)
  | illegalInstruction (w : InstWord)
  | rotationBoundary (t : TileNo)
  | parkWake (t : TileNo) (c : CtxNo)
  | parkWatchdog (t : TileNo) (c : CtxNo)
  | delivery (t : TileNo) (c : CtxNo) (n : Nat)
  | inboxLand (t : TileNo) (n : Nat)
  | registerWindowWrite (t : TileNo) (c : CtxNo) (n : Nat)
  | heldResume (t : TileNo) (c : CtxNo) (n : Nat)
  | endingToFree (t : TileNo) (c : CtxNo)
  | loadComplete (t : TileNo) (c : CtxNo) (n k : Nat)
  | storePerformed (t : TileNo) (c : CtxNo) (n k : Nat)
  | mflushDone (t : TileNo) (c : CtxNo) (n : Nat)
  | hloadComplete (t : TileNo) (c : CtxNo) (n : Nat)
  | qputPost (t : TileNo) (c : CtxNo) (n : Nat)
  | qputReply (t : TileNo) (c : CtxNo) (n : Nat)
  | amoRequest (t : TileNo) (c : CtxNo) (n : Nat)
  | amoGrant (t : TileNo) (c : CtxNo) (n : Nat)
  | amoRelease (t : TileNo) (c : CtxNo) (n : Nat)
  | amoAck (t : TileNo) (c : CtxNo) (n : Nat)
  | leaseExpiry (t : TileNo) (c : CtxNo)
  | wrsStoTimeout (t : TileNo) (c : CtxNo)
  | cwaitPoll (t : TileNo) (c : CtxNo)
  | lateRefusal (t : TileNo) (c : CtxNo) (n : Nat)
  | trapEntry (t : TileNo)
  | loomTimeCompare (t : TileNo)
  | preemptOrder (t : TileNo) (launch : BitVec 2) (buf : Word) (resume : Bool)
  | uncorrectableError (site : EccSite)
  | correctedError (t : TileNo)
  | matrixOpStart (t : TileNo)
  | matrixOpComplete (t : TileNo)
  | cardSchedule (t : TileNo) (j : BitVec 16)
  | engineAccept (t : TileNo) (j : BitVec 16) (e : BitVec 5) (p : Word)
  | cardCompletion (t : TileNo) (j : BitVec 16) (k : CardRun)
  | cardStop (t : TileNo) (j : BitVec 16)
  | xcopymFollowOn (t : TileNo) (j : BitVec 16)
  | trigFire (t : TileNo) (j : BitVec 16)
  | jobPromiseMissed (t : TileNo) (c : CtxNo)
  | jobctlSelect (t : TileNo) (c : CtxNo) (n : Nat)
  | jobctlResume (t : TileNo) (c : CtxNo) (n : Nat) (p : Word)
  | jobctlAbort (t : TileNo) (c : CtxNo) (n : Nat)
  | reqctlReplay (t : TileNo) (c : CtxNo) (n : Nat)
  | reqctlDrop (t : TileNo) (c : CtxNo) (n : Nat)
  | stopctlStop (t : TileNo) (c : CtxNo) (n : Nat)
  | stopctlRelease (t : TileNo) (c : CtxNo) (n : Nat)
  | drainComplete (t : TileNo)
  | pres (t : TileNo) (c : CtxNo) (n : Nat)
  | phold (t : TileNo) (en : Bool) (p : BitVec 60)
  | pexcuse (t : TileNo) (c : CtxNo) (n : Nat)
  | pickUpdate (n : Nat)
  | pickStall (t : TileNo) (c : CtxNo)
  | preadRequest (t : TileNo) (c : CtxNo) (n : Nat)
  | preadReply (t : TileNo) (c : CtxNo) (n : Nat)
  | shuttle (n : Nat)
  | shuttleRefusal (n : Nat)
  | shuttleResend (t : TileNo) (c : CtxNo)
  | chunkArrival (p : PacketRef)
  | chunkAck (p : PacketRef)
  | reduceCompletionNotice (p : PacketRef)
  | hopTimeout (t : TileNo) (e : BitVec 6) (k : Nat)
  | altRequest (p : PacketRef)
  | collectiveFailure (t : TileNo) (e : BitVec 6)
  | tableWalk (t : TileNo) (q : QueueNo) (va : Word)
  | queueMapping (q : QueueNo)
  | commandStart (q : QueueNo)
  | commandComplete (q : QueueNo)
  | launch (q : QueueNo)
  | launchPlacementRetry (q : QueueNo)
  | startMessage (n : Nat)
  | wait (q : QueueNo)
  | waitEvaluate (q : QueueNo)
  | waitTimeout (q : QueueNo)
  | signal (q : QueueNo)
  | timed (q : QueueNo)
  | timedExpiry (q : QueueNo)
  | notbeforeExpiry (q : QueueNo)
  | flush (q : QueueNo)
  | inv (q : QueueNo)
  | fenceCommand (q : QueueNo)
  | copy (q : QueueNo)
  | tlbinv (q : QueueNo)
  | registerWrite (r : RegWrite)
  | hostAtomicop (op : HostAtomic) (pa : BitVec 40) (tbit : Bool)
  | linkReplay (e : FlitError)
  | auditSend (port : BitVec 4)
  | bufferEviction (line : Nat)
  | notifyWrite (q : QueueNo)
  | hostBar2Access (acc : HostAccess) (pa : BitVec 40) (tbit : Bool)
  | hostFlagWindowAccess (acc : HostAccess) (off : BitVec 22) (tbit : Bool)
  | pkgerrClear (v : Word) (tbit : Bool)
  | monloadGo (v : Word) (tbit : Bool)
  | pwrctlWrite (v : Word) (tbit : Bool)
  | thermalMeasurement (tmax : BitVec 8)
  | packageReset (img : BootInput)
  | getMeasurements (idx : BitVec 8)
  | linkTraining (port : BitVec 4) (ok : Bool) (delay : BitVec 16)
  | linkRetrain (port : BitVec 4) (ok : Bool)
  | auditFlit (port : BitVec 4) (sent credits : BitVec 32) (m : AuditMsg)
  | creditCounterParityError (port : BitVec 4)
  | fenceTso
  | pause
  | fenceI
  | ecall
  | ebreak
  | wrsNto
  | wrsSto
  | padv
  | pjoin
  | pleave
  | texit
  | bara
  | tret
  | fetchOutsideTheIstore
  | queueScheduleTick
  | standbyEntry
  | lockInterface
  | startInterface
  | stopInterface
  | ideIntegrityFailure
  | keyExchange
deriving DecidableEq, Repr

end Sys2Proof
end

