-- ==== Sys2Proof/WellFormed.lean ====
section
/-! DEFINITION. Which instructions are well formed: the ones that a word of R39 to R63 encodes. -/

namespace Sys2Proof

/-- INT: the types 0 to 5 (R51). -/
def Ty.isInt : Ty → Bool
  | .i8 | .n8 | .i16 | .n16 | .i32 | .n32 => true
  | _ => false

/-- SINT: I8, I16 and I32 (R51). -/
def Ty.isSint : Ty → Bool
  | .i8 | .i16 | .i32 => true
  | _ => false

/-- FP: FP16, BF16 and FP32 (R51). -/
def Ty.isFp : Ty → Bool
  | .f16 | .bf16 | .f32 => true
  | _ => false

/-- VRED add, min and max accept INT and FP; the others INT only (R51). -/
def RedOp.isArith : RedOp → Bool
  | .add | .min | .max => true
  | _ => false

/-- The predicates that accept INT types (R51). -/
def Pred.isOrder : Pred → Bool
  | .un | .or => false
  | _ => true

/-- A pair base is even (R47). -/
def isPair (x : BitVec 5) : Bool := x.toNat % 2 == 0
/-- A triple base is even and at most 28 (R47). -/
def isTriple (x : BitVec 5) : Bool := x.toNat % 2 == 0 && x.toNat ≤ 28
/-- A double-pair base is a multiple of 4 (R47). -/
def isDouble (x : BitVec 5) : Bool := x.toNat % 4 == 0

/-- Whether some word encodes the instruction. A step without an encoding has no condition. -/
def Instr.wf : Instr → Bool
  | .fence pred succ => !(pred == 1 && succ == 0)
  | .vadd ty _ _ _ _ => (ty.isInt || ty.isFp)
  | .vsub ty _ _ _ _ => (ty.isInt || ty.isFp)
  | .vmul ty _ _ _ _ => (ty.isInt || ty.isFp)
  | .vfma ty _ _ _ _ => (ty.isInt || ty.isFp)
  | .vmin ty _ _ _ _ => (ty.isInt || ty.isFp)
  | .vmax ty _ _ _ _ => (ty.isInt || ty.isFp)
  | .vabs ty _ _ _ => (ty.isSint || ty.isFp)
  | .vneg ty _ _ _ => (ty.isSint || ty.isFp)
  | .vclamp ty _ _ _ _ => (ty.isInt || ty.isFp)
  | .vand ty _ _ _ _ => ty.isInt
  | .vor ty _ _ _ _ => ty.isInt
  | .vxor ty _ _ _ _ => ty.isInt
  | .vshl ty _ _ _ _ => ty.isInt
  | .vshr ty _ _ _ _ => ty.isInt
  | .vred ty _ _ rop _ => (ty.isInt || (ty.isFp && rop.isArith))
  | .vdiv ty _ _ _ _ => ty.isFp
  | .vsqrt ty _ _ _ => ty.isFp
  | .vexp2 ty _ _ _ => ty.isFp
  | .vlog2 ty _ _ _ => ty.isFp
  | .vrsqrt ty _ _ _ => ty.isFp
  | .vcmp pred ty _ _ _ _ _ => (ty.isFp || (ty.isInt && pred.isOrder))
  | .mzero _ xs1 xs2 => isPair xs1 && isPair xs2
  | .mma _ xs1 xs2 => isPair xs1 && isPair xs2
  | .mmav _ xs1 => isPair xs1
  | .mmas _ xs1 xs2 => isTriple xs1 && isPair xs2
  | .mread _ xs1 => isPair xs1
  | .mwrite _ xs1 => isPair xs1
  | .fold _ xs1 xs2 _ => isPair xs1 && isPair xs2
  | .scan _ xs1 xs2 _ => isPair xs1 && isPair xs2
  | .zip _ xs1 xs2 _ => isDouble xs1 && isPair xs2
  | .outer _ xs1 xs2 _ => isDouble xs1 && isPair xs2
  | .xcopy _ xs1 xs2 => isPair xs1 && isPair xs2
  | .xfill _ _ xs2 => isPair xs2
  | .wenc _ xs1 xs2 => isPair xs1 && isPair xs2
  | .xcopym _ xs1 xs2 _ => isPair xs1 && isPair xs2
  | .trig _ xs1 xs2 _ => isPair xs1 && isPair xs2
  | .lui _ _ => true
  | .auipc _ _ => true
  | .jal _ _ => true
  | .jalr _ _ _ => true
  | .beq _ _ _ => true
  | .bne _ _ _ => true
  | .blt _ _ _ => true
  | .bge _ _ _ => true
  | .bltu _ _ _ => true
  | .bgeu _ _ _ => true
  | .lb _ _ _ => true
  | .lh _ _ _ => true
  | .lw _ _ _ => true
  | .ld _ _ _ => true
  | .lbu _ _ _ => true
  | .lhu _ _ _ => true
  | .lwu _ _ _ => true
  | .sb _ _ _ => true
  | .sh _ _ _ => true
  | .sw _ _ _ => true
  | .sd _ _ _ => true
  | .addi _ _ _ => true
  | .slti _ _ _ => true
  | .sltiu _ _ _ => true
  | .xori _ _ _ => true
  | .ori _ _ _ => true
  | .andi _ _ _ => true
  | .slli _ _ _ => true
  | .srli _ _ _ => true
  | .srai _ _ _ => true
  | .add _ _ _ => true
  | .sub _ _ _ => true
  | .sll _ _ _ => true
  | .slt _ _ _ => true
  | .sltu _ _ _ => true
  | .xor _ _ _ => true
  | .srl _ _ _ => true
  | .sra _ _ _ => true
  | .or _ _ _ => true
  | .and _ _ _ => true
  | .mul _ _ _ => true
  | .mulh _ _ _ => true
  | .mulhsu _ _ _ => true
  | .mulhu _ _ _ => true
  | .div _ _ _ => true
  | .divu _ _ _ => true
  | .rem _ _ _ => true
  | .remu _ _ _ => true
  | .lr _ _ _ _ _ => true
  | .sc _ _ _ _ _ _ => true
  | .amoswap _ _ _ _ _ _ => true
  | .amoadd _ _ _ _ _ _ => true
  | .amoxor _ _ _ _ _ _ => true
  | .amoand _ _ _ _ _ _ => true
  | .amoor _ _ _ _ _ _ => true
  | .amomin _ _ _ _ _ _ => true
  | .amomax _ _ _ _ _ _ => true
  | .amominu _ _ _ _ _ _ => true
  | .amomaxu _ _ _ _ _ _ => true
  | .fenceTso => true
  | .pause => true
  | .fenceI => true
  | .ecall => true
  | .ebreak => true
  | .wrsNto => true
  | .wrsSto => true
  | .csrrw _ _ _ => true
  | .csrrs _ _ _ => true
  | .csrrc _ _ _ => true
  | .csrrwi _ _ _ => true
  | .csrrsi _ _ _ => true
  | .csrrci _ _ _ => true
  | .vslide _ _ _ _ _ => true
  | .vsel _ _ _ _ _ => true
  | .vcvt _ _ _ _ _ => true
  | .vperm _ _ _ _ _ => true
  | .vbcast _ _ _ _ => true
  | .vext _ _ _ => true
  | .vins _ _ _ => true
  | .kmovx _ _ => true
  | .kmovk _ _ _ => true
  | .kpop _ _ _ => true
  | .kop _ _ _ _ _ => true
  | .vld _ _ _ _ => true
  | .vldsB _ _ _ _ => true
  | .vldsH _ _ _ _ => true
  | .vldsW _ _ _ _ => true
  | .vldxB _ _ _ _ => true
  | .vldxH _ _ _ _ => true
  | .vldxW _ _ _ _ => true
  | .vst _ _ _ _ => true
  | .vstsB _ _ _ _ => true
  | .vstsH _ _ _ _ => true
  | .vstsW _ _ _ _ => true
  | .vstxB _ _ _ _ => true
  | .vstxH _ _ _ _ => true
  | .vstxW _ _ _ _ => true
  | .tidset _ _ => true
  | .tidget _ _ _ => true
  | .xop _ _ _ _ _ _ => true
  | .jtime _ _ => true
  | .jwait _ => true
  | .ttset _ _ => true
  | .tready _ => true
  | .tstat _ _ => true
  | .cwait _ _ => true
  | .padv => true
  | .pread _ _ _ => true
  | .pjoin => true
  | .pleave => true
  | .hop _ => true
  | .give _ _ => true
  | .qput _ _ _ => true
  | .qputw _ _ _ => true
  | .qsig _ _ => true
  | .waitc _ _ _ _ => true
  | .tspawn _ _ _ => true
  | .treap _ _ => true
  | .tkill _ => true
  | .texit => true
  | .tslot _ _ => true
  | .tsleep _ => true
  | .barreg _ _ => true
  | .bara => true
  | .mflush _ _ => true
  | .minv _ _ => true
  | .amodr _ _ _ _ => true
  | .hload _ _ => true
  | .hdrop _ => true
  | .xopx _ _ _ _ => true
  | .tret => true
  | .fencex _ _ _ => true
  | .illegalInstruction _ => true
  | .fetchOutsideTheIstore => true
  | .rotationBoundary _ => true
  | .parkWake _ _ => true
  | .parkWatchdog _ _ => true
  | .delivery _ _ _ => true
  | .inboxLand _ _ => true
  | .registerWindowWrite _ _ _ => true
  | .heldResume _ _ _ => true
  | .endingToFree _ _ => true
  | .loadComplete _ _ _ _ => true
  | .storePerformed _ _ _ _ => true
  | .mflushDone _ _ _ => true
  | .hloadComplete _ _ _ => true
  | .qputPost _ _ _ => true
  | .qputReply _ _ _ => true
  | .amoRequest _ _ _ => true
  | .amoGrant _ _ _ => true
  | .amoRelease _ _ _ => true
  | .amoAck _ _ _ => true
  | .leaseExpiry _ _ => true
  | .wrsStoTimeout _ _ => true
  | .cwaitPoll _ _ => true
  | .hostAtomicop _ _ _ => true
  | .lateRefusal _ _ _ => true
  | .trapEntry _ => true
  | .loomTimeCompare _ => true
  | .preemptOrder _ _ _ _ => true
  | .uncorrectableError _ => true
  | .correctedError _ => true
  | .matrixOpStart _ => true
  | .matrixOpComplete _ => true
  | .cardSchedule _ _ => true
  | .engineAccept _ _ _ _ => true
  | .cardCompletion _ _ _ => true
  | .cardStop _ _ => true
  | .xcopymFollowOn _ _ => true
  | .trigFire _ _ => true
  | .jobPromiseMissed _ _ => true
  | .jobctlSelect _ _ _ => true
  | .jobctlResume _ _ _ _ => true
  | .jobctlAbort _ _ _ => true
  | .reqctlReplay _ _ _ => true
  | .reqctlDrop _ _ _ => true
  | .stopctlStop _ _ _ => true
  | .stopctlRelease _ _ _ => true
  | .drainComplete _ => true
  | .pres _ _ _ => true
  | .phold _ _ _ => true
  | .pexcuse _ _ _ => true
  | .pickUpdate _ => true
  | .pickStall _ _ => true
  | .preadRequest _ _ _ => true
  | .preadReply _ _ _ => true
  | .shuttle _ => true
  | .shuttleRefusal _ => true
  | .shuttleResend _ _ => true
  | .chunkArrival _ => true
  | .chunkAck _ => true
  | .reduceCompletionNotice _ => true
  | .hopTimeout _ _ _ => true
  | .altRequest _ => true
  | .collectiveFailure _ _ => true
  | .linkReplay _ => true
  | .auditSend _ => true
  | .tableWalk _ _ _ => true
  | .bufferEviction _ => true
  | .notifyWrite _ => true
  | .queueMapping _ => true
  | .queueScheduleTick => true
  | .commandStart _ => true
  | .commandComplete _ => true
  | .launch _ => true
  | .launchPlacementRetry _ => true
  | .startMessage _ => true
  | .wait _ => true
  | .waitEvaluate _ => true
  | .waitTimeout _ => true
  | .signal _ => true
  | .timed _ => true
  | .timedExpiry _ => true
  | .notbeforeExpiry _ => true
  | .flush _ => true
  | .inv _ => true
  | .fenceCommand _ => true
  | .copy _ => true
  | .tlbinv _ => true
  | .hostBar2Access _ _ _ => true
  | .hostFlagWindowAccess _ _ _ => true
  | .registerWrite _ => true
  | .pkgerrClear _ _ => true
  | .monloadGo _ _ => true
  | .pwrctlWrite _ _ => true
  | .standbyEntry => true
  | .thermalMeasurement _ => true
  | .packageReset _ => true
  | .lockInterface => true
  | .startInterface => true
  | .stopInterface => true
  | .ideIntegrityFailure => true
  | .getMeasurements _ => true
  | .keyExchange => true
  | .linkTraining _ _ _ => true
  | .linkRetrain _ _ => true
  | .auditFlit _ _ _ _ => true
  | .creditCounterParityError _ => true

/-- Well-formedness as a proposition. -/
abbrev Instr.WellFormed (i : Instr) : Prop := i.wf = true

end Sys2Proof
end

