-- ==== Sys2Proof/Decode.lean ====
section
/-! DEFINITION. The decoder, total on every word and rejecting by name (R39 to R64), and the encoder written from
the same layouts. -/

namespace Sys2Proof

/-- Why a word, or a byte string, is no instruction. Every word is refused with cause 0x01 (R64). -/
inductive Reject where
  /-- fewer than four bytes are left -/
  | tooShort
  /-- bits [1:0] are not 0b11 (R39) -/
  | lowBits
  /-- a reserved major opcode (R41) -/
  | reservedOpcode
  /-- a funct3, funct7, funct5, funct2, fn4 or immediate value that no row assigns (R43 to R63) -/
  | unassigned
  /-- a field marked "—" is not zero (R47) -/
  | mustBeZero
  /-- a type code the operation does not accept (R51, R52) -/
  | badType
  /-- a width, operation or scope code without a meaning (R52, R54, R63) -/
  | badCode
  /-- a pair, triple or double-pair base of the wrong alignment (R47) -/
  | badBase
deriving DecidableEq, Repr

/-! ### Codes of the operand fields -/

/-- The type code (R30, R67, R69). -/
def Ty.code : Ty → BitVec 4
  | .i8 => 0 | .n8 => 1 | .i16 => 2 | .n16 => 3 | .i32 => 4 | .n32 => 5
  | .f16 => 6 | .bf16 => 7 | .f32 => 8 | .e4 => 9 | .e5 => 10

/-- The type of a code; 11 to 15 name none (R51). -/
def Ty.ofCode (c : BitVec 4) : Option Ty :=
  match c.toNat with
  | 0 => some .i8 | 1 => some .n8 | 2 => some .i16 | 3 => some .n16 | 4 => some .i32 | 5 => some .n32
  | 6 => some .f16 | 7 => some .bf16 | 8 => some .f32 | 9 => some .e4 | 10 => some .e5
  | _ => none

/-- The low three bits of the fn of a VCMP predicate (R50). -/
def Pred.code : Pred → BitVec 3
  | .eq => 0 | .ne => 1 | .lt => 2 | .le => 3 | .gt => 4 | .ge => 5 | .un => 6 | .or => 7

/-- The predicate of a VCMP fn (R50). -/
def Pred.ofCode (c : BitVec 3) : Pred :=
  match c.toNat with
  | 0 => .eq | 1 => .ne | 2 => .lt | 3 => .le | 4 => .gt | 5 => .ge | 6 => .un | _ => .or

/-- The operation codes of VRED (R52). -/
def RedOp.code : RedOp → BitVec 4
  | .add => 0 | .min => 1 | .max => 2 | .and => 3 | .or => 4 | .xor => 5

/-- The operation of a VRED code; 6 to 15 name none (R52). -/
def RedOp.ofCode (c : BitVec 4) : Option RedOp :=
  match c.toNat with
  | 0 => some .add | 1 => some .min | 2 => some .max | 3 => some .and | 4 => some .or | 5 => some .xor
  | _ => none

/-- The operation codes of KOP (R362). -/
def KOp.code : KOp → BitVec 2
  | .and => 0 | .or => 1 | .xor => 2 | .andn => 3

/-- The operation of a KOP code (R362). -/
def KOp.ofCode (c : BitVec 2) : KOp :=
  match c.toNat with
  | 0 => .and | 1 => .or | 2 => .xor | _ => .andn

/-- The width codes of VBCAST (R404). -/
def Width.code : Width → BitVec 2
  | .b => 0 | .h => 1 | .w => 2 | .d => 3

/-- The width of a code (R404). -/
def Width.ofCode (c : BitVec 2) : Width :=
  match c.toNat with
  | 0 => .b | 1 => .h | 2 => .w | _ => .d

/-- The scope codes (R63). -/
def Scope.code : Scope → BitVec 4
  | .thread => 0 | .tile => 1 | .region => 2 | .die => 3 | .package => 4 | .system => 5

/-- The scope of a code; 6 to 15 name none (R63). -/
def Scope.ofCode (c : BitVec 4) : Option Scope :=
  match c.toNat with
  | 0 => some .thread | 1 => some .tile | 2 => some .region | 3 => some .die | 4 => some .package
  | 5 => some .system | _ => none

/-! ### Layouts: the words of each format -/

/-- R layout (R42). -/
def encR (f7 : BitVec 7) (b a : BitVec 5) (f3 : BitVec 3) (d : BitVec 5) (op : BitVec 7) : InstWord :=
  f7 ++ b ++ a ++ f3 ++ d ++ op
/-- I layout (R42). -/
def encI (imm : BitVec 12) (a : BitVec 5) (f3 : BitVec 3) (d : BitVec 5) (op : BitVec 7) : InstWord :=
  imm ++ a ++ f3 ++ d ++ op
/-- S layout of the store opcode (R42, R385). -/
def encS (imm : BitVec 12) (b a : BitVec 5) (f3 : BitVec 3) : InstWord :=
  imm.extractLsb' 5 7 ++ b ++ a ++ f3 ++ imm.extractLsb' 0 5 ++ 0x23#7
/-- B layout of the branch opcode; `imm` holds imm[12:1] (R42, R339). -/
def encB (imm : BitVec 12) (b a : BitVec 5) (f3 : BitVec 3) : InstWord :=
  imm.extractLsb' 11 1 ++ imm.extractLsb' 4 6 ++ b ++ a ++ f3 ++ imm.extractLsb' 0 4 ++ imm.extractLsb' 10 1 ++ 0x63#7
/-- U layout (R42). -/
def encU (imm : BitVec 20) (d : BitVec 5) (op : BitVec 7) : InstWord := imm ++ d ++ op
/-- J layout of JAL; `imm` holds imm[20:1] (R42, R358). -/
def encJ (imm : BitVec 20) (d : BitVec 5) : InstWord :=
  imm.extractLsb' 19 1 ++ imm.extractLsb' 0 10 ++ imm.extractLsb' 10 1 ++ imm.extractLsb' 11 8 ++ d ++ 0x6F#7
/-- AMO layout (R43, R44); `w` is bit 12, 0 for .W and 1 for .D. -/
def encA (f5 : BitVec 5) (aq rl : BitVec 1) (b a : BitVec 5) (w : BitVec 1) (d : BitVec 5) : InstWord :=
  f5 ++ aq ++ rl ++ b ++ a ++ 0b01#2 ++ w ++ d ++ 0x2F#7
/-- Format V (R49). -/
def encV (fn : BitVec 5) (ty b a : BitVec 4) (g : Guard) (d : BitVec 4) : InstWord :=
  fn ++ ty ++ b ++ a ++ g.kg ++ g.gn ++ d ++ 0x0B#7
/-- Formats VX and VM (R54). -/
def encVX (fn : BitVec 4) (g : Guard) (f5 a : BitVec 5) (f3 : BitVec 3) (v : BitVec 4) : InstWord :=
  fn ++ g.kg ++ f5 ++ a ++ f3 ++ g.gn ++ v ++ 0x2B#7
/-- Format Q (R57, R60). -/
def encQ (c : BitVec 5) (f2 : BitVec 2) (b a : BitVec 5) (f3 : BitVec 3) (d : BitVec 5) (op : BitVec 7) : InstWord :=
  c ++ f2 ++ b ++ a ++ f3 ++ d ++ op
/-- Format VH (R58). -/
def encVH (vi : BitVec 1) (slot : BitVec 3) (g : Guard) (b a d : BitVec 4) : InstWord :=
  0#2 ++ vi ++ slot ++ g.kg ++ b ++ a ++ 0b100#3 ++ g.gn ++ d ++ 0x2B#7
/-- Format W (R61). -/
def encW (mx cp st ld : BitVec 5) : InstWord := 0#2 ++ mx ++ cp ++ st ++ 0b111#3 ++ ld ++ 0x5B#7

/-- The word of an instruction, none for a step without an encoding. -/
def encode : Instr → Option InstWord
  | .lui xd imm => some (encU imm xd 0x37)
  | .auipc xd imm => some (encU imm xd 0x17)
  | .jal xd imm => some (encJ imm xd)
  | .jalr xd xs1 imm => some (encI imm xs1 0 xd 0x67)
  | .beq xs1 xs2 imm => some (encB imm xs2 xs1 0)
  | .bne xs1 xs2 imm => some (encB imm xs2 xs1 1)
  | .blt xs1 xs2 imm => some (encB imm xs2 xs1 4)
  | .bge xs1 xs2 imm => some (encB imm xs2 xs1 5)
  | .bltu xs1 xs2 imm => some (encB imm xs2 xs1 6)
  | .bgeu xs1 xs2 imm => some (encB imm xs2 xs1 7)
  | .lb xd xs1 imm => some (encI imm xs1 0 xd 0x03)
  | .lh xd xs1 imm => some (encI imm xs1 1 xd 0x03)
  | .lw xd xs1 imm => some (encI imm xs1 2 xd 0x03)
  | .ld xd xs1 imm => some (encI imm xs1 3 xd 0x03)
  | .lbu xd xs1 imm => some (encI imm xs1 4 xd 0x03)
  | .lhu xd xs1 imm => some (encI imm xs1 5 xd 0x03)
  | .lwu xd xs1 imm => some (encI imm xs1 6 xd 0x03)
  | .sb xs2 xs1 imm => some (encS imm xs2 xs1 0)
  | .sh xs2 xs1 imm => some (encS imm xs2 xs1 1)
  | .sw xs2 xs1 imm => some (encS imm xs2 xs1 2)
  | .sd xs2 xs1 imm => some (encS imm xs2 xs1 3)
  | .addi xd xs1 imm => some (encI imm xs1 0 xd 0x13)
  | .slti xd xs1 imm => some (encI imm xs1 2 xd 0x13)
  | .sltiu xd xs1 imm => some (encI imm xs1 3 xd 0x13)
  | .xori xd xs1 imm => some (encI imm xs1 4 xd 0x13)
  | .ori xd xs1 imm => some (encI imm xs1 6 xd 0x13)
  | .andi xd xs1 imm => some (encI imm xs1 7 xd 0x13)
  | .slli xd xs1 sh => some (encI (0#6 ++ sh) xs1 1 xd 0x13)
  | .srli xd xs1 sh => some (encI (0#6 ++ sh) xs1 5 xd 0x13)
  | .srai xd xs1 sh => some (encI (16#6 ++ sh) xs1 5 xd 0x13)
  | .add xd xs1 xs2 => some (encR 0 xs2 xs1 0 xd 0x33)
  | .sub xd xs1 xs2 => some (encR 32 xs2 xs1 0 xd 0x33)
  | .sll xd xs1 xs2 => some (encR 0 xs2 xs1 1 xd 0x33)
  | .slt xd xs1 xs2 => some (encR 0 xs2 xs1 2 xd 0x33)
  | .sltu xd xs1 xs2 => some (encR 0 xs2 xs1 3 xd 0x33)
  | .xor xd xs1 xs2 => some (encR 0 xs2 xs1 4 xd 0x33)
  | .srl xd xs1 xs2 => some (encR 0 xs2 xs1 5 xd 0x33)
  | .sra xd xs1 xs2 => some (encR 32 xs2 xs1 5 xd 0x33)
  | .or xd xs1 xs2 => some (encR 0 xs2 xs1 6 xd 0x33)
  | .and xd xs1 xs2 => some (encR 0 xs2 xs1 7 xd 0x33)
  | .mul xd xs1 xs2 => some (encR 1 xs2 xs1 0 xd 0x33)
  | .mulh xd xs1 xs2 => some (encR 1 xs2 xs1 1 xd 0x33)
  | .mulhsu xd xs1 xs2 => some (encR 1 xs2 xs1 2 xd 0x33)
  | .mulhu xd xs1 xs2 => some (encR 1 xs2 xs1 3 xd 0x33)
  | .div xd xs1 xs2 => some (encR 1 xs2 xs1 4 xd 0x33)
  | .divu xd xs1 xs2 => some (encR 1 xs2 xs1 5 xd 0x33)
  | .rem xd xs1 xs2 => some (encR 1 xs2 xs1 6 xd 0x33)
  | .remu xd xs1 xs2 => some (encR 1 xs2 xs1 7 xd 0x33)
  | .lr xd xs1 w aq rl => some (encA 0b00010 aq rl 0 xs1 w xd)
  | .sc xd xs1 xs2 w aq rl => some (encA 3 aq rl xs2 xs1 w xd)
  | .amoswap xd xs1 xs2 w aq rl => some (encA 1 aq rl xs2 xs1 w xd)
  | .amoadd xd xs1 xs2 w aq rl => some (encA 0 aq rl xs2 xs1 w xd)
  | .amoxor xd xs1 xs2 w aq rl => some (encA 4 aq rl xs2 xs1 w xd)
  | .amoand xd xs1 xs2 w aq rl => some (encA 12 aq rl xs2 xs1 w xd)
  | .amoor xd xs1 xs2 w aq rl => some (encA 8 aq rl xs2 xs1 w xd)
  | .amomin xd xs1 xs2 w aq rl => some (encA 16 aq rl xs2 xs1 w xd)
  | .amomax xd xs1 xs2 w aq rl => some (encA 20 aq rl xs2 xs1 w xd)
  | .amominu xd xs1 xs2 w aq rl => some (encA 24 aq rl xs2 xs1 w xd)
  | .amomaxu xd xs1 xs2 w aq rl => some (encA 28 aq rl xs2 xs1 w xd)
  | .fence pred succ => some (encI (0#4 ++ pred ++ succ) 0 0 0 0x0F)
  | .fenceTso => some (encI 0x833 0 0 0 0x0F)
  | .pause => some (encI 0x010 0 0 0 0x0F)
  | .fenceI => some (encI 0 0 1 0 0x0F)
  | .ecall => some (encI 0 0 0 0 0x73)
  | .ebreak => some (encI 1 0 0 0 0x73)
  | .wrsNto => some (encI 0x00D 0 0 0 0x73)
  | .wrsSto => some (encI 0x01D 0 0 0 0x73)
  | .csrrw xd csr xs1 => some (encI csr xs1 1 xd 0x73)
  | .csrrs xd csr xs1 => some (encI csr xs1 2 xd 0x73)
  | .csrrc xd csr xs1 => some (encI csr xs1 3 xd 0x73)
  | .csrrwi xd csr uimm => some (encI csr uimm 5 xd 0x73)
  | .csrrsi xd csr uimm => some (encI csr uimm 6 xd 0x73)
  | .csrrci xd csr uimm => some (encI csr uimm 7 xd 0x73)
  | .vadd ty vd vs1 vs2 g => some (encV 0 ty.code vs2 vs1 g vd)
  | .vsub ty vd vs1 vs2 g => some (encV 1 ty.code vs2 vs1 g vd)
  | .vmul ty vd vs1 vs2 g => some (encV 2 ty.code vs2 vs1 g vd)
  | .vfma ty vd vs1 vs2 g => some (encV 3 ty.code vs2 vs1 g vd)
  | .vmin ty vd vs1 vs2 g => some (encV 4 ty.code vs2 vs1 g vd)
  | .vmax ty vd vs1 vs2 g => some (encV 5 ty.code vs2 vs1 g vd)
  | .vabs ty vd vs1 g => some (encV 6 ty.code 0 vs1 g vd)
  | .vneg ty vd vs1 g => some (encV 7 ty.code 0 vs1 g vd)
  | .vclamp ty vd vs1 vs2 g => some (encV 8 ty.code vs2 vs1 g vd)
  | .vand ty vd vs1 vs2 g => some (encV 9 ty.code vs2 vs1 g vd)
  | .vor ty vd vs1 vs2 g => some (encV 10 ty.code vs2 vs1 g vd)
  | .vxor ty vd vs1 vs2 g => some (encV 11 ty.code vs2 vs1 g vd)
  | .vshl ty vd vs1 vs2 g => some (encV 12 ty.code vs2 vs1 g vd)
  | .vshr ty vd vs1 vs2 g => some (encV 13 ty.code vs2 vs1 g vd)
  | .vslide ty vd vs1 n g => some (encV 14 ty.code n vs1 g vd)
  | .vsel ty vd vs1 vs2 g => some (encV 15 ty.code vs2 vs1 g vd)
  | .vcvt ty dt vd vs1 g => some (encV 16 ty.code dt.code vs1 g vd)
  | .vred ty vd vs1 rop g => some (encV 17 ty.code rop.code vs1 g vd)
  | .vperm ty vd vs1 vs2 g => some (encV 18 ty.code vs2 vs1 g vd)
  | .vdiv ty vd vs1 vs2 g => some (encV 19 ty.code vs2 vs1 g vd)
  | .vsqrt ty vd vs1 g => some (encV 20 ty.code 0 vs1 g vd)
  | .vexp2 ty vd vs1 g => some (encV 21 ty.code 0 vs1 g vd)
  | .vlog2 ty vd vs1 g => some (encV 22 ty.code 0 vs1 g vd)
  | .vrsqrt ty vd vs1 g => some (encV 23 ty.code 0 vs1 g vd)
  | .vcmp pred ty kd dual vs1 vs2 g => some (encV (0b11#2 ++ pred.code) ty.code vs2 vs1 g (dual ++ kd))
  | .vbcast wd vd xs1 g => some (encVX 0 g (0#3 ++ wd.code) xs1 0 vd)
  | .vext xd vs1 xs1 => some (encVX 1 Guard.none xd xs1 0 vs1)
  | .vins vd xs1 xs2 => some (encVX 2 Guard.none xs2 xs1 0 vd)
  | .kmovx xd ks => some (encVX 3 Guard.none xd 0 0 (0#1 ++ ks))
  | .kmovk kd xs1 g => some (encVX 4 g 0 xs1 0 (0#1 ++ kd))
  | .kpop xd ks g => some (encVX 5 g xd 0 0 (0#1 ++ ks))
  | .kop op kd ka kb g => some (encVX 6 g (0#2 ++ kb) (op.code ++ ka) 0 (0#1 ++ kd))
  | .vld vd xs1 off g => some (encVX 0 g off xs1 1 vd)
  | .vldsB vd xs1 xs2 g => some (encVX 1 g xs2 xs1 1 vd)
  | .vldsH vd xs1 xs2 g => some (encVX 2 g xs2 xs1 1 vd)
  | .vldsW vd xs1 xs2 g => some (encVX 3 g xs2 xs1 1 vd)
  | .vldxB vd xs1 vs2 g => some (encVX 4 g (0#1 ++ vs2) xs1 1 vd)
  | .vldxH vd xs1 vs2 g => some (encVX 5 g (0#1 ++ vs2) xs1 1 vd)
  | .vldxW vd xs1 vs2 g => some (encVX 6 g (0#1 ++ vs2) xs1 1 vd)
  | .vst vs xs1 off g => some (encVX 8 g off xs1 1 vs)
  | .vstsB vs xs1 xs2 g => some (encVX 9 g xs2 xs1 1 vs)
  | .vstsH vs xs1 xs2 g => some (encVX 10 g xs2 xs1 1 vs)
  | .vstsW vs xs1 xs2 g => some (encVX 11 g xs2 xs1 1 vs)
  | .vstxB vs xs1 vs2 g => some (encVX 12 g (0#1 ++ vs2) xs1 1 vs)
  | .vstxH vs xs1 vs2 g => some (encVX 13 g (0#1 ++ vs2) xs1 1 vs)
  | .vstxW vs xs1 vs2 g => some (encVX 14 g (0#1 ++ vs2) xs1 1 vs)
  | .tidset xs1 xs2 => some (encR 0 xs2 xs1 2 0 0x2B)
  | .tidget xd xs1 xs2 => some (encR 1 xs2 xs1 2 xd 0x2B)
  | .mzero m xs1 xs2 => some (encR 2 xs2 xs1 2 (0#3 ++ m) 0x2B)
  | .mma m xs1 xs2 => some (encR 3 xs2 xs1 2 (0#3 ++ m) 0x2B)
  | .mmav m xs1 => some (encR 4 0 xs1 2 (0#3 ++ m) 0x2B)
  | .mmas m xs1 xs2 => some (encR 5 xs2 xs1 2 (0#3 ++ m) 0x2B)
  | .mread m xs1 => some (encR 6 0 xs1 2 (0#3 ++ m) 0x2B)
  | .mwrite m xs1 => some (encR 7 0 xs1 2 (0#3 ++ m) 0x2B)
  | .fold xd xs1 xs2 xs3 => some (encQ xs3 0 xs2 xs1 3 xd 0x2B)
  | .scan xd xs1 xs2 xs3 => some (encQ xs3 1 xs2 xs1 3 xd 0x2B)
  | .zip xd xs1 xs2 xs3 => some (encQ xs3 2 xs2 xs1 3 xd 0x2B)
  | .outer xd xs1 xs2 xs3 => some (encQ xs3 3 xs2 xs1 3 xd 0x2B)
  | .xop vi slot vd vs1 vs2 g => some (encVH vi slot g vs2 vs1 vd)
  | .xcopy xd xs1 xs2 => some (encR 0 xs2 xs1 0 xd 0x5B)
  | .xfill xd xs1 xs2 => some (encR 1 xs2 xs1 0 xd 0x5B)
  | .wenc xd xs1 xs2 => some (encR 2 xs2 xs1 0 xd 0x5B)
  | .jtime xd xs1 => some (encR 3 0 xs1 0 xd 0x5B)
  | .jwait xs1 => some (encR 4 0 xs1 0 0 0x5B)
  | .ttset xs1 xs2 => some (encR 0 xs2 xs1 1 0 0x5B)
  | .tready xs1 => some (encR 1 0 xs1 1 0 0x5B)
  | .tstat xd xs1 => some (encR 2 0 xs1 1 xd 0x5B)
  | .cwait xs1 xs2 => some (encR 3 xs2 xs1 1 0 0x5B)
  | .padv => some (encR 0 0 0 2 0 0x5B)
  | .pread xd xs1 xs2 => some (encR 1 xs2 xs1 2 xd 0x5B)
  | .pjoin => some (encR 2 0 0 2 0 0x5B)
  | .pleave => some (encR 3 0 0 2 0 0x5B)
  | .hop xs1 => some (encR 0 0 xs1 3 0 0x5B)
  | .give xs1 xs2 => some (encR 1 xs2 xs1 3 0 0x5B)
  | .qput xd xs1 xs2 => some (encR 0 xs2 xs1 4 xd 0x5B)
  | .qputw xd xs1 xs2 => some (encR 1 xs2 xs1 4 xd 0x5B)
  | .qsig xs1 xs2 => some (encR 2 xs2 xs1 4 0 0x5B)
  | .xcopym xd xs1 xs2 xs3 => some (encQ xs3 0 xs2 xs1 5 xd 0x5B)
  | .trig xd xs1 xs2 xs3 => some (encQ xs3 1 xs2 xs1 5 xd 0x5B)
  | .waitc ld st cp mx => some (encW mx cp st ld)
  | .tspawn xd xs1 xs2 => some (encR 0 xs2 xs1 0 xd 0x7B)
  | .treap xd xs1 => some (encR 1 0 xs1 0 xd 0x7B)
  | .tkill xs1 => some (encR 2 0 xs1 0 0 0x7B)
  | .texit => some (encR 3 0 0 0 0 0x7B)
  | .tslot xs1 xs2 => some (encR 4 xs2 xs1 0 0 0x7B)
  | .tsleep xs1 => some (encR 5 0 xs1 0 0 0x7B)
  | .barreg xs1 xs2 => some (encR 0 xs2 xs1 1 0 0x7B)
  | .bara => some (encR 1 0 0 1 0 0x7B)
  | .mflush xs1 xs2 => some (encR 0 xs2 xs1 2 0 0x7B)
  | .minv xs1 xs2 => some (encR 1 xs2 xs1 2 0 0x7B)
  | .amodr xd xs1 xs2 slot => some (encR (0b0010#4 ++ slot) xs2 xs1 2 xd 0x7B)
  | .hload xs1 xs2 => some (encR 0 xs2 xs1 3 0 0x7B)
  | .hdrop xs1 => some (encR 1 0 xs1 3 0 0x7B)
  | .xopx xd xs1 xs2 slot => some (encR (0b0010#4 ++ slot) xs2 xs1 3 xd 0x7B)
  | .tret => some (encR 0 0 0 4 0 0x7B)
  | .fencex sc pred succ => some (encI (sc.code ++ pred ++ succ) 0 5 0 0x7B)
  | .illegalInstruction _ => none
  | .fetchOutsideTheIstore => none
  | .rotationBoundary _ => none
  | .parkWake _ _ => none
  | .parkWatchdog _ _ => none
  | .delivery _ _ _ => none
  | .inboxLand _ _ => none
  | .registerWindowWrite _ _ _ => none
  | .heldResume _ _ _ => none
  | .endingToFree _ _ => none
  | .loadComplete _ _ _ _ => none
  | .storePerformed _ _ _ _ => none
  | .mflushDone _ _ _ => none
  | .hloadComplete _ _ _ => none
  | .qputPost _ _ _ => none
  | .qputReply _ _ _ => none
  | .amoRequest _ _ _ => none
  | .amoGrant _ _ _ => none
  | .amoRelease _ _ _ => none
  | .amoAck _ _ _ => none
  | .leaseExpiry _ _ => none
  | .wrsStoTimeout _ _ => none
  | .cwaitPoll _ _ => none
  | .hostAtomicop _ _ _ => none
  | .lateRefusal _ _ _ => none
  | .trapEntry _ => none
  | .loomTimeCompare _ => none
  | .preemptOrder _ _ _ _ => none
  | .uncorrectableError _ => none
  | .correctedError _ => none
  | .matrixOpStart _ => none
  | .matrixOpComplete _ => none
  | .cardSchedule _ _ => none
  | .engineAccept _ _ _ _ => none
  | .cardCompletion _ _ _ => none
  | .cardStop _ _ => none
  | .xcopymFollowOn _ _ => none
  | .trigFire _ _ => none
  | .jobPromiseMissed _ _ => none
  | .jobctlSelect _ _ _ => none
  | .jobctlResume _ _ _ _ => none
  | .jobctlAbort _ _ _ => none
  | .reqctlReplay _ _ _ => none
  | .reqctlDrop _ _ _ => none
  | .stopctlStop _ _ _ => none
  | .stopctlRelease _ _ _ => none
  | .drainComplete _ => none
  | .pres _ _ _ => none
  | .phold _ _ _ => none
  | .pexcuse _ _ _ => none
  | .pickUpdate _ => none
  | .pickStall _ _ => none
  | .preadRequest _ _ _ => none
  | .preadReply _ _ _ => none
  | .shuttle _ => none
  | .shuttleRefusal _ => none
  | .shuttleResend _ _ => none
  | .chunkArrival _ => none
  | .chunkAck _ => none
  | .reduceCompletionNotice _ => none
  | .hopTimeout _ _ _ => none
  | .altRequest _ => none
  | .collectiveFailure _ _ => none
  | .linkReplay _ => none
  | .auditSend _ => none
  | .tableWalk _ _ _ => none
  | .bufferEviction _ => none
  | .notifyWrite _ => none
  | .queueMapping _ => none
  | .queueScheduleTick => none
  | .commandStart _ => none
  | .commandComplete _ => none
  | .launch _ => none
  | .launchPlacementRetry _ => none
  | .startMessage _ => none
  | .wait _ => none
  | .waitEvaluate _ => none
  | .waitTimeout _ => none
  | .signal _ => none
  | .timed _ => none
  | .timedExpiry _ => none
  | .notbeforeExpiry _ => none
  | .flush _ => none
  | .inv _ => none
  | .fenceCommand _ => none
  | .copy _ => none
  | .tlbinv _ => none
  | .hostBar2Access _ _ _ => none
  | .hostFlagWindowAccess _ _ _ => none
  | .registerWrite _ => none
  | .pkgerrClear _ _ => none
  | .monloadGo _ _ => none
  | .pwrctlWrite _ _ => none
  | .standbyEntry => none
  | .thermalMeasurement _ => none
  | .packageReset _ => none
  | .lockInterface => none
  | .startInterface => none
  | .stopInterface => none
  | .ideIntegrityFailure => none
  | .getMeasurements _ => none
  | .keyExchange => none
  | .linkTraining _ _ _ => none
  | .linkRetrain _ _ => none
  | .auditFlit _ _ _ _ => none
  | .creditCounterParityError _ => none

/-! ### The decoder -/

/-- `len` bits of a word from bit `lo` up. -/
def fld (w : InstWord) (lo len : Nat) : BitVec len := w.extractLsb' lo len

/-- Accept an instruction when a condition holds. -/
def need (b : Bool) (r : Reject) (i : Instr) : Except Reject Instr := if b then .ok i else .error r

/-- The I immediate, funct3 and register fields that every format of R42 shares. -/
def fXd (w : InstWord) : BitVec 5 := fld w 7 5
def fXs1 (w : InstWord) : BitVec 5 := fld w 15 5
def fXs2 (w : InstWord) : BitVec 5 := fld w 20 5
def fF3 (w : InstWord) : Nat := (fld w 12 3).toNat
def fF7 (w : InstWord) : Nat := (fld w 25 7).toNat
def fImmI (w : InstWord) : BitVec 12 := fld w 20 12
def fImmS (w : InstWord) : BitVec 12 := fld w 25 7 ++ fld w 7 5
def fImmB (w : InstWord) : BitVec 12 := fld w 31 1 ++ fld w 7 1 ++ fld w 25 6 ++ fld w 8 4
def fImmU (w : InstWord) : BitVec 20 := fld w 12 20
def fImmJ (w : InstWord) : BitVec 20 := fld w 31 1 ++ fld w 12 8 ++ fld w 20 1 ++ fld w 21 10

def decodeBranch (w : InstWord) : Except Reject Instr :=
  let a := fXs1 w; let b := fXs2 w; let i := fImmB w
  match fF3 w with
  | 0 => .ok (.beq a b i) | 1 => .ok (.bne a b i) | 4 => .ok (.blt a b i) | 5 => .ok (.bge a b i)
  | 6 => .ok (.bltu a b i) | 7 => .ok (.bgeu a b i) | _ => .error .unassigned

def decodeLoad (w : InstWord) : Except Reject Instr :=
  let d := fXd w; let a := fXs1 w; let i := fImmI w
  match fF3 w with
  | 0 => .ok (.lb d a i) | 1 => .ok (.lh d a i) | 2 => .ok (.lw d a i) | 3 => .ok (.ld d a i)
  | 4 => .ok (.lbu d a i) | 5 => .ok (.lhu d a i) | 6 => .ok (.lwu d a i) | _ => .error .unassigned

def decodeStore (w : InstWord) : Except Reject Instr :=
  let b := fXs2 w; let a := fXs1 w; let i := fImmS w
  match fF3 w with
  | 0 => .ok (.sb b a i) | 1 => .ok (.sh b a i) | 2 => .ok (.sw b a i) | 3 => .ok (.sd b a i)
  | _ => .error .unassigned

def decodeOpImm (w : InstWord) : Except Reject Instr :=
  let d := fXd w; let a := fXs1 w; let i := fImmI w; let sh := fld w 20 6; let hi := (fld w 26 6).toNat
  match fF3 w with
  | 0 => .ok (.addi d a i) | 2 => .ok (.slti d a i) | 3 => .ok (.sltiu d a i) | 4 => .ok (.xori d a i)
  | 6 => .ok (.ori d a i) | 7 => .ok (.andi d a i)
  | 1 => need (hi == 0) .unassigned (.slli d a sh)
  | _ =>
    match hi with
    | 0 => .ok (.srli d a sh) | 16 => .ok (.srai d a sh) | _ => .error .unassigned

def decodeOp (w : InstWord) : Except Reject Instr :=
  let d := fXd w; let a := fXs1 w; let b := fXs2 w
  match fF7 w with
  | 0 =>
    match fF3 w with
    | 0 => .ok (.add d a b) | 1 => .ok (.sll d a b) | 2 => .ok (.slt d a b) | 3 => .ok (.sltu d a b)
    | 4 => .ok (.xor d a b) | 5 => .ok (.srl d a b) | 6 => .ok (.or d a b) | _ => .ok (.and d a b)
  | 32 =>
    match fF3 w with
    | 0 => .ok (.sub d a b) | 5 => .ok (.sra d a b) | _ => .error .unassigned
  | 1 =>
    match fF3 w with
    | 0 => .ok (.mul d a b) | 1 => .ok (.mulh d a b) | 2 => .ok (.mulhsu d a b) | 3 => .ok (.mulhu d a b)
    | 4 => .ok (.div d a b) | 5 => .ok (.divu d a b) | 6 => .ok (.rem d a b) | _ => .ok (.remu d a b)
  | _ => .error .unassigned

def decodeAmo (w : InstWord) : Except Reject Instr :=
  let d := fXd w; let a := fXs1 w; let b := fXs2 w; let ww := fld w 12 1; let aq := fld w 26 1; let rl := fld w 25 1
  if (fld w 13 2) == 0b01#2 then
    match (fld w 27 5).toNat with
    | 0b00010 => need (b == 0) .mustBeZero (.lr d a ww aq rl)
    | 0b00011 => .ok (.sc d a b ww aq rl)
    | 0b00001 => .ok (.amoswap d a b ww aq rl) | 0b00000 => .ok (.amoadd d a b ww aq rl)
    | 0b00100 => .ok (.amoxor d a b ww aq rl) | 0b01100 => .ok (.amoand d a b ww aq rl)
    | 0b01000 => .ok (.amoor d a b ww aq rl) | 0b10000 => .ok (.amomin d a b ww aq rl)
    | 0b10100 => .ok (.amomax d a b ww aq rl) | 0b11000 => .ok (.amominu d a b ww aq rl)
    | 0b11100 => .ok (.amomaxu d a b ww aq rl)
    | _ => .error .unassigned
  else .error .unassigned

def decodeMiscMem (w : InstWord) : Except Reject Instr :=
  let pred := fld w 24 4; let succ := fld w 20 4
  if fXs1 w != 0 || fXd w != 0 then .error .mustBeZero else
  match fF3 w with
  | 0 =>
    match (fld w 28 4).toNat with
    | 0 => if pred == 1 && succ == 0 then .ok .pause else .ok (.fence pred succ)
    | 8 => need (pred == 3 && succ == 3) .unassigned .fenceTso
    | _ => .error .unassigned
  | 1 => need (fImmI w == 0) .mustBeZero .fenceI
  | _ => .error .unassigned

def decodeSystem (w : InstWord) : Except Reject Instr :=
  let d := fXd w; let a := fXs1 w; let c := fImmI w
  match fF3 w with
  | 0 =>
    if a != 0 || d != 0 then .error .mustBeZero else
    match c.toNat with
    | 0 => .ok .ecall | 1 => .ok .ebreak | 0x00D => .ok .wrsNto | 0x01D => .ok .wrsSto
    | _ => .error .unassigned
  | 1 => .ok (.csrrw d c a) | 2 => .ok (.csrrs d c a) | 3 => .ok (.csrrc d c a)
  | 5 => .ok (.csrrwi d c a) | 6 => .ok (.csrrsi d c a) | 7 => .ok (.csrrci d c a)
  | _ => .error .unassigned

/-- Format V (R49 to R52). -/
def decodeV (w : InstWord) : Except Reject Instr :=
  let b := fld w 19 4; let a := fld w 15 4; let d := fld w 7 4
  let g : Guard := ⟨fld w 12 3, fld w 11 1⟩
  match Ty.ofCode (fld w 23 4) with
  | none => .error .badType
  | some ty =>
    let intFp := ty.isInt || ty.isFp; let sintFp := ty.isSint || ty.isFp
    let one (ok : Bool) (i : Instr) : Except Reject Instr := if b != 0 then .error .mustBeZero else need ok .badType i
    match (fld w 27 5).toNat with
    | 0x00 => need intFp .badType (.vadd ty d a b g) | 0x01 => need intFp .badType (.vsub ty d a b g)
    | 0x02 => need intFp .badType (.vmul ty d a b g) | 0x03 => need intFp .badType (.vfma ty d a b g)
    | 0x04 => need intFp .badType (.vmin ty d a b g) | 0x05 => need intFp .badType (.vmax ty d a b g)
    | 0x06 => one sintFp (.vabs ty d a g) | 0x07 => one sintFp (.vneg ty d a g)
    | 0x08 => need intFp .badType (.vclamp ty d a b g)
    | 0x09 => need ty.isInt .badType (.vand ty d a b g) | 0x0A => need ty.isInt .badType (.vor ty d a b g)
    | 0x0B => need ty.isInt .badType (.vxor ty d a b g) | 0x0C => need ty.isInt .badType (.vshl ty d a b g)
    | 0x0D => need ty.isInt .badType (.vshr ty d a b g)
    | 0x0E => .ok (.vslide ty d a b g) | 0x0F => .ok (.vsel ty d a b g)
    | 0x10 =>
      match Ty.ofCode b with
      | none => .error .badType
      | some dt => .ok (.vcvt ty dt d a g)
    | 0x11 =>
      match RedOp.ofCode b with
      | none => .error .badCode
      | some r => need (ty.isInt || (ty.isFp && r.isArith)) .badType (.vred ty d a r g)
    | 0x12 => .ok (.vperm ty d a b g)
    | 0x13 => need ty.isFp .badType (.vdiv ty d a b g)
    | 0x14 => one ty.isFp (.vsqrt ty d a g) | 0x15 => one ty.isFp (.vexp2 ty d a g)
    | 0x16 => one ty.isFp (.vlog2 ty d a g) | 0x17 => one ty.isFp (.vrsqrt ty d a g)
    | _ =>
      let p := Pred.ofCode (fld w 27 3)
      need (ty.isFp || (ty.isInt && p.isOrder)) .badType (.vcmp p ty (fld w 7 3) (fld w 10 1) a b g)

/-- Format VX (R54). -/
def decodeVX (w : InstWord) : Except Reject Instr :=
  let v := fld w 7 4; let k := fld w 7 3; let f5 := fXs2 w; let a := fXs1 w
  let g : Guard := ⟨fld w 25 3, fld w 11 1⟩
  let noG := g == Guard.none; let k10 := fld w 10 1 == 0#1
  match (fld w 28 4).toNat with
  | 0 => need (fld w 22 3 == 0#3) .badCode (.vbcast (Width.ofCode (fld w 20 2)) v a g)
  | 1 => need noG .mustBeZero (.vext f5 v a) | 2 => need noG .mustBeZero (.vins v a f5)
  | 3 => need (noG && k10 && a == 0) .mustBeZero (.kmovx f5 k)
  | 4 => need (k10 && f5 == 0) .mustBeZero (.kmovk k a g)
  | 5 => need (k10 && a == 0) .mustBeZero (.kpop f5 k g)
  | 6 => need (k10 && fld w 23 2 == 0#2) .mustBeZero (.kop (KOp.ofCode (fld w 18 2)) k (fld w 15 3) (fld w 20 3) g)
  | _ => .error .unassigned

/-- Format VM (R55). -/
def decodeVM (w : InstWord) : Except Reject Instr :=
  let v := fld w 7 4; let f5 := fXs2 w; let a := fXs1 w; let i := fld w 20 4
  let g : Guard := ⟨fld w 25 3, fld w 11 1⟩
  let idx (x : Instr) := need (fld w 24 1 == 0#1) .mustBeZero x
  match (fld w 28 4).toNat with
  | 0 => .ok (.vld v a f5 g) | 1 => .ok (.vldsB v a f5 g) | 2 => .ok (.vldsH v a f5 g) | 3 => .ok (.vldsW v a f5 g)
  | 4 => idx (.vldxB v a i g) | 5 => idx (.vldxH v a i g) | 6 => idx (.vldxW v a i g)
  | 8 => .ok (.vst v a f5 g) | 9 => .ok (.vstsB v a f5 g) | 10 => .ok (.vstsH v a f5 g) | 11 => .ok (.vstsW v a f5 g)
  | 12 => idx (.vstxB v a i g) | 13 => idx (.vstxH v a i g) | 14 => idx (.vstxW v a i g)
  | _ => .error .unassigned

/-- Format M (R56). -/
def decodeM (w : InstWord) : Except Reject Instr :=
  let a := fXs1 w; let b := fXs2 w; let d := fXd w; let m := fld w 7 2
  let mOk := fld w 9 3 == 0#3
  let mat (z ok : Bool) (i : Instr) : Except Reject Instr :=
    if mOk && z then need ok .badBase i else .error .mustBeZero
  match fF7 w with
  | 0 => need (d == 0) .mustBeZero (.tidset a b) | 1 => .ok (.tidget d a b)
  | 2 => mat true (isPair a && isPair b) (.mzero m a b) | 3 => mat true (isPair a && isPair b) (.mma m a b)
  | 4 => mat (b == 0) (isPair a) (.mmav m a) | 5 => mat true (isTriple a && isPair b) (.mmas m a b)
  | 6 => mat (b == 0) (isPair a) (.mread m a) | 7 => mat (b == 0) (isPair a) (.mwrite m a)
  | _ => .error .unassigned

/-- Format Q of custom-1 (R57). -/
def decodeQ (w : InstWord) : Except Reject Instr :=
  let a := fXs1 w; let b := fXs2 w; let d := fXd w; let c := fld w 27 5
  match (fld w 25 2).toNat with
  | 0 => need (isPair a && isPair b) .badBase (.fold d a b c) | 1 => need (isPair a && isPair b) .badBase (.scan d a b c)
  | 2 => need (isDouble a && isPair b) .badBase (.zip d a b c) | _ => need (isDouble a && isPair b) .badBase (.outer d a b c)

def decodeCustom1 (w : InstWord) : Except Reject Instr :=
  match fF3 w with
  | 0 => decodeVX w | 1 => decodeVM w | 2 => decodeM w | 3 => decodeQ w
  | 4 => need (fld w 30 2 == 0#2) .mustBeZero
      (.xop (fld w 29 1) (fld w 26 3) (fld w 7 4) (fld w 15 4) (fld w 19 4) ⟨fld w 23 3, fld w 11 1⟩)
  | _ => .error .unassigned

/-- Formats C, Q and W of custom-2 (R59 to R61). -/
def decodeCustom2 (w : InstWord) : Except Reject Instr :=
  let a := fXs1 w; let b := fXs2 w; let d := fXd w
  let z (ok : Bool) (i : Instr) := need ok .mustBeZero i
  match fF3 w with
  | 0 =>
    match fF7 w with
    | 0 => need (isPair a && isPair b) .badBase (.xcopy d a b) | 1 => need (isPair b) .badBase (.xfill d a b)
    | 2 => need (isPair a && isPair b) .badBase (.wenc d a b)
    | 3 => z (b == 0) (.jtime d a) | 4 => z (b == 0 && d == 0) (.jwait a) | _ => .error .unassigned
  | 1 =>
    match fF7 w with
    | 0 => z (d == 0) (.ttset a b) | 1 => z (d == 0 && b == 0) (.tready a)
    | 2 => z (b == 0) (.tstat d a) | 3 => z (d == 0) (.cwait a b) | _ => .error .unassigned
  | 2 =>
    match fF7 w with
    | 0 => z (d == 0 && a == 0 && b == 0) .padv | 1 => .ok (.pread d a b)
    | 2 => z (d == 0 && a == 0 && b == 0) .pjoin | 3 => z (d == 0 && a == 0 && b == 0) .pleave
    | _ => .error .unassigned
  | 3 =>
    match fF7 w with
    | 0 => z (d == 0 && b == 0) (.hop a) | 1 => z (d == 0) (.give a b) | _ => .error .unassigned
  | 4 =>
    match fF7 w with
    | 0 => .ok (.qput d a b) | 1 => .ok (.qputw d a b) | 2 => z (d == 0) (.qsig a b) | _ => .error .unassigned
  | 5 =>
    match (fld w 25 2).toNat with
    | 0 => need (isPair a && isPair b) .badBase (.xcopym d a b (fld w 27 5))
    | 1 => need (isPair a && isPair b) .badBase (.trig d a b (fld w 27 5))
    | _ => .error .unassigned
  | 7 => z (fld w 30 2 == 0#2) (.waitc d a b (fld w 25 5))
  | _ => .error .unassigned

/-- Format S and FENCEX of custom-3 (R62, R63). -/
def decodeCustom3 (w : InstWord) : Except Reject Instr :=
  let a := fXs1 w; let b := fXs2 w; let d := fXd w; let f := fF7 w; let s := fld w 25 3
  let z (ok : Bool) (i : Instr) := need ok .mustBeZero i
  match fF3 w with
  | 0 =>
    match f with
    | 0 => .ok (.tspawn d a b) | 1 => z (b == 0) (.treap d a) | 2 => z (b == 0 && d == 0) (.tkill a)
    | 3 => z (b == 0 && a == 0 && d == 0) .texit | 4 => z (d == 0) (.tslot a b) | 5 => z (b == 0 && d == 0) (.tsleep a)
    | _ => .error .unassigned
  | 1 =>
    match f with
    | 0 => z (d == 0) (.barreg a b) | 1 => z (b == 0 && a == 0 && d == 0) .bara | _ => .error .unassigned
  | 2 =>
    match f with
    | 0 => z (d == 0) (.mflush a b) | 1 => z (d == 0) (.minv a b)
    | _ => need (fld w 28 4 == 2#4) .unassigned (.amodr d a b s)
  | 3 =>
    match f with
    | 0 => z (d == 0) (.hload a b) | 1 => z (b == 0 && d == 0) (.hdrop a)
    | _ => need (fld w 28 4 == 2#4) .unassigned (.xopx d a b s)
  | 4 =>
    match f with
    | 0 => z (b == 0 && a == 0 && d == 0) .tret | _ => .error .unassigned
  | 5 =>
    match Scope.ofCode (fld w 28 4) with
    | none => .error .badCode
    | some sc => z (a == 0 && d == 0) (.fencex sc (fld w 24 4) (fld w 20 4))
  | _ => .error .unassigned

/-- The instruction of a word, or why it is none (R39 to R64). -/
def decode (w : InstWord) : Except Reject Instr :=
  match (fld w 0 7).toNat with
  | 0x37 => .ok (.lui (fXd w) (fImmU w)) | 0x17 => .ok (.auipc (fXd w) (fImmU w))
  | 0x6F => .ok (.jal (fXd w) (fImmJ w))
  | 0x67 => if fF3 w == 0 then .ok (.jalr (fXd w) (fXs1 w) (fImmI w)) else .error .unassigned
  | 0x63 => decodeBranch w | 0x03 => decodeLoad w | 0x23 => decodeStore w | 0x13 => decodeOpImm w
  | 0x33 => decodeOp w | 0x2F => decodeAmo w | 0x0F => decodeMiscMem w | 0x73 => decodeSystem w
  | 0x0B => decodeV w | 0x2B => decodeCustom1 w | 0x5B => decodeCustom2 w | 0x7B => decodeCustom3 w
  | _ => if fld w 0 2 == 3#2 then .error .reservedOpcode else .error .lowBits

/-- The word of four bytes, the least significant first (R39). -/
def wordOfBytes (b0 b1 b2 b3 : Byte) : InstWord := b3 ++ b2 ++ b1 ++ b0

/-- The four bytes of a word, the least significant first (R39). -/
def bytesOfWord (w : InstWord) : List Byte :=
  [w.extractLsb' 0 8, w.extractLsb' 8 8, w.extractLsb' 16 8, w.extractLsb' 24 8]

/-- Decode one instruction from bytes, and the rest of them. -/
def decodeBytes : List Byte → Except Reject (Instr × List Byte)
  | b0 :: b1 :: b2 :: b3 :: rest =>
    match decode (wordOfBytes b0 b1 b2 b3) with
    | .ok i => .ok (i, rest)
    | .error r => .error r
  | _ => .error .tooShort

/-- The instruction the decoder reads from a word of the opcode table, its bits above `nbits` zero. -/
def decodeTableWord (nbits w : Nat) : Option Instr :=
  match decodeBytes (bytesOfWord (BitVec.ofNat 32 (w % 2 ^ nbits))) with
  | .ok (i, _) => some i
  | .error _ => none

end Sys2Proof
end

