-- ==== Sys2Proof/Machine/Flags.lean ====
section
/-! DEFINITION. The status flags of floating-point and conversion steps (R75, R76) and the rounding modes (R71). -/

namespace Sys2Proof.Machine

/-- Rounding modes (R71). -/
inductive Rm where
  | rne | rtz | rdn | rup
deriving DecidableEq, Repr

/-- The mode of a 2-bit MODE or RMODE field (R71, R194). -/
def Rm.ofBits (b : BitVec 2) : Rm :=
  match b.toNat with
  | 0 => .rne | 1 => .rtz | 2 => .rdn | _ => .rup

/-- The flags one operation raises (R75). -/
structure Flags where
  nv : Bool
  dz : Bool
  ovf : Bool
  unf : Bool
  nx : Bool
deriving DecidableEq, Repr

def Flags.none : Flags := ⟨false, false, false, false, false⟩
def Flags.invalid : Flags := ⟨true, false, false, false, false⟩
def Flags.divZero : Flags := ⟨false, true, false, false, false⟩
def Flags.inexact : Flags := ⟨false, false, false, false, true⟩

/-- NV when a condition holds, else nothing. -/
def Flags.ifInvalid (b : Bool) : Flags := ⟨b, false, false, false, false⟩

/-- The union of two sets of flags; flags are sticky (R76). -/
def Flags.or (a b : Flags) : Flags :=
  ⟨a.nv || b.nv, a.dz || b.dz, a.ovf || b.ovf, a.unf || b.unf, a.nx || b.nx⟩

/-- The flags from their bits. -/
def Flags.ofBits (b : BitVec 5) : Flags := ⟨b.getLsbD 4, b.getLsbD 3, b.getLsbD 2, b.getLsbD 1, b.getLsbD 0⟩

/-- The flags in the bit order of R75: NV, DZ, OF, UF, NX in bits 4 to 0. -/
def Flags.bits (f : Flags) : BitVec 5 :=
  BitVec.ofBool f.nv ++ BitVec.ofBool f.dz ++ BitVec.ofBool f.ovf ++ BitVec.ofBool f.unf ++ BitVec.ofBool f.nx

end Sys2Proof.Machine
end

