-- ==== Sys2Proof/Machine/Num.lean ====
section
/-! DEFINITION. Number formats, rounding and the arithmetic of one lane (R67 to R74, R77 to R79, R91 to R94). A
lane is a natural number below 2^width; a finite float is the exact value (−1)^neg × m × 2^e. -/

namespace Sys2Proof.Machine

/-- The lane width of a type in bits (R67, R69). -/
def Ty.width : Ty → Nat
  | .i8 | .n8 | .e4 | .e5 => 8
  | .i16 | .n16 | .f16 | .bf16 => 16
  | .i32 | .n32 | .f32 => 32

/-- Lanes of a register for a type (R26). -/
def Ty.lanes (ty : Ty) : Nat := 512 / Ty.width ty

/-- Exponent bits and mantissa bits of a floating format (R69). -/
def Ty.expBits : Ty → Nat
  | .f32 | .bf16 => 8 | .f16 | .e5 => 5 | .e4 => 4 | _ => 0
def Ty.manBits : Ty → Nat
  | .f32 => 23 | .f16 => 10 | .bf16 => 7 | .e4 => 3 | .e5 => 2 | _ => 0
/-- The exponent bias (R69). -/
def Ty.bias (ty : Ty) : Nat := 2 ^ (Ty.expBits ty - 1) - 1
/-- Whether the type is floating. -/
def Ty.isFloat : Ty → Bool
  | .f16 | .bf16 | .f32 | .e4 | .e5 => true
  | _ => false
/-- Whether an integer type is signed (R67). -/
def Ty.signed : Ty → Bool
  | .i8 | .i16 | .i32 => true
  | _ => false

/-- The value of a floating pattern (R70). -/
inductive FVal where
  | nan (signalling : Bool)
  | inf (neg : Bool)
  | fin (neg : Bool) (m : Nat) (e : Int)
deriving DecidableEq, Repr

/-- The canonical NaN (R69, R70). -/
def Ty.nan : Ty → Nat
  | .f32 => 0x7FC00000 | .f16 => 0x7E00 | .bf16 => 0x7FC0 | .e4 => 0x7F | .e5 => 0x7E | _ => 0

/-- The infinity of a format that has one (R70). -/
def Ty.inf (ty : Ty) (neg : Bool) : Nat :=
  (if neg then 2 ^ (Ty.width ty - 1) else 0) + (2 ^ Ty.expBits ty - 1) * 2 ^ Ty.manBits ty

/-- The largest finite value (R69). -/
def Ty.maxFin (ty : Ty) (neg : Bool) : Nat :=
  (if neg then 2 ^ (Ty.width ty - 1) else 0) + (if ty = .e4 then 0x7E else (2 ^ Ty.expBits ty - 1) * 2 ^ Ty.manBits ty - 1)

def Ty.zero (ty : Ty) (neg : Bool) : Nat := if neg then 2 ^ (Ty.width ty - 1) else 0

/-- The value of a pattern (R70). -/
def Ty.value (ty : Ty) (x : Nat) : FVal :=
  let mb := Ty.manBits ty
  let neg := x / 2 ^ (Ty.width ty - 1) % 2 == 1
  let e := x / 2 ^ mb % 2 ^ Ty.expBits ty
  let m := x % 2 ^ mb
  let top := 2 ^ Ty.expBits ty - 1
  if ty = .e4 then
    if e = top ∧ m = 7 then .nan false
    else if e = 0 then .fin neg m (1 - Int.ofNat (Ty.bias ty) - mb) else .fin neg (2 ^ mb + m) (Int.ofNat e - Ty.bias ty - mb)
  else if e = top then
    if m = 0 then .inf neg else .nan (m / 2 ^ (mb - 1) % 2 == 0)
  else if e = 0 then .fin neg m (1 - Int.ofNat (Ty.bias ty) - mb)
  else .fin neg (2 ^ mb + m) (Int.ofNat e - Ty.bias ty - mb)

/-- Round m × 2^e to a multiple of 2^u, in units of 2^u, for a value of the given sign (R72). -/
def roundAt (mode : Rm) (neg : Bool) (m : Nat) (e u : Int) : Nat :=
  if u ≤ e then m * 2 ^ (e - u).toNat
  else
    let s := (u - e).toNat
    let q := m / 2 ^ s
    let r := m % 2 ^ s
    let up := match mode with
      | .rne => 2 ^ s < 2 * r || (2 * r == 2 ^ s && q % 2 == 1)
      | .rtz => false
      | .rdn => neg && r != 0
      | .rup => !neg && r != 0
    if up then q + 1 else q

/-- Whether m × 2^e is a multiple of 2^u. -/
def isMultiple (m : Nat) (e u : Int) : Bool := u ≤ e || m % 2 ^ (u - e).toNat == 0

/-- The exponent of the leading bit of m × 2^e, for m ≠ 0. -/
def topExp (m : Nat) (e : Int) : Int := Int.ofNat (Nat.log2 m) + e

/-- Round the exact non-zero value (−1)^neg × m × 2^e to a floating format (R72), F8E4 destinations under R73,
with its flags (R76). `np` is NP. -/
def roundFin (ty : Ty) (mode : Rm) (np : Bool) (neg : Bool) (m : Nat) (e : Int) : Nat × Flags :=
  if m = 0 then (Ty.zero ty neg, Flags.none) else
  let mb := Ty.manBits ty
  let emin : Int := 1 - Int.ofNat (Ty.bias ty)
  let emax : Int := if ty = .e4 then 8 else Int.ofNat (Ty.bias ty)
  let u0 := topExp m e - mb
  let k0 := roundAt mode neg m e u0
  let e0 := topExp k0 u0
  let beyond := emax < e0 || (ty = .e4 && u0 == 5 && k0 == 15)
  if beyond then
    let of : Flags := ⟨false, false, true, false, true⟩
    if ty = .e4 then
      if np then (0x7F, ⟨false, false, true, false, false⟩) else (Ty.maxFin ty neg, of)
    else
      let toInf := match mode with
        | .rne => true | .rtz => false | .rdn => neg | .rup => !neg
      (if toInf then Ty.inf ty neg else Ty.maxFin ty neg, of)
  else
    let u := max u0 (emin - mb)
    let k := roundAt mode neg m e u
    let exact := isMultiple m e u
    let tiny := e0 < emin
    let fl : Flags := ⟨false, false, false, tiny && !exact, !exact⟩
    let (k, u) := if k = 2 ^ (mb + 1) then (2 ^ mb, u + 1) else (k, u)
    let mag := if k < 2 ^ mb then k else ((u + mb + Ty.bias ty).toNat) * 2 ^ mb + (k - 2 ^ mb)
    (Ty.zero ty neg + mag, fl)

/-- A NaN result: the canonical NaN; for F8E4 too (R70, R73). -/
def nanOf (ty : Ty) (nv : Bool) : Nat × Flags := (Ty.nan ty, Flags.ifInvalid nv)

/-- Round any exact value to a floating format (R72, R73). -/
def roundVal (ty : Ty) (mode : Rm) (np : Bool) : FVal → Nat × Flags
  | .nan s => nanOf ty s
  | .inf neg =>
    if ty = .e4 then (if np then (0x7F, Flags.invalid) else (Ty.maxFin ty neg, Flags.inexact))
    else (Ty.inf ty neg, Flags.none)
  | .fin neg m e => roundFin ty mode np neg m e

/-- The signed integer s × 2^e as a value; `zneg` is the sign of a zero. -/
def signedVal (s : Int) (e : Int) (zneg : Bool) : FVal :=
  if s = 0 then .fin zneg 0 0 else .fin (s < 0) s.natAbs e

/-- The integer a finite value has in units of 2^u, for u at most its exponent. -/
def unitsOf (neg : Bool) (m : Nat) (e u : Int) : Int :=
  let k : Int := Int.ofNat (m * 2 ^ (e - u).toNat)
  if neg then -k else k

def FVal.isSig : FVal → Bool
  | .nan s => s
  | _ => false
def FVal.isNan : FVal → Bool
  | .nan _ => true
  | _ => false
def FVal.negate : FVal → FVal
  | .nan s => .nan s
  | .inf n => .inf (!n)
  | .fin n m e => .fin (!n) m e

/-- The exact sum, and whether the operation is invalid (R72, R402). -/
def exactAdd (mode : Rm) : FVal → FVal → FVal × Bool
  | .nan s, .nan t => (.nan false, s || t)
  | .nan s, _ => (.nan false, s)
  | _, .nan s => (.nan false, s)
  | .inf a, .inf b => if a == b then (.inf a, false) else (.nan false, true)
  | .inf a, _ => (.inf a, false)
  | _, .inf b => (.inf b, false)
  | .fin a m e, .fin b n f =>
    if m = 0 ∧ n = 0 then (.fin (if a == b then a else mode == .rdn) 0 0, false)
    else
      let u := min e f
      let s := unitsOf a m e u + unitsOf b n f u
      (signedVal s u (mode == .rdn), false)

/-- The exact product, and whether the operation is invalid (R402). -/
def exactMul : FVal → FVal → FVal × Bool
  | .nan s, .nan t => (.nan false, s || t)
  | .nan s, _ => (.nan false, s)
  | _, .nan s => (.nan false, s)
  | .inf a, .inf b => (.inf (a != b), false)
  | .inf a, .fin b n _ => if n = 0 then (.nan false, true) else (.inf (a != b), false)
  | .fin a m _, .inf b => if m = 0 then (.nan false, true) else (.inf (a != b), false)
  | .fin a m e, .fin b n f => (.fin (a != b) (m * n) (e + f), false)

/-- Round an exact result and add NV when it was invalid. -/
def finish (ty : Ty) (mode : Rm) (np : Bool) (r : FVal × Bool) : Nat × Flags :=
  let (b, f) := roundVal ty mode np r.1
  (b, f.or (Flags.ifInvalid r.2))

def fAdd (ty : Ty) (mode : Rm) (a b : Nat) : Nat × Flags := finish ty mode false (exactAdd mode (Ty.value ty a) (Ty.value ty b))
def fSub (ty : Ty) (mode : Rm) (a b : Nat) : Nat × Flags :=
  finish ty mode false (exactAdd mode (Ty.value ty a) (Ty.value ty b).negate)
def fMul (ty : Ty) (mode : Rm) (a b : Nat) : Nat × Flags := finish ty mode false (exactMul (Ty.value ty a) (Ty.value ty b))
/-- c + a × b, rounded once (R72, R402). -/
def fFma (ty : Ty) (mode : Rm) (a b c : Nat) : Nat × Flags :=
  let p := exactMul (Ty.value ty a) (Ty.value ty b)
  let s := exactAdd mode p.1 (Ty.value ty c)
  finish ty mode false (s.1, p.2 || s.2)

/-- The quotient of two non-zero naturals to more bits than any format holds, the last bit sticky. -/
def stickyDiv (m n : Nat) : Nat × Int :=
  let s := 64 + Nat.log2 n
  let q := m * 2 ^ s / n
  (2 * q + (if m * 2 ^ s % n = 0 then 0 else 1), -Int.ofNat s - 1)

/-- VDIV (R79). -/
def fDiv (ty : Ty) (mode : Rm) (a b : Nat) : Nat × Flags :=
  match Ty.value ty a, Ty.value ty b with
  | .nan s, .nan t => nanOf ty (s || t)
  | .nan s, _ => nanOf ty s
  | _, .nan s => nanOf ty s
  | .inf _, .inf _ => nanOf ty true
  | .inf x, .fin y _ _ => (Ty.inf ty (x != y), Flags.none)
  | .fin x _ _, .inf y => (Ty.zero ty (x != y), Flags.none)
  | .fin x m e, .fin y n f =>
    if n = 0 then (if m = 0 then nanOf ty true else (Ty.inf ty (x != y), Flags.divZero))
    else if m = 0 then (Ty.zero ty (x != y), Flags.none)
    else
      let (q, g) := stickyDiv m n
      roundFin ty mode false (x != y) q (e - f + g)

/-- The integer square root by bisection on the bits, from bit `k` down. -/
def sqrtBits (n : Nat) : Nat → Nat → Nat
  | 0, acc => if (acc + 1) * (acc + 1) ≤ n then acc + 1 else acc
  | k + 1, acc =>
    let t := acc + 2 ^ (k + 1)
    sqrtBits n k (if t * t ≤ n then t else acc)

/-- VSQRT (R79). -/
def fSqrt (ty : Ty) (mode : Rm) (a : Nat) : Nat × Flags :=
  match Ty.value ty a with
  | .nan s => nanOf ty s
  | .inf true => nanOf ty true
  | .inf false => (Ty.inf ty false, Flags.none)
  | .fin neg m e =>
    if m = 0 then (Ty.zero ty neg, Flags.none)
    else if neg then nanOf ty true
    else
      let m' := if e % 2 = 0 then m * 2 ^ 64 else m * 2 ^ 65
      let e' := (if e % 2 = 0 then e else e - 1) - 64
      let r := sqrtBits m' 48 0
      roundFin ty mode false false (2 * r + (if r * r = m' then 0 else 1)) (e' / 2 - 1)

/-! ### Comparisons, minimum and maximum (R77, R78) -/

/-- The order of two values that are not NaN, zeros of either sign equal. -/
def fLt : FVal → FVal → Bool
  | .inf a, .inf b => a && !b
  | .inf a, _ => a
  | _, .inf b => !b
  | .fin a m e, .fin b n f =>
    let u := min e f
    decide (unitsOf a m e u < unitsOf b n f u)
  | _, _ => false

def fEq : FVal → FVal → Bool
  | .inf a, .inf b => a == b
  | .fin a m e, .fin b n f =>
    let u := min e f
    unitsOf a m e u == unitsOf b n f u
  | _, _ => false

def FVal.sign : FVal → Bool
  | .nan _ => false
  | .inf n => n
  | .fin n _ _ => n

/-- Order of VMIN and VMAX: −0 below +0 (R77). -/
def fLtTotal (a b : FVal) : Bool := fLt a b || (fEq a b && a.sign && !b.sign)

/-- VMIN or VMAX of a floating lane (R77). DEDUCED (log 62): one signalling NaN gives the other operand, as R77 lays down, and
R402's sentence on every FP row adds NV alone. -/
def fMinMax (ty : Ty) (isMax : Bool) (a b : Nat) : Nat × Flags :=
  let x := Ty.value ty a
  let y := Ty.value ty b
  let nv := Flags.ifInvalid (x.isSig || y.isSig)
  if x.isNan && y.isNan then (Ty.nan ty, nv)
  else if x.isNan then (b, nv)
  else if y.isNan then (a, nv)
  else ((if fLtTotal x y == isMax then b else a), nv)

/-- VCMP of a floating lane (R78). -/
def fCmp (ty : Ty) (p : Pred) (a b : Nat) : Bool × Flags :=
  let x := Ty.value ty a
  let y := Ty.value ty b
  let un := x.isNan || y.isNan
  let quiet := Flags.ifInvalid (x.isSig || y.isSig)
  let loud := Flags.ifInvalid un
  match p with
  | .eq => (!un && fEq x y, quiet)
  | .ne => (un || !fEq x y, quiet)
  | .lt => (!un && fLt x y, loud)
  | .le => (!un && !fLt y x, loud)
  | .gt => (!un && fLt y x, loud)
  | .ge => (!un && !fLt x y, loud)
  | .un => (un, quiet)
  | .or => (!un, quiet)

/-! ### Integer lanes (R67, R68) -/

/-- The integer of a lane. -/
def toInt (ty : Ty) (x : Nat) : Int :=
  if Ty.signed ty && 2 ^ (Ty.width ty - 1) ≤ x then Int.ofNat x - 2 ^ Ty.width ty else Int.ofNat x

/-- The lane of an integer, wrapping (R68). -/
def ofInt (ty : Ty) (z : Int) : Nat := (z % 2 ^ Ty.width ty).toNat

/-- The least and the greatest integer of a type (R67). -/
def intMin (ty : Ty) : Int := if Ty.signed ty then -(2 ^ (Ty.width ty - 1)) else 0
def intMax (ty : Ty) : Int := if Ty.signed ty then 2 ^ (Ty.width ty - 1) - 1 else 2 ^ Ty.width ty - 1

/-- Saturate an integer to a type (R74). -/
def saturate (ty : Ty) (z : Int) : Nat := ofInt ty (max (intMin ty) (min (intMax ty) z))

/-- VCMP of an integer lane: signed for I types, unsigned for N types (R78). -/
def iCmp (ty : Ty) (p : Pred) (a b : Nat) : Bool :=
  let x := toInt ty a
  let y := toInt ty b
  match p with
  | .eq => x == y | .ne => x != y | .lt => decide (x < y) | .le => decide (x ≤ y)
  | .gt => decide (y < x) | .ge => decide (y ≤ x) | .un => false | .or => true

/-! ### One lane of each operation, integer or floating (R402) -/

def laneAdd (ty : Ty) (mode : Rm) (a b : Nat) : Nat × Flags :=
  if Ty.isFloat ty then fAdd ty mode a b else (ofInt ty (toInt ty a + toInt ty b), Flags.none)
def laneSub (ty : Ty) (mode : Rm) (a b : Nat) : Nat × Flags :=
  if Ty.isFloat ty then fSub ty mode a b else (ofInt ty (toInt ty a - toInt ty b), Flags.none)
def laneMul (ty : Ty) (mode : Rm) (a b : Nat) : Nat × Flags :=
  if Ty.isFloat ty then fMul ty mode a b else (ofInt ty (toInt ty a * toInt ty b), Flags.none)
def laneFma (ty : Ty) (mode : Rm) (a b c : Nat) : Nat × Flags :=
  if Ty.isFloat ty then fFma ty mode a b c else (ofInt ty (toInt ty c + toInt ty a * toInt ty b), Flags.none)
def laneMin (ty : Ty) (a b : Nat) : Nat × Flags :=
  if Ty.isFloat ty then fMinMax ty false a b else ((if toInt ty b < toInt ty a then b else a), Flags.none)
def laneMax (ty : Ty) (a b : Nat) : Nat × Flags :=
  if Ty.isFloat ty then fMinMax ty true a b else ((if toInt ty a < toInt ty b then b else a), Flags.none)
/-- VABS: the sign bit cleared, a NaN canonical; the most negative integer unchanged (R68, R402). -/
def laneAbs (ty : Ty) (a : Nat) : Nat × Flags :=
  if Ty.isFloat ty then
    match Ty.value ty a with
    | .nan s => nanOf ty s
    | _ => (a % 2 ^ (Ty.width ty - 1), Flags.none)
  else (ofInt ty (Int.ofNat (toInt ty a).natAbs), Flags.none)
/-- VNEG: the sign bit inverted, a NaN canonical (R402). -/
def laneNeg (ty : Ty) (a : Nat) : Nat × Flags :=
  if Ty.isFloat ty then
    match Ty.value ty a with
    | .nan s => nanOf ty s
    | _ => ((a + 2 ^ (Ty.width ty - 1)) % 2 ^ Ty.width ty, Flags.none)
  else (ofInt ty (-toInt ty a), Flags.none)
def laneCmp (ty : Ty) (p : Pred) (a b : Nat) : Bool × Flags :=
  if Ty.isFloat ty then fCmp ty p a b else (iCmp ty p a b, Flags.none)
def laneShl (ty : Ty) (a b : Nat) : Nat := a * 2 ^ (b % Ty.width ty) % 2 ^ Ty.width ty
/-- Shift right with zero fill. -/
def laneShr (ty : Ty) (a b : Nat) : Nat := a / 2 ^ (b % Ty.width ty)
/-- Shift right with fill from the top bit. -/
def laneSar (ty : Ty) (a b : Nat) : Nat :=
  let w := Ty.width ty
  let s : Int := if 2 ^ (w - 1) ≤ a then Int.ofNat a - 2 ^ w else Int.ofNat a
  ((s / 2 ^ (b % w)) % 2 ^ w).toNat

/-- Round a value to an integer under a mode, and whether that changed it. -/
def roundInt (mode : Rm) (neg : Bool) (m : Nat) (e : Int) : Int × Bool :=
  let k := Int.ofNat (roundAt mode neg m e 0)
  (if neg then -k else k, !isMultiple m e 0)

/-- A value saturated into an integer type (R74). -/
def valueToInt (d : Ty) (mode : Rm) : FVal → Nat × Flags
  | .nan _ => (0, Flags.invalid)
  | .inf neg => (ofInt d (if neg then intMin d else intMax d), Flags.invalid)
  | .fin neg m e =>
    let (z, ch) := roundInt mode neg m e
    if z < intMin d ∨ intMax d < z then (saturate d z, Flags.invalid)
    else (ofInt d z, if ch then Flags.inexact else Flags.none)

/-- VCVT of one lane from type `s` to type `d` (R73, R74). -/
def convert (s d : Ty) (mode : Rm) (np : Bool) (x : Nat) : Nat × Flags :=
  if s = d then (x, Flags.none)
  else if Ty.isFloat s then
    if Ty.isFloat d then roundVal d mode np (Ty.value s x) else valueToInt d mode (Ty.value s x)
  else
    let z := toInt s x
    if Ty.isFloat d then roundVal d mode np (signedVal z 0 false) else (saturate d z, Flags.none)

/-! ### VEXP2, VLOG2, VRSQRT (R91 to R94) -/

/-- The value of an FP32 pattern. -/
def f32 (b : Nat) : FVal := Ty.value .f32 b

/-- Round(a × b + c, FP32, RNE) on values. -/
def fma32 (a b c : FVal) : FVal :=
  let p := exactMul a b
  f32 (roundVal .f32 .rne false (exactAdd .rne p.1 c).1).1
def mul32 (a b : FVal) : FVal := f32 (roundVal .f32 .rne false (exactMul a b).1).1
def add32 (a b : FVal) : FVal := f32 (roundVal .f32 .rne false (exactAdd .rne a b).1).1
def div32 (a b : FVal) : FVal :=
  match a, b with
  | .fin x m e, .fin y n f =>
    if m = 0 then .fin (x != y) 0 0
    else
      let (q, g) := stickyDiv m n
      f32 (roundFin .f32 .rne false (x != y) q (e - f + g)).1
  | v, _ => v
/-- A value scaled by 2^n. -/
def FVal.scale (n : Int) : FVal → FVal
  | .fin s m e => .fin s m (e + n)
  | v => v

/-- A result in FP32 and its flags, before narrowing. -/
abbrev Fun32 := FVal → Nat × Flags

/-- VEXP2 (R91). -/
def exp2 : Fun32
  | .nan s => nanOf .f32 s
  | .inf neg => (if neg then 0 else Ty.inf .f32 false, Flags.none)
  | .fin neg m e =>
    let x : FVal := .fin neg m e
    if !fLt x (.fin false 129 0) then (Ty.inf .f32 false, ⟨false, false, true, false, true⟩)
    else if !fLt (.fin true 151 0) x then (0, ⟨false, false, false, true, true⟩)
    else
      let (n, ch) := roundInt .rne neg m e
      let f := (exactAdd .rne x (signedVal (-n) 0 false)).1
      let p := fma32 (f32 0x39218489) f (f32 0x3AAEC3FF)
      let p := fma32 p f (f32 0x3C1D955B)
      let p := fma32 p f (f32 0x3D635847)
      let p := fma32 p f (f32 0x3E75FDF0)
      let p := fma32 p f (f32 0x3F317218)
      let p := fma32 p f (f32 0x3F800000)
      let (r, fl) := roundVal .f32 .rne false (p.scale n)
      (r, fl.or ⟨false, false, false, false, ch⟩)

/-- The mantissa from 1 to 2 and the exponent of a positive value. -/
def splitPow (m : Nat) (e : Int) : FVal × Int := (.fin false m (-Int.ofNat (Nat.log2 m)), topExp m e)

/-- VLOG2 (R92). -/
def log2F : Fun32
  | .nan s => nanOf .f32 s
  | .inf neg => if neg then nanOf .f32 true else (Ty.inf .f32 false, Flags.none)
  | .fin neg m e =>
    if m = 0 then (Ty.inf .f32 true, Flags.divZero)
    else if neg then nanOf .f32 true
    else
      let (mt, ex) := splitPow m e
      let big := fLt (f32 0x3FB504F3) mt
      let mt := if big then mt.scale (-1) else mt
      let ex := if big then ex + 1 else ex
      let t := (exactAdd .rne mt (.fin true 1 0)).1
      let d := add32 t (.fin false 2 0)
      let s := div32 t d
      let z := mul32 s s
      let q := fma32 (f32 0x3EA4258A) z (f32 0x3ED30BB1)
      let q := fma32 q z (f32 0x3F13BB63)
      let q := fma32 q z (f32 0x3F76384F)
      let q := fma32 q z (f32 0x4038AA3B)
      let y := mul32 s q
      let (r, fl) := roundVal .f32 .rne false (exactAdd .rne (signedVal ex 0 false) y).1
      let pow := decide (m = 2 ^ Nat.log2 m)
      (r, fl.or ⟨false, false, false, false, !pow && r % 2 ^ 31 != 0⟩)

/-- One Newton step of VRSQRT (R93). -/
def rsqrtStep (h y : FVal) : FVal :=
  let a := mul32 y y
  let b := fma32 h.negate a (f32 0x3FC00000)
  mul32 y b

/-- VRSQRT (R93). -/
def rsqrt : Fun32
  | .nan s => nanOf .f32 s
  | .inf neg => if neg then nanOf .f32 true else (0, Flags.none)
  | .fin neg m e =>
    if m = 0 then (Ty.inf .f32 neg, Flags.divZero)
    else if neg then nanOf .f32 true
    else
      let (mt, ex) := splitPow m e
      let odd := decide (ex % 2 ≠ 0)
      let mt := if odd then mt.scale 1 else mt
      let ex := if odd then ex - 1 else ex
      let h := mt.scale (-1)
      let y := fma32 (fma32 (f32 0x3D6A0EA1) mt (f32 0xBEE79E7A)) mt (f32 0x3FB29729)
      let y := rsqrtStep h (rsqrtStep h (rsqrtStep h y))
      let (r, fl) := roundVal .f32 .rne false (y.scale (-(ex / 2)))
      (r, fl.or Flags.inexact)

/-- The three functions on a lane of any FP type: widened exactly, run in FP32, rounded once under RNE (R94). DESIGN CHOICE (log 72): the
flags are those of the FP32 procedure, its last rounding among them, with those of the narrowing. -/
def laneFun (g : Fun32) (ty : Ty) (x : Nat) : Nat × Flags :=
  let (r, fl) := g (Ty.value ty x)
  if ty = .f32 then (r, fl)
  else
    let (b, fl') := convert .f32 ty .rne false r
    (b, fl.or fl')

end Sys2Proof.Machine
end

