-- ==== Sys2Proof/Machine/State.lean ====
section
/-! DEFINITION. The state of the package as plain data: contexts, tiles, memory, the hub, the networks and the
links, and what is in flight between them. A list of (key, value) pairs is kept sorted by key and lists no entry
equal to its default, so that equal states are equal data. -/

namespace Sys2Proof.Machine

/-- A sparse map: keys rising, no entry at the default. -/
abbrev Assoc (α : Type) := List (Nat × α)

/-- Bytes by address in one canonical form: addresses rising, and no byte equal to 0, which an unlisted address
reads as (R323 stage 3 zeroes main memory, the flag window and every LS; log 6). -/
abbrev Memory := List Host.Cell

/-- Under what an access is translated (R163, R166): the queue number that tags its TLB entries, the root table of its
launch or queue, and the class in which its walks start. -/
structure Tag where
  queue : QueueNo
  root : Nat
  cls : BitVec 2
deriving DecidableEq, Repr

/-! ### Contexts -/

/-- The states of a context (R99). -/
inductive CtxState where
  | free | ready | parked | held | stopped | ending
deriving DecidableEq, Repr

/-- What a parked context waits for (R108). -/
inductive Reason where
  /-- synchronised source registers, as bits of the x registers (R113) -/
  | sources (regs : BitVec 32)
  /-- synchronised destination registers (R114) -/
  | dests (regs : BitVec 32)
  /-- counters below capacity (R123) and, for a translated request, log space (R301) -/
  | capacity (ld st cp mx log : Bool)
  /-- WAITC (R125) -/
  | waitc (ld st cp mx : BitVec 5)
  /-- GIVE to a full inbox -/
  | inbox (c : CtxNo) (r : BitVec 5)
  /-- every counter 0: TEXIT, HOP -/
  | drained
  /-- ld = st = 0: PADV, PJOIN, PLEAVE, BARA -/
  | ldst
  /-- st = 0: TSPAWN (R187) -/
  | st
  /-- TREAP of a context -/
  | reap (c : CtxNo)
  /-- BARA after an arrival in a generation -/
  | barrier (gen : Nat)
  /-- CWAIT -/
  | cwait (a t : Word)
  /-- QPUTW until the reply -/
  | queue
  /-- WRS; with a time limit for WRS.STO -/
  | wrs (limit : Bool)
  /-- JWAIT until the card is accepted -/
  | accept (job : BitVec 16)
  /-- JWAIT until the job is done or its promise passes -/
  | promise (job : BitVec 16) (p : Word)
  /-- TSLEEP -/
  | sleep (t : Word)
  /-- PADV: neighbour agreement -/
  | neighbours
  /-- PADV: a pick hold (R309, R381) -/
  | hold
  /-- HOP: arrival or refusal -/
  | hop
  /-- FENCE, FENCEX (R181) -/
  | fence (sc : Scope) (pred : BitVec 4)
deriving DecidableEq, Repr

/-- A park: its reason and the loom time at which it began. -/
structure Park where
  reason : Reason
  since : Nat
deriving DecidableEq, Repr

/-- The operations of the AMO group (R332). -/
inductive AmoOp where
  | swap | add | xor | and | or | min | max | minu | maxu
deriving DecidableEq, Repr

/-- A draft: its header word and node words (R224, R225). -/
structure Draft where
  header : Word
  nodes : List Word
deriving DecidableEq, Repr

/-- What a request in flight does. -/
inductive ReqKind where
  | load (signed : Bool)
  | store
  /-- a value for a channel register, of a store or of a GIVE (R116) -/
  | delivery (tile : TileNo) (ctx : CtxNo) (reg : BitVec 5) (give : Bool)
  | window (tile : TileNo)
  | control (tile : TileNo)
  | amo (op : AmoOp)
  | amodr (d : Draft)
  | lr
  | sc
  | vload
  | vstore
  | mflush
  | minv
  | qsig
  | pread (owner : TileNo) (word : BitVec 3) (off : BitVec 16) (slot : Int)
  | hload (slot : BitVec 3)
  | qput (q : QueueNo) (cmd : List Byte)
  | qputw (q : QueueNo) (cmd : List Byte)
  | barrier
deriving DecidableEq, Repr

/-- Where a request stands. -/
inductive Phase where
  | issued
  /-- in the FIFO of its word's home (R169) -/
  | queued
  /-- granted the word's value -/
  | granted (v : Word)
  /-- released with a new value, the old element in hand -/
  | released (w v : Word)
  /-- applied at the home; the Ack is on its way -/
  | applied (v : Word)
  /-- an answer is on its way back -/
  | answered (v : Word) (flags : BitVec 3)
  /-- PREAD: slot recycled at the owner (R263) -/
  | recycled
  /-- a QPUTW that waits for space at the queue processor -/
  | waiting
  /-- refused with a cause at an address, and delivered to the context or not yet -/
  | refused (cause : BitVec 8) (addr : Word)
deriving DecidableEq, Repr

/-- Where a result goes. -/
inductive Dst where
  | none
  /-- an x register; `sync`: a synchronised channel register when the instruction issued (R114) -/
  | x (r : BitVec 5) (sync : Bool)
  | v (r : BitVec 4)
deriving DecidableEq, Repr

/-- One element of a memory access: its address, its size in bytes, the register byte it starts at, whether it is
performed, and the bytes it read or writes. -/
structure Elem where
  addr : Word
  size : Nat
  pos : Nat
  done : Bool
  bytes : List Byte
deriving DecidableEq, Repr

/-- A request in flight, which is an entry of the outstanding-request log when it is translated (R301). -/
structure Req where
  seq : BitVec 16
  kind : ReqKind
  pc : Word
  /-- the issue number: program order among requests, cards and matrix operations of one context -/
  num : Nat
  size : Nat
  data : Word
  dst : Dst
  elems : List Elem
  aq : Bool
  rl : Bool
  phase : Phase
  logged : Bool
  slot : BitVec 4
  /-- source registers a translated VM form holds (R301), x and v and k -/
  srcX : BitVec 32
  srcV : BitVec 16
  srcK : BitVec 8
  /-- `frnd`.MODE and NP at issue -/
  frnd : BitVec 4
  /-- issued by the monitor -/
  sup : Bool
deriving DecidableEq, Repr

/-- A job record of a context (R210). -/
structure JobRec where
  job : BitVec 16
  done : Bool
  promise : Option Word
  status : BitVec 8
  flags : BitVec 5
deriving DecidableEq, Repr

/-- A late cause that waits for its context (R212, R302). -/
structure Late where
  cause : BitVec 8
  val : Word
  /-- the sequence number and log entry of a logged request -/
  req : Option (BitVec 16 × BitVec 4)
  /-- the issue number and PC of the instruction that caused it, for PRECISE (R302) -/
  num : Option (Nat × Word)
  /-- of a monitor request: a double trap (R304) -/
  sup : Bool
deriving DecidableEq, Repr

/-- Where a word, or a byte, lives: one place of storage (R168, R176). -/
inductive Place where
  | ls (t : TileNo) (off : Nat)
  | istore (t : TileNo) (off : Nat)
  | history (t : TileNo) (off : Nat)
  | pick (t : TileNo) (off : Nat)
  | window (t : TileNo) (off : Nat)
  | acc (t : TileNo) (off : Nat)
  | heddle (t : TileNo) (off : Nat)
  | control (t : TileNo) (off : Nat)
  | main (loc : Nat)
  | flag (off : Nat)
deriving DecidableEq, Repr

/-- The grant of an LR (R170, R368). -/
structure Grant where
  word : Place
  seq : BitVec 16
  writable : Bool
  since : Nat
deriving DecidableEq, Repr

/-- A fence that has ended while cards or operations outside its domain go on: the same-byte rule of R181. -/
structure FenceMark where
  num : Nat
  pred : BitVec 4
  succ : BitVec 4
deriving DecidableEq, Repr

/-- A shuttle of HOP (R270). -/
structure Shuttle where
  fromTile : TileNo
  fromCtx : CtxNo
  dest : TileNo
  launch : Nat
  pc : Word
  regs : Assoc Word
  frnd : BitVec 4
  fstat : BitVec 12
  livemask : BitVec 24
  pwatch : Nat
  qmode : BitVec 8
  /-- the register that named the target, consumed when the source is left -/
  base : BitVec 5
  /-- a refusal on its way back -/
  refused : Bool
deriving DecidableEq, Repr

/-- Shuttle state of a context in HOP: none, a shuttle sent after so many refusals, or a refused one waiting to be
sent again at a loom time (R270). -/
inductive HopState where
  | none
  | sent (refusals : Nat)
  | backoff (sh : Shuttle) (refusals : Nat) (resend : Nat)
deriving DecidableEq, Repr

/-- A hardware context (R98). -/
structure Ctx where
  pc : Word
  /-- the PC of the monitor's code, on context 0 in supervisor mode (R294) -/
  monPc : Word
  sup : Bool
  x : Assoc Word
  v : Assoc VecBits
  k : Assoc Word
  full : BitVec 8
  qmode : BitVec 8
  frnd : BitVec 4
  fstat : BitVec 12
  livemask : BitVec 24
  pstat : BitVec 16
  pwatch : Nat
  macc : BitVec 4
  instret : Word
  ld : Nat
  st : Nat
  cp : Nat
  mx : Nat
  state : CtxState
  park : Option Park
  /-- a wake that re-execution must not lose (R109) -/
  woken : Bool
  busy : Nat
  /-- its instruction has issued and waits, occupying the context, without a slot of its own (R100, R347; log 52) -/
  held : Bool
  /-- that instruction is FENCE.I, of which no boundary comes before its end (R294, R302, R347) -/
  fencing : Bool
  reqs : List Req
  seq : BitVec 16
  num : Nat
  jobs : List JobRec
  late : List Late
  grant : Option Grant
  fences : List FenceMark
  endStatus : Word
  /-- older I-store bytes that an unordered fetch may still return (R127) -/
  stale : List Host.Cell
  hop : HopState
  /-- what the end status becomes when an ENDING context is FREE (R300, R391) -/
  killStatus : Word
  /-- the monitor serves a trap record of this context (R391) -/
  served : Bool
  /-- context 0: the state of its task while the monitor runs on it (R294) -/
  under : CtxState
  /-- its registers or counters are damaged (R311) -/
  dead : Bool
deriving DecidableEq, Repr

/-! ### Tiles -/

/-- A unit that posts a write in a reservation FIFO, which the home applies at its head (R171), or a delivery in an inbox
(R119): a card or a matrix operation of the entry's tile and context, named by its job or issue number, the COPY, the TIMED or the SIGNAL command
of a queue, a post to a queue, the placement of a launch, the host, the network interface for a spill, or the router for a
tile table entry. -/
inductive Poster where
  | card (job : BitVec 16)
  | matrix (num : Nat)
  | copy (q : QueueNo)
  | timed (q : QueueNo)
  | signal (q : QueueNo)
  | post
  | launch (id : Nat)
  | host
  | spill
  | router (n : BitVec 6)
deriving DecidableEq, Repr

/-- An inbox entry (R119). -/
structure InboxEntry where
  ctx : CtxNo
  reg : BitVec 5
  value : Word
  fromTile : TileNo
  fromCtx : CtxNo
  /-- the store or GIVE it belongs to, or the unit whose word it is -/
  seq : Option (BitVec 16)
  src : Option Poster
  /-- it was decided synchronised when it reached the tile (R312) -/
  decided : Bool
deriving DecidableEq, Repr

/-- A pending trap record or interrupt (R294, R295). -/
structure Record where
  intr : Bool
  code : BitVec 8
  val : Word
  seq : Word
  pc : Word
  stat : Word
  ctx : CtxNo
deriving DecidableEq, Repr

/-- A heddle slot (R222, R223). -/
structure Heddle where
  owned : Bool
  launch : BitVec 2
  loaded : Bool
  draft : Draft
  src : Word
deriving DecidableEq, Repr

/-- A launch resident on a tile (R23, R143). -/
structure Resident where
  id : Nat
  queue : QueueNo
  /-- the PTROOT of its queue when it was launched (R163) -/
  ptroot : Nat
  group : Nat
  size : Nat
  weight : Nat
  cls : BitVec 2
  ioff : Nat
  isize : Nat
  tidFirst : Nat
  tidCnt : Nat
  ttFirst : Nat
  ttCnt : Nat
  slotmask : BitVec 8
  picks : Bool
  rect : Nat × Nat × Nat × Nat
  lidx : List Nat
  ldim : List Nat
  thread : Option Nat
  /-- its task has ended and its reservations are released; it is kept while a context of its group still ends or a router
  holds an entry of it (R23, R143) -/
  ended : Bool
deriving DecidableEq, Repr

/-- A barrier of a context group (R128, R129). -/
structure Barrier where
  mask : BitVec 16
  word : Word
  arrived : BitVec 16
  gen : Nat
deriving DecidableEq, Repr

/-- A TID entry as copied at issue (R196). -/
structure Tid where
  w0 : Word
  w1 : Word
  w2 : Word
  w3 : Word
deriving DecidableEq, Repr

/-- An operand: a descriptor pair and its TID entry (R197). -/
structure Operand where
  w0 : Word
  w1 : Word
  tid : Tid
deriving DecidableEq, Repr

/-- The kinds of card (R206). -/
inductive CardKind where
  | xcopy | xfill | wenc | fold | scan | zip | outer | xcopym | trig
deriving DecidableEq, Repr

/-- The life of a card (R207, R208, R211, R216). -/
inductive CardState where
  /-- a TRIG card that has not fired -/
  | unfired
  /-- a TRIG card whose counter has been seen at its threshold, and that has not fired yet -/
  | armed
  | queued
  /-- released by the scheduler -/
  | scheduled
  /-- accepted by an engine -/
  | running
  | stopped
  /-- an XCOPYM whose copy has landed and whose matrix operations are in the unit's order -/
  | follow
deriving DecidableEq, Repr

/-- A job card (R206). -/
structure Card where
  job : BitVec 16
  ctx : CtxNo
  num : Nat
  kind : CardKind
  src : Operand
  src2 : Operand
  dst : Operand
  fill : Word
  handle : Word
  count : Option Nat
  arg : BitVec 32
  /-- XCOPYM: the command word and the other pair; TRIG: the trigger word -/
  cmd : Word
  other : Operand
  reads : List (Nat × Nat)
  writes : List (Nat × Nat)
  queue : Tag
  cls : BitVec 2
  since : Nat
  state : CardState
  engine : BitVec 5
  promise : Option Word
  /-- units done (elements, rows or lines, as the kind has it) and the flags so far -/
  prog : Nat
  /-- units from `prog` on that are done already, where a kind's order is free; of a SCAN, the computed elements that it has
  written (R177, R388) -/
  ahead : List Nat
  /-- the partial results of the line in hand; WENC: the offset of the next row -/
  part : List Nat
  /-- FOLD: the results of finished lines; SCAN: the elements computed, in the destination's format; ZIP, OUTER: the destination's elements from before
  the card -/
  old : List Nat
  flags : BitVec 5
  draft : Option Draft
  /-- bytes written to register windows, channel offsets among them, whose aligned words are not written or delivered yet, by
  address (R116, R118) -/
  words : List Host.Cell
  /-- the aligned words it has written (R184) -/
  wrote : List Place
  status : BitVec 8
  refused : Word
  elem : Nat
  node : BitVec 8
  /-- the line and the partial result that DLINE and DPART read (R244) -/
  line : Nat
  dpart : Nat
  /-- built by the monitor -/
  sup : Bool
deriving DecidableEq, Repr

/-- The matrix operations (R201, R203) and, in the unit's order, a card with ENGINE = 1 (R242). -/
inductive MatKind where
  | mzero | mma | mmav | mmas | mread | mwrite | card
deriving DecidableEq, Repr

/-- A matrix operation in the tile's issue order (R204). -/
structure MatOp where
  ctx : CtxNo
  num : Nat
  kind : MatKind
  m : BitVec 2
  a : Operand
  b : Operand
  mrec : Word
  vregs : List VecBits
  reads : List (Nat × Nat)
  writes : List (Nat × Nat)
  started : Option Nat
  /-- the card that carries it: XCOPYM, or ENGINE = 1 -/
  job : Option (BitVec 16)
  /-- issued by the monitor -/
  sup : Bool
  /-- MREAD: its flags and inexactness, once it has posted its writes (R171) -/
  posted : Option (BitVec 5 × Bool)
deriving DecidableEq, Repr

/-- State of a tile table entry (R281). -/
inductive TtPhase where
  | idle | up | down | done | failed
deriving DecidableEq, Repr

/-- What a tile table entry holds beside its image (R281, R284, R285). -/
structure TtState where
  phase : TtPhase
  gen : BitVec 16
  flags : BitVec 5
  altUsed : Bool
  /-- chunks sent up or, at the root, combined; chunks written to DST -/
  sent : Nat
  written : Nat
  /-- loom time of the last thing heard (R285) -/
  heard : Nat
  launch : Nat
  /-- the context whose TREADY fired the generation, and the issue number of that TREADY -/
  ctx : CtxNo
  num : Nat
  /-- the draft, once the router has fetched and checked it (R427) -/
  draft : Option Draft
  /-- loom time at which the router began to wait for the chunk in hand -/
  since : Nat
  /-- loom time of the TREADY, by which the generations and the cards of a tile have their order (R184, R280) -/
  fired : Nat
deriving DecidableEq, Repr

/-- An entry that has never been set (R399). -/
def TtState.zero : TtState := ⟨.idle, 0, 0, false, 0, 0, 0, 0, 0, 0, none, 0, 0⟩

/-- A packet of a collective, in flight, held at a router or retained by its sender. -/
structure Chunk where
  kind : ChunkKind
  /-- the node that sends it, the node whose work it is, and the tile whose router takes it: the node's own or its
  alternate placement -/
  fromTile : TileNo
  node : TileNo
  dest : TileNo
  /-- the scale-out port it came by or leaves by -/
  port : Option (BitVec 4)
  entry : BitVec 6
  gen : BitVec 16
  num : Nat
  /-- the sender's child slot in its parent's entry (R284) -/
  slot : Nat
  data : List Nat
  /-- the class and the injection loom time of its header (R251, R287) -/
  cls : BitVec 2
  born : Nat
  since : Nat
  acked : Bool
  /-- sent over an alternate placement -/
  moved : Bool
  /-- result elements or words already delivered from it -/
  prog : Nat
deriving DecidableEq, Repr

/-- What a tile knows of a neighbour's picks (R261, R267). -/
structure Nbr where
  joined : Bool
  done : Bool
  slack : Bool
  pick : Nat
deriving DecidableEq, Repr

/-- A start message (R143). -/
structure StartMsg where
  tile : TileNo
  group : Nat
  entry : Word
  arg : Word
  launch : Nat
deriving DecidableEq, Repr

/-- One translation: tag, virtual page, page size in bits, frame and rights (R166). -/
structure TlbEntry where
  queue : QueueNo
  page : Nat
  bits : Nat
  frame : Nat
  near : Bool
  sysat : Bool
  hv : Bool
  w : Bool
  r : Bool
deriving DecidableEq, Repr

/-- A tile (R16, R98). -/
structure Tile where
  ctxs : Assoc Ctx
  ls : Memory
  istore : Memory
  hist : Memory
  pickWin : Memory
  /-- element 1024 × m + 32 × i + j is {S, E} (R85) -/
  acc : Assoc (BitVec 80)
  heddle : Assoc Heddle
  slots : Assoc Word
  lastSlot : Assoc Nat
  pwlog : Nat
  inbox : List InboxEntry
  ocperm : BitVec 12
  tcause : Word
  tval : Word
  tseq : Word
  tstat : Word
  tvec : Word
  tctx : Word
  mbase : Word
  monitor : Bool
  /-- the first monitor instruction since the entry has not been fetched (R304) -/
  entering : Bool
  recs : List Record
  tcmp : Word
  stop : BitVec 16
  drained : Bool
  pbuf : Word
  /-- the launch that the last STOP write stopped, whose save uses the buffer (R306; log 19) -/
  saving : Option Nat
  dspill : Nat
  sspill : Nat
  phold : Word
  qstat : Word
  uncorr : Nat
  corr : Nat
  poison : List Place
  badTids : List Nat
  badTts : List Nat
  tids : Assoc Tid
  /-- words of the tile table, entry n at 8 × n -/
  tts : Assoc Word
  ttState : Assoc TtState
  chunks : List Chunk
  retained : List Chunk
  split : Nat
  residents : List Resident
  barriers : Assoc Barrier
  jobCtr : BitVec 16
  cards : List Card
  clog : Assoc Word
  ccount : Nat
  selected : Option (BitVec 16)
  mats : List MatOp
  pick : Nat
  joined : Bool
  pdone : Bool
  slack : Bool
  nbrs : Assoc Nbr
  arrivals : List Shuttle
  /-- cards that a stop has withdrawn, in issue order (R306, R308) -/
  withdrawn : List Card
  /-- the stopped contexts for which deliveries land again, those of a launch from the PRES write of its buffer on; spilled
  deliveries that find no room yet, in order (R308) -/
  restoring : BitVec 16
  landing : List InboxEntry
  waitStart : Option StartMsg
  tlb : List TlbEntry
  lastIssue : Nat
deriving DecidableEq, Repr

/-! ### Memory and homes -/

/-- A line of a memory-side buffer (R159). -/
structure Line where
  bytes : List Byte
  dirty : BitVec 64
  hv : Bool
deriving DecidableEq, Repr

/-- An entry of a reservation FIFO (R169, R171, R174). -/
structure FifoEntry where
  tile : TileNo
  ctx : CtxNo
  seq : BitVec 16
  granted : Bool
  sysat : Bool
  /-- the W bit of the translation the request used (R368) -/
  writable : Bool
  /-- the plain store that waits here, or the host operation with its byte in the word -/
  store : Option (List Host.Cell)
  host : Option (HostAtomic × Nat)
  /-- of a posted write, whose bytes then stand in `store` by their place in the word; a TIMED, a SIGNAL and a post to a queue hold their
  place here without bytes -/
  poster : Option Poster
  /-- attribute HV of the page it was reached through (R159) -/
  hv : Bool
deriving DecidableEq, Repr

/-- The home of an 8-byte word (R168 to R172, R283). -/
structure Home where
  word : Place
  fifo : List FifoEntry
  watchers : List (TileNo × CtxNo)
  watches : List (TileNo × CtxNo)
  /-- requests applied and the loom time of their Acks, kept against duplicates (R172) -/
  applied : List ((TileNo × CtxNo × BitVec 16) × Nat)
deriving DecidableEq, Repr

/-- A pending entry of a region (R166): the first address of the page that is missing, when it was opened, and whether
a walker of the die works on it. -/
structure Walk where
  tag : Tag
  base : Nat
  since : Nat
  started : Bool
deriving DecidableEq, Repr

/-- A region's TLB and its pending walks (R166). -/
structure Region where
  tlb : List TlbEntry
  pending : List Walk
deriving DecidableEq, Repr

/-! ### The hub -/

/-- Where the command of a mapped queue stands (R134, R135): held back by NOTBEFORE, ready to start, started, waiting (a
WAIT, a TIMED, or a LAUNCH under step 2 of R143), or with
its work done. -/
inductive CmdPhase where
  | held | ready | started | waiting | done
deriving DecidableEq, Repr

/-- The command a mapped queue runs (R134, R135): its words, and of a LAUNCH the launch it has placed. -/
structure Cmd where
  words : List Word
  phase : CmdPhase
  launch : Option Nat
deriving DecidableEq, Repr

/-- A hardware queue slot (R138): the descriptor as read at mapping. -/
structure QSlot where
  queue : QueueNo
  desc : List Word
  readIdx : Nat
  cmd : Option Cmd
deriving DecidableEq, Repr

/-- A launch in progress (R143). -/
structure Launch where
  id : Nat
  queue : QueueNo
  index : Nat
  async : Bool
  cls : BitVec 2
  ptroot : Nat
  picks : Bool
  tasks : List (TileNo × Nat)
  live : List TileNo
  started : Bool
  quarantined : Bool
  /-- of a launch with picks that is pre-empted: the tiles whose save has been ordered and whose resume has not, whether the
  resumes have begun, and whether a save has been ordered since the hub last cleared PHOLD (R23, R309) -/
  saved : List TileNo
  resuming : Bool
  ordered : Bool
deriving DecidableEq, Repr

/-- The TDISP states (R326). -/
inductive Tdi where
  | unlocked | locked | run | error
deriving DecidableEq, Repr

/-- A scale-out link (R287 to R289). -/
structure Link where
  trained : Bool
  key : BitVec 256
  sendSeq : BitVec 12
  /-- the sequence number of the last flit received in order, which the next flit sent acknowledges -/
  recvSeq : BitVec 12
  replay : List (BitVec 12 × Nat)
  sent : BitVec 32
  credits : BitVec 32
  recv : BitVec 32
  returned : BitVec 32
  /-- for each virtual channel (R288): the partner's slots that this sender has filled, and the slots freed here whose
  credits are still to be returned -/
  used : Assoc Nat
  owed : Assoc Nat
  /-- link flits since the last tag flit (R287) -/
  sinceTag : Nat
  mismatches : List Nat
  auditDue : Bool
  retraining : Bool
  lastCorrect : Nat
  /-- the one-way delay measured at training (R289) -/
  delay : Nat
  /-- packets that wait, for a retrain to end or for credits, in order, with their bytes (R288) -/
  held : List (Nat × Chunk)
deriving DecidableEq, Repr

/-- What the flits of a packet carry over a link (R287): the sequence number of the last of them, how many they are, the
acknowledged sequence number, the credit return, and the packet's virtual channel. -/
structure LinkHead where
  seq : BitVec 12
  flits : Nat
  ack : BitVec 12
  credit : BitVec 8
  vc : Vc
deriving DecidableEq, Repr

/-- What leaves the package: completions and interrupts to the host, packets to other packages. -/
inductive Out where
  | data (bytes : List Byte)
  | value (w : Word)
  | unsupported
  | done
  | msix (vector : Nat)
  | measurement (index : Nat) (digest : BitVec 256) (signature : BitVec 3072)
  | session (chain : List Byte) (signature : BitVec 3072)
  | tdispError
  | chunk (c : Chunk) (h : LinkHead)
  | tag (port : BitVec 4)
  | audit (port : BitVec 4) (sent credits : BitVec 32) (time : Word)
  | credit (port : BitVec 4) (vc : Vc) (slots : Nat)
  | replayed (port : BitVec 4) (flits : List (BitVec 12))
deriving DecidableEq, Repr

/-- The Goavo hub (R9, R131, R320 to R328). -/
structure Hub where
  serial : Word
  bootCode : BitVec 8
  stage : BitVec 8
  ready : Bool
  pkgTile : TileNo
  pkgQuar : Bool
  pkgTherm : Bool
  pkgLink : Bool
  pkgMem : Bool
  pkgCode : BitVec 8
  qtbase : Word
  qtcount : Nat
  framectl : Word
  timectl : Word
  /-- TIMECTL as the last training took it, whether loom time agrees with the master, and a count still to skip (R289) -/
  timeRole : Word
  synced : Bool
  skip : Bool
  monload : Word
  pstate : BitVec 2
  /-- the PSTATE in force: the one before while a move into P2 waits for the last launch (R328) -/
  pforce : BitVec 2
  actual : BitVec 2
  thermForce : Bool
  powered : Bool
  tlim : BitVec 8
  tmax : BitVec 8
  fsite : Assoc Nat
  tdi : Tdi
  ide : Bool
  session : Option (BitVec 256)
  meas2 : BitVec 256
  meas3 : BitVec 256
  meas5 : BitVec 256
  monitor : Option (Nat × Nat)
  slots : List QSlot
  pending : List QueueNo
  /-- queues whose notify word has been written -/
  notes : List QueueNo
  /-- queues that the queue processor put in error, and whose descriptors it has not read since (R131, R137) -/
  failed : List QueueNo
  posts : List (TileNo × CtxNo × BitVec 16)
  launches : List Launch
  nextLaunch : Nat
  lastStarted : Assoc Nat
  budgets : Assoc Nat
  waitSince : Assoc Nat
deriving DecidableEq, Repr

/-- The parts of the family (R2). -/
inductive Part where
  | spn4800 | spn4400 | spn2400
deriving DecidableEq, Repr

/-- A pick update on the PICK channel (R261). -/
structure PickUpdate where
  fromTile : TileNo
  dest : TileNo
  nbr : Nbr
deriving DecidableEq, Repr

/-- One entry of the agenda (log 1): a tile's issue port takes its cycle, a context whose instruction waits tries it again, the
clock ticks, or a unit takes a step. -/
inductive Move where
  | issue (t : TileNo)
  | retry (t : TileNo) (c : CtxNo)
  | tick
  | event (i : Instr)
deriving DecidableEq, Repr

/-- The whole package. `agenda`, `turn`, `cur` and `freeCtr` are the model's own fields (logs 1 and 3). -/
structure State where
  agenda : List Move
  turn : Nat
  cur : TileNo × CtxNo
  freeCtr : Nat
  time : Nat
  part : Part
  silrev : BitVec 4
  tiles : Assoc Tile
  backing : Memory
  lines : Assoc Line
  badMain : List Nat
  flag : Memory
  regions : Assoc Region
  homes : List Home
  picks : List PickUpdate
  shuttles : List Shuttle
  chunks : List Chunk
  starts : List StartMsg
  hub : Hub
  links : Assoc Link
  out : List Out
deriving DecidableEq, Repr

/-- Why a step stops the model with a fault. -/
inductive Fault where
  /-- `step` raises it when the agenda names an encoded instruction as a unit's step: no unit takes such a step
  (log 1). Safe: it is no behaviour of the machine, and nothing follows it. -/
  | notAStep
deriving DecidableEq, Repr

/-- Why a step has no meaning in the model. -/
inductive Refusal where
  /-- an arm of `exec` raises it for an instruction that has no meaning yet. Safe: nothing follows it. -/
  | notModelled (mnemonic : String)
deriving DecidableEq, Repr

/-! ### Reset -/

/-- A context after reset: FREE, every register at its reset value (R71, R75, R107, R111, R265, R266, R269; log 6). -/
def Ctx.reset : Ctx :=
  { pc := 0, monPc := 0, sup := false, x := [], v := [], k := [], full := 0, qmode := 0, frnd := 0, fstat := 0,
    livemask := 0xFFFFFE, pstat := 0, pwatch := 20, macc := 0, instret := 0, ld := 0, st := 0, cp := 0, mx := 0,
    state := .free, park := none, woken := false, busy := 0, held := false, fencing := false, reqs := [], seq := 0, num := 0, jobs := [], late := [],
    grant := none, fences := [], endStatus := 0, stale := [], hop := .none, killStatus := 0, served := false, under := .free, dead := false }

/-- A tile after reset (R102, R110, R152, R194, R199, R223, R277, R297, R298, R305 to R310). -/
def Tile.reset : Tile :=
  { ctxs := [], ls := [], istore := [], hist := [], pickWin := [], acc := [], heddle := [], slots := [],
    lastSlot := [], pwlog := 22, inbox := [], ocperm := 0xB4F, tcause := 0, tval := 0, tseq := 0, tstat := 0,
    tvec := 0, tctx := 0, mbase := 0, monitor := false, entering := false, recs := [], tcmp := 0, stop := 0, drained := false, pbuf := 0,
    saving := none, dspill := 0, sspill := 0, phold := 0, qstat := 0, uncorr := 0, corr := 0, poison := [], badTids := [],
    badTts := [], tids := [], tts := [], ttState := [], chunks := [], retained := [], split := 0, residents := [],
    barriers := [], jobCtr := 0, cards := [], clog := [], ccount := 0, selected := none, mats := [],
    pick := 0, joined := false, pdone := false, slack := false, nbrs := [], arrivals := [], withdrawn := [], restoring := 0, landing := [], waitStart := none,
    tlb := [], lastIssue := 0 }

def Link.reset : Link :=
  { trained := false, key := 0, sendSeq := 0, recvSeq := 0, replay := [], sent := 0, credits := 0, recv := 0,
    returned := 0, used := [], owed := [], sinceTag := 0, mismatches := [], auditDue := false, retraining := false, lastCorrect := 0, delay := 0, held := [] }

/-- The hub after reset (R256, R320 to R328; logs 6 and 7). -/
def Hub.reset : Hub :=
  { serial := 1, bootCode := 0, stage := 0, ready := false, pkgTile := 0, pkgQuar := false, pkgTherm := false,
    pkgLink := false, pkgMem := false, pkgCode := 0, qtbase := 0, qtcount := 0, framectl := 0x10000, timectl := 0, timeRole := 0, synced := false, skip := false,
    monload := 0, pstate := 0, pforce := 0, actual := 0, thermForce := false, powered := true, tlim := 95, tmax := 0, fsite := [],
    tdi := .unlocked, ide := false, session := none, meas2 := 0, meas3 := 0, meas5 := 0, monitor := none, slots := [],
    pending := [], notes := [], failed := [], posts := [], launches := [], nextLaunch := 0, lastStarted := [], budgets := [], waitSince := [] }

/-- The machine right after reset: loom time 0 (R20), every tile, the hub and the links at reset, memory with
nothing listed, an SPN-4800 (log 7), no agenda. -/
def State.reset : State :=
  { agenda := [], turn := 0, cur := (0, 0), freeCtr := 0, time := 0, part := .spn4800, silrev := 0, tiles := [],
    backing := [], lines := [], badMain := [], flag := [], regions := [], homes := [], picks := [], shuttles := [],
    chunks := [], starts := [], hub := Hub.reset, links := [], out := [] }

end Sys2Proof.Machine
end

