-- ==== Sys2Proof/Machine/Ops.lean ====
section
/-! DEFINITION. The named operations over registers, memory and contexts that every meaning is written with, taking
an exception and returning from one. -/

namespace Sys2Proof.Machine

/-! ### Sparse maps and memory -/

/-- The value at a key, or the default. -/
def Assoc.get {α : Type} (d : α) (k : Nat) : Assoc α → α
  | [] => d
  | (j, v) :: r => if j = k then v else Assoc.get d k r

/-- Put a value at a key, where keys rise. -/
def Assoc.put {α : Type} (k : Nat) (v : α) : Assoc α → Assoc α
  | [] => [(k, v)]
  | (j, u) :: r => if j < k then (j, u) :: Assoc.put k v r else if j = k then (k, v) :: r else (k, v) :: (j, u) :: r

/-- Remove a key. -/
def Assoc.erase {α : Type} (k : Nat) : Assoc α → Assoc α
  | [] => []
  | (j, u) :: r => if j = k then Assoc.erase k r else (j, u) :: Assoc.erase k r

/-- Store a value at a key, keeping keys rising and listing no default. -/
def Assoc.set {α : Type} [DecidableEq α] (d : α) (k : Nat) (v : α) (l : Assoc α) : Assoc α :=
  if v = d then Assoc.erase k l else Assoc.put k v l

/-- Whether keys rise from a bound and no entry is the default. -/
def Assoc.okFrom {α : Type} [DecidableEq α] (d : α) : Nat → Assoc α → Bool
  | _, [] => true
  | lo, (k, v) :: r => decide (lo ≤ k) && decide (v ≠ d) && Assoc.okFrom d (k + 1) r

/-- What an unlisted byte reads as (log 6). -/
def Memory.unlisted : Byte := 0

def Memory.read (m : Memory) (a : Nat) : Byte := Assoc.get Memory.unlisted a m
def Memory.write (m : Memory) (a : Nat) (b : Byte) : Memory := Assoc.set Memory.unlisted a b m

/-- The canonical form: addresses strictly rising, no entry equal to what an unlisted address reads as. -/
def Memory.wf (m : Memory) : Bool := Assoc.okFrom Memory.unlisted 0 m

/-- Bytes from an address up. -/
def Memory.readBytes (m : Memory) (a : Nat) : Nat → List Byte
  | 0 => []
  | n + 1 => Memory.read m a :: Memory.readBytes m (a + 1) n

def Memory.writeBytes (m : Memory) (a : Nat) : List Byte → Memory
  | [] => m
  | b :: r => Memory.writeBytes (Memory.write m a b) (a + 1) r

/-- Little-endian value of bytes (R25). -/
def leNat : List Byte → Nat
  | [] => 0
  | b :: r => b.toNat + 256 * leNat r

/-- The low `n` bytes of a value, little-endian (R25). -/
def leBytes : Nat → Nat → List Byte
  | 0, _ => []
  | n + 1, v => BitVec.ofNat 8 v :: leBytes n (v / 256)

def leWord (bs : List Byte) : Word := BitVec.ofNat 64 (leNat bs)

/-- Bits hi down to lo of a word as a number. -/
def bits (w : Word) (lo len : Nat) : Nat := w.toNat / 2 ^ lo % 2 ^ len

/-- Sign-extend the low `n` bits of a number to 64 bits (R26). -/
def sext (n v : Nat) : Word :=
  let m := v % 2 ^ n
  BitVec.ofInt 64 (if 2 ^ (n - 1) ≤ m then Int.ofNat m - 2 ^ n else Int.ofNat m)

/-- Addresses are 48 bits, sign-extended (R149, R197). -/
def sext48 (v : Nat) : Word := sext 48 v

def boolWord (b : Bool) : Word := if b then 1 else 0

/-- Replace the element at a position of a list. -/
def setNth {α : Type} (n : Nat) (v : α) : List α → List α
  | [] => []
  | a :: r => match n with
    | 0 => v :: r
    | k + 1 => a :: setNth k v r

/-! ### Tiles and contexts -/

def State.tile (s : State) (t : TileNo) : Tile := Assoc.get Tile.reset t.toNat s.tiles
def State.setTile (s : State) (t : TileNo) (v : Tile) : State :=
  { s with tiles := Assoc.set Tile.reset t.toNat v s.tiles }
def Tile.ctx (t : Tile) (c : CtxNo) : Ctx := Assoc.get Ctx.reset c.toNat t.ctxs
def Tile.setCtx (t : Tile) (c : CtxNo) (v : Ctx) : Tile := { t with ctxs := Assoc.set Ctx.reset c.toNat v t.ctxs }
def State.ctx (s : State) (t : TileNo) (c : CtxNo) : Ctx := (s.tile t).ctx c
def State.setCtx (s : State) (t : TileNo) (c : CtxNo) (v : Ctx) : State := s.setTile t ((s.tile t).setCtx c v)
def State.modCtx (s : State) (t : TileNo) (c : CtxNo) (f : Ctx → Ctx) : State := s.setCtx t c (f (s.ctx t c))
def State.modTile (s : State) (t : TileNo) (f : Tile → Tile) : State := s.setTile t (f (s.tile t))

/-- The tile numbers the state lists. -/
def State.tileNos (s : State) : List TileNo := s.tiles.map fun p => BitVec.ofNat 12 p.1

/-- The executing context. -/
def State.me (s : State) : Ctx := s.ctx s.cur.1 s.cur.2
def State.here (s : State) : Tile := s.tile s.cur.1
def State.setMe (s : State) (c : Ctx) : State := s.setCtx s.cur.1 s.cur.2 c
def State.modMe (s : State) (f : Ctx → Ctx) : State := s.setMe (f s.me)
def State.modHere (s : State) (f : Tile → Tile) : State := s.modTile s.cur.1 f

/-- Put a unit's step in front of the agenda, so that it is the next thing done. -/
def State.soon (s : State) (i : Instr) : State := { s with agenda := .event i :: s.agenda }

/-- All sixteen context numbers. -/
def allCtxs : List CtxNo := (List.range 16).map (BitVec.ofNat 4)

/-- Live: neither FREE, STOPPED nor ENDING (R102). -/
def CtxState.live : CtxState → Bool
  | .ready | .parked | .held => true
  | _ => false

/-- The state of a context's task, looking under the monitor on context 0. -/
def Ctx.task (k : Ctx) : CtxState := if k.sup then k.under else k.state

/-- FREE, looking under the monitor for context 0. -/
def Ctx.isFree (k : Ctx) : Bool := k.task == .free

/-- The group of a launch holds a context. -/
def Resident.holds (r : Resident) (c : CtxNo) : Bool := r.group * r.size ≤ c.toNat && c.toNat < (r.group + 1) * r.size

/-- The launch whose group holds a context (R106): a resident one, or for a context that still ends the one whose task has
ended. -/
def Tile.residentOf (t : Tile) (c : CtxNo) : Option Resident :=
  match t.residents.find? fun r => !r.ended && r.holds c with
  | some r => some r
  | none => if (t.ctx c).isFree then none else t.residents.reverse.find? fun r => r.ended && r.holds c

/-- The launch that holds tile table and router state, ended or not. -/
def Tile.residentId (t : Tile) (id : Nat) : Option Resident := t.residents.find? fun r => r.id == id

def Resident.root (r : Resident) : CtxNo := BitVec.ofNat 4 (r.group * r.size)

/-- The instruction word, zero-extended, as causes 0x01, 0x02 and 0x15 report it (R299). -/
def wordOf (i : Instr) : Word :=
  match encode i with
  | some w => w.zeroExtend 64
  | none => 0

/-- A launch with picks has come to the boundary at which the hub holds it: its root stands at a PADV from pick P, or the
tile is done or slack (R309). -/
def Tile.atBoundary (t : Tile) (r : Resident) : Bool :=
  let k := t.ctx r.root
  let padv := k.pc.toNat < 0x10000 && leWord (Memory.readBytes t.istore k.pc.toNat 4) == wordOf .padv
  t.phold.getLsbD 63 &&
    (t.pdone || t.slack || (padv && k.task != .free && k.task != .ending && bits t.phold 0 60 == t.pick))

/-- While the hub holds a launch with picks, its root runs on to the boundary, where alone it stops (R309, R382). -/
def Tile.beforeBoundary (t : Tile) (c : CtxNo) : Bool :=
  match t.residentOf c with
  | some r => r.picks && r.root == c && t.phold.getLsbD 63 && !t.atBoundary r
  | none => false

/-- The STOP bit of a context stops it: at once, but for the root of a launch that the hub holds before its boundary (R306, R309). -/
def Tile.stopDue (t : Tile) (c : CtxNo) : Bool :=
  t.stop.getLsbD c.toNat && ((t.ctx c).task == .stopped || !t.beforeBoundary c)

/-- The monitor restores the window of a context that is stopped: its stores and cards then write the channel registers of
the window as they write the others, and deliver nothing (R308, R315; log 20). -/
def State.restores (s : State) (sup : Bool) (o : TileNo) (c : CtxNo) : Bool := sup && (s.tile o).stopDue c
def Resident.members (r : Resident) : List CtxNo := (List.range r.size).map fun i => BitVec.ofNat 4 (r.group * r.size + i)
/-- The launch's index on the tile: the number of its first context group (R102). -/
def Resident.index (r : Resident) : BitVec 2 := BitVec.ofNat 2 r.group

/-- The monitor's context in supervisor mode works for the launch of the held context, or else for context 0's own
(log 10). -/
def State.launchOf (s : State) (t : TileNo) (c : CtxNo) : Option Resident :=
  let tl := s.tile t
  if (tl.ctx c).sup then
    match tl.residentOf (BitVec.ofNat 4 (bits tl.tctx 0 4)) with
    | some r => some r
    | none => tl.residentOf 0
  else tl.residentOf c

/-- A group root (R106): context 0 is one in every split, whether or not a launch holds its group. -/
def State.isRoot (s : State) (t : TileNo) (c : CtxNo) : Bool :=
  match (s.tile t).residentOf c with
  | some r => r.root == c
  | none => c == 0

/-! ### Registers -/

/-- X[i]; x0 reads 0 (R26). -/
def Ctx.getX (c : Ctx) (r : BitVec 5) : Word := if r = 0 then 0 else Assoc.get 0 r.toNat c.x
/-- A write to X[0] is discarded (R26). -/
def Ctx.putX (c : Ctx) (r : BitVec 5) (v : Word) : Ctx := if r = 0 then c else { c with x := Assoc.set 0 r.toNat v c.x }
def Ctx.getV (c : Ctx) (r : BitVec 4) : VecBits := Assoc.get 0 r.toNat c.v
def Ctx.setV (c : Ctx) (r : BitVec 4) (v : VecBits) : Ctx := { c with v := Assoc.set 0 r.toNat v c.v }
/-- K[i]; k0 reads all ones (R26). -/
def Ctx.getK (c : Ctx) (r : BitVec 3) : Word := if r = 0 then -1 else Assoc.get 0 r.toNat c.k
/-- A write to K[0] is discarded (R26). -/
def Ctx.setK (c : Ctx) (r : BitVec 3) (v : Word) : Ctx := if r = 0 then c else { c with k := Assoc.set 0 r.toNat v c.k }

/-- Whether x[r] is a synchronised channel register (R111). -/
def Ctx.isSync (c : Ctx) (r : BitVec 5) : Bool := decide (24 ≤ r.toNat) && c.qmode.getLsbD (r.toNat - 24)
def Ctx.isFull (c : Ctx) (r : BitVec 5) : Bool := decide (24 ≤ r.toNat) && c.full.getLsbD (r.toNat - 24)
/-- The full bit of a channel register as a mask of the eight. -/
def chanBit (r : BitVec 5) : BitVec 8 := 1#8 <<< (r.toNat - 24)
def Ctx.setFull (c : Ctx) (r : BitVec 5) (b : Bool) : Ctx :=
  if r.toNat < 24 then c
  else { c with full := if b then c.full ||| chanBit r else c.full &&& ~~~chanBit r }

/-- Write a destination register: a synchronised one becomes full (R114), x0 discards (R47). -/
def Ctx.setX (c : Ctx) (r : BitVec 5) (v : Word) : Ctx :=
  if c.isSync r then (c.putX r v).setFull r true else c.putX r v

/-- Where the result of a request for x[r] goes. -/
def Ctx.dstX (c : Ctx) (r : BitVec 5) : Dst := .x r (c.isSync r)

/-- A result arrives: x[r] := v, and a synchronised one becomes full (R114, R301). -/
def Ctx.writeDst (c : Ctx) (d : Dst) (v : Word) : Ctx :=
  match d with
  | .x r sync => if sync then (c.putX r v).setFull r true else c.putX r v
  | _ => c

/-- A register some request in flight will write (R114, R301). -/
def Ctx.reservedX (c : Ctx) (r : BitVec 5) : Bool := r != 0 && c.reqs.any fun q => match q.dst with | .x d _ => d == r | _ => false
def Ctx.reservedV (c : Ctx) (r : BitVec 4) : Bool := c.reqs.any fun q => q.dst == .v r
/-- Registers a translated VM form still holds as its sources (R301). -/
def Ctx.heldX (c : Ctx) (r : BitVec 5) : Bool := c.reqs.any fun q => q.srcX.getLsbD r.toNat
def Ctx.heldV (c : Ctx) (r : BitVec 4) : Bool := c.reqs.any fun q => q.srcV.getLsbD r.toNat
def Ctx.heldK (c : Ctx) (r : BitVec 3) : Bool := c.reqs.any fun q => q.srcK.getLsbD r.toNat

/-- The registers an instruction names (R113, R114). -/
structure Uses where
  xs : List (BitVec 5)
  xd : List (BitVec 5)
  vs : List (BitVec 4)
  vd : List (BitVec 4)
  kd : List (BitVec 3)

def Uses.x (xs xd : List (BitVec 5)) : Uses := ⟨xs, xd, [], [], []⟩

/-- Whether an instruction may issue, must wait for a register that a request in flight holds, or parks. -/
inductive Gate where
  | go
  | stall
  | park (r : Reason)

def regMask (rs : List (BitVec 5)) : BitVec 32 := rs.foldl (fun m r => m ||| (1#32 <<< r.toNat)) 0

/-- Clear the full bits of the synchronised sources an instruction names, each once (R113). -/
def Ctx.consume (c : Ctx) (xs : List (BitVec 5)) : Ctx :=
  xs.foldl (fun c r => if c.isSync r then c.setFull r false else c) c

/-- A synchronised destination may be written when it is empty, after the instruction's own sources are consumed,
and not reserved (R114). -/
def Ctx.destBusy (c : Ctx) (xs : List (BitVec 5)) (r : BitVec 5) : Bool :=
  c.isSync r && (c.reservedX r || ((c.consume xs).isFull r))

/-- The register gate of R113, R114 and R301. -/
def Ctx.gate (c : Ctx) (u : Uses) : Gate :=
  let empty := u.xs.filter fun r => c.isSync r && (!c.isFull r || c.reservedX r)
  let busy := u.xd.filter (c.destBusy u.xs)
  if empty ≠ [] then .park (.sources (regMask empty))
  else if busy ≠ [] then .park (.dests (regMask busy))
  else if u.xs.any c.reservedX || u.xd.any (fun r => c.reservedX r || c.heldX r) || u.vs.any c.reservedV
      || u.vd.any (fun r => c.reservedV r || c.heldV r) || u.kd.any c.heldK then .stall
  else .go

/-! ### Ending an instruction -/

/-- The instruction takes effect and the context is occupied for `n` cycles (R100); the PC goes to `pc`. -/
def Ctx.retireTo (c : Ctx) (time n : Nat) (pc : Word) : Ctx :=
  { c with
    pc := if c.sup then c.pc else pc
    monPc := if c.sup then pc else c.monPc
    instret := c.instret + 1, num := c.num + 1, busy := time + n, held := false, fencing := false, state := .ready, park := none, woken := false }

/-- The PC the context fetches from: the monitor's in supervisor mode (R294). -/
def Ctx.pcNow (c : Ctx) : Word := if c.sup then c.monPc else c.pc

def Ctx.retire (c : Ctx) (time n : Nat) : Ctx := c.retireTo time n (c.pcNow + 4)

/-- End the executing context's instruction with a new context, occupied for `n` cycles. DESIGN CHOICE (log 61): `n` is 4 for an
instruction that neither R100's table nor its own entry names. -/
def State.done (s : State) (n : Nat) (c : Ctx) : State := s.setMe (c.retire s.time n)

/-- Park the executing context: it holds its instruction, which has taken no effect (R108). -/
def Ctx.parkFor (c : Ctx) (time : Nat) (r : Reason) : Ctx :=
  { c with state := .parked, held := false, fencing := false, woken := false,
           park := some ⟨r, match c.park with | some p => if p.reason = r then p.since else time | none => time⟩ }

def State.parkMe (s : State) (r : Reason) : State := s.modMe fun c => c.parkFor s.time r

/-- The instruction of the executing context waits, and occupies its context until it ends: the context takes no slot
(R100, R347; log 52). -/
def State.holdMe (s : State) : State := s.modMe fun c => { c with held := true }

/-! ### Taking an exception and returning from one (R294 to R300) -/

/-- Bits of `tstat` (R298). -/
def tstatBits (precise late parked logged dead : Bool) : Word :=
  boolWord precise ||| (boolWord late <<< 1) ||| (boolWord parked <<< 2) ||| (boolWord logged <<< 3)
    ||| (boolWord dead <<< 5)

/-- Release an LR grant unchanged: the head of its word's FIFO goes, and the next may be granted (R170). -/
def State.dropGrant (s : State) (t : TileNo) (c : CtxNo) : State :=
  match (s.ctx t c).grant with
  | none => s
  | some g =>
    let homes := s.homes.map fun h =>
      if h.word = g.word then
        { h with fifo := h.fifo.filter fun e => !(e.tile == t && e.ctx == c && e.seq == g.seq && e.granted) }
      else h
    ({ s with homes := homes }).modCtx t c fun k => { k with grant := none }

/-- Remove a context from the watchers and watch records of every home (R417, R283). -/
def State.unwatch (s : State) (t : TileNo) (c : CtxNo) : State :=
  { s with homes := s.homes.map fun h =>
      { h with watchers := h.watchers.filter (· != (t, c)), watches := h.watches.filter (· != (t, c)) } }

/-- Which counter a request raises (R122): ld, st or, for a barrier increment, none. -/
def ReqKind.isLd : ReqKind → Bool
  | .load _ | .amo _ | .amodr _ | .lr | .vload | .pread .. | .hload _ | .qput _ _ => true
  | _ => false
def ReqKind.isSt : ReqKind → Bool
  | .store | .delivery .. | .window _ | .control _ | .sc | .vstore | .mflush | .minv | .qsig => true
  | _ => false

/-- A request leaves the context: its counter falls (R122). -/
def Ctx.dropReq (c : Ctx) (seq : BitVec 16) : Ctx :=
  match c.reqs.find? (·.seq == seq) with
  | none => c
  | some q =>
    { c with
      reqs := c.reqs.filter (·.seq != seq)
      ld := if q.kind.isLd then c.ld - 1 else c.ld
      st := if q.kind.isSt then c.st - 1 else c.st }

/-- The x registers a mask names. -/
def maskRegs (m : BitVec 32) : List (BitVec 5) := ((List.range 32).filter m.getLsbD).map (BitVec.ofNat 5)

/-- The status of a QPUTW that has been posted, when the reply is still on its way. -/
def Ctx.posted (k : Ctx) : Option (Req × Word) :=
  k.reqs.findSome? fun q => match q.kind, q.phase with | .qputw .., .answered v _ => some (q, v) | _, _ => none

/-- A QPUTW completes: its sources are consumed, the status is written, and the next instruction follows (R145). -/
def Ctx.finishPost (k : Ctx) (time : Nat) (q : Req) (v : Word) : Ctx :=
  let k' := { k with reqs := k.reqs.filter (·.seq != q.seq) }
  (((k'.consume (maskRegs q.srcX)).writeDst q.dst v)).retire time 4

/-- An entry of a FIFO is the place of a context's post. -/
def FifoEntry.isPost (e : FifoEntry) (t : TileNo) (c : CtxNo) (seq : BitVec 16) : Bool :=
  e.poster == some .post && e.tile == t && e.ctx == c && e.seq == seq

/-- A post has no place in a FIFO. -/
def State.noPost (s : State) (t : TileNo) (c : CtxNo) (seq : BitVec 16) : State :=
  { s with homes := s.homes.map fun h => { h with fifo := h.fifo.filter fun e => !e.isPost t c seq } }

/-- The queue processor withdraws a post that waits for space; one that it has made stands, and its QPUTW completes (R145,
R384, R391). -/
def State.withdrawPost (s : State) (t : TileNo) (c : CtxNo) : State :=
  match (s.ctx t c).posted with
  | some (q, v) => s.modCtx t c fun k => k.finishPost s.time q v
  | none =>
    let gone (q : Req) : Bool := match q.kind with | .qputw .. => true | _ => false
    let s : State := { s with hub := { s.hub with posts := s.hub.posts.filter fun p => !(p.1 == t && p.2.1 == c) } }
    let s := ((s.ctx t c).reqs.filter gone).foldl (fun s q => s.noPost t c q.seq) s
    s.modCtx t c fun k => { k with reqs := k.reqs.filter fun q => !gone q }

/-- Slack: the tile's neighbours count it no more (R268, R304). -/
def neighbour (part : Part) (t : TileNo) (dir : Nat) : Option TileNo :=
  let x := t.toNat % 64
  let y := t.toNat / 64
  let rows := match part with | .spn2400 => 32 | _ => 64
  match dir with
  | 0 => if x + 1 < 64 then some (BitVec.ofNat 12 (y * 64 + x + 1)) else none
  | 1 => if 0 < x then some (BitVec.ofNat 12 (y * 64 + x - 1)) else none
  | 2 => if y + 1 < rows then some (BitVec.ofNat 12 ((y + 1) * 64 + x)) else none
  | _ => if 0 < y then some (BitVec.ofNat 12 ((y - 1) * 64 + x)) else none

/-- The pick state a tile tells its neighbours (R261, R267). -/
def Tile.asNbr (t : Tile) : Nbr := ⟨t.joined, t.pdone, t.slack, t.pick⟩

/-- Send a pick update to each neighbour (R261). -/
def State.sendPick (s : State) (t : TileNo) : State :=
  let n := (s.tile t).asNbr
  let ups := (List.range 4).filterMap fun d => (neighbour s.part t d).map fun dest => (⟨t, dest, n⟩ : PickUpdate)
  { s with picks := s.picks ++ ups }

def Tile.quarantined (t : Tile) : Bool := t.qstat.getLsbD 63

/-- Launches with picks that end: their slack tiles, but for quarantined ones, are slack no longer (R24, R268). DESIGN CHOICE
(log 60): the tile keeps `pick` and JOINED, which a later launch without picks reads. -/
def State.picksOver (s : State) (gone : Launch → Bool) : State :=
  let tiles := (s.hub.launches.filter fun l => l.picks && l.live != [] && gone l).flatMap fun l => l.tasks.map (·.1)
  tiles.foldl (fun s t => s.modTile t fun tl => { tl with slack := tl.slack && tl.quarantined }) s

/-- A double trap quarantines the tile (R24, R304, R327); it becomes slack unless it has left its picks, as an excuse makes it
(R268). DESIGN CHOICE (log 63): a further cause changes nothing at a tile in quarantine. -/
def State.quarantine (s : State) (t : TileNo) (code : BitVec 8) : State :=
  if (s.tile t).quarantined then s else
  let s := s.picksOver fun l => l.live.all (· == t)
  let s := s.modTile t fun tl => { tl with qstat := (1#64 <<< 63) ||| (code.zeroExtend 64 <<< 8), slack := tl.slack || !tl.pdone }
  let hurt (l : Launch) : Launch :=
    if l.live.contains t then { l with quarantined := true, live := l.live.filter (· != t) } else l
  let h : Hub := s.hub
  let h : Hub :=
    { h with
      pkgTile := if h.pkgQuar then h.pkgTile else t, pkgCode := if h.pkgQuar then h.pkgCode else code
      pkgQuar := true, launches := h.launches.map hurt }
  let s : State := { s with hub := h, out := s.out ++ [.msix 0] }
  s.sendPick t

/-- Load the trap CSRs from a record, stop context 0's task code and enter the monitor (R294). PARKED of an interrupt says that
context 0 was parked at its task PC, which is `tpc` (R298, R305; log 58). DESIGN CHOICE (log 63): the entry releases an LR grant of
context 0's task unchanged, whatever the record. -/
def State.takeRecord (s : State) (t : TileNo) (r : Record) : State :=
  let s := s.modTile t fun tl =>
    { tl with
      monitor := true, entering := true
      tcause := (if r.intr then 1#64 <<< 63 else 0) ||| r.code.zeroExtend 64
      tval := r.val, tseq := r.seq
      tstat := r.stat ||| (boolWord (r.intr && (tl.ctx 0).state == .parked) <<< 2)
        ||| (boolWord (!r.intr && (tl.ctx r.ctx).dead) <<< 5) ||| (BitVec.ofNat 64 (tl.recs.length % 32) <<< 8)
      tctx := r.ctx.zeroExtend 64 }
  let s := if r.intr then s else s.modCtx t r.ctx fun c => { c with pc := r.pc, served := true }
  let entry := BitVec.ofNat 64 (bits (s.tile t).tvec 2 14 * 4)
  let s := (s.withdrawPost t 0).unwatch t 0
  let s := s.dropGrant t 0
  s.modCtx t 0 fun c =>
    { c with sup := true, monPc := entry, held := false, fencing := false, state := .ready, park := none, woken := false
             under := if c.sup then c.under else if c.state = .parked then .ready else c.state
             x := Assoc.set 0 4 (s.tile t).mbase c.x }

/-- The monitor may be entered: it does not run, and the task of context 0 is at an instruction boundary or in its park, which a
FENCE.I has only at its end (R294, R295, R347). DEDUCED (log 69). -/
def Tile.mayEnter (t : Tile) : Bool := !t.monitor && !(t.ctx 0).fencing

/-- A record of a context waits to be taken (R295). -/
def Tile.recorded (t : Tile) (c : CtxNo) : Bool := t.recs.any fun r => !r.intr && r.ctx == c

/-- Post a record; it is taken at once when the monitor may be entered (R294, R295). A record of a quarantined tile
goes nowhere: its contexts have stopped (R304). -/
def State.post (s : State) (t : TileNo) (r : Record) : State :=
  let tl := s.tile t
  if tl.quarantined then s
  else if !tl.mayEnter || tl.recs ≠ [] then s.setTile t { tl with recs := tl.recs ++ [r] }
  else s.takeRecord t r

/-- Post an interrupt; one pending bit per code (R295, R305). DESIGN CHOICE (log 70): while an interrupt of the code is pending, its
`tval` stays that of the first event. -/
def State.interrupt (s : State) (t : TileNo) (code : BitVec 8) (val : Word) : State :=
  if (s.tile t).recs.any (fun r => r.intr && r.code == code) then s
  else s.post t ⟨true, code, val, 0, 0, 0, 0⟩

/-- A synchronous cause of a context: HELD with its record posted (R294), its LR grant released (R170). A cause of
context 0 in supervisor mode is a double trap (R304). -/
def State.trapCtx (s : State) (t : TileNo) (c : CtxNo) (cause : BitVec 8) (val pc seq stat : Word) : State :=
  if (s.ctx t c).sup then s.quarantine t cause
  else
    let s := ((s.dropGrant t c).withdrawPost t c).unwatch t c
    let s := s.modCtx t c fun k => { k with held := false, fencing := false, state := .held, park := none, woken := false, pc := pc }
    s.post t ⟨false, cause, val, seq, pc, stat, c⟩

/-- A granted AMO of the context has not sent its release: a trap or a stop of the context waits for it (R169, R306). -/
def Ctx.amoHeld (c : Ctx) : Bool :=
  !c.sup && c.reqs.any fun q => match q.kind, q.phase with
    | .amo _, .granted _ | .amodr _, .granted _ | .qsig, .granted _ => true
    | _, _ => false

/-- Trap(cause, val) of the executing context: precise, `tpc` := the instruction, no other effect (R26, R299). While the
release of a granted AMO is to be sent, the instruction waits in its context (R169). -/
def State.trap (s : State) (cause : BitVec 8) (val : Word) : State :=
  if s.me.amoHeld then s.holdMe else s.trapCtx s.cur.1 s.cur.2 cause val s.me.pcNow 0 (tstatBits true false false false false)

/-- Whether a late cause can be delivered now: the context is at an instruction boundary or parked, not in a FENCE.I (R347), and
not in the monitor (R212, R302). DEDUCED (log 69). -/
def Ctx.takesLate (c : Ctx) : Bool :=
  (c.state == .ready || c.state == .parked) && !c.fencing && !c.sup && c.posted.isNone && !c.amoHeld

/-- Deliver the first late cause of a context at an instruction boundary or in its park (R212, R302). The one of a
monitor request is a double trap (R304). DEDUCED (log 58): `tseq` is 0 where the cause is precise, its request being retired. -/
def State.deliverLate (s : State) (t : TileNo) (c : CtxNo) : State :=
  let k := s.ctx t c
  match k.late.find? (·.sup), k.late with
  | some l, _ => s.quarantine t l.cause
  | none, [] => s
  | none, l :: rest =>
    if !k.takesLate then s
    else
      let last := match l.num with | some (n, _) => n + 1 == k.num | none => false
      let parked := k.state == .parked
      let s := s.modCtx t c fun k => { k with late := rest }
      match last, l.num, l.req with
      | true, some (_, pc), some (sq, _) =>
        -- precise: the request is retired at trap entry (R302)
        (s.modCtx t c fun k => k.dropReq sq).trapCtx t c l.cause l.val pc 0 (tstatBits true true false false false)
      | true, some (_, pc), none => s.trapCtx t c l.cause l.val pc 0 (tstatBits true true false false false)
      | _, _, some (sq, lg) =>
        s.trapCtx t c l.cause l.val k.pcNow ((1#64 <<< 20) ||| (lg.zeroExtend 64 <<< 16) ||| sq.zeroExtend 64)
          (tstatBits false true parked true false)
      | _, _, none => s.trapCtx t c l.cause l.val k.pcNow 0 (tstatBits false true parked false false)

/-- UNCORR of a tile counts an uncorrectable error, saturating (R310, R311). -/
def State.uncorrected (s : State) (t : TileNo) : State := s.modTile t fun tl => { tl with uncorr := min 65535 (tl.uncorr + 1) }

/-- A late cause of a context: delivered at once where the context can take it, else kept inside it (R212). -/
def State.late (s : State) (t : TileNo) (c : CtxNo) (l : Late) : State :=
  let s := if l.cause = 0x10 then s.uncorrected t else s
  (s.modCtx t c fun k => { k with late := k.late ++ [l] }).deliverLate t c

/-- A context that starts a thread at an I-store offset (R107, R398): channel registers and full bits stay. -/
def Ctx.start (c : Ctx) (pc arg : Word) (qmode : BitVec 8) (macc : BitVec 4) : Ctx :=
  { c with
    pc := pc, held := false, fencing := false, state := .ready, park := none, woken := false
    x := Assoc.set 0 3 0xFFFFFFFFFF000000 (Assoc.set 0 10 arg (c.x.filter fun p => 24 ≤ p.1))
    v := [], k := [], qmode := qmode, frnd := 0, fstat := 0, livemask := 0xFFFFFE, pstat := 0, pwatch := 20
    macc := macc, instret := 0, ld := 0, st := 0, cp := 0, mx := 0, jobs := [], late := [], grant := none
    reqs := c.reqs.filter fun q => q.kind == .barrier
    fences := [], stale := [], hop := .none, num := 0, served := false, under := .free, killStatus := 0, dead := false }

/-- A context with no work in flight. -/
def Ctx.quiet (c : Ctx) : Bool := c.ld == 0 && c.st == 0 && c.cp == 0 && c.mx == 0

end Sys2Proof.Machine
end

