-- ==== Sys2Proof/Machine/Mem.lean ====
section
/-! DEFINITION. The address space, the on-chip map and its rights, main memory with its buffers, translation, and
reading and writing one byte at its place (R149 to R166, R176). -/

namespace Sys2Proof.Machine

/-! ### The part (R2, R6, R156, R157) -/

def Part.rows : Part → Nat
  | .spn2400 => 32 | _ => 64
def Part.tiles (p : Part) : Nat := 64 * p.rows
def Part.heddle : Part → Bool
  | .spn4400 => false | _ => true
/-- End of main memory, exclusive (R156). -/
def Part.memEnd : Part → Nat
  | .spn4800 => 0x9000000000 | .spn4400 => 0x6C00000000 | .spn2400 => 0x4800000000
def Part.stacks : Part → Nat
  | .spn4800 => 8 | .spn4400 => 6 | .spn2400 => 4
def Part.dies : Part → Nat
  | .spn2400 => 2 | _ => 4
def Part.ports : Part → Nat
  | .spn4800 => 16 | _ => 8
def Part.code : Part → Nat
  | .spn4800 => 0x48 | .spn4400 => 0x44 | .spn2400 => 0x24

/-- `cfgid` (R6). -/
def State.cfgid (s : State) : Word :=
  BitVec.ofNat 64 (s.silrev.toNat * 2 ^ 36 + 4 * 2 ^ 32 + s.part.code * 2 ^ 24 + s.part.ports * 2 ^ 16
    + s.part.stacks * 2 ^ 12 + s.part.dies * 2 ^ 8 + (if s.part.heddle then 1 else 0))

def GiB : Nat := 2 ^ 30

/-- Stacks of a die in ascending order (R11, R156). -/
def Part.dieStacks (p : Part) (d : Nat) : List Nat :=
  match p with
  | .spn4400 => if d < 2 then [2 * d, 2 * d + 1] else [d + 2]
  | _ => [2 * d, 2 * d + 1]

/-- The home die of a physical address and the first address of that die's range (R156). -/
def Part.homeDie (p : Part) (pa : Nat) : Nat × Nat :=
  if p = .spn4400 then
    if pa < 144 * GiB then (0, 0) else if pa < 288 * GiB then (1, 144 * GiB)
    else if pa < 360 * GiB then (2, 288 * GiB) else (3, 360 * GiB)
  else (pa / (144 * GiB), pa / (144 * GiB) * (144 * GiB))

/-- Loc(pa, near) as one number: ((stack × 192 + channel) × 2^24 + row) × 512 + byte (R157). -/
def Part.loc (p : Part) (pa : Nat) (near : Bool) : Nat :=
  let d := p.homeDie pa
  let set := if near then p.dieStacks d.1 else List.range p.stacks
  let g := (if near then pa - d.2 else pa) / 512
  let n := 192 * set.length
  let c := g % n
  let stack := set.getD (c % set.length) 0
  ((stack * 192 + c / set.length) * 2 ^ 24 + g / n) * 512 + pa % 512

/-- The die whose buffers hold a location (R156, R159). -/
def Part.locDie (p : Part) (loc : Nat) : Nat :=
  let stack := loc / 512 / 2 ^ 24 / 192
  match p with
  | .spn4400 => if stack < 4 then stack / 2 else stack - 2
  | _ => stack / 2

/-- The physical site of logical column `c` in a die row whose fused site is `f`, 32 for none (R13). -/
def siteOf (f c : Nat) : Nat := if c < f then c else c + 1

/-- The loom die and the 8 × 8 region of a tile (R12, R141). -/
def dieOf (t : TileNo) : Nat := t.toNat % 64 / 32 + 2 * (t.toNat / 64 / 32)
def regionOf (t : TileNo) : Nat := t.toNat % 64 / 8 + 8 * (t.toNat / 64 / 8)
/-- The loom die of a region. -/
def regionDie (rn : Nat) : Nat := rn % 8 / 4 + 2 * (rn / 8 / 4)

/-- The fuse row and the physical site of a tile (R13, R321). -/
def State.siteOfTile (s : State) (t : TileNo) : Nat × Nat :=
  let row := 32 * dieOf t + t.toNat / 64 % 32
  (row, siteOf (Assoc.get 32 row s.hub.fsite % 64) (t.toNat % 32))

/-! ### Addresses (R149, R150) -/

/-- Where an address leads before translation. -/
inductive Target where
  /-- non-canonical, unassigned, or an aperture tile the part lacks: cause 0x04 -/
  | bad
  | chip (t : TileNo) (off : Nat) (self : Bool)
  | mem
deriving DecidableEq, Repr

/-- The ranges of R149, for an access by tile `t`. -/
def target (p : Part) (t : TileNo) (a : Word) : Target :=
  let n := a.toNat
  if n < 0x800000000000 then .mem
  else if n < 0xFFFF800000000000 then .bad
  else if n < 0xFFFFF00000000000 then .mem
  else if n < 0xFFFFF01000000000 then
    let m := n - 0xFFFFF00000000000
    if m / 2 ^ 24 < p.tiles then .chip (BitVec.ofNat 12 (m / 2 ^ 24)) (m % 2 ^ 24) false else .bad
  else if n < 0xFFFFFFFFFF000000 then .bad
  else .chip t (n - 0xFFFFFFFFFF000000) true

/-- A self-window LS address (R145). -/
def isLsAddr (a : Word) : Bool := decide (0xFFFFFFFFFF000000 ≤ a.toNat) && decide (a.toNat < 0xFFFFFFFFFF100000)

/-- The place of an offset in a tile's window; a hole has none (R150). -/
def placeOf (t : TileNo) (off : Nat) : Option Place :=
  if off < 0x100000 then some (.ls t off)
  else if off < 0x110000 then some (.istore t (off - 0x100000))
  else if off < 0x114000 then some (.history t (off - 0x110000))
  else if off < 0x118000 then none
  else if off < 0x118040 then some (.pick t (off - 0x118000))
  else if off < 0x120000 then none
  else if off < 0x130000 then some (.window t (off - 0x120000))
  else if off < 0x140000 then if (off - 0x130000) % 0x4000 < 0x2800 then some (.acc t (off - 0x130000)) else none
  else if off < 0x141000 then some (.heddle t (off - 0x140000))
  else if off < 0x150000 then none
  else if off < 0x151000 then some (.control t (off - 0x150000))
  else none

/-- What kind of access asks for a right (R151). -/
inductive AccKind where
  | scalar | vector (whole : Bool) | atomic | card
deriving DecidableEq, Repr

/-- Whether tile `o` holds a task of launch `id`. -/
def State.hasTask (s : State) (o : TileNo) (id : Nat) : Bool := (s.tile o).residents.any fun r => r.id == id && !r.ended

/-- Whether a context of tile `o` belongs to launch `id` (R116). -/
def State.ctxOfLaunch (s : State) (o : TileNo) (c : CtxNo) (id : Nat) : Bool :=
  match (s.tile o).residentOf c with
  | some r => r.id == id
  | none => false

/-- An address with the self window written as the aperture of the tile (R176). -/
def normVa (t : TileNo) (a : Word) : Nat :=
  if 0xFFFFFFFFFF000000 ≤ a.toNat then 0xFFFFF00000000000 + t.toNat * 2 ^ 24 + (a.toNat - 0xFFFFFFFFFF000000) else a.toNat

/-- A channel register's offset in a register window: the register (R116). -/
def channelOffset (off : Nat) : Option (CtxNo × BitVec 5) :=
  let r := off % 0x1000
  if 192 ≤ r ∧ r < 256 ∧ r % 8 = 0 then some (BitVec.ofNat 4 (off / 0x1000), BitVec.ofNat 5 (r / 8)) else none

/-- The accumulator of an offset in the accumulator windows. -/
def accOf (off : Nat) : Nat := off / 0x4000

/-- The rights of R151, R152, R199, R301, R386 and R408 for one access of `size` bytes by context (t, c) to a place. A
card is checked as an access of its issuer (R153). -/
def State.allowed (s : State) (t : TileNo) (c : CtxNo) (write : Bool) (k : AccKind) (size : Nat) (p : Place) : Bool :=
  let sup := (s.ctx t c).sup
  let oc (b : Nat) : Bool := sup || (s.tile t).ocperm.getLsbD b
  match p with
  | .ls o _ => o == t || (match k with | .atomic => oc 0 && oc 1 | _ => if write then oc 1 else oc 0)
  | .istore _ _ => k != .atomic && (if write then oc 2 else oc 11)
  | .history _ _ => k != .atomic && (if write then sup && !(match k with | .vector _ => true | _ => false) else oc 8)
  | .pick o _ => k != .atomic && (if o == t then true else if write then false else oc 8)
  | .window o off =>
    match k with
    | .scalar | .card =>
      (k == .card || size == 8) &&
      (match channelOffset (off - off % 8) with
       | some (c', _) =>
         -- a card's delivery to another launch is status 0x18, not 0x04 (R116); a restore by the monitor is no delivery (R308)
         if write then
           oc 3 && (k == .card || s.restores sup o c' || (match s.launchOf t c with | some r => s.ctxOfLaunch o c' r.id | none => false))
         else oc 4
       | none => if write then oc 5 else oc 4)
    | .vector whole =>
      whole && decide (0x100 ≤ off % 0x1000) && decide (off % 0x1000 < 0x500) && (if write then oc 5 else oc 4)
    | .atomic => false
  | .acc o off => k != .atomic && (if write then oc 7 else oc 6)
      && (sup || o != t || (s.ctx t c).macc.getLsbD (accOf off))
  | .heddle _ _ => (match k with | .scalar | .vector _ => true | _ => false) && !write && oc 9
  | .control _ off => k == .scalar && size == 8 && (if write then sup else oc 10 && (sup || !(decide (0x800 ≤ off) && decide (off < 0xA00))))
  | .main _ | .flag _ => true

/-- The issue checks of R149 to R151 and R365 on an access: none when it passes. Translated addresses pass. -/
def State.checkAccess (s : State) (t : TileNo) (c : CtxNo) (write : Bool) (k : AccKind) (size : Nat) (a : Word) : Bool :=
  match target s.part t a with
  | .bad => false
  | .mem => true
  | .chip o off self =>
    let sup := (s.ctx t c).sup
    (self || sup || (match s.launchOf t c with | some r => s.hasTask o r.id | none => false))
      && (match placeOf o off with
          | none => false
          | some p => s.allowed t c write k size p)

/-- The loom dies run: they have power (R328), stage 4 of the boot has released them, and no boot has failed, which holds them in
reset (R323). -/
def State.loomRuns (s : State) : Bool := s.hub.powered && s.hub.bootCode == 0 && decide (4 ≤ s.hub.stage.toNat)

/-! ### Register windows, tile control and heddle images, read as data -/

/-- The number of a context state (R118). -/
def CtxState.code : CtxState → Nat
  | .free => 0 | .ready => 1 | .parked => 2 | .held => 3 | .stopped => 4 | .ending => 5

/-- `cnt` (R124). -/
def Ctx.cntWord (c : Ctx) : Word :=
  BitVec.ofNat 64 (c.mx % 256 * 2 ^ 24 + c.cp % 256 * 2 ^ 16 + c.st % 256 * 2 ^ 8 + c.ld % 256)

/-- `pstat` (R265): JOINED and SLACK come from the tile. -/
def Tile.pstatWord (t : Tile) (c : Ctx) : Word :=
  (c.pstat &&& 0x0707).zeroExtend 64 ||| (boolWord (t.joined && !t.pdone) <<< 15) ||| (boolWord t.slack <<< 14)

/-- A 64-bit chunk of a v register (R404). -/
def chunkOf (v : VecBits) (i : Nat) : Word := v.extractLsb' (64 * i) 64

/-- The aligned 8-byte word at an offset of a context's register window (R118). DESIGN CHOICE (log 70): the offsets +0x568 to +0x5FF, which
the table of R118 does not list, read 0 and ignore writes. -/
def Tile.windowWord (t : Tile) (off : Nat) : Word :=
  let c := t.ctx (BitVec.ofNat 4 (off / 0x1000))
  let o := off % 0x1000
  if o < 0x100 then c.getX (BitVec.ofNat 5 (o / 8))
  else if o < 0x500 then chunkOf (c.getV (BitVec.ofNat 4 ((o - 0x100) / 64))) ((o - 0x100) / 8 % 8)
  else if o < 0x540 then c.getK (BitVec.ofNat 3 ((o - 0x500) / 8))
  else match (o - 0x540) / 8 with
    | 0 => c.qmode.zeroExtend 64
    | 1 => c.full.zeroExtend 64
    | 2 => c.cntWord
    | 3 => c.pc
    | 4 => BitVec.ofNat 64 c.state.code
    | 24 => c.frnd.zeroExtend 64
    | 25 => c.fstat.zeroExtend 64
    | 26 => c.livemask.zeroExtend 64
    | 27 => t.pstatWord c
    | 28 => BitVec.ofNat 64 c.pwatch
    | 29 => c.macc.zeroExtend 64
    | _ => 0

/-- The word at an offset of a heddle slot image (R223). -/
def Tile.heddleWord (t : Tile) (off : Nat) : Word :=
  let h := Assoc.get (⟨false, 0, false, ⟨0, []⟩, 0⟩ : Heddle) (off / 0x200) t.heddle
  let o := off % 0x200 / 8
  if o = 0 then (if h.loaded then h.draft.header else 0)
  else if o ≤ 32 then (if h.loaded then h.draft.nodes.getD (o - 1) 0 else 0)
  else if o = 33 then h.src
  else if o = 34 then
    boolWord h.loaded ||| (h.launch.zeroExtend 64 <<< 2) ||| (boolWord h.owned <<< 4)
  else 0

/-- An entry of the outstanding-request log (R301). DESIGN CHOICE (log 72): [7:3] of word 3 is 0 for an SC, which has written its xd, and
word 0 of a VM form is the address of its first element. -/
def Req.logWord (q : Req) (w : Nat) : Word :=
  let kind := match q.kind with
    | .load _ => 0 | .store => 1 | .amo _ | .amodr _ => 2 | .lr => 3 | .sc => 4
    | .mflush | .minv => 5 | .qsig => 6 | _ => 7
  let st := match q.phase with
    | .refused c _ => if c = 5 then 2 else if c = 6 then 3 else 4
    | _ => 1
  let dst := match q.dst with
    | .x r _ => r.toNat | .v r => r.toNat | .none => 0
  match w with
  | 0 => match q.elems with | e :: _ => e.addr | [] => 0
  | 1 => q.data
  | 2 => BitVec.ofNat 64 (q.seq.toNat * 2 ^ 16 + q.pc.toNat % 2 ^ 16)
  | _ => BitVec.ofNat 64 (kind * 2 ^ 12 + (if kind < 5 then q.size else 0) * 2 ^ 8 + dst * 8 + st)

/-- The stopped card the monitor looks at (R213). -/
def Tile.selectedCard (t : Tile) : Option Card :=
  match t.selected with
  | some j => t.cards.find? fun c => c.job == j && c.state == .stopped
  | none => none

/-- The `tval` of a draft fault (R243). -/
def Card.faultVal (c : Card) : Word :=
  let unit := if bits c.handle 56 2 = 1 then 1 else 0
  BitVec.ofNat 64 ((if unit = 1 then 0 else c.engine.toNat) * 2 ^ 58 + unit * 2 ^ 56 + c.job.toNat * 2 ^ 40
    + c.elem % 2 ^ 32 * 2 ^ 8 + c.node.toNat)

/-- PNBR of a direction (R267); present when the neighbour lies in the rectangle of the launch with picks. DESIGN CHOICE (log 67): on a
tile whose own task of that launch has ended it is not, and bits [62:0] show the last update heard, PRESENT or not. -/
def State.pnbr (s : State) (t : TileNo) (d : Nat) : Word :=
  let tl := s.tile t
  let inRect := match tl.residents.find? (fun r => r.picks && !r.ended), neighbour s.part t d with
    | some r, some o =>
      let (x0, y0, x1, y1) := r.rect
      decide (x0 ≤ o.toNat % 64) && decide (o.toNat % 64 ≤ x1) && decide (y0 ≤ o.toNat / 64) && decide (o.toNat / 64 ≤ y1)
    | _, _ => false
  let n := Assoc.get (⟨false, false, false, 0⟩ : Nbr) d tl.nbrs
  (boolWord inRect <<< 63) ||| (boolWord n.joined <<< 62) ||| (boolWord n.done <<< 61) ||| (boolWord n.slack <<< 60)
    ||| BitVec.ofNat 64 (n.pick % 2 ^ 60)

/-- The word at an offset of tile control (R426); a write-only register reads 0. -/
def State.controlWord (s : State) (t : TileNo) (off : Nat) : Word :=
  let tl := s.tile t
  if off < 0x80 then Assoc.get 0 (off / 8) tl.slots
  else if off < 0x200 then
    match off with
    | 0x080 => BitVec.ofNat 64 tl.pwlog
    | 0x100 => match tl.selectedCard with | some c => c.refused &&& 0xFFFFFFFFFFFF | none => 0
    | 0x108 => BitVec.ofNat 64 tl.ccount
    | 0x110 => match tl.selectedCard with | some c => if c.status = 0x28 then c.faultVal else 0 | none => 0
    | 0x118 => match tl.selectedCard with | some c => BitVec.ofNat 64 (c.line % 2 ^ 32) | none => 0
    | 0x120 => match tl.selectedCard with | some c => BitVec.ofNat 64 (c.dpart % 2 ^ 32) | none => 0
    | 0x148 => s.pnbr t 0 | 0x150 => s.pnbr t 1 | 0x158 => s.pnbr t 2 | 0x160 => s.pnbr t 3
    | 0x168 => tl.mbase
    | 0x178 => tl.tcmp
    | 0x180 => tl.stop.zeroExtend 64 ||| (boolWord tl.drained <<< 16)
    | 0x188 => tl.qstat
    | 0x190 => BitVec.ofNat 64 (tl.uncorr * 2 ^ 16 + tl.corr)
    | 0x198 => tl.phold
    | 0x1A0 => tl.pbuf
    | _ => 0
  else if off < 0x400 then Assoc.get 0 ((off - 0x200) / 8) tl.clog
  else if 0x800 ≤ off ∧ off < 0xA00 then
    let n := BitVec.ofNat 4 ((off - 0x800) / 32)
    match (tl.ctx (BitVec.ofNat 4 (bits tl.tctx 0 4))).reqs.find? fun q => q.logged && q.slot == n with
    | some q => q.logWord ((off - 0x800) % 32 / 8)
    | none => 0
  else 0

/-! ### Bytes at their places -/

/-- Byte `b` of a word. -/
def byteOf (w : Word) (b : Nat) : Byte := w.extractLsb' (8 * b) 8

/-- The line of a memory-side buffer that holds a location. -/
def State.line (s : State) (loc : Nat) : Option Line :=
  let l := Assoc.get (⟨[], 0, false⟩ : Line) (loc / 64) s.lines
  if l.bytes = [] then none else some l

def State.setLine (s : State) (n : Nat) (l : Line) : State :=
  { s with lines := Assoc.set (⟨[], 0, false⟩ : Line) n l s.lines }

def Line.none : Line := ⟨[], 0, false⟩

/-- Write the dirty bytes of a buffered line to memory and clear its mask, or drop the line (R159). -/
def State.writeBack (s : State) (n : Nat) (drop : Bool) : State :=
  let l := Assoc.get Line.none n s.lines
  if l.bytes = [] then s
  else
    let mem := (l.bytes.zipIdx).foldl
      (fun m b => if l.dirty.getLsbD b.2 then Memory.write m (64 * n + b.2) b.1 else m) s.backing
    { s with backing := mem, lines := Assoc.set Line.none n (if drop then Line.none else { l with dirty := 0 }) s.lines }

/-- The lines of the buffers of one die: 32 MiB (R16, R159). -/
def dieLines : Nat := 524288

/-- Where the buffers of a location's die are full, a line leaves them (R159); which one is free (log 40). -/
def State.makeRoom (s : State) (loc : Nat) : State :=
  let mine := s.lines.filter fun p => s.part.locDie (64 * p.1) == s.part.locDie loc
  if mine.length < dieLines then s
  else
    let n := (mine.getD (Config.victim s.freeCtr % mine.length) (0, Line.none)).1
    ({ s with freeCtr := s.freeCtr + 1 } : State).writeBack n true

/-- A device access reaches a location through a page with attribute HV: the line is filled when absent, and HV
sticks (R159, R176). -/
def State.touch (s : State) (loc : Nat) (hv : Bool) : State :=
  match s.line loc with
  | some l => if hv && !l.hv then s.setLine (loc / 64) { l with hv := true } else s
  | none =>
    let s := s.makeRoom loc
    s.setLine (loc / 64) ⟨Memory.readBytes s.backing (loc / 64 * 64) 64, 0, hv⟩

/-- A device access reaches a place: its line is filled (R159). -/
def State.touchPlace (s : State) (p : Place) (hv : Bool) : State := match p with | .main l => s.touch l hv | _ => s

/-- The byte at a place as the device sees it (R176). -/
def State.readPlace (s : State) (p : Place) : Byte :=
  match p with
  | .ls t o => Memory.read (s.tile t).ls o
  | .istore t o => Memory.read (s.tile t).istore o
  | .history t o => Memory.read (s.tile t).hist o
  | .pick t o => Memory.read (s.tile t).pickWin o
  | .window t o => byteOf ((s.tile t).windowWord (o - o % 8)) (o % 8)
  | .acc t o =>
    let e := accOf o * 1024 + o % 0x4000 / 10
    (Assoc.get 0#80 e (s.tile t).acc).extractLsb' (8 * (o % 0x4000 % 10)) 8
  | .heddle t o => byteOf ((s.tile t).heddleWord (o - o % 8)) (o % 8)
  | .control t o => byteOf (s.controlWord t (o - o % 8)) (o % 8)
  | .main l => match s.line l with | some n => n.bytes.getD (l % 64) 0 | none => Memory.read s.backing l
  | .flag o => Memory.read s.flag o

/-- Replace byte `b` of a bit vector. -/
def putByte {n : Nat} (v : BitVec n) (b : Nat) (x : Byte) : BitVec n :=
  (v &&& ~~~(BitVec.ofNat n (255 * 2 ^ (8 * b)))) ||| BitVec.ofNat n (x.toNat * 2 ^ (8 * b))

/-- Older bytes of the I-store that a context may still fetch are kept until its FENCE.I or start (R127). -/
def Tile.rememberStale (t : Tile) (o : Nat) : Tile :=
  let old := Memory.read t.istore o
  { t with ctxs := t.ctxs.map fun p => (p.1, { p.2 with stale := p.2.stale ++ [(o, old)] }) }

/-- Write a byte at its place. Register windows outside the v area, heddle slots and tile control are written by
their own steps, not here. -/
def State.writePlace (s : State) (p : Place) (b : Byte) : State :=
  match p with
  | .ls t o => s.modTile t fun tl => { tl with ls := Memory.write tl.ls o b }
  | .istore t o => s.modTile t fun tl => { tl.rememberStale o with istore := Memory.write tl.istore o b }
  | .history t o => s.modTile t fun tl => { tl with hist := Memory.write tl.hist o b }
  | .pick t o => s.modTile t fun tl => { tl with pickWin := Memory.write tl.pickWin o b }
  | .window t o =>
    if 0x100 ≤ o % 0x1000 ∧ o % 0x1000 < 0x500 then
      s.modCtx t (BitVec.ofNat 4 (o / 0x1000)) fun c =>
        let r := BitVec.ofNat 4 ((o % 0x1000 - 0x100) / 64)
        c.setV r (putByte (c.getV r) ((o % 0x1000 - 0x100) % 64) b)
    else s
  | .acc t o => s.modTile t fun tl =>
      let e := accOf o * 1024 + o % 0x4000 / 10
      { tl with acc := Assoc.set 0#80 e (putByte (Assoc.get 0#80 e tl.acc) (o % 0x4000 % 10) b) tl.acc }
  | .main l =>
    let s := s.touch l false
    match s.line l with
    | some n => s.setLine (l / 64) { n with bytes := setNth (l % 64) b n.bytes, dirty := n.dirty ||| (1#64 <<< (l % 64)) }
    | none => s
  | .flag o => { s with flag := Memory.write s.flag o b }
  | .heddle _ _ | .control _ _ => s

/-- Whether a place holds an uncorrectable error (R310, R311); SECDED covers 8 bytes. -/
def State.poisoned (s : State) (p : Place) : Bool :=
  match p with
  | .ls t o => (s.tile t).poison.contains (.ls t (o / 8 * 8))
  | .istore t o => (s.tile t).poison.contains (.istore t (o / 8 * 8))
  | .history t o => (s.tile t).poison.contains (.history t (o / 8 * 8))
  | .main l => s.badMain.contains (l / 8 * 8)
  | _ => false

/-- An 8-byte write replaces a word and its check bits (R386). -/
def State.cleanse (s : State) (p : Place) : State :=
  match p with
  | .ls t o => s.modTile t fun tl => { tl with poison := tl.poison.filter (· != .ls t (o / 8 * 8)) }
  | .istore t o => s.modTile t fun tl => { tl with poison := tl.poison.filter (· != .istore t (o / 8 * 8)) }
  | .history t o => s.modTile t fun tl => { tl with poison := tl.poison.filter (· != .history t (o / 8 * 8)) }
  | .main l => { s with badMain := s.badMain.filter (· != l / 8 * 8) }
  | _ => s

/-! ### The memory controllers: host, queue processor and walkers (R158, R159, R165) -/

/-- Bytes of physical memory as the host, the queue processor and the walkers read them. -/
def State.readPhys (s : State) (pa : Nat) : Nat → List Byte
  | 0 => []
  | n + 1 => Memory.read s.backing (s.part.loc pa false) :: s.readPhys (pa + 1) n

def State.writePhys (s : State) (pa : Nat) : List Byte → State
  | [] => s
  | b :: r => ({ s with backing := Memory.write s.backing (s.part.loc pa false) b } : State).writePhys (pa + 1) r

def State.physWord (s : State) (pa : Nat) : Word := leWord (s.readPhys pa 8)

/-- Main memory, or the flag window (R156, R162). -/
def Part.inMemory (p : Part) (pa len : Nat) : Bool := decide (pa + len ≤ p.memEnd)
def flagBase : Nat := 0xF000000000
def inFlag (pa len : Nat) : Bool := decide (flagBase ≤ pa) && decide (pa + len ≤ flagBase + 0x400000)

/-- The level of a walk: index, table size and page size (R163). -/
def levelBits : Nat → Nat
  | 0 => 30 | 1 => 21 | _ => 16
def levelEntries : Nat → Nat
  | 0 => 262144 | 1 => 512 | _ => 32

/-- One level of a walk and the levels below it (R163 to R165): a leaf, or none for a refusal with cause 0x05. -/
def State.walkFrom (s : State) (q : QueueNo) (va table : Nat) : Nat → Nat → Option TlbEntry
  | 0, _ => none
  | fuel + 1, level =>
    let sz := 8 * levelEntries level
    if table % sz ≠ 0 ∨ !s.part.inMemory table sz then none
    else
      let ix := va / 2 ^ levelBits level % levelEntries level
      let e := s.physWord (table + 8 * ix)
      let bad := s.badMain.contains (s.part.loc (table + 8 * ix) false / 8 * 8)
      let pb := levelBits level
      let pa := bits e 8 32 * 256
      let leaf := e.getLsbD 1
      let w := e.getLsbD 3
      let r := e.getLsbD 2
      let hv := e.getLsbD 4
      let sysat := e.getLsbD 5
      if bad || !e.getLsbD 0 || bits e 40 24 != 0 || e.getLsbD 7 then none
      else if !leaf then
        if level = 2 ∨ bits e 2 5 ≠ 0 then none else s.walkFrom q va pa fuel (level + 1)
      else if (w && !r) || (sysat && !hv) || pa % 2 ^ pb != 0 then none
      else if s.part.inMemory pa (2 ^ pb) || (level != 0 && inFlag pa (2 ^ pb)) then
        some ⟨q, va / 2 ^ pb, pb, pa, e.getLsbD 6, sysat, hv, w, r⟩
      else none

/-- The root table of a queue's address space (R131): the PTROOT of its descriptor, as read at its mapping where it is
mapped. -/
def State.ptroot (s : State) (q : QueueNo) : Nat :=
  match s.hub.slots.find? (·.queue == q) with
  | some m => (m.desc.getD 4 0).toNat
  | none => (s.physWord (s.hub.qtbase.toNat + 64 * q.toNat + 32)).toNat

/-- The 48-bit index of a virtual address. -/
def va48 (va : Word) : Nat := va.toNat % 2 ^ 48

def State.walk (s : State) (q : Tag) (va : Word) : Option TlbEntry := s.walkFrom q.queue (va48 va) q.root 3 0

def TlbEntry.covers (e : TlbEntry) (q : Tag) (va : Word) : Bool := e.queue == q.queue && e.page == va48 va / 2 ^ e.bits

/-- The translation a tile holds, in its own TLB or its region's (R166). -/
def State.translation (s : State) (t : TileNo) (q : Tag) (va : Word) : Option TlbEntry :=
  match (s.tile t).tlb.find? (·.covers q va) with
  | some e => some e
  | none => (Assoc.get ⟨[], []⟩ (regionOf t) s.regions).tlb.find? (·.covers q va)

/-- The place of a byte under a translation: the flag window, or Loc (R157, R162). -/
def State.transPlace (s : State) (e : TlbEntry) (va : Word) : Place :=
  let pa := e.frame + va48 va % 2 ^ e.bits
  if flagBase ≤ pa then .flag (pa - flagBase) else .main (s.part.loc pa e.near)

/-- What an access to one address meets. -/
inductive Reach where
  | place (p : Place) (hv sysat : Bool)
  /-- no translation held yet (R166) -/
  | miss
  /-- no right: cause 0x06 -/
  | denied
  | bad
deriving DecidableEq, Repr

/-- Where an access by tile `t` with tag `q` lands. -/
def State.reach (s : State) (t : TileNo) (q : Tag) (read write : Bool) (a : Word) : Reach :=
  match target s.part t a with
  | .bad => .bad
  | .chip o off _ => match placeOf o off with | some p => .place p false false | none => .bad
  | .mem =>
    match s.translation t q a with
    | none => .miss
    | some e =>
      if (read && !e.r) || (write && !e.w) then .denied else .place (s.transPlace e a) e.hv e.sysat

def Region.none : Region := ⟨[], []⟩
def State.region (s : State) (rn : Nat) : Region := Assoc.get Region.none rn s.regions
def State.setRegion (s : State) (rn : Nat) (r : Region) : State := { s with regions := Assoc.set Region.none rn r s.regions }

/-- A pending walk serves a page: the same tag and the same first address (R166). -/
def Walk.serves (w : Walk) (q : Tag) (base : Nat) : Bool := w.tag.queue == q.queue && w.tag.root == q.root && w.base == base

/-- Walks start on a die's walkers in class order, then age order (R166). -/
def Walk.before (a b : Walk) : Bool :=
  decide (a.tag.cls.toNat < b.tag.cls.toNat) || (a.tag.cls == b.tag.cls && decide (a.since ≤ b.since))

/-- The pending walks of the regions of a die, oldest listed first. -/
def State.dieWalks (s : State) (d : Nat) : List (Nat × Walk) :=
  (s.regions.filter fun p => regionDie p.1 == d).flatMap fun p => p.2.pending.map fun w => (p.1, w)

/-- One of a die's 64 walkers, when free, takes the first waiting walk (R166). -/
def State.startWalk (s : State) (d : Nat) : State :=
  let ws := s.dieWalks d
  if 64 ≤ (ws.filter (·.2.started)).length then s
  else
    let waiting := ws.filter fun p => !p.2.started
    match waiting.find? fun p => waiting.all fun o => p.2.before o.2 with
    | none => s
    | some (rn, w) =>
      let rg := s.region rn
      s.setRegion rn { rg with pending := rg.pending.map fun x => if x == w then { x with started := true } else x }

/-- The first address of the page that a miss is for: of the leaf that the walk will find, else of 64 KiB. -/
def State.missPage (s : State) (q : Tag) (va : Word) : Nat :=
  let b := match s.walk q va with | some e => e.bits | none => 16
  va48 va / 2 ^ b * 2 ^ b

/-- A miss opens a pending walk in the region, if one of its 256 entries is free, unless one for the page is pending
(R166). -/
def State.openWalk (s : State) (t : TileNo) (q : Tag) (va : Word) : State :=
  let rg := s.region (regionOf t)
  let base := s.missPage q va
  if rg.pending.any (·.serves q base) || 256 ≤ rg.pending.length then s
  else (s.setRegion (regionOf t) { rg with pending := rg.pending ++ [⟨q, base, s.time, false⟩] }).startWalk (dieOf t)

/-- The table words a walk reads. -/
def State.walkReads (s : State) (va table : Nat) : Nat → Nat → List Nat
  | 0, _ => []
  | fuel + 1, level =>
    let sz := 8 * levelEntries level
    if table % sz ≠ 0 ∨ !s.part.inMemory table sz then []
    else
      let a := table + 8 * (va / 2 ^ levelBits level % levelEntries level)
      let e := s.physWord a
      if e.getLsbD 0 && !e.getLsbD 1 then a :: s.walkReads va (bits e 8 32 * 256) fuel (level + 1) else [a]

/-- An uncorrectable error in a read of a walker or of the queue processor is a package error (R327). -/
def State.memError (s : State) : State :=
  { s with hub := { s.hub with pkgMem := true }, out := s.out ++ [.msix 0] }

/-- Whether a physical word holds an uncorrectable error, as a read at the memory controllers finds it. -/
def State.badPhys (s : State) (pa : Nat) : Bool := s.badMain.contains (s.part.loc pa false / 8 * 8)

/-- A translated access misses and its walk is refused, in a table word with an uncorrectable error (R327). -/
def State.walkBad (s : State) (t : TileNo) (q : Tag) (va : Word) : Bool :=
  target s.part t va == .mem && (s.translation t q va).isNone && (s.walk q va).isNone
    && (s.walkReads (va48 va) q.root 3 0).any s.badPhys

/-- A refusal of an access is taken: an uncorrectable error in a read of its walk is a package error (R327). -/
def State.walkFault (s : State) (t : TileNo) (q : Tag) (va : Word) : State := if s.walkBad t q va then s.memError else s

/-- No address space: for a draft that makes no access. -/
def Tag.none : Tag := ⟨0, 0, 0⟩

/-- The tag of a launch's translations (R163, R166). -/
def Resident.tag (r : Resident) : Tag := ⟨r.queue, r.ptroot, r.cls⟩

/-- The tag of a context's translations (R163, R166). -/
def State.tag (s : State) (t : TileNo) (c : CtxNo) : Tag :=
  match s.launchOf t c with
  | some r => r.tag
  | none => ⟨0, s.ptroot 0, 0⟩

/-- The aligned 8-byte word a place lies in (R168). -/
def Place.word8 : Place → Place
  | .ls t o => .ls t (o / 8 * 8) | .istore t o => .istore t (o / 8 * 8) | .history t o => .history t (o / 8 * 8)
  | .pick t o => .pick t (o / 8 * 8) | .window t o => .window t (o / 8 * 8) | .acc t o => .acc t (o / 8 * 8)
  | .heddle t o => .heddle t (o / 8 * 8) | .control t o => .control t (o / 8 * 8)
  | .main l => .main (l / 8 * 8) | .flag o => .flag (o / 8 * 8)

/-- The place `n` bytes up. -/
def Place.add (n : Nat) : Place → Place
  | .ls t o => .ls t (o + n) | .istore t o => .istore t (o + n) | .history t o => .history t (o + n)
  | .pick t o => .pick t (o + n) | .window t o => .window t (o + n) | .acc t o => .acc t (o + n)
  | .heddle t o => .heddle t (o + n) | .control t o => .control t (o + n)
  | .main l => .main (l + n) | .flag o => .flag (o + n)

def State.readPlaces (s : State) (p : Place) : Nat → List Byte
  | 0 => []
  | n + 1 => s.readPlace p :: s.readPlaces (p.add 1) n

def State.writePlaces (s : State) (p : Place) : List Byte → State
  | [] => s
  | b :: r => (s.writePlace p b).writePlaces (p.add 1) r

/-- The home of a word, an empty one when nothing waits there (R168). -/
def State.home (s : State) (w : Place) : Home :=
  match s.homes.find? (·.word == w) with
  | some h => h
  | none => ⟨w, [], [], [], []⟩

def State.setHome (s : State) (h : Home) : State :=
  let rest := s.homes.filter (·.word != h.word)
  { s with homes := if h.fifo = [] ∧ h.watchers = [] ∧ h.watches = [] ∧ h.applied = [] then rest else rest ++ [h] }

/-- The unit that is the home of a word (R168): an LS controller, the hub, or the memory slice of a channel. -/
def Place.unit : Place → Nat × Nat
  | .ls t _ => (0, t.toNat) | .flag _ => (1, 0) | .main l => (2, l / 512 / 2 ^ 24) | _ => (3, 0)

/-- How many of some records the home unit of a word holds, over all its words. -/
def State.atUnit (s : State) (w : Place) (f : Home → Nat) : Nat :=
  (s.homes.filter fun h => h.word.unit == w.unit).foldl (fun n h => n + f h) 0

/-- The FIFO depth of a home (R173). -/
def Place.fifoDepth : Place → Nat
  | .ls _ _ => 32 | _ => 256
/-- Watch records of a home (R283). -/
def Place.watchDepth : Place → Nat
  | .ls _ _ => 16 | _ => 256

/-- A home's FIFO accepts no further request (R173). -/
def State.fifoFull (s : State) (w : Place) : Bool := decide (w.fifoDepth ≤ s.atUnit w (·.fifo.length))

/-! ### Writes as the word's home sees them (R170, R171, R283) -/

/-- A card that has written a word and is not at its end yet: its end precedes every CWAIT that the write satisfies, and
the firing of every card that it triggers (R184). -/
def State.cardHolds (s : State) (w : Place) : Bool := s.tiles.any fun p => p.2.cards.any fun k => k.wrote.contains w

/-- A write to the counter of a TRIG card tests the card again; a card seen at its threshold fires, whatever the counter holds
then (R216, R395). -/
def State.armTrigs (s : State) (w : Place) : State :=
  match w with
  | .ls t o =>
    let hit (k : Card) : Bool := k.state == .unfired && bits k.cmd 0 20 == o
      && decide (bits k.cmd 32 32 ≤ (leWord (Memory.readBytes (s.tile t).ls o 8)).toNat)
    if (s.tile t).cards.any hit then
      s.modTile t fun tl => { tl with cards := tl.cards.map fun k => if hit k then { k with state := .armed } else k }
    else s
  | _ => s

/-- The queues whose notify word lies at an offset of the flag window: enabled ones, by the descriptor as mapped, else as it
stands in memory (R131, R132). -/
def State.notified (s : State) (off : Nat) : List QueueNo :=
  ((List.range (min s.hub.qtcount 4096)).map (BitVec.ofNat 12)).filter fun q =>
    let a := s.hub.qtbase.toNat + 64 * q.toNat
    let w (i : Nat) : Word := match s.hub.slots.find? (·.queue == q) with
      | some m => m.desc.getD i 0
      | none => s.physWord (a + 8 * i)
    (w 0).getLsbD 0 && bits (w 2) 0 22 == off

/-- A write to a word of the flag window is noted for the queues it is the notify word of (R132). -/
def State.note (s : State) (w : Place) : State :=
  match w with
  | .flag o =>
    let qs := (s.notified o).filter fun q => !s.hub.notes.contains q
    if qs = [] then s else { s with hub := { s.hub with notes := s.hub.notes ++ qs } }
  | _ => s

/-- Every TRIG card that watches a word tests it again (R216), and every CWAIT that does, unless a card holds it (R184, R283). -/
def State.retest (s : State) (w : Place) : State :=
  let s := s.armTrigs w
  if s.cardHolds w then s
  else
    match s.homes.find? (·.word == w) with
    | none => s
    | some h =>
      let v := leWord (s.readPlaces w 8)
      h.watches.foldl (fun s p => s.modCtx p.1 p.2 fun k =>
        match k.park with
        | some ⟨.cwait _ lim, _⟩ => if lim.toNat ≤ v.toNat then { k with woken := true } else k
        | _ => k) s

/-- A write is applied to a word: its watchers other than the writer wake, and what watches it is tested again (R170). -/
def State.wrote (s : State) (w : Place) (who : Option (TileNo × CtxNo)) : State :=
  let s := s.note w
  let s := match s.homes.find? (·.word == w) with
    | none => s
    | some h =>
      if h.watchers.all (some · == who) then s else s.setHome { h with watchers := h.watchers.filter (some · == who) }
  s.retest w

/-- Bytes of one aligned word are written at its home. -/
def State.store (s : State) (p : Place) (bs : List Byte) (who : Option (TileNo × CtxNo)) : State :=
  let s := if bs.length = 8 then s.cleanse p else s
  (s.writePlaces p bs).wrote p.word8 who

/-- A write of a tile's unit, or of a COPY, has not been performed: it stands in a FIFO (R171) or in an inbox (R119). -/
def State.postedBy (s : State) (t : TileNo) (p : Poster) : Bool :=
  (s.homes.any fun h => h.fifo.any fun e => e.poster == some p && e.tile == t)
  || s.tiles.any fun x => (x.2.inbox ++ x.2.landing).any fun e => e.src == some p && e.fromTile == t

/-- Whether nothing waits in the reservation FIFO of a word (R171). -/
def State.fifoEmpty (s : State) (w : Place) : Bool := (s.home w).fifo == []

/-- Who writes as an engine does: a unit of a tile that works for a context. -/
structure Writer where
  tile : TileNo
  ctx : CtxNo
  tag : Tag
  sup : Bool
  poster : Poster

/-- The byte of its aligned word at which a place lies. -/
def Place.inWord : Place → Nat
  | .ls _ o | .istore _ o | .history _ o | .pick _ o | .window _ o | .acc _ o | .heddle _ o | .control _ o | .flag o | .main o => o % 8

/-- Write bytes of one aligned word, reached through a page with or without HV, or post them in its FIFO behind what waits there
(R171). -/
def State.post1 (s : State) (w : Writer) (p : Place) (hv : Bool) (bs : List Byte) : State :=
  let s := s.touchPlace p hv
  let word := p.word8
  if s.fifoEmpty word then
    let s := if s.poisoned p then s.cleanse p else s
    s.store p bs none
  else
    let h := s.home word
    let e : FifoEntry := { tile := w.tile, ctx := w.ctx, seq := 0, granted := false, sysat := false, writable := true
                           store := some (bs.zipIdx.map fun b => (p.inWord + b.2, b.1)), host := none
                           poster := some w.poster, hv := hv }
    s.setHome { h with fifo := h.fifo ++ [e] }

/-- A byte as the queue processor reads it: of main memory the backing copy (R158, R159). -/
def State.readBacking (s : State) (p : Place) : Byte :=
  match p with
  | .main l => Memory.read s.backing l
  | _ => s.readPlace p

/-- Bytes of one aligned word as the queue processor writes them: of main memory in the backing copy, at once; elsewhere as an engine
does (R158, R159, R171). -/
def State.postBacking (s : State) (w : Writer) (p : Place) (hv : Bool) (bs : List Byte) : State :=
  match p with
  | .main l =>
    let s := if s.poisoned p then s.cleanse p else s
    { s with backing := bs.zipIdx.foldl (fun m b => Memory.write m (l + b.2) b.1) s.backing }
  | _ => s.post1 w p hv bs

/-- A write that is made in one step with other effects comes to a word, and keeps its place in the word's FIFO by an entry without
bytes: whether it may be made now, and the state with its place given up, or else taken, where there is room (R171, R173). -/
def State.turnAt (s : State) (w : Place) (e : FifoEntry) : State × Bool :=
  let h := s.home w
  let mine (f : FifoEntry) : Bool := f.poster == e.poster && f.tile == e.tile && f.ctx == e.ctx && f.seq == e.seq
  match h.fifo with
  | [] => (s, true)
  | f :: rest =>
    if mine f then (s.setHome { h with fifo := rest }, true)
    else if h.fifo.any mine || s.fifoFull w then (s, false)
    else (s.setHome { h with fifo := h.fifo ++ [e] }, false)

/-- The FIFOs of the words at which writes of one step must wait have room for all of them (R171, R173). -/
def State.fits (s : State) (ws : List Place) : Bool :=
  let busy := ws.filter (!s.fifoEmpty ·)
  busy.all fun w => decide (s.atUnit w (·.fifo.length) + (busy.filter (·.unit == w.unit)).length ≤ w.fifoDepth)

/-- The entry of a FIFO that keeps such a place. -/
def placeEntry (t : TileNo) (c : CtxNo) (seq : BitVec 16) (p : Poster) (hv : Bool) : FifoEntry :=
  { tile := t, ctx := c, seq := seq, granted := false, sysat := false, writable := true, store := none, host := none
    poster := some p, hv := hv }

/-- The places in FIFOs that some entries keep are given up. -/
def State.dropPlaces (s : State) (p : FifoEntry → Bool) : State :=
  { s with homes := s.homes.map fun h => { h with fifo := h.fifo.filter (!p ·) } }

/-- A write of several words in one step comes to its turn at all of them, as `turnAt` says of one: it takes its places in their
FIFOs together, so that two such writes never wait for each other, and takes them anew where its words have changed (R171, R173). -/
def State.turnsAt (s : State) (ws : List Place) (e : FifoEntry) : State × Bool :=
  let mine (f : FifoEntry) : Bool := f.poster == e.poster && f.tile == e.tile && f.ctx == e.ctx && f.seq == e.seq
  let front (w : Place) : Bool := match (s.home w).fifo with | [] => true | f :: _ => mine f
  let s' := s.dropPlaces mine
  if ws.all s.fifoEmpty then (s, true)
  else if ws.all front then (s', true)
  else if ws.all fun w => (s.home w).fifo.any mine then (s, false)
  else if ws.all fun w => decide (s'.atUnit w (·.fifo.length) + (ws.filter (·.unit == w.unit)).length ≤ w.fifoDepth) then
    (ws.foldl (fun s w => s.setHome { s.home w with fifo := (s.home w).fifo ++ [e] }) s', false)
  else (s', false)

/-! ### Host AtomicOps (R174) -/

def hostWidth : HostAtomic → Nat
  | .fetchAdd w _ | .swap w _ | .cas w _ _ => if w then 8 else 4

/-- The new value from the old one, both of the operation's width. -/
def hostApply (op : HostAtomic) (old : Nat) : Nat :=
  let m := 2 ^ (8 * hostWidth op)
  match op with
  | .fetchAdd _ v => (old + v.toNat) % m
  | .swap _ v => v.toNat % m
  | .cas _ c n => if old = c.toNat % m then n.toNat % m else old

/-- A host operation on the word `w`, at byte `o` of it, in one step: on the buffered line where there is one, else on
the backing copy. The host receives the old value. -/
def State.hostRmw (s : State) (w : Place) (op : HostAtomic) (o : Nat) : State :=
  let p := w.add o
  let old := leNat (s.readPlaces p (hostWidth op))
  let bs := leBytes (hostWidth op) (hostApply op old)
  let s : State := match p with
    | .main l => if (s.line l).isSome then s.writePlaces p bs else { s with backing := Memory.writeBytes s.backing l bs }
    | _ => s.writePlaces p bs
  let s := s.wrote w none
  { s with out := s.out ++ [.value (BitVec.ofNat 64 old)] }

/-- The bytes of a posted write replace the check bits of their word (R386): a unit's do, by its checks when it posted them; a
piece of a launch's image does when it is the whole word. -/
def FifoEntry.cleans (e : FifoEntry) (n : Nat) : Bool :=
  match e.poster with
  | some (.launch _) => n == 8
  | _ => true

/-- Run the host operations and the posted writes that have come to the head of their words' FIFOs (R171, R174). A line that has
left its buffer meanwhile is filled again, with the attribute of the write's page (R159). -/
def State.runHosts (s : State) : State :=
  s.homes.foldl (fun s h =>
    match h.fifo with
    | e :: rest =>
      let s' := s.setHome { h with fifo := rest }
      match e.host, e.store, e.poster with
      | some (op, o), _, _ => s'.hostRmw h.word op o
      | none, some ((o, b) :: bs), some _ =>
        let s' := s'.touchPlace h.word e.hv
        let s' := if s'.poisoned h.word && e.cleans (bs.length + 1) then s'.cleanse h.word else s'
        s'.store (h.word.add o) (b :: bs.map (·.2)) none
      | _, _, _ => s
    | [] => s) s

end Sys2Proof.Machine
end

