-- ==== Sys2Proof/Machine/Operands.lean ====
section
/-! DEFINITION. What instructions of one shape share: the register gate, counters, requests, lanes and guards. -/

namespace Sys2Proof.Machine

/-- What a meaning answers. -/
abbrev Res := Host.Outcome State Fault Refusal

/-- The executing context cannot issue yet, for a plain register that a request in flight holds (R114, R301): it is occupied for
the cycle, and the port chooses again (R104; log 52). An instruction that occupies its context already goes on waiting. -/
def State.passOver (s : State) : State :=
  if s.me.held then s
  else
    let s := (s.modMe fun c => { c with busy := s.time + 1 }).modHere fun tl => { tl with lastIssue := 0 }
    { s with agenda := .issue s.cur.1 :: s.agenda }

/-- Take effect only when the registers an instruction names allow it (R113, R114, R301). -/
def State.gated (s : State) (u : Uses) (eff : State → State) : State :=
  match s.me.gate u with
  | .go => eff s
  | .stall => s.passOver
  | .park r => s.parkMe r

/-- An instruction that only reads x registers and writes one (R329, R330). -/
def State.regOp (s : State) (xs : List (BitVec 5)) (xd : BitVec 5) (n : Nat) (v : Ctx → Word) : State :=
  s.gated (Uses.x xs [xd]) fun s => s.done n ((s.me.consume xs).setX xd (v s.me))

/-- A supervisor instruction in task mode raises cause 0x02 (R62, R299). -/
def State.supervisor (s : State) (i : Instr) (eff : State → State) : State :=
  if s.me.sup then eff s else s.trap 0x02 (wordOf i)

/-- On a part without heddle hardware, cause 0x15 (R5, R65). -/
def State.heddleOnly (s : State) (i : Instr) (eff : State → State) : State :=
  if s.part.heddle then eff s else s.trap 0x15 (wordOf i)

/-! ### Counters and requests (R122, R123, R301) -/

/-- The capacities of R123 and the 16 entries of the log (R301) that an instruction which raises the named counters
would pass: none when it may issue. -/
def Ctx.capacity (c : Ctx) (ld st cp mx log : Bool) : Option Reason :=
  let l := ld && decide (16 ≤ c.ld)
  let s := st && decide (16 ≤ c.st)
  let p := cp && decide (8 ≤ c.cp)
  let m := mx && decide (4 ≤ c.mx)
  let g := log && decide (16 ≤ (c.reqs.filter (·.logged)).length)
  if l || s || p || m || g then some (.capacity l s p m g) else none

/-- Whether the counters a park waits for are below capacity. -/
def Ctx.hasRoom (c : Ctx) (ld st cp mx log : Bool) : Bool := (c.capacity ld st cp mx log).isNone

/-- The first log entry that holds no request. -/
def Ctx.freeSlot (c : Ctx) : BitVec 4 :=
  match (List.range 16).find? fun n => !(c.reqs.any fun q => q.logged && q.slot == BitVec.ofNat 4 n) with
  | some n => BitVec.ofNat 4 n
  | none => 0

/-- A new request of a context. -/
def Ctx.mkReq (c : Ctx) (kind : ReqKind) (size : Nat) (data : Word) (dst : Dst) (elems : List Elem) (logged : Bool) : Req :=
  { seq := c.seq + 1, kind := kind, pc := c.pcNow, num := c.num, size := size, data := data, dst := dst, elems := elems
    aq := false, rl := false, phase := .issued, logged := logged, slot := c.freeSlot, srcX := 0, srcV := 0, srcK := 0
    frnd := c.frnd, sup := c.sup }

/-- Issue a request: its counter rises (R122). -/
def Ctx.send (c : Ctx) (q : Req) : Ctx :=
  { c with
    reqs := c.reqs ++ [q], seq := q.seq
    ld := if q.kind.isLd then c.ld + 1 else c.ld
    st := if q.kind.isSt then c.st + 1 else c.st }

/-- Whether an address needs translation (R149). -/
def State.translated (s : State) (t : TileNo) (a : Word) : Bool := target s.part t a == .mem

/-- One scalar element. -/
def Elem.one (a : Word) (w : Nat) (data : List Byte) : Elem := ⟨a, w, 0, false, data⟩

/-! ### Lanes and guards (R26, R48, R192) -/

/-- Active(i) = K[kg] bit i XOR gn (R26). -/
def Ctx.active (c : Ctx) (g : Guard) (i : Nat) : Bool := xor ((c.getK g.kg).getLsbD i) (g.gn == 1)

/-- Lane `i` of width `w` bits. -/
def laneOf (v : VecBits) (w i : Nat) : Nat := v.toNat / 2 ^ (w * i) % 2 ^ w

/-- The lanes of a register, lane 0 first. -/
def lanesOf (v : VecBits) (w : Nat) : List Nat := (List.range (512 / w)).map (laneOf v w)

/-- The register whose lanes, lane 0 first, are given. -/
def ofLanes (w : Nat) : List Nat → Nat
  | [] => 0
  | x :: r => x % 2 ^ w + 2 ^ w * ofLanes w r

def packLanes (w : Nat) (ls : List Nat) : VecBits := BitVec.ofNat 512 (ofLanes w ls)

/-- New lanes where active, old ones elsewhere, and the flags of the active ones (R76). -/
def Ctx.mergeLanes (c : Ctx) (g : Guard) (w : Nat) (old : VecBits) (new : Nat → Nat × Flags) : VecBits × Flags :=
  let r := (List.range (512 / w)).map fun i => if c.active g i then new i else (laneOf old w i, Flags.none)
  (packLanes w (r.map (·.1)), r.foldl (fun f p => f.or p.2) Flags.none)

/-- The bits of a mask where active, the old ones elsewhere. -/
def Ctx.mergeBits (c : Ctx) (g : Guard) (n : Nat) (old : Word) (new : Nat → Bool) : Word :=
  BitVec.ofNat 64 ((List.range n).foldl
    (fun a i => if (if c.active g i then new i else old.getLsbD i) then a + 2 ^ i else a) 0)

/-- The rounding mode of `frnd` (R71). -/
def Ctx.mode (c : Ctx) : Rm := Rm.ofBits (c.frnd.extractLsb' 0 2)
def Ctx.np (c : Ctx) : Bool := c.frnd.getLsbD 3

/-- Flags are sticky in `fstat` (R75, R76). -/
def Ctx.raise (c : Ctx) (f : Flags) : Ctx := { c with fstat := c.fstat ||| f.bits.zeroExtend 12 }

end Sys2Proof.Machine
end

