-- ==== Sys2Proof/Machine/Ring.lean ====
section
/-! DEFINITION. The descriptor of a queue, its notify word and its ring slots, as the queue processor reaches them (R131 to R133,
R145). -/

namespace Sys2Proof.Machine

/-! ### Descriptors (R131) -/

def State.descAddr (s : State) (q : QueueNo) : Nat := s.hub.qtbase.toNat + 64 * q.toNat
/-- The descriptor as memory holds it. -/
def State.readDesc (s : State) (q : QueueNo) : List Word := (List.range 8).map fun i => s.physWord (s.descAddr q + 8 * i)
def dw (d : List Word) (i : Nat) : Word := d.getD i 0
def descEnable (d : List Word) : Bool := (dw d 0).getLsbD 0
def descProducer (d : List Word) : Bool := (dw d 0).getLsbD 1
def descClass (d : List Word) : Nat := bits (dw d 0) 2 2
def descWeight (d : List Word) : Nat := bits (dw d 0) 4 4 + 1
/-- Commands the ring holds. -/
def descSize (d : List Word) : Nat := 2 ^ bits (dw d 0) 8 5
def descState (d : List Word) : Nat := bits (dw d 0) 16 2
def descRing (d : List Word) : Word := sext48 (bits (dw d 1) 0 48)
def descNotify (d : List Word) : Nat := bits (dw d 2) 0 22
def descRead (d : List Word) : Nat := (dw d 3).toNat
def descTile (d : List Word) : TileNo := (dw d 5).extractLsb' 0 12

def State.qslot (s : State) (q : QueueNo) : Option QSlot := s.hub.slots.find? (·.queue == q)
/-- The descriptor that the queue processor goes by: of a mapped queue, as read at its mapping. -/
def State.desc (s : State) (q : QueueNo) : List Word := match s.qslot q with | some m => m.desc | none => s.readDesc q
def State.readIdx (s : State) (q : QueueNo) : Nat := match s.qslot q with | some m => m.readIdx | none => descRead (s.readDesc q)
/-- W, the value of the notify word (R132). -/
def State.posted (s : State) (d : List Word) : Nat := leNat (Memory.readBytes s.flag (descNotify d) 8)

/-! ### Accesses through PTROOT (R131, R133, R158) -/

/-- The address space that a queue's own accesses go through. -/
def State.qTag (s : State) (q : QueueNo) : Tag := ⟨q, s.ptroot q, BitVec.ofNat 2 (descClass (s.desc q))⟩

/-- The physical address of a virtual one, with the right to read or write. -/
def State.qPhys (s : State) (q : QueueNo) (write : Bool) (va : Word) : Option Nat :=
  match target s.part 0 va with
  | .mem =>
    match s.walk (s.qTag q) va with
    | some e => if (if write then e.w else e.r) then some (e.frame + va48 va % 2 ^ e.bits) else none
    | none => none
  | _ => none

/-- The address of a ring slot. -/
def descSlot (d : List Word) (i : Nat) : Word := descRing d + BitVec.ofNat 64 (64 * (i % descSize d))

/-- Where a post to a queue writes its ring slot now. -/
def State.slotPhys (s : State) (q : QueueNo) : Option Nat := s.qPhys q true (descSlot (s.desc q) (s.posted (s.desc q)))

end Sys2Proof.Machine
end

