-- ==== Sys2Proof/Machine/Tables.lean ====
section
/-! DEFINITION. The tile table: the fields of an entry and of an endpoint (R276 to R278), and the generations that still
run (R280, R282). -/

namespace Sys2Proof.Machine

/-- The bytes of an accumulator in its tile's window, which an operation on it touches (R181). -/
def accRange (t : TileNo) (m : BitVec 2) : Nat × Nat :=
  (0xFFFFF00000000000 + t.toNat * 2 ^ 24 + 0x130000 + m.toNat * 0x4000, 0x2800)

/-! ### Tile table entries (R277, R278) -/

/-- The eight words of entry `n`. -/
def Tile.tt (t : Tile) (n : Nat) : List Word := (List.range 8).map fun i => Assoc.get 0 (8 * n + i) t.tts
def Tile.setTt (t : Tile) (n : Nat) (ws : List Word) : Tile :=
  { t with tts := (ws.zipIdx).foldl (fun m p => Assoc.set 0 (8 * n + p.2) p.1 m) t.tts }
def Tile.ttSt (t : Tile) (n : Nat) : TtState := Assoc.get TtState.zero n t.ttState
def Tile.setTtSt (t : Tile) (n : Nat) (st : TtState) : Tile := { t with ttState := Assoc.set TtState.zero n st t.ttState }

def ttW (e : List Word) (i : Nat) : Word := e.getD i 0
def ttValid (e : List Word) : Bool := (ttW e 0).getLsbD 55
def ttKind (e : List Word) : Nat := bits (ttW e 0) 52 2
def ttType (e : List Word) : Ty := (Ty.ofCode ((ttW e 0).extractLsb' 48 4)).getD .n32
def ttOper (e : List Word) : Nat := bits (ttW e 0) 0 48
/-- The hop timeout in cycles. -/
def ttTimeout (e : List Word) : Nat := 2 ^ (12 + bits (ttW e 0) 56 4)
def ttCount (e : List Word) : Nat := bits (ttW e 1) 0 32
def ttSrc (t : TileNo) (e : List Word) : Nat := normVa t (sext48 (bits (ttW e 2) 0 48))
def ttDst (t : TileNo) (e : List Word) : Nat := normVa t (sext48 (bits (ttW e 3) 0 48))
def ttParent (e : List Word) : Nat := bits (ttW e 4) 0 20
def ttKids (e : List Word) : List Nat :=
  [bits (ttW e 4) 20 20, bits (ttW e 4) 40 20, bits (ttW e 5) 0 20, bits (ttW e 5) 20 20]
def ttAlt (e : List Word) : Option TileNo := if (ttW e 5).getLsbD 52 then some ((ttW e 5).extractLsb' 40 12) else none
def ttCtr (e : List Word) : Nat := bits (ttW e 6) 0 20
/-- Elements in a chunk of 256 bytes, and the chunks of an entry (R276). -/
def ttPer (e : List Word) : Nat := 256 / (Ty.width (ttType e) / 8)
def ttChunks (e : List Word) : Nat := (ttCount e + ttPer e - 1) / ttPer e
/-- Elements of chunk `c`. -/
def ttLen (e : List Word) (c : Nat) : Nat := min (ttPer e) (ttCount e - c * ttPer e)
def ttRoot (e : List Word) : Bool := !(ttParent e).testBit 19

/-- The parts of an endpoint. -/
def epRemote (n : Nat) : Bool := n.testBit 18
def epPort (n : Nat) : BitVec 4 := BitVec.ofNat 4 (n / 2 ^ 12)
def epTile (n : Nat) : TileNo := BitVec.ofNat 12 n
/-- The valid children, in slot order. -/
def ttChildren (e : List Word) : List Nat := (ttKids e).filter (·.testBit 19)

def TtPhase.busy : TtPhase → Bool
  | .up | .down => true
  | _ => false

/-- The bytes of an entry's vector. -/
def ttBytes (e : List Word) : Nat := ttCount e * (Ty.width (ttType e) / 8)

/-- The bytes of SRC that a node reads: none in a BROADCAST but at the root (R282). -/
def ttReads (t : TileNo) (e : List Word) : List (Nat × Nat) :=
  if ttKind e == 2 && !ttRoot e then [] else [(ttSrc t e, ttBytes e)]

/-- The bytes of DST that a node writes: none in a REDUCE but at the root (R282). -/
def ttWrites (t : TileNo) (e : List Word) : List (Nat × Nat) :=
  if ttKind e == 1 && !ttRoot e then [] else [(ttDst t e, ttBytes e)]

/-- A generation of a tile that is not complete, a card with the bytes that it reads and writes (R280). -/
structure LiveGen where
  st : TtState
  reads : List (Nat × Nat)
  writes : List (Nat × Nat)
deriving DecidableEq, Repr

/-- The generations of a tile that are not complete (R280). DESIGN CHOICE (log 16): one that has failed is complete. -/
def Tile.liveGens (tl : Tile) (t : TileNo) : List LiveGen :=
  tl.ttState.filterMap fun p =>
    let e := tl.tt p.1
    if p.2.phase.busy then some ⟨p.2, ttReads t e, ttWrites t e⟩ else none

/-- The generations that a context fired and that are not complete, each a card of class e: its issue number and the
bytes it reads and writes (R280). -/
def Tile.gens (tl : Tile) (t : TileNo) (c : CtxNo) : List (Nat × List (Nat × Nat)) :=
  ((tl.liveGens t).filter (·.st.ctx == c)).map fun g => (g.st.num, g.reads ++ g.writes)

end Sys2Proof.Machine
end

