-- ==== Sys2Proof/Machine/Order.lean ====
section
/-! DEFINITION. Which accesses of a context may be performed: preserved program order (R179), the domains of scopes
(R180), fences (R181, R182) and the classes of accesses. -/

namespace Sys2Proof.Machine

/-! ### Ranges of bytes -/

/-- Two ranges (first byte, length) share a byte. -/
def rangesMeet (a b : Nat × Nat) : Bool := decide (a.1 < b.1 + b.2) && decide (b.1 < a.1 + a.2)

def anyMeet (a b : List (Nat × Nat)) : Bool := a.any fun x => b.any (rangesMeet x)

/-- The number of a translated address's location, by the translation held or else by the walk that a miss would make. -/
def State.memKey (s : State) (t : TileNo) (q : Tag) (a : Nat) : Option Nat :=
  let va := BitVec.ofNat 64 a
  match (s.translation t q va).orElse fun _ => s.walk q va with
  | some e => match s.transPlace e va with
    | .main l => some l
    | .flag o => some (2 ^ 60 + o)
    | _ => none
  | none => none

/-- A range of virtual addresses as ranges of locations, in one numbering: the on-chip map by its aperture address,
translated storage by the location of each 512 bytes (R157, R176); a page without a translation by its own address. -/
def State.locs (s : State) (t : TileNo) (q : Tag) (r : Nat × Nat) : List (Nat × Nat) :=
  if 0xFFFFF00000000000 ≤ r.1 then [r]
  else (List.range ((r.1 % 512 + r.2 + 511) / 512)).map fun i =>
    let a := if i = 0 then r.1 else (r.1 / 512 + i) * 512
    let n := min (r.1 + r.2) ((r.1 / 512 + i + 1) * 512) - a
    match s.memKey t q a with
    | some l => (l, n)
    | none => (2 ^ 65 + a, n)

/-- Two lists of ranges touch a common location (R176). -/
def State.rangesShare (s : State) (t : TileNo) (q : Tag) (a b : List (Nat × Nat)) : Bool :=
  anyMeet a b || anyMeet (a.flatMap (s.locs t q)) (b.flatMap (s.locs t q))

def Elem.range (t : TileNo) (e : Elem) : Nat × Nat := (normVa t e.addr, e.size)

/-- Two elements of one tile's accesses touch a common location (R176). -/
def State.elemsMeet (s : State) (t : TileNo) (q : Tag) (a b : Elem) : Bool := s.rangesShare t q [a.range t] [b.range t]

/-! ### Classes (R181) -/

/-- The class bits of a request: l is bit 0, s is bit 1. -/
def ReqKind.classes : ReqKind → BitVec 4
  | .load _ | .lr | .vload | .pread .. => 1
  | .amo _ | .amodr _ => 3
  | .store | .sc | .vstore | .delivery .. | .window _ | .control _ | .mflush | .minv | .qsig | .qput _ _ | .qputw _ _ => 2
  | .hload _ | .barrier => 0

/-- Whether every access of a request is performed, though its counter has not fallen yet. -/
def Req.performed (q : Req) : Bool :=
  match q.phase with
  | .applied _ | .answered _ _ | .recycled => true
  | _ => false

/-- The elements still to be performed. -/
def Req.pending (q : Req) : List Elem := if q.performed then [] else q.elems.filter fun e => !e.done

/-- The incomplete matrix operations of a context, each with its issue number and footprint: those in the unit's order, and
the follow-on of an XCOPYM whose copy has not landed, on its operands and its accumulator (R181, R185). -/
def Tile.operations (tl : Tile) (t : TileNo) (c : CtxNo) : List (Nat × List (Nat × Nat)) :=
  ((tl.mats.filter fun m => m.ctx == c && m.kind != .card).map fun m => (m.num, m.reads ++ m.writes))
    ++ (tl.cards.filter fun k => k.ctx == c && k.kind == .xcopym && k.state != .follow).map fun k =>
      (k.num, accRange t (k.cmd.extractLsb' 0 2) :: (k.reads ++ k.writes))

/-- A delivery that has reached its tile and waits in the inbox holds no later delivery of its context (R119, R121). -/
def Req.behindQueued (q p : Req) : Bool :=
  match q.kind, p.kind, p.phase with
  | .delivery .., .delivery .., .queued => true
  | _, _, _ => false

/-! ### The locations of a request (R145, R161, R176) -/

/-- An MFLUSH or MINV of length 0, which works on every buffered line with HV = 1. -/
def Req.whole (r : Req) : Bool := (r.kind == .mflush || r.kind == .minv) && r.elems.all (·.size == 0)

/-- All of main memory, in the numbering of `State.locs`, pages without a translation among it. -/
def mainLocs : List (Nat × Nat) := [(0, 2 ^ 60), (2 ^ 65, 2 ^ 64)]

/-- What a post to a queue writes: the notify word and the ring slot. A slot in main memory is written to the backing copy (R145), as a
flush of its line writes it back, so that it counts as a location of both (R181; log 11). -/
def State.postLocs (s : State) (q : QueueNo) : List (Nat × Nat) :=
  if s.hub.qtcount ≤ q.toNat then []
  else (2 ^ 60 + descNotify (s.desc q), 8) ::
    (match s.slotPhys q with
     | some pa => [(if flagBase ≤ pa then 2 ^ 60 + (pa - flagBase) else s.part.loc pa false, 64)]
     | none => [])

/-- A range widened to whole 64-byte lines, as a flush works on them (R161). -/
def lineRange (r : Nat × Nat) : Nat × Nat := (r.1 / 64 * 64, (r.1 + r.2 + 63) / 64 * 64 - r.1 / 64 * 64)

/-- The locations that elements of a request touch. A flush of length 0 counts as touching all of main memory (R181 lets a fence wait
for more than the pairs that overlap; log 11). -/
def State.reqLocs (s : State) (t : TileNo) (q : Tag) (r : Req) (es : List Elem) : List (Nat × Nat) :=
  if r.whole then mainLocs
  else match r.kind with
    | .qput n _ | .qputw n _ => s.postLocs n
    | .mflush | .minv => es.flatMap fun e => s.locs t q (lineRange (e.range t))
    | _ => es.flatMap fun e => s.locs t q (e.range t)

/-! ### What still holds an access (R179, R181) -/

/-- Earlier accesses of the classes `pred`, before issue number `num`, that touch one of the locations and are not
complete. -/
def State.earlierMeets (s : State) (t : TileNo) (c : CtxNo) (num : Nat) (pred : BitVec 4) (ls : List (Nat × Nat)) : Bool :=
  let tl := s.tile t
  let q := s.tag t c
  let share (a : List (Nat × Nat)) : Bool := anyMeet (a.flatMap (s.locs t q)) ls
  ((tl.ctx c).reqs.any fun r => decide (r.num < num) && (r.kind.classes &&& pred) != 0 && !r.performed
      && anyMeet (s.reqLocs t q r r.pending) ls)
  || (pred.getLsbD 2 && tl.cards.any fun k => k.ctx == c && decide (k.num < num) && share (k.reads ++ k.writes))
  || (pred.getLsbD 2 && (tl.gens t c).any fun g => decide (g.1 < num) && share g.2)
  || (pred.getLsbD 3 && (tl.operations t c).any fun m => decide (m.1 < num) && share m.2)

/-- A fence that has ended still holds a later access of class `cls` to locations that an earlier one touches (R181). -/
def State.fenceHoldsAt (s : State) (t : TileNo) (c : CtxNo) (num : Nat) (cls : BitVec 4) (ls : List (Nat × Nat)) : Bool :=
  (s.ctx t c).fences.any fun m => decide (m.num < num) && (m.succ &&& cls) != 0 && s.earlierMeets t c m.num m.pred ls

/-- So it holds one to some ranges of addresses. -/
def State.fenceHolds (s : State) (t : TileNo) (c : CtxNo) (num : Nat) (cls : BitVec 4) (rs : List (Nat × Nat)) : Bool :=
  s.fenceHoldsAt t c num cls (rs.flatMap (s.locs t (s.tag t c)))

/-- Whether elements `es` of request `q` may be performed: no earlier access of the context to a common byte is
outstanding, aq and rl hold as R179 and R182 lay down, and no fence holds it (log 11). -/
def State.mayPerform (s : State) (t : TileNo) (c : CtxNo) (q : Req) (es : List Elem) : Bool :=
  let tag := s.tag t c
  ((s.ctx t c).reqs.all fun p =>
    p.seq == q.seq || decide (q.num ≤ p.num) || p.performed ||
      ((q.behindQueued p || !(p.pending.any fun a => es.any (s.elemsMeet t tag a))) && !p.aq && !(q.rl && p.kind.classes != 0) && !(p.rl && q.aq)))
  && !s.fenceHoldsAt t c q.num q.kind.classes (s.reqLocs t tag q es)

/-! ### Domains (R180) -/

/-- Whether a byte range lies, in any byte, in the domain of a scope for a context of tile `t`: translated storage by the
translation held, or else by the walk of a miss; an access that no translation reaches, which stays unperformed, counts as in
every die. -/
def State.inDomain (s : State) (sc : Scope) (t : TileNo) (q : Tag) (r : Nat × Nat) : Bool :=
  if 0xFFFFF00000000000 ≤ r.1 then
    let first := (r.1 - 0xFFFFF00000000000) / 2 ^ 24
    let last := (r.1 + (r.2 - 1) - 0xFFFFF00000000000) / 2 ^ 24
    (List.range (last - first + 1)).any fun i =>
      let o := BitVec.ofNat 12 (first + i)
      match sc with
      | .thread => false
      | .tile => o == t
      | .region => regionOf o == regionOf t
      | .die => dieOf o == dieOf t
      | .package | .system => true
  else
    match sc with
    | .thread | .tile | .region => false
    | .package | .system => true
    | .die => (List.range ((r.1 % 512 + r.2 + 511) / 512)).any fun i =>
        let a := if i = 0 then r.1 else (r.1 / 512 + i) * 512
        match (s.translation t q (BitVec.ofNat 64 a)).orElse fun _ => s.walk q (BitVec.ofNat 64 a) with
        | none => true
        | some e => match s.transPlace e (BitVec.ofNat 64 a) with
          | .main l => s.part.locDie l == dieOf t
          | _ => false

/-- A flush of every line lies in every die of the package, a post to a queue in the die of its ring slot; a request with no address of
its own in the package. -/
def State.reqInDomain (s : State) (sc : Scope) (t : TileNo) (q : Tag) (r : Req) : Bool :=
  if r.performed then false
  else if r.elems.any (fun e => decide (0 < e.size)) then r.pending.any fun e => s.inDomain sc t q (e.range t)
  else match r.kind with
    | .mflush | .minv => sc == .die || sc == .package || sc == .system
    | .qput n _ | .qputw n _ =>
      sc == .package || sc == .system || (sc == .die && decide (n.toNat < s.hub.qtcount) && match s.slotPhys n with
        | some pa => decide (pa < flagBase) && s.part.locDie (s.part.loc pa false) == dieOf t
        | none => false)
    | _ => sc == .package || sc == .system

/-! ### Fences (R181, R182) -/

/-- Every earlier access of the classes `pred` in the domain is performed, every card and operation complete. -/
def State.fenceClear (s : State) (t : TileNo) (c : CtxNo) (sc : Scope) (pred : BitVec 4) : Bool :=
  let tl := s.tile t
  let q := s.tag t c
  ((tl.ctx c).reqs.all fun r => (r.kind.classes &&& pred) == 0 || !s.reqInDomain sc t q r)
  && !(pred.getLsbD 2 && tl.cards.any fun k => k.ctx == c && (k.reads ++ k.writes).any (s.inDomain sc t q))
  && !(pred.getLsbD 2 && (tl.gens t c).any fun g => g.2.any (s.inDomain sc t q))
  && !(pred.getLsbD 3 && (tl.operations t c).any fun m => m.2.any (s.inDomain sc t q))

/-- Whether anything of the classes `pred` before issue number `num` is still incomplete. -/
def Tile.outstanding (tl : Tile) (t : TileNo) (c : CtxNo) (num : Nat) (pred : BitVec 4) : Bool :=
  ((tl.ctx c).reqs.any fun r => decide (r.num < num) && (r.kind.classes &&& pred) != 0 && !r.performed)
  || (pred.getLsbD 2 && tl.cards.any fun k => k.ctx == c && decide (k.num < num))
  || (pred.getLsbD 2 && (tl.gens t c).any fun g => decide (g.1 < num))
  || (pred.getLsbD 3 && (tl.operations t c).any fun m => decide (m.1 < num))

/-- FENCEX: it parks until the earlier accesses in the domain are performed; what lies outside the domain is held by
the same-byte rule after it (R181). -/
def State.fenceMe (s : State) (sc : Scope) (pred succ : BitVec 4) : State :=
  let (t, c) := s.cur
  if pred = 0 ∨ succ = 0 then s.done 4 s.me
  else if s.fenceClear t c sc pred then
    let k := s.me
    let keep := k.fences.filter fun m => s.here.outstanding t c m.num m.pred
    let mine : List FenceMark := if s.here.outstanding t c k.num pred then [⟨k.num, pred, succ⟩] else []
    s.done 4 { k with fences := keep ++ mine }
  else s.parkMe (.fence sc pred)

end Sys2Proof.Machine
end

