-- ==== Sys2Proof/Machine/LoadStore.lean ====
section
/-! DEFINITION. Scalar loads and stores (R364 to R366, R385 to R387), and the steps in which loads and stores are
performed, refused late, replayed and dropped (R165, R171, R193, R301 to R303, R409). -/

namespace Sys2Proof.Machine

/-! ### Issue -/

/-- A scalar load of `w` bytes (R364, R365). -/
def State.loadOp (s : State) (xd xs1 : BitVec 5) (imm : BitVec 12) (w : Nat) (signed : Bool) : State :=
  s.gated (Uses.x [xs1] [xd]) fun s =>
    let a := s.me.getX xs1 + imm.signExtend 64
    if a.toNat % w ≠ 0 then s.trap 0x03 a
    else if !s.checkAccess s.cur.1 s.cur.2 false .scalar w a then s.trap 0x04 a
    else
      let log := s.translated s.cur.1 a
      match s.me.capacity true false false false log with
      | some r => s.parkMe r
      | none =>
        let k := s.me.consume [xs1]
        s.done 4 (k.send (k.mkReq (.load signed) w 0 (k.dstX xd) [Elem.one a w []] log))

def execLb (xd xs1 : BitVec 5) (imm : BitVec 12) (s : State) : Res := .next (s.loadOp xd xs1 imm 1 true)
def execLh (xd xs1 : BitVec 5) (imm : BitVec 12) (s : State) : Res := .next (s.loadOp xd xs1 imm 2 true)
def execLw (xd xs1 : BitVec 5) (imm : BitVec 12) (s : State) : Res := .next (s.loadOp xd xs1 imm 4 true)
def execLd (xd xs1 : BitVec 5) (imm : BitVec 12) (s : State) : Res := .next (s.loadOp xd xs1 imm 8 false)
def execLbu (xd xs1 : BitVec 5) (imm : BitVec 12) (s : State) : Res := .next (s.loadOp xd xs1 imm 1 false)
def execLhu (xd xs1 : BitVec 5) (imm : BitVec 12) (s : State) : Res := .next (s.loadOp xd xs1 imm 2 false)
def execLwu (xd xs1 : BitVec 5) (imm : BitVec 12) (s : State) : Res := .next (s.loadOp xd xs1 imm 4 false)

/-- What a scalar store is at its target: a delivery, a register-window write, a tile-control write or a plain store
(R116, R386). -/
def State.storeKind (s : State) (t : TileNo) (a : Word) : ReqKind :=
  match target s.part t a with
  | .chip o off _ =>
    match placeOf o off with
    | some (.window _ w) => match channelOffset w with
      | some (c, r) => if s.restores s.me.sup o c then .window o else .delivery o c r false
      | none => .window o
    | some (.control _ _) => .control o
    | _ => .store
  | _ => .store

/-- A scalar store of `w` bytes (R385, R386). -/
def State.storeOp (s : State) (xs2 xs1 : BitVec 5) (imm : BitVec 12) (w : Nat) : State :=
  s.gated (Uses.x [xs1, xs2] []) fun s =>
    let a := s.me.getX xs1 + imm.signExtend 64
    if a.toNat % w ≠ 0 then s.trap 0x03 a
    else if !s.checkAccess s.cur.1 s.cur.2 true .scalar w a then s.trap 0x04 a
    else
      let log := s.translated s.cur.1 a
      match s.me.capacity false true false false log with
      | some r => s.parkMe r
      | none =>
        let k := s.me.consume [xs1, xs2]
        let v := s.me.getX xs2
        s.done 4 (k.send (k.mkReq (s.storeKind s.cur.1 a) w v .none [Elem.one a w (leBytes w v.toNat)] log))

def execSb (xs2 xs1 : BitVec 5) (imm : BitVec 12) (s : State) : Res := .next (s.storeOp xs2 xs1 imm 1)
def execSh (xs2 xs1 : BitVec 5) (imm : BitVec 12) (s : State) : Res := .next (s.storeOp xs2 xs1 imm 2)
def execSw (xs2 xs1 : BitVec 5) (imm : BitVec 12) (s : State) : Res := .next (s.storeOp xs2 xs1 imm 4)
def execSd (xs2 xs1 : BitVec 5) (imm : BitVec 12) (s : State) : Res := .next (s.storeOp xs2 xs1 imm 8)

/-! ### Requests in flight -/

/-- Change the request of a context that carries a sequence number. -/
def State.modReq (s : State) (t : TileNo) (c : CtxNo) (seq : BitVec 16) (f : Req → Req) : State :=
  s.modCtx t c fun k => { k with reqs := k.reqs.map fun q => if q.seq == seq then f q else q }

/-- The `n`-th request in flight of a context. -/
def State.req (s : State) (t : TileNo) (c : CtxNo) (n : Nat) : Option Req := (s.ctx t c).reqs[n]?

/-- A request ends: it leaves the context, its counter falls, and its result is written (R122). -/
def State.endReq (s : State) (t : TileNo) (c : CtxNo) (q : Req) (f : Ctx → Ctx) : State :=
  s.modCtx t c fun k => f (k.dropReq q.seq)

/-- Whether the context holds a grant of an LR or of an AMO on a word (R169, R170), for whose release its loads wait (R171). -/
def State.holds (s : State) (t : TileNo) (c : CtxNo) (w : Place) : Bool :=
  (match (s.ctx t c).grant with | some g => g.word == w | none => false)
    || (s.home w).fifo.any fun e => e.granted && e.tile == t && e.ctx == c

/-- Whether a request of this kind reads and whether it writes what it addresses (R165). -/
def ReqKind.rights : ReqKind → Bool × Bool
  | .load _ | .vload | .lr | .hload _ => (true, false)
  | .amo _ | .amodr _ | .qsig | .barrier => (true, true)
  | .mflush | .minv => (false, false)
  | _ => (false, true)

/-- Whether the elements of a request cover the whole 8-byte word of an address, so that the write replaces its
check bits (R386). -/
def Req.covers (q : Req) (a : Word) : Bool :=
  let w := a.toNat / 8 * 8
  (List.range 8).all fun i => q.elems.any fun e => decide (e.addr.toNat ≤ w + i) && decide (w + i < e.addr.toNat + e.size)

/-- An element meets an uncorrectable error at its place: a read, or a write that does not replace the word's check bits (R386). -/
def State.meetsError (s : State) (q : Req) (e : Elem) (p : Place) : Bool := s.poisoned p && (q.kind.rights.1 || !q.covers e.addr)

/-- What refuses one element: no valid translation (0x05), no right (0x06), or an uncorrectable error (0x10) that no earlier access
of the context may still repair (R179, R386). -/
def State.elemRefusal (s : State) (t : TileNo) (c : CtxNo) (q : Req) (e : Elem) : Option (BitVec 8) :=
  let (r, w) := q.kind.rights
  match s.reach t (s.tag t c) r w e.addr with
  | .miss => if (s.walk (s.tag t c) e.addr).isNone then some 0x05 else none
  | .denied => some 0x06
  | .place p _ _ => if s.meetsError q e p && s.mayPerform t c q [e] then some 0x10 else none
  | .bad => none

/-- The state as a request or a card issued in a mode sees its context (R153, R304). -/
def State.asIssuer (s : State) (t : TileNo) (c : CtxNo) (sup : Bool) : State := s.modCtx t c fun k => { k with sup := sup }

/-- What refuses a word that HLOAD reads: R149 to R151, as late causes too, or what refuses any read (R231, R355, R356;
log 28). -/
def State.hloadRefusal (s : State) (t : TileNo) (c : CtxNo) (q : Req) (a : Word) : Option (BitVec 8) :=
  if !(s.asIssuer t c q.sup).checkAccess t c false .scalar 8 a then some 0x04 else s.elemRefusal t c q (Elem.one a 8 [])

/-- The pages of 64 KiB that a flush range touches, by a byte in each. -/
def flushPages (a n : Nat) : List Nat :=
  (List.range (if n = 0 then 0 else (a % 65536 + n + 65535) / 65536)).map fun i => if i = 0 then a else (a / 65536 + i) * 65536

/-- Whether an element is refused is open while a walk for it is to be made, or an access that is ordered before it may repair the
error at its place. -/
def State.refusalOpen (s : State) (t : TileNo) (c : CtxNo) (q : Req) (e : Elem) : Bool :=
  match s.reach t (s.tag t c) q.kind.rights.1 q.kind.rights.2 e.addr with
  | .miss => true
  | .place p _ _ => s.meetsError q e p
  | _ => false

/-- The lowest-numbered refused element (R193, R409), once it is settled of the elements before it that none is refused. -/
def State.firstRefused (s : State) (t : TileNo) (c : CtxNo) (q : Req) : List Elem → Option (BitVec 8 × Word)
  | [] => none
  | e :: r =>
    match s.elemRefusal t c q e with
    | some x => some (x, e.addr)
    | none => if s.refusalOpen t c q e then none else s.firstRefused t c q r

/-- The words that HLOAD reads: the header word first, then the node words that it counts, where it is reached (R231, R356). -/
def State.hloadAddrs (s : State) (t : TileNo) (c : CtxNo) (a : Word) : List Word :=
  a :: match s.reach t (s.tag t c) true false a with
    | .place p _ _ => (List.range (bits (leWord (s.readPlaces p 8)) 0 5 + 1)).map fun i => a + BitVec.ofNat 64 (8 * i + 8)
    | _ => []

/-- An access of a request reaches the line of an address in main memory (R159). -/
def State.touchAt (s : State) (t : TileNo) (c : CtxNo) (q : Req) (a : Word) : State :=
  match s.reach t (s.tag t c) q.kind.rights.1 q.kind.rights.2 a with
  | .place p hv _ => s.touchPlace p hv
  | _ => s

/-- The addresses that a request refused at `a` has reached: `a` itself where an uncorrectable error refuses it, and of HLOAD the words
before it. -/
def State.reachedBy (s : State) (t : TileNo) (c : CtxNo) (q : Req) (cause : BitVec 8) (a : Word) : List Word :=
  (match q.kind, q.elems with
    | .hload _, e :: _ => (s.hloadAddrs t c e.addr).takeWhile (· != a)
    | _, _ => []) ++ if cause == 0x10 then [a] else []

/-- The first refusal of a request: the lowest-numbered refused element, or the first page of a flush without
a valid translation (R370). -/
def State.refusal (s : State) (t : TileNo) (c : CtxNo) (q : Req) : Option (BitVec 8 × Word) :=
  match q.kind with
  | .mflush | .minv =>
    match q.elems with
    | e :: _ =>
      ((flushPages (e.addr.toNat + e.pos) (e.size - e.pos)).find? fun a =>
        let va := BitVec.ofNat 64 a
        s.translated t va && (s.translation t (s.tag t c) va).isNone && (s.walk (s.tag t c) va).isNone).map
          fun a => (0x05, BitVec.ofNat 64 a)
    | [] => none
  | .hload _ =>
    match q.elems with
    | e :: _ => (s.hloadAddrs t c e.addr).findSome? fun a => (s.hloadRefusal t c q a).map fun x => (x, a)
    | [] => none
  | .vstore =>
    -- the elements that can be performed are, before the refusal of the others is taken (R409)
    let es := q.elems.filter fun e => !e.done
    if es.all fun e => (s.elemRefusal t c q e).isSome then
      es.findSome? fun e => (s.elemRefusal t c q e).map fun x => (x, e.addr)
    else none
  | _ => s.firstRefused t c q (q.elems.filter fun e => !e.done)

/-- A late refusal reaches its context (R302), and sets PKGERR.MEM when it is for an uncorrectable error in a table (R327): the
log keeps the request and its counter stays raised. HLOAD's reads
(R356) and a barrier increment (R337) are not logged and end here. DESIGN CHOICE (log 71): an untranslated request that meets an
uncorrectable error takes its log entry here, and waits while the log is full. -/
def execLateRefusal (t : TileNo) (c : CtxNo) (n : Nat) (s : State) : Res :=
  .next <| match s.req t c n with
  | none => s
  | some q =>
    let found := match q.phase with
      | .issued => s.refusal t c q
      | .queued => (s.refusal t c q).filter (·.1 == 0x10)
      | _ => none
    match found with
    | none => s
    | some (cause, a) =>
      let s := (s.reachedBy t c q cause a).foldl (fun s x => s.touchAt t c q x) (s.walkFault t (s.tag t c) a)
      match q.kind with
      | .hload _ => (s.endReq t c q id).late t c ⟨cause, a, none, some (q.num, q.pc), q.sup⟩
      | .barrier => (s.endReq t c q id).late t c ⟨cause, a, none, none, q.sup⟩
      | _ =>
        let k := s.ctx t c
        if !q.logged && !k.hasRoom false false false false true then s
        else
          let slot := if q.logged then q.slot else k.freeSlot
          let s : State := { s with homes := s.homes.map fun h =>
            { h with fifo := h.fifo.filter fun e => !(e.tile == t && e.ctx == c && e.seq == q.seq && !e.granted) } }
          let s := s.modReq t c q.seq fun q => { q with phase := .refused cause a, logged := true, slot := slot }
          s.late t c ⟨cause, a, some (q.seq, slot), some (q.num, q.pc), q.sup⟩

/-! ### Loads are performed -/

/-- One element is read at its place: its bytes, or none while an order, a grant of its own or a translation holds it
(R166, R171, R179). -/
def State.readElem (s : State) (t : TileNo) (c : CtxNo) (q : Req) (e : Elem) : State × Option (List Byte) :=
  if !s.mayPerform t c q [e] then (s, none)
  else
    match s.reach t (s.tag t c) true false e.addr with
    | .place p hv _ =>
      if s.poisoned p || s.holds t c p.word8 then (s, none)
      else
        let s := s.touchPlace p hv
        (s, some (s.readPlaces p e.size))
    | .miss => (s.openWalk t (s.tag t c) e.addr, none)
    | _ => (s, none)

/-- Put the bytes of a finished vector load into the register: every active lane in one step (R193). -/
def loadLanes (old : VecBits) (es : List Elem) : VecBits :=
  es.foldl (fun v e => ((e.bytes.zipIdx).foldl (fun v b => putByte v (e.pos + b.2) b.1) v)) old

/-- The value of a scalar load (R364). -/
def loadValue (signed : Bool) (bs : List Byte) : Word := if signed then sext (8 * bs.length) (leNat bs) else leWord bs

/-- One element of a load is performed; with the last one the destination is written and ld falls (R193, R364). -/
def execLoadComplete (t : TileNo) (c : CtxNo) (n k : Nat) (s : State) : Res :=
  .next <| match s.req t c n with
  | none => s
  | some q =>
    if q.phase ≠ .issued then s
    else
      match q.kind with
      | .load signed =>
        match q.elems with
        | e :: _ =>
          match s.readElem t c q e with
          | (s, some bs) => s.endReq t c q fun k => k.writeDst q.dst (loadValue signed bs)
          | (s, none) => s
        | [] => s
      | .vload =>
        let finish (s : State) (es : List Elem) : State :=
          if es.all (·.done) then
            s.endReq t c q fun k => match q.dst with | .v r => k.setV r (loadLanes (k.getV r) es) | _ => k
          else s.modReq t c q.seq fun q => { q with elems := es }
        match q.elems[k]? with
        | none => if q.elems = [] then finish s [] else s
        | some e =>
          if e.done then s
          else
            match s.readElem t c q e with
            | (s, some bs) => finish s (setNth k { e with done := true, bytes := bs } q.elems)
            | (s, none) => s
      | _ => s

/-! ### Stores are performed -/

/-- The entry that a plain store makes in a word's FIFO (R171). -/
def storeEntry (t : TileNo) (c : CtxNo) (q : Req) (e : Elem) : FifoEntry :=
  ⟨t, c, q.seq, false, false, true, some (e.bytes.zipIdx.map fun b => (e.addr.toNat + b.2, b.1)), none, none, false⟩

/-- One element is written at its place: done, or not while an order, an earlier entry of the word's FIFO, a lower
element of the same store on the same byte or a translation holds it (R171, R177, R179). -/
def State.writeElem (s : State) (t : TileNo) (c : CtxNo) (q : Req) (e : Elem) (lower : List Elem) : State × Bool :=
  if !s.mayPerform t c q [e] || lower.any (fun l =>
      !l.done && s.elemsMeet t (s.tag t c) l e && (s.elemRefusal t c q l).isNone) then (s, false)
  else
    match s.reach t (s.tag t c) false true e.addr with
    | .place p hv _ =>
      if s.poisoned p && !q.covers e.addr then (s, false)
      else
        let s := s.touchPlace p hv
        let w := p.word8
        let h := s.home w
        let me := storeEntry t c q e
        let go (s : State) : State :=
          let s := if q.covers e.addr then s.cleanse p else s
          s.store p e.bytes (some (t, c))
        if h.fifo = [] then (go s, true)
        else if h.fifo.head? = some me then (go (s.setHome { h with fifo := h.fifo.drop 1 }), true)
        else if h.fifo.contains me || s.fifoFull w then (s, false)
        else (s.setHome { h with fifo := h.fifo ++ [me] }, false)
    | .miss => (s.openWalk t (s.tag t c) e.addr, false)
    | _ => (s, false)

/-- The elements performed in one step with element `k`: in a register window and in the pick window all those of its aligned 8-byte
word, which is written atomically (R118, R381, R408); elsewhere the element alone. -/
def Req.together (q : Req) (p : Part) (t : TileNo) (k : Nat) : List Nat :=
  match q.elems[k]? with
  | none => []
  | some e =>
    match target p t e.addr with
    | .chip o off _ =>
      match placeOf o off with
      | some (.window _ _) | some (.pick _ _) =>
        (q.elems.zipIdx.filter fun x => !x.1.done && x.1.addr.toNat / 8 == e.addr.toNat / 8).map (·.2)
      | _ => [k]
    | _ => [k]

/-- Write some elements of a store in one step: those written, in their order, until one cannot be. -/
def State.writeElems (s : State) (t : TileNo) (c : CtxNo) (q : Req) : List Nat → State × List Elem
  | [] => (s, q.elems)
  | k :: r =>
    match q.elems[k]? with
    | none => (s, q.elems)
    | some e =>
      match s.writeElem t c q e (q.elems.take k) with
      | (s, false) => (s, q.elems)
      | (s, true) => s.writeElems t c { q with elems := setNth k { e with done := true } q.elems } r

/-- One element of a store is performed, or all those of its aligned 8-byte word where that is written atomically, once each of them
may be (R118, R381); with the last one st falls (R193, R387). -/
def execStorePerformed (t : TileNo) (c : CtxNo) (n k : Nat) (s : State) : Res :=
  .next <| match s.req t c n with
  | none => s
  | some q =>
    let plain := match q.kind with | .store | .vstore => true | _ => false
    if q.phase ≠ .issued || !plain then s
    else
      match q.elems[k]? with
      | none => if q.elems = [] then s.endReq t c q id else s
      | some e =>
        if e.done then s
        else
          let ks := q.together s.part t k
          if !s.mayPerform t c q (ks.filterMap (q.elems[·]?)) then s else
          let (s, es) := s.writeElems t c q ks
          if es.all (·.done) then s.endReq t c q id else s.modReq t c q.seq fun q => { q with elems := es }

end Sys2Proof.Machine
end

