-- ==== Sys2Proof/Machine/Atomic.lean ====
section
/-! DEFINITION. Atomics and reservations: the AMO group, LR, SC, WRS, QSIG, and the steps of the reservation queue
(R146, R168 to R174, R332, R333, R367, R368, R383, R417). -/

namespace Sys2Proof.Machine

/-! ### Issue -/

/-- The width of an AMO, LR or SC: .W or .D (R44). -/
def atomSize (w : BitVec 1) : Nat := if w = 0 then 4 else 8

/-- The issue checks of R333, in order: the cause, when one applies. `read` and `write` say which rights an LS of
another tile must give. -/
def State.atomicCheck (s : State) (w : Nat) (a : Word) : Option (BitVec 8) :=
  if a.toNat % w ≠ 0 then some 0x03
  else
    match target s.part s.cur.1 a with
    | .bad => some 0x04
    | .mem => none
    | .chip o off _ =>
      match placeOf o off with
      | some (.ls _ _) => if s.checkAccess s.cur.1 s.cur.2 true .atomic w a then none else some 0x04
      | _ => some 0x04

/-- Issue a request of the reservation queue (R169): checks, counter and log, then the request. -/
def State.atomicOp (s : State) (xd : Option (BitVec 5)) (xs1 : BitVec 5) (xs : List (BitVec 5)) (w : Nat)
    (kind : ReqKind) (data : Word) (aq rl : Bool) (before : State → State) : State :=
  let a := s.me.getX xs1
  match s.atomicCheck w a with
  | some cause => s.trap cause a
  | none =>
    let log := s.translated s.cur.1 a
    match s.me.capacity kind.isLd kind.isSt false false log with
    | some r => s.parkMe r
    | none =>
      let s := before s
      let k := s.me.consume xs
      let dst := match xd with | some d => k.dstX d | none => .none
      s.done 4 (k.send { k.mkReq kind w data dst [Elem.one a w []] log with aq := aq, rl := rl })

/-- The AMO group (R332). -/
def State.amoOp (s : State) (op : AmoOp) (xd xs1 xs2 : BitVec 5) (w aq rl : BitVec 1) : State :=
  s.gated (Uses.x [xs1, xs2] [xd]) fun s =>
    s.atomicOp (some xd) xs1 [xs1, xs2] (atomSize w) (.amo op) (s.me.getX xs2) (aq == 1) (rl == 1) id

def execAmoswap (xd xs1 xs2 : BitVec 5) (w aq rl : BitVec 1) (s : State) : Res := .next (s.amoOp .swap xd xs1 xs2 w aq rl)
def execAmoadd (xd xs1 xs2 : BitVec 5) (w aq rl : BitVec 1) (s : State) : Res := .next (s.amoOp .add xd xs1 xs2 w aq rl)
def execAmoxor (xd xs1 xs2 : BitVec 5) (w aq rl : BitVec 1) (s : State) : Res := .next (s.amoOp .xor xd xs1 xs2 w aq rl)
def execAmoand (xd xs1 xs2 : BitVec 5) (w aq rl : BitVec 1) (s : State) : Res := .next (s.amoOp .and xd xs1 xs2 w aq rl)
def execAmoor (xd xs1 xs2 : BitVec 5) (w aq rl : BitVec 1) (s : State) : Res := .next (s.amoOp .or xd xs1 xs2 w aq rl)
def execAmomin (xd xs1 xs2 : BitVec 5) (w aq rl : BitVec 1) (s : State) : Res := .next (s.amoOp .min xd xs1 xs2 w aq rl)
def execAmomax (xd xs1 xs2 : BitVec 5) (w aq rl : BitVec 1) (s : State) : Res := .next (s.amoOp .max xd xs1 xs2 w aq rl)
def execAmominu (xd xs1 xs2 : BitVec 5) (w aq rl : BitVec 1) (s : State) : Res := .next (s.amoOp .minu xd xs1 xs2 w aq rl)
def execAmomaxu (xd xs1 xs2 : BitVec 5) (w aq rl : BitVec 1) (s : State) : Res := .next (s.amoOp .maxu xd xs1 xs2 w aq rl)

/-- LR requests the word; a later LR loses the grant held before (R170, R367). -/
def execLr (xd xs1 : BitVec 5) (w aq rl : BitVec 1) (s : State) : Res :=
  .next (s.gated (Uses.x [xs1] [xd]) fun s =>
    s.atomicOp (some xd) xs1 [xs1] (atomSize w) .lr 0 (aq == 1) (rl == 1) fun s => s.dropGrant s.cur.1 s.cur.2)

/-- The word of an address as this context's accesses reach it, by the translation held or by the walk of a miss: a
translation that has left the TLBs loses no grant (R170). -/
def State.wordAt (s : State) (t : TileNo) (c : CtxNo) (a : Word) : Option Place :=
  match s.reach t (s.tag t c) false false a with
  | .place p _ _ => some p.word8
  | .miss => (s.walk (s.tag t c) a).map fun e => (s.transPlace e a).word8
  | _ => none

/-- SC: with the grant on the word it writes 0 to xd and sends the release; without it, it writes 1 and makes no
access; with a grant whose page has W = 0 it raises cause 0x06 (R170, R367, R368). DEDUCED (log 12): with a grant it waits at
issue for the earlier accesses that come before its release (R179, R182) and for an own write that waits behind the grant, and
fails where the lease ends first (R171). -/
def execSc (xd xs1 xs2 : BitVec 5) (w aq rl : BitVec 1) (s : State) : Res :=
  .next <| s.gated (Uses.x [xs1, xs2] [xd]) fun s =>
    let (t, c) := s.cur
    let a := s.me.getX xs1
    let n := atomSize w
    match s.atomicCheck n a with
    | some cause => s.trap cause a
    | none =>
      let grant := match s.me.grant, s.wordAt t c a with
        | some g, some p => if g.word = p then some g else none
        | _, _ => none
      let elem := Elem.one a n (leBytes n (s.me.getX xs2).toNat)
      let behind := s.me.reqs.any fun q => q.kind.rights.2 && q.pending.any (s.elemsMeet t (s.tag t c) ⟨a.toNat / 8 * 8, 8, 0, false, []⟩)
      match grant with
      | some g =>
        if !g.writable then s.trap 0x06 a
        else
          match s.me.capacity false true false false (s.translated t a) with
          | some r => s.parkMe r
          | none =>
            let k := { (s.me.consume [xs1, xs2]).setX xd 0 with grant := none }
            let q : Req := { k.mkReq .sc n (s.me.getX xs2) .none [elem] (s.translated t a) with
                               seq := g.seq, phase := .granted 0, aq := aq == 1, rl := rl == 1 }
            if behind || !s.mayPerform t c q [elem] then s.holdMe else s.done 4 { k.send q with seq := k.seq }
      | none =>
        match s.me.capacity false true false false false with
        | some r => s.parkMe r
        | none =>
          let s := s.dropGrant t c
          let k := (s.me.consume [xs1, xs2]).setX xd 1
          s.done 4 (k.send { k.mkReq .sc n 0 .none [] false with phase := .applied 1 })

/-- QSIG: an AMOADD.D at PACKAGE scope after every earlier load and store of the context (R146, R383). -/
def execQsig (xs1 xs2 : BitVec 5) (s : State) : Res :=
  .next (s.gated (Uses.x [xs1, xs2] []) fun s =>
    s.atomicOp none xs1 [xs1, xs2] 8 .qsig (s.me.getX xs2) false true id)

/-- WRS: with a grant and a free watcher entry at the home, the grant is released unchanged, the context watches the
word, and it parks; otherwise it ends at once (R417). -/
def State.wrs (s : State) (limit : Bool) : State :=
  let (t, c) := s.cur
  if s.me.woken then s.done 4 s.me
  else
    match s.me.grant with
    | none => s.done 4 s.me
    | some g =>
      if 16 ≤ s.atUnit g.word (·.watchers.length) then s.done 4 s.me
      else
        let s := s.dropGrant t c
        let h := s.home g.word
        (s.setHome { h with watchers := h.watchers ++ [(t, c)] }).parkMe (.wrs limit)

def execWrsNto (s : State) : Res := .next (s.wrs false)
def execWrsSto (s : State) : Res := .next (s.wrs true)

/-! ### The reservation queue at the home (R169 to R173) -/

/-- The operation of an AMO on the old element and the operand, w bytes each (R332). -/
def AmoOp.apply (op : AmoOp) (w : Nat) (e o : Nat) : Nat :=
  let n := 8 * w
  let lt := (sext n e).slt (sext n o)
  match op with
  | .swap => o | .add => (e + o) % 2 ^ n
  | .xor => e ^^^ o | .and => e &&& o | .or => e ||| o
  | .min => if lt || e == o then e else o
  | .max => if lt then o else e
  | .minu => if e ≤ o then e else o
  | .maxu => if e ≤ o then o else e

/-- The home in whose FIFO a request stands. -/
def State.homeOf (s : State) (t : TileNo) (c : CtxNo) (seq : BitVec 16) : Option Home :=
  s.homes.find? fun h => h.fifo.any fun e => e.tile == t && e.ctx == c && e.seq == seq && e.store.isNone && e.host.isNone && e.poster.isNone

/-- Whether a kind runs through the reservation queue. -/
def ReqKind.atomic : ReqKind → Bool
  | .amo _ | .amodr _ | .lr | .sc | .qsig | .barrier => true
  | _ => false

/-- The home still keeps the record of a request that it has applied: for 8192 cycles after the Ack (R172). -/
def Home.recorded (h : Home) (who : TileNo × CtxNo × BitVec 16) (time : Nat) : Bool :=
  h.applied.any fun p => p.1 == who && decide (time < p.2 + 8192)

/-- A request reaches the word's home and joins its FIFO. One that the home holds or has granted already is dropped, and its
grant resent with the same value; so is one that it has applied, and its Ack resent (R169, R172, R173). -/
def execAmoRequest (t : TileNo) (c : CtxNo) (n : Nat) (s : State) : Res :=
  .next <| match s.req t c n with
  | none => s
  | some q =>
    match q.phase, q.elems with
    | .issued, e :: _ =>
      if !q.kind.atomic || !s.mayPerform t c q [e] then s
      else
        let (r, w) := q.kind.rights
        match s.reach t (s.tag t c) r w e.addr with
        | .place p hv sysat =>
          let word := p.word8
          let wr := match s.translated t e.addr, s.translation t (s.tag t c) e.addr with
            | true, some x => x.w || (match p with | .flag _ => true | _ => false)
            | _, _ => true
          let h := s.home word
          if s.poisoned p || s.fifoFull word || h.recorded (t, c, q.seq) s.time then s
          else
            let s := s.touchPlace p hv
            (s.setHome { h with fifo := h.fifo ++ [⟨t, c, q.seq, false, sysat, wr, none, none, none, hv⟩] }).modReq t c q.seq fun q => { q with phase := .queued }
        | .miss => s.openWalk t (s.tag t c) e.addr
        | _ => s
    | _, _ => s

/-- The head of a word's FIFO is granted the word's value, whose line is filled again where it has left its buffer meanwhile (R159). LR
takes its value and holds the grant (R169, R170). -/
def execAmoGrant (t : TileNo) (c : CtxNo) (n : Nat) (s : State) : Res :=
  .next <| match s.req t c n with
  | none => s
  | some q =>
    match q.phase, q.elems, s.homeOf t c q.seq with
    | .queued, e :: _, some h =>
      match h.fifo with
      | f :: rest =>
        if !(f.tile == t && f.ctx == c && f.seq == q.seq) || s.poisoned h.word then s
        else
          let s := s.touchPlace h.word f.hv
          let v := leWord (s.readPlaces h.word 8)
          let s := s.setHome { h with fifo := { f with granted := true } :: rest }
          match q.kind with
          | .lr =>
            let x := loadValue (q.size == 4) ((leBytes 8 v.toNat).drop (e.addr.toNat % 8) |>.take q.size)
            let s := s.dropGrant t c
            let s := s.endReq t c q fun k =>
              { k.writeDst q.dst x with grant := some ⟨h.word, q.seq, f.writable, s.time⟩ }
            -- the grant of a killed context is released at once (R300)
            if (s.ctx t c).state = .ending then s.dropGrant t c else s
          | _ => s.modReq t c q.seq fun q => { q with phase := .granted v }
      | [] => s
    | _, _, _ => s

/-- The bytes of a word that a request of `w` bytes at `a` names. -/
def elemOfWord (v : Word) (a : Word) (w : Nat) : Nat := v.toNat / 2 ^ (8 * (a.toNat % 8)) % 2 ^ (8 * w)

/-- The release of the head is applied: the element is written, the entry leaves, the Ack is recorded, and watchers
wake (R169, R170, R172, R332). A line that has left its buffer meanwhile is filled again, with the HV of the request's page
(R159). -/
def State.release (s : State) (t : TileNo) (c : CtxNo) (q : Req) (new : Nat) : State :=
  match q.elems, s.homeOf t c q.seq with
  | e :: _, some h =>
    let p := h.word.add (e.addr.toNat % 8)
    let mine (f : FifoEntry) : Bool := f.tile == t && f.ctx == c && f.seq == q.seq && f.granted
    let hv := h.fifo.any fun f => mine f && f.hv
    let h : Home := { h with
      fifo := h.fifo.filter fun f => !mine f
      applied := (h.applied.filter fun p => p.1 != (t, c, q.seq) && decide (s.time < p.2 + 8192)) ++ [((t, c, q.seq), s.time)] }
    ((s.setHome h).touchPlace p hv).store p (leBytes q.size new) (some (t, c))
  | _, _ => s

/-- A grant held for 256 cycles is released unchanged by the home (R170). -/
def execLeaseExpiry (t : TileNo) (c : CtxNo) (s : State) : Res :=
  .next <| match (s.ctx t c).grant with
  | some g => if g.since + 256 ≤ s.time then s.dropGrant t c else s
  | none => s

end Sys2Proof.Machine
end

