-- ==== Sys2Proof/Machine/Base.lean ====
section
/-! DEFINITION. The base integer instructions, branches and jumps (R330, R331, R335, R339, R340, R344, R358, R359,
R369, R376), the illegal word (R64) and the fetch outside the I-store (R40). -/

namespace Sys2Proof.Machine

/-- An undecodable word raises cause 0x01 with the word (R39, R64). -/
def execIllegalInstruction (w : InstWord) (s : State) : Res := .next (s.trap 0x01 (w.zeroExtend 64))

/-- Cause 0x14 with the PC (R40). -/
def execFetchOutsideTheIstore (s : State) : Res := .next (s.trap 0x14 s.me.pcNow)

/-! ### Immediates -/

/-- A U immediate, {imm, 0x000} sign-extended (R42). -/
def immU (imm : BitVec 20) : Word := (imm ++ 0#12).signExtend 64
/-- An I or S immediate (R42). -/
def immI (imm : BitVec 12) : Word := imm.signExtend 64
/-- A B immediate: imm × 2, sign-extended (R339). -/
def immB (imm : BitVec 12) : Word := (imm ++ 0#1).signExtend 64
/-- A J immediate: imm × 2, sign-extended (R358). -/
def immJ (imm : BitVec 20) : Word := (imm ++ 0#1).signExtend 64

def execLui (xd : BitVec 5) (imm : BitVec 20) (s : State) : Res := .next (s.regOp [] xd 4 fun _ => immU imm)
def execAuipc (xd : BitVec 5) (imm : BitVec 20) (s : State) : Res := .next (s.regOp [] xd 4 fun c => c.pcNow + immU imm)

/-! ### Jumps and branches -/

/-- Jump to `t`, the link to `xd`: a target that is not a multiple of 4 raises 0x03 and writes nothing (R40). -/
def State.jump (s : State) (xs : List (BitVec 5)) (xd : BitVec 5) (t : Word) : State :=
  if t.extractLsb' 0 2 ≠ 0 then s.trap 0x03 t
  else s.setMe (((s.me.consume xs).setX xd (s.me.pcNow + 4)).retireTo s.time 4 t)

def execJal (xd : BitVec 5) (imm : BitVec 20) (s : State) : Res :=
  .next (s.gated (Uses.x [] [xd]) fun s => s.jump [] xd (s.me.pcNow + immJ imm))

def execJalr (xd xs1 : BitVec 5) (imm : BitVec 12) (s : State) : Res :=
  .next (s.gated (Uses.x [xs1] [xd]) fun s => s.jump [xs1] xd ((s.me.getX xs1 + immI imm) &&& ~~~1))

/-- A branch: taken, it jumps and writes no register; not taken, it falls through (R339). -/
def State.branch (s : State) (xs1 xs2 : BitVec 5) (imm : BitVec 12) (taken : Word → Word → Bool) : State :=
  s.gated (Uses.x [xs1, xs2] []) fun s =>
    let t := s.me.pcNow + immB imm
    if !taken (s.me.getX xs1) (s.me.getX xs2) then s.done 4 (s.me.consume [xs1, xs2])
    else if t.extractLsb' 0 2 ≠ 0 then s.trap 0x03 t
    else s.setMe ((s.me.consume [xs1, xs2]).retireTo s.time 4 t)

def execBeq (xs1 xs2 : BitVec 5) (imm : BitVec 12) (s : State) : Res := .next (s.branch xs1 xs2 imm fun a b => a == b)
def execBne (xs1 xs2 : BitVec 5) (imm : BitVec 12) (s : State) : Res := .next (s.branch xs1 xs2 imm fun a b => a != b)
def execBlt (xs1 xs2 : BitVec 5) (imm : BitVec 12) (s : State) : Res := .next (s.branch xs1 xs2 imm fun a b => a.slt b)
def execBge (xs1 xs2 : BitVec 5) (imm : BitVec 12) (s : State) : Res := .next (s.branch xs1 xs2 imm fun a b => !a.slt b)
def execBltu (xs1 xs2 : BitVec 5) (imm : BitVec 12) (s : State) : Res := .next (s.branch xs1 xs2 imm fun a b => a.ult b)
def execBgeu (xs1 xs2 : BitVec 5) (imm : BitVec 12) (s : State) : Res := .next (s.branch xs1 xs2 imm fun a b => !a.ult b)

/-! ### Immediate group (R331) -/

/-- `xd` := f(x[xs1]). -/
def State.immOp (s : State) (xd xs1 : BitVec 5) (f : Word → Word) : State := s.regOp [xs1] xd 4 fun c => f (c.getX xs1)

def execAddi (xd xs1 : BitVec 5) (imm : BitVec 12) (s : State) : Res := .next (s.immOp xd xs1 fun a => a + immI imm)
def execSlti (xd xs1 : BitVec 5) (imm : BitVec 12) (s : State) : Res := .next (s.immOp xd xs1 fun a => boolWord (a.slt (immI imm)))
def execSltiu (xd xs1 : BitVec 5) (imm : BitVec 12) (s : State) : Res := .next (s.immOp xd xs1 fun a => boolWord (a.ult (immI imm)))
def execXori (xd xs1 : BitVec 5) (imm : BitVec 12) (s : State) : Res := .next (s.immOp xd xs1 fun a => a ^^^ immI imm)
def execOri (xd xs1 : BitVec 5) (imm : BitVec 12) (s : State) : Res := .next (s.immOp xd xs1 fun a => a ||| immI imm)
def execAndi (xd xs1 : BitVec 5) (imm : BitVec 12) (s : State) : Res := .next (s.immOp xd xs1 fun a => a &&& immI imm)
def execSlli (xd xs1 : BitVec 5) (sh : BitVec 6) (s : State) : Res := .next (s.immOp xd xs1 fun a => a <<< sh.toNat)
def execSrli (xd xs1 : BitVec 5) (sh : BitVec 6) (s : State) : Res := .next (s.immOp xd xs1 fun a => a >>> sh.toNat)
def execSrai (xd xs1 : BitVec 5) (sh : BitVec 6) (s : State) : Res := .next (s.immOp xd xs1 fun a => a.sshiftRight sh.toNat)

/-! ### Register group (R330) -/

/-- `xd` := f(x[xs1], x[xs2]), occupied for `n` cycles. -/
def State.regRegOp (s : State) (n : Nat) (xd xs1 xs2 : BitVec 5) (f : Word → Word → Word) : State :=
  s.regOp [xs1, xs2] xd n fun c => f (c.getX xs1) (c.getX xs2)

/-- A shift count: the low six bits (R330). -/
def shiftCount (b : Word) : Nat := b.toNat % 64

def execAdd (xd xs1 xs2 : BitVec 5) (s : State) : Res := .next (s.regRegOp 4 xd xs1 xs2 fun a b => a + b)
def execSub (xd xs1 xs2 : BitVec 5) (s : State) : Res := .next (s.regRegOp 4 xd xs1 xs2 fun a b => a - b)
def execSll (xd xs1 xs2 : BitVec 5) (s : State) : Res := .next (s.regRegOp 4 xd xs1 xs2 fun a b => a <<< shiftCount b)
def execSlt (xd xs1 xs2 : BitVec 5) (s : State) : Res := .next (s.regRegOp 4 xd xs1 xs2 fun a b => boolWord (a.slt b))
def execSltu (xd xs1 xs2 : BitVec 5) (s : State) : Res := .next (s.regRegOp 4 xd xs1 xs2 fun a b => boolWord (a.ult b))
def execXor (xd xs1 xs2 : BitVec 5) (s : State) : Res := .next (s.regRegOp 4 xd xs1 xs2 fun a b => a ^^^ b)
def execSrl (xd xs1 xs2 : BitVec 5) (s : State) : Res := .next (s.regRegOp 4 xd xs1 xs2 fun a b => a >>> shiftCount b)
def execSra (xd xs1 xs2 : BitVec 5) (s : State) : Res := .next (s.regRegOp 4 xd xs1 xs2 fun a b => a.sshiftRight (shiftCount b))
def execOr (xd xs1 xs2 : BitVec 5) (s : State) : Res := .next (s.regRegOp 4 xd xs1 xs2 fun a b => a ||| b)
def execAnd (xd xs1 xs2 : BitVec 5) (s : State) : Res := .next (s.regRegOp 4 xd xs1 xs2 fun a b => a &&& b)

/-! ### MUL group (R376) and DIV group (R344) -/

/-- Bits 127 to 64 of an exact product. -/
def highHalf (p : Int) : Word := BitVec.ofInt 64 (p / 2 ^ 64)

def execMul (xd xs1 xs2 : BitVec 5) (s : State) : Res := .next (s.regRegOp 6 xd xs1 xs2 fun a b => a * b)
def execMulh (xd xs1 xs2 : BitVec 5) (s : State) : Res :=
  .next (s.regRegOp 6 xd xs1 xs2 fun a b => highHalf (a.toInt * b.toInt))
def execMulhsu (xd xs1 xs2 : BitVec 5) (s : State) : Res :=
  .next (s.regRegOp 6 xd xs1 xs2 fun a b => highHalf (a.toInt * b.toNat))
def execMulhu (xd xs1 xs2 : BitVec 5) (s : State) : Res :=
  .next (s.regRegOp 6 xd xs1 xs2 fun a b => highHalf (Int.ofNat a.toNat * b.toNat))

/-- Signed quotient, truncated toward zero; all ones for a divisor of 0 (R344). -/
def divSigned (a b : Word) : Word := if b = 0 then -1 else BitVec.ofInt 64 (a.toInt.tdiv b.toInt)
/-- a − b × DIV(a, b); a for a divisor of 0 (R344). -/
def remSigned (a b : Word) : Word := if b = 0 then a else BitVec.ofInt 64 (a.toInt.tmod b.toInt)
def divUnsigned (a b : Word) : Word := if b = 0 then -1 else BitVec.ofNat 64 (a.toNat / b.toNat)
def remUnsigned (a b : Word) : Word := if b = 0 then a else BitVec.ofNat 64 (a.toNat % b.toNat)

def execDiv (xd xs1 xs2 : BitVec 5) (s : State) : Res := .next (s.regRegOp 20 xd xs1 xs2 divSigned)
def execDivu (xd xs1 xs2 : BitVec 5) (s : State) : Res := .next (s.regRegOp 20 xd xs1 xs2 divUnsigned)
def execRem (xd xs1 xs2 : BitVec 5) (s : State) : Res := .next (s.regRegOp 20 xd xs1 xs2 remSigned)
def execRemu (xd xs1 xs2 : BitVec 5) (s : State) : Res := .next (s.regRegOp 20 xd xs1 xs2 remUnsigned)

end Sys2Proof.Machine
end

