-- ==== Sys2Proof/Machine/Buffers.lean ====
section
/-! DEFINITION. The memory-side buffers, MFLUSH and MINV, the table walkers and host AtomicOps (R159 to R161, R163 to
R167, R174, R189, R327, R370). -/

namespace Sys2Proof.Machine

/-! ### Lines (R159) -/

/-- A line leaves the buffer, its dirty bytes written back. -/
def execBufferEviction (line : Nat) (s : State) : Res := .next (s.writeBack line true)

/-! ### MFLUSH and MINV at issue (R161, R370) -/

/-- The first address of a range that is non-canonical, unassigned, or past the end of the address space. -/
def flushBad (a n : Nat) : Option Nat :=
  if n = 0 then none
  else if 2 ^ 64 < a + n then some a
  else
    [(0x800000000000, 0xFFFF800000000000), (0xFFFFF01000000000, 0xFFFFFFFFFF000000)].findSome? fun r =>
      if max a r.1 < min (a + n) r.2 then some (max a r.1) else none

/-- The issue of both: the range check, st and log space, then the request. -/
def State.flushOp (s : State) (kind : ReqKind) (xs1 xs2 : BitVec 5) : State :=
  s.gated (Uses.x [xs1, xs2] []) fun s =>
    let a := s.me.getX xs1
    let n := (s.me.getX xs2).toNat
    match flushBad a.toNat n with
    | some x => s.trap 0x04 (BitVec.ofNat 64 x)
    | none =>
      let log := n != 0 && s.translated s.cur.1 a
      match s.me.capacity false true false false log with
      | some r => s.parkMe r
      | none =>
        let k := s.me.consume [xs1, xs2]
        s.done 4 (k.send (k.mkReq kind 0 0 .none [⟨a, n, 0, false, []⟩] log))

def execMflush (xs1 xs2 : BitVec 5) (s : State) : Res := .next (s.flushOp .mflush xs1 xs2)
def execMinv (xs1 xs2 : BitVec 5) (s : State) : Res := .next (s.flushOp .minv xs1 xs2)

/-! ### Running a flush (R161, R189) -/

/-- Where the range of a die's stacks begins (R156). -/
def Part.dieBase (p : Part) (d : Nat) : Nat :=
  if p = .spn4400 then (if d < 2 then 144 * d else if d = 2 then 288 else 360) * GiB else 144 * d * GiB

/-- The physical address that Loc places at a location (R157). -/
def Part.unloc (p : Part) (loc : Nat) (near : Bool) : Nat :=
  let stack := loc / 512 / 2 ^ 24 / 192
  let chan := loc / 512 / 2 ^ 24 % 192
  let row := loc / 512 % 2 ^ 24
  let d := p.locDie loc
  let set := if near then p.dieStacks d else List.range p.stacks
  let c := chan * set.length + set.idxOf stack
  (if near then p.dieBase d else 0) + (row * (192 * set.length) + c) * 512 + loc % 512

/-- A buffered line lies, in any byte, in `n` bytes at `va` of a page, widened to whole lines. -/
def State.lineIn (s : State) (e : TlbEntry) (va : Word) (n line : Nat) : Bool :=
  let pa := s.part.unloc (64 * line) e.near
  let off := va48 va % 2 ^ e.bits
  decide (s.part.loc pa e.near = 64 * line) && decide (e.frame + off / 64 * 64 ≤ pa) && decide (pa < e.frame + off + n)

/-- Write back, or write back and drop, the buffered lines a predicate picks. -/
def State.flushLines (s : State) (drop : Bool) (p : Nat → Line → Bool) : State :=
  ((s.lines.filter fun l => p l.1 l.2).map (·.1)).foldl (fun s n => s.writeBack n drop) s

/-- The lines of one range inside one page. -/
def State.flushPage (s : State) (e : TlbEntry) (va : Word) (n : Nat) (drop : Bool) : State :=
  if e.hv && decide (e.frame < flagBase) then s.flushLines drop fun l _ => s.lineIn e va n l else s

/-- Every buffered line that carries HV. -/
def State.flushAll (s : State) (drop : Bool) : State := s.flushLines drop fun _ l => l.hv

/-- No earlier request of the context is still to be performed. -/
def Ctx.allBefore (k : Ctx) (num : Nat) : Bool := k.reqs.all fun p => decide (num ≤ p.num) || p.performed

/-- MFLUSH and MINV work through their range page by page; with the last one st falls. -/
def execMflushDone (t : TileNo) (c : CtxNo) (n : Nat) (s : State) : Res :=
  .next <| match s.req t c n with
  | none => s
  | some q =>
    let drop := q.kind == .minv
    match q.phase, q.elems with
    | .issued, e :: _ =>
      if (q.kind != .mflush && !drop) || !s.mayPerform t c q q.elems || (e.size == 0 && !(s.ctx t c).allBefore q.num) then s
      else if e.size = 0 then (s.flushAll drop).endReq t c q id
      else
        let a := e.addr.toNat + e.pos
        let va := BitVec.ofNat 64 a
        let n := min (e.size - e.pos) (65536 - a % 65536)
        let go (s : State) : State :=
          if e.pos + n = e.size then s.endReq t c q id
          else s.modReq t c q.seq fun q => { q with elems := [{ e with pos := e.pos + n }] }
        if !s.translated t va then s.endReq t c q id
        else
          match s.translation t (s.tag t c) va with
          | none => s.openWalk t (s.tag t c) va
          | some x => go (s.flushPage x va n drop)
    | _, _ => s

/-! ### Table walks (R163 to R167, R327) -/

/-- A cache of a given size. DESIGN CHOICE (log 40): of a full one the oldest entry leaves; the manual gives no replacement
order. -/
def tlbAdd (n : Nat) (e : TlbEntry) (l : List TlbEntry) : List TlbEntry := (l ++ [e]).drop (l.length + 1 - n)

/-- A walker of the region's die ends a pending walk: a leaf fills the region's TLB and the tile's; a refusal is not
kept (R165, R166). -/
def execTableWalk (t : TileNo) (q : QueueNo) (va : Word) (s : State) : Res :=
  .next <| let rn := regionOf t
  let rg := s.region rn
  match rg.pending.find? fun w => w.started && w.tag.queue == q && w.base / 65536 == va48 va / 65536 with
  | none => s
  | some w =>
    let bad := (s.walkReads (va48 va) w.tag.root 3 0).any s.badPhys
    let e := s.walk w.tag va
    let rg : Region := { rg with pending := rg.pending.filter (· != w) }
    let rg : Region := match e with | some e => { rg with tlb := tlbAdd 2048 e rg.tlb } | none => rg
    let s := (s.setRegion rn rg).startWalk (regionDie rn)
    let s := match e with | some e => s.modTile t fun tl => { tl with tlb := tlbAdd 32 e tl.tlb } | none => s
    if bad then s.memError else s

/-! ### Host AtomicOps (R174) -/

/-- Whether a request of the host is served: with the T bit while the package is locked or running (R326). -/
def State.hostServed (s : State) (tbit : Bool) : Bool := tbit || (s.hub.tdi != .locked && s.hub.tdi != .run)

/-- CXL.mem is enabled by stage 5, and a failed boot answers nothing there (R323); the hub's SRAM keeps its power at TCRIT (R328). -/
def State.memServed (s : State) (tbit : Bool) : Bool := s.hostServed tbit && decide (5 ≤ s.hub.stage.toNat) && s.hub.bootCode == 0

/-- Main memory answers while the stacks have power besides (R323, R328). -/
def State.mainServed (s : State) (tbit : Bool) : Bool := s.memServed tbit && s.hub.powered

def State.answer (s : State) (o : Out) : State := { s with out := s.out ++ [o] }

/-- A host AtomicOp: it joins the word's FIFO behind a device request that carries SYSAT, and in the flag window behind
any, else it runs at once. -/
def execHostAtomicop (op : HostAtomic) (pa : BitVec 40) (tbit : Bool) (s : State) : Res :=
  .next <| let a := pa.toNat
  let n := hostWidth op
  if !(if inFlag a n then s.memServed tbit else s.mainServed tbit) || a % n != 0 || !(s.part.inMemory a n || inFlag a n) then
    s.answer .unsupported
  else
    let p := if inFlag a n then Place.flag (a - flagBase) else .main (s.part.loc a false)
    let w := p.word8
    let h := s.home w
    let waits := if inFlag a n then h.fifo != [] else h.fifo.any fun e => e.sysat && e.store.isNone && e.host.isNone
    -- with the home's FIFO full the operation waits on its way (R173)
    let hold (s : State) : State := { s with agenda := s.agenda ++ [.event (.hostAtomicop op pa tbit)] }
    if waits then
      if s.fifoFull w then hold s
      else s.setHome { h with fifo := h.fifo ++ [⟨0, 0, 0, false, false, true, none, some (op, a % 8), none, false⟩] }
    else s.hostRmw w op (a % 8)

end Sys2Proof.Machine
end

