-- ==== Sys2Proof/Machine/Acc.lean ====
section
/-! DEFINITION. The formats of a TID (R194), WEFT8 blocks (R80 to R84) and ACC80 elements with their lane steps and
conversions (R85 to R90, R203). -/

namespace Sys2Proof.Machine

/-- The format of an operand: FMT 0 to 12 of R194. -/
inductive Fmt where
  | ty (t : Ty)
  | weft8
  | acc80
deriving DecidableEq, Repr

def Fmt.ofNat (n : Nat) : Option Fmt :=
  match n with
  | 11 => some .weft8
  | 12 => some .acc80
  | _ => (Ty.ofCode (BitVec.ofNat 4 n)).map .ty

/-- Bytes of an element (R194); WEFT8 has none. -/
def Fmt.size : Fmt → Nat
  | .ty t => Ty.width t / 8
  | .weft8 => 0
  | .acc80 => 10

/-! ### ACC80 (R85) -/

abbrev Acc := BitVec 80

/-- An element from its significand and exponent. -/
def Acc.mk (s e : Int) : Acc := BitVec.ofInt 64 s ++ BitVec.ofInt 16 e
def Acc.sig (a : Acc) : Int := (a.extractLsb' 16 64).toInt
def Acc.exp (a : Acc) : Int := (a.extractLsb' 0 16).toInt

def accNan : Acc := Acc.mk (-(2 ^ 63)) 0
def accInf (neg : Bool) : Acc := Acc.mk (-(2 ^ 63)) (if neg then 2 else 1)

/-- The value of an element: S = −2^63 marks a special one (R85). -/
def Acc.value (a : Acc) : FVal :=
  if Acc.sig a = -(2 ^ 63) then
    if Acc.exp a = 1 then .inf false else if Acc.exp a = 2 then .inf true else .nan false
  else signedVal (Acc.sig a) (Acc.exp a) false

/-- The element that holds a special value. -/
def accSpecial : FVal → Acc
  | .inf neg => accInf neg
  | _ => accNan

/-- The least exponent from `lo` up at which the nearest integer to m × 2^u fits 63 bits (R87). -/
def fitExp (m : Nat) (u lo : Int) : Int :=
  if m = 0 then lo
  else
    let e := max lo (topExp m u - 62)
    if 2 ^ 63 - 1 < roundAt .rne false m u e then e + 1 else e

/-- One lane step: the element after it and whether it sets ACCINEX (R87, R89). -/
def accStep (a : Acc) (p : FVal) : Acc × Bool :=
  match exactAdd .rne (Acc.value a) p with
  | (.fin neg m u, _) =>
    let e := fitExp m u (Acc.exp a)
    if 32767 < e then (accInf neg, true)
    else
      let k : Int := Int.ofNat (roundAt .rne neg m u e)
      (Acc.mk (if neg then -k else k) e, !isMultiple m u e)
  | (v, _) => (accSpecial v, true)

/-- λ: the lowest exponent at which an element of a format carries a bit, without σ (R86, R203); ACC80 has none. -/
def Fmt.lambda : Fmt → Int
  | .ty .e4 => -9 | .ty .e5 => -16 | .ty .f16 => -24 | .ty .bf16 => -133 | .ty .f32 => -149
  | .ty _ => 0
  | .weft8 => -48
  | .acc80 => 0

/-- The value of an element of a vector type, integers included. -/
def elemValue (t : Ty) (x : Nat) : FVal := if Ty.isFloat t then Ty.value t x else signedVal (toInt t x) 0 false

/-- MWRITE's rule: a value, σ included, as an ACC80 element with the least exponent from λ up that holds it; none when
that exponent is out of range (R203). -/
def toAcc (lam : Int) : FVal → Option Acc
  | .fin neg m e =>
    let x := fitExp m e lam
    let k : Int := Int.ofNat (roundAt .rne neg m e x)
    if x < -32768 ∨ 32767 < x then none else some (Acc.mk (if neg then -k else k) x)
  | v => some (accSpecial v)

/-- A value rounded to a vector type (R72 to R74). -/
def roundTo (d : Ty) (mode : Rm) (np : Bool) (v : FVal) : Nat × Flags :=
  if Ty.isFloat d then roundVal d mode np v else valueToInt d mode v

/-- MREAD's conversion of an element (R90). -/
def accTo (d : Ty) (mode : Rm) (np : Bool) (a : Acc) : Nat × Flags := roundTo d mode np (Acc.value a)

/-! ### WEFT8 (R80 to R84) -/

/-- The prefix codes of R83, symbol 0 first: length and bits. -/
def weftTable : Nat → List (Nat × Nat)
  | 0 => [(1, 0), (2, 2), (3, 6), (4, 14), (7, 124), (8, 250), (8, 251), (9, 504), (9, 505), (9, 506), (9, 507),
          (9, 508), (9, 509), (9, 510), (9, 511), (5, 30)]
  | 1 => [(2, 0), (2, 1), (3, 4), (3, 5), (4, 12), (5, 28), (5, 29), (6, 60), (6, 61), (7, 124), (7, 125), (8, 252),
          (8, 253), (8, 254), (8, 255), (4, 13)]
  | 2 => [(4, 0), (4, 1), (4, 2), (4, 3), (4, 4), (4, 5), (4, 6), (4, 7), (4, 8), (4, 9), (4, 10), (4, 11), (4, 12),
          (4, 13), (4, 14), (4, 15)]
  | _ => [(3, 4), (3, 5), (4, 12), (4, 13), (5, 28), (5, 29), (6, 60), (6, 61), (7, 124), (7, 125), (8, 252),
          (8, 253), (9, 510), (9, 511), (8, 254), (1, 0)]

/-- The bits of a number of `n` bits, most significant first. -/
def msbBits (n v : Nat) : List Bool := (List.range n).map fun i => v.testBit (n - 1 - i)

/-- The stream's bits: byte 0 first, bit 7 first (R82). -/
def streamBits (bs : List Byte) : List Bool := bs.flatMap fun b => msbBits 8 b.toNat

/-- The number that bits spell, most significant first. -/
def bitsNat (bs : List Bool) : Nat := bs.foldl (fun a b => 2 * a + (if b then 1 else 0)) 0

/-- The first symbol of a stream and the rest. -/
def weftSymbol (table : Nat) (bs : List Bool) : Option (Nat × List Bool) :=
  ((weftTable table).zipIdx.find? fun p => decide (p.1.1 ≤ bs.length) && bitsNat (bs.take p.1.1) == p.1.2).map
    fun p => (p.2, bs.drop p.1.1)

/-- The first `n` symbols and what is left. -/
def weftSymbols (table : Nat) : Nat → List Bool → Option (List Nat × List Bool)
  | 0, bs => some ([], bs)
  | n + 1, bs =>
    match weftSymbol table bs with
    | some (o, rest) => (weftSymbols table n rest).map fun r => (o :: r.1, r.2)
    | none => none

/-- The value of an element, without σ (R81). -/
def weftValue (b o : Nat) (s : Bool) (m : Nat) : FVal :=
  if o ≤ 14 then .fin s (8 + m) (Int.ofNat b - 34 - o) else .fin s m (Int.ofNat b - 48)

/-- The payload length of a block, from its header. -/
def weftLen (h : List Byte) : Nat := (h.headD 0).toNat

/-- The 32 values of a block: none when it is malformed (R82). -/
def weftBlock (bs : List Byte) : Option (List FVal) :=
  let h := leNat (bs.take 2)
  let stream := streamBits ((bs.drop 18).take (h % 256))
  match weftSymbols (h / 256 % 4) 32 stream with
  | some (syms, rest) =>
    if 8 ≤ rest.length ∨ rest.any (·) then none
    else some (syms.zipIdx.map fun p =>
      let nib := (bs.getD (2 + p.2 / 2) 0).toNat / (if p.2 % 2 = 0 then 1 else 16) % 16
      weftValue (h / 1024) p.1 (8 ≤ nib) (nib % 8))
  | none => none

/-- Symbol, sign and mantissa of an F8E4 element under a block's base (R84). -/
def weftEncode (emax b x : Nat) : Nat × Nat :=
  let s := x / 128
  let e := x / 8 % 16
  let m := x % 8
  if e ≠ 0 then (emax - e, 8 * s + m)
  else if m = 0 then (15, 8 * s)
  else
    let p := Nat.log2 m
    if b ≤ 36 + p then (b - 22 - p, 8 * s + (m - 2 ^ p) * 8 / 2 ^ p) else (15, 8 * s + m * 2 ^ (39 - b))

/-- Pack bits into bytes, zero-padded. -/
def packBits : Nat → List Bool → List Byte
  | 0, _ => []
  | n + 1, bs => BitVec.ofNat 8 (bitsNat ((bs ++ List.replicate 8 false).take 8)) :: packBits n (bs.drop 8)

/-- WENC of a block of 32 F8E4 elements that holds no NaN (R84). -/
def weftWrite (xs : List Nat) : List Byte :=
  let emax := xs.foldl (fun m x => max m (x / 8 % 16)) 0
  let b := if emax = 0 then 39 else emax + 24
  let codes := xs.map (weftEncode emax b)
  let len (t : Nat) := ((codes.map fun c => ((weftTable t).getD c.1 (0, 0)).1).foldl (· + ·) 0 + 7) / 8
  let t := [1, 2, 3].foldl (fun best u => if len u < len best then u else best) 0
  let stream := codes.flatMap fun c => let k := (weftTable t).getD c.1 (0, 0); msbBits k.1 k.2
  let plane := (List.range 16).map fun i =>
    BitVec.ofNat 8 ((codes.getD (2 * i) (0, 0)).2 + 16 * (codes.getD (2 * i + 1) (0, 0)).2)
  leBytes 2 (1024 * b + 256 * t + len t) ++ plane ++ packBits (len t) stream

end Sys2Proof.Machine
end

