-- ==== Sys2Proof/Machine/Jobs.lean ====
section
/-! DEFINITION. Job records, JTIME and JWAIT, a missed promise, and the end of a card (R209 to R213, R360, R361). -/

namespace Sys2Proof.Machine

/-- The `tval` of cause 0x0D (R212). -/
def jobVal (matrix : Option (BitVec 2)) (status job : Nat) : Word :=
  BitVec.ofNat 64 ((match matrix with | some m => m.toNat * 2 ^ 25 + 2 ^ 24 | none => 0) + status * 2 ^ 16 + job)

/-- The record of a job in a context, the latest one of its number (R210). -/
def Ctx.job (k : Ctx) (j : BitVec 16) : Option JobRec := k.jobs.reverse.find? (·.job == j)

/-- Change the record of a job. -/
def Ctx.modJob (k : Ctx) (j : BitVec 16) (f : JobRec → JobRec) : Ctx :=
  { k with jobs := k.jobs.map fun r => if r.job == j then f r else r }

/-- A new record: the last sixteen jobs are kept (R210, R360). -/
def Ctx.addJob (k : Ctx) (j : BitVec 16) : Ctx :=
  let js := k.jobs ++ [⟨j, false, none, 0, 0⟩]
  { k with jobs := js.drop (js.length - 16) }

/-- What JTIME reads of a record (R210). -/
def jtimeWord : Option JobRec → Word
  | none => 0x800000FF00000000
  | some r =>
    if r.done then (1#64 <<< 63) ||| (r.flags.zeroExtend 64 <<< 40) ||| (r.status.zeroExtend 64 <<< 32)
    else match r.promise with
      | some p => p
      | none => 0x7FFFFFFFFFFFFFFF

def execJtime (xd xs1 : BitVec 5) (s : State) : Res :=
  .next (s.regOp [xs1] xd 4 fun k => jtimeWord (k.job ((k.getX xs1).extractLsb' 0 16)))

/-- JWAIT: until the card is accepted, then until it is done or its promise passes (R210). -/
def execJwait (xs1 : BitVec 5) (s : State) : Res :=
  .next <| s.gated (Uses.x [xs1] []) fun s =>
    let j := (s.me.getX xs1).extractLsb' 0 16
    let fin := s.done 4 (s.me.consume [xs1])
    match s.me.job j with
    | none => fin
    | some r =>
      if r.done then fin
      else match r.promise with
        | none => s.parkMe (.accept j)
        | some p => if p.toNat ≤ s.time then s.trap 0x09 (j.zeroExtend 64) else s.parkMe (.promise j p)

/-- A parked JWAIT whose promise has passed raises cause 0x09 at itself (R210), after the release of an atomic whose grant its
context holds (R169). -/
def execJobPromiseMissed (t : TileNo) (c : CtxNo) (s : State) : Res :=
  .next <| let k := s.ctx t c
  match k.park with
  | some ⟨.promise j p, _⟩ =>
    let done := match k.job j with | some r => r.done | none => true
    if decide (p.toNat ≤ s.time) && !done && !k.amoHeld then
      s.trapCtx t c 0x09 (j.zeroExtend 64) k.pcNow 0 (tstatBits true false true false false)
    else s
  | _ => s

/-- The word of the completion log (R209). -/
def Card.logEntry (k : Card) (status : BitVec 8) : Word :=
  (k.flags.zeroExtend 64 <<< 32) ||| (status.zeroExtend 64 <<< 24) ||| (k.ctx.zeroExtend 64 <<< 16) ||| k.job.zeroExtend 64

/-- The end of a card, in one step: the completion-log write, the record, cp, and mx for XCOPYM (R209, R213). What watches a
word that it wrote is tested then (R184). DESIGN CHOICE (log 57): completions are numbered from 0, so the first takes entry 0. -/
def State.endCard (s : State) (t : TileNo) (k : Card) (status : BitVec 8) : State :=
  let s := s.modTile t fun tl =>
    { tl with
      clog := Assoc.set 0 (tl.ccount % 64) (k.logEntry status) tl.clog, ccount := tl.ccount + 1
      cards := tl.cards.filter (·.job != k.job)
      mats := tl.mats.filter (·.job != some k.job)
      selected := if tl.selected = some k.job then none else tl.selected }
  let s := s.modCtx t k.ctx fun c =>
    { c.modJob k.job fun r => { r with done := true, status := status, flags := k.flags } with
      cp := c.cp - 1, mx := if k.kind = .xcopym then c.mx - 1 else c.mx }
  k.wrote.foldl State.retest s

end Sys2Proof.Machine
end

