-- ==== Sys2Proof/Machine/Picks.lean ====
section
/-! DEFINITION. Picks (R257 to R268, R272, R380 to R382) and migrating threads (R269 to R271, R357). -/

namespace Sys2Proof.Machine

/-! ### Publication and agreement -/

/-- The launch of a context when it uses picks. -/
def State.pickLaunch (s : State) (t : TileNo) (c : CtxNo) : Option Resident :=
  (s.launchOf t c).filter (·.picks)

/-- The window becomes history slot q mod 256 in one step (R257, R260, R261). -/
def Tile.publish (t : Tile) (q : Nat) : Tile :=
  { t with hist := Memory.writeBytes t.hist (64 * (q % 256)) (Memory.readBytes t.pickWin 0 64) }

/-- Cause 0x0C with KIND and OFF (R258). -/
def pickVal (kind : Nat) (off : Word) : Word := BitVec.ofNat 64 (kind * 2 ^ 62 + off.toNat % 2 ^ 16)

/-- Only the group root of a tile task may execute PJOIN, PADV and PLEAVE, so the monitor may not: else cause 0x02 (R258, R380). -/
def State.rootOnly (s : State) (i : Instr) (eff : State → State) : State :=
  if s.isRoot s.cur.1 s.cur.2 && !s.me.sup then eff s else s.trap 0x02 (wordOf i)

/-- Wait until ld = 0 and st = 0, without a watchdog (R380). -/
def State.whenPerformed (s : State) (eff : State → State) : State :=
  if s.me.ld = 0 ∧ s.me.st = 0 then eff s else s.parkMe .ldst

/-- A rectangle holds a tile. -/
def inRect (r : Nat × Nat × Nat × Nat) (t : TileNo) : Bool :=
  decide (r.1 ≤ t.toNat % 64) && decide (t.toNat % 64 ≤ r.2.2.1) && decide (r.2.1 ≤ t.toNat / 64) && decide (t.toNat / 64 ≤ r.2.2.2)

/-- What a tile last heard of the neighbour in a direction. -/
def Tile.nbr (t : Tile) (d : Nat) : Nbr := Assoc.get ⟨false, false, false, 0⟩ d t.nbrs

/-- The first active neighbour that is not at pick `p` yet, in the order +x, −x, +y, −y: tile and direction (R257,
R261, R266). -/
def State.lagging (s : State) (t : TileNo) (r : Resident) (p : Nat) : Option (TileNo × Nat) :=
  (List.range 4).findSome? fun d =>
    match neighbour s.part t d with
    | none => none
    | some o =>
      let n := (s.tile t).nbr d
      if inRect r.rect o && !n.slack && !n.done && !(n.joined && decide (p ≤ n.pick)) then some (o, d) else none

/-- PJOIN (R260). -/
def execPjoin (s : State) : Res :=
  .next <| s.rootOnly .pjoin fun s =>
    match s.pickLaunch s.cur.1 s.cur.2 with
    | none => s.trap 0x0C (pickVal 2 0)
    | some _ =>
      if s.here.joined then s.trap 0x0C (pickVal 2 0)
      else s.whenPerformed fun s =>
        let s := s.modHere fun t => { t.publish 0 with pick := 0, joined := true }
        (s.sendPick s.cur.1).done 4 s.me

/-- Whether a context's tile is in its pick domain: joined and not done. -/
def State.inPicks (s : State) (t : TileNo) (c : CtxNo) : Option Resident :=
  if (s.tile t).joined && !(s.tile t).pdone then s.pickLaunch t c else none

/-- PADV (R261, R309, R381). -/
def execPadv (s : State) : Res :=
  .next <| s.rootOnly .padv fun s =>
    match s.inPicks s.cur.1 s.cur.2 with
    | none => s.trap 0x0C (pickVal 2 0)
    | some r => s.whenPerformed fun s =>
      let p := s.here.pick
      if s.here.phold.getLsbD 63 && bits s.here.phold 0 60 == p then s.parkMe .hold
      else if !s.here.slack && (s.lagging s.cur.1 r p).isSome then s.parkMe .neighbours
      else
        let s := s.modHere fun t => { t.publish (p + 1) with pick := p + 1 }
        (s.sendPick s.cur.1).done 4 s.me

/-- Leave the domain: publish, raise the pick, be done (R262). -/
def State.leavePicks (s : State) : State :=
  (s.modHere fun t => { t.publish (t.pick + 1) with pick := t.pick + 1, pdone := true }).sendPick s.cur.1

/-- PLEAVE (R262). -/
def execPleave (s : State) : Res :=
  .next <| s.rootOnly .pleave fun s =>
    match s.inPicks s.cur.1 s.cur.2 with
    | none => s.trap 0x0C (pickVal 2 0)
    | some _ => s.whenPerformed fun s => s.leavePicks.done 4 s.me

/-- A neighbour's update arrives (R261). -/
def execPickUpdate (n : Nat) (s : State) : Res :=
  .next <| match s.picks[n]? with
  | none => s
  | some u =>
    -- updates of one sender to one tile arrive in the order in which it sent them
    if (s.picks.take n).any fun v => v.fromTile == u.fromTile && v.dest == u.dest then s
    else
      let s : State := { s with picks := s.picks.eraseIdx n }
      match (List.range 4).find? fun d => neighbour s.part u.dest d == some u.fromTile with
      | some d => s.modTile u.dest fun t => { t with nbrs := Assoc.set ⟨false, false, false, 0⟩ d u.nbr t.nbrs }
      | none => s

/-- A PADV parked for 2^LOG cycles raises cause 0x0B (R266), but on a slack tile, whose PADV waits no longer (R268). -/
def execPickStall (t : TileNo) (c : CtxNo) (s : State) : Res :=
  .next <| let k := s.ctx t c
  match k.park with
  | some ⟨.neighbours, since⟩ =>
    if since + 2 ^ k.pwatch ≤ s.time ∧ !k.amoHeld ∧ !(s.tile t).slack then
      match (s.pickLaunch t c).bind fun r => s.lagging t r (s.tile t).pick with
      | some (o, d) =>
        let n := (s.tile t).nbr d
        let pk := if n.joined then n.pick % 2 ^ 32 else 2 ^ 32 - 1
        s.trapCtx t c 0x0B (BitVec.ofNat 64 (pk * 2 ^ 32 + d * 2 ^ 12 + o.toNat)) k.pcNow 0
          (tstatBits true false true false false)
      | none => s
    else s
  | _ => s

/-- The launch with picks that a tile holds. -/
def State.domainLaunch (s : State) (t : TileNo) : Option Launch := s.hub.launches.find? fun l => l.picks && l.live.contains t

/-- The tiles of the pick domain that a tile belongs to: those of its launch (R257, R309). -/
def State.domain (s : State) (t : TileNo) : List TileNo :=
  match s.domainLaunch t with
  | some l => l.tasks.map (·.1)
  | none => []

/-- A tile of a pick domain is restored: no pre-emption is under way on it, and no context of the launch is stopped (R308,
R309). -/
def Tile.restored (t : Tile) : Bool :=
  !t.monitor && (t.recs.all fun r => !(r.intr && r.code == 1)) &&
  (t.residents.all fun r => r.ended || !r.picks || r.members.all fun c => !t.stop.getLsbD c.toNat)

/-- The tiles of a launch that are saved, or about to be, and have no order to resume. -/
def Launch.away (l : Launch) : List TileNo := l.saved.filter l.live.contains

/-- A tile may be ordered to resume: it is away, and every tile that still has a task was ordered to save (R23). -/
def Launch.mayResume (l : Launch) (t : TileNo) : Bool := l.away.contains t && (l.resuming || l.live.all l.saved.contains)

/-- An order to save or to resume is given to a tile of the launch. -/
def Launch.order (l : Launch) (t : TileNo) (resume : Bool) : Launch :=
  let left := l.saved.filter (· != t)
  if resume then { l with saved := left, resuming := left.any l.live.contains } else { l with saved := left ++ [t], ordered := true }

/-- The hub holds the picks of a domain, that of the launch on `t`: it reads the pick of every tile, 0 before PJOIN (R257), and
writes PHOLD with EN = 1 and `p`, which is Pmax + 1, on every tile, here in one step (log 45), and writes no other value, nor any
once it has ordered a save; or, when every tile of the domain is restored, it clears PHOLD on every tile (R23, R309). -/
def execPhold (t : TileNo) (en : Bool) (p : BitVec 60) (s : State) : Res :=
  .next <| match s.domainLaunch t with
  | none => s
  | some l =>
    let ts := s.domain t
    let next := (ts.map fun o => (s.tile o).pick).foldl max 0 + 1
    let write (w : Word) : State := ts.foldl (fun s o => s.modTile o fun tl => { tl with phold := w }) s
    if en then (if !l.ordered && p == BitVec.ofNat 60 next then write ((1#64 <<< 63) ||| p.zeroExtend 64) else s)
    else if l.away = [] ∧ ts.all (fun o => (s.tile o).restored) = true then
      let s := write 0
      { s with hub := { s.hub with launches := s.hub.launches.map fun x => if x.id == l.id then { x with ordered := false } else x } }
    else s

/-! ### PREAD (R263, R272, R382) -/

/-- An offset byte as a signed number. -/
def signedByte (x : Nat) : Int := if 128 ≤ x % 256 then Int.ofNat (x % 256) - 256 else Int.ofNat (x % 256)

def execPread (xd xs1 xs2 : BitVec 5) (s : State) : Res :=
  .next <| s.gated (Uses.x [xs1, xs2] [xd]) fun s =>
    let (t, c) := s.cur
    let a := s.me.getX xs1
    match s.inPicks t c with
    | none => s.trap 0x0C (pickVal 2 a)
    | some r =>
      let dx := signedByte a.toNat
      let dy := signedByte (a.toNat / 256)
      let x := Int.ofNat (t.toNat % 64) + dx
      let y := Int.ofNat (t.toNat / 64) + dy
      if x < 0 ∨ 64 ≤ x ∨ y < 0 ∨ Int.ofNat s.part.rows ≤ y then s.trap 0x0C (pickVal 0 a)
      else
        let o := BitVec.ofNat 12 (y.toNat * 64 + x.toNat)
        if !inRect r.rect o then s.trap 0x0C (pickVal 1 a)
        else
          match s.me.capacity true false false false false with
          | some w => s.parkMe w
          | none =>
            let w := (s.me.getX xs2).extractLsb' 0 3
            let q := Int.ofNat s.here.pick - (dx.natAbs + dy.natAbs)
            let addr := 0xFFFFF00000000000 + o.toNat * 2 ^ 24 + 0x110000 + 64 * (q % 256).toNat + 8 * w.toNat
            let k := s.me.consume [xs1, xs2]
            s.done 4 (k.send (k.mkReq (.pread o w (a.extractLsb' 0 16) q) 8 0 (k.dstX xd)
              [Elem.one (BitVec.ofNat 64 addr) 8 []] false))

/-- Word w of history slot q mod 256 of a tile. DESIGN CHOICE (log 71): a PREAD of one with an uncorrectable error reads it as it stands. -/
def Tile.histWord (t : Tile) (q : Nat) (w : BitVec 3) : Word := leWord (Memory.readBytes t.hist (64 * (q % 256) + 8 * w.toNat) 8)

/-- The answer of an owner: a word and flags STALE, DONE, BEFORE in bits 2 to 0, or a recycled slot, or none while it
waits (R263, R272). -/
def Tile.answer (t : Tile) (w : BitVec 3) (q : Int) : Option Phase :=
  if t.slack then
    some (.answered (if t.joined then t.histWord t.pick w else leWord (Memory.readBytes t.pickWin (8 * w.toNat) 8)) 4)
  else if !t.joined then none
  else if t.pdone && decide (Int.ofNat t.pick < q) then some (.answered (t.histWord t.pick w) 2)
  else if q < 0 then some (.answered (t.histWord 0 w) 1)
  else if Int.ofNat t.pick < q then none
  else if q + 256 ≤ Int.ofNat t.pick then some .recycled
  else some (.answered (t.histWord q.toNat w) 0)

/-- A PREAD reaches its owner, which answers or lets it wait (R263). -/
def execPreadRequest (t : TileNo) (c : CtxNo) (n : Nat) (s : State) : Res :=
  .next <| match s.req t c n with
  | none => s
  | some q =>
    match q.kind, q.phase with
    | .pread o w _ slot, .issued =>
      if !s.mayPerform t c q q.elems then s
      else
        match (s.tile o).answer w slot with
        | some ph => s.modReq t c q.seq fun q => { q with phase := ph }
        | none => s
    | _, _ => s

/-- The answer returns: xd and `pstat`, or cause 0x0C with KIND 3; ld falls (R263, R265, R382). -/
def execPreadReply (t : TileNo) (c : CtxNo) (n : Nat) (s : State) : Res :=
  .next <| match s.req t c n with
  | none => s
  | some q =>
    match q.kind, q.phase with
    | .pread .., .answered v f => s.endReq t c q fun k =>
        let k := k.writeDst q.dst v
        { k with pstat := (k.pstat &&& 0xF8FF) ||| (f.zeroExtend 16 <<< 8) ||| f.zeroExtend 16 }
    | .pread _ _ off _, .recycled =>
      (s.endReq t c q id).late t c ⟨0x0C, pickVal 3 (off.zeroExtend 64), none, some (q.num, q.pc), q.sup⟩
    | _, _ => s

/-! ### HOP (R269 to R271, R357) -/

/-- A shuttle of the executing context to a tile: the LIVE registers and the carried CSRs (R270). -/
def Ctx.shuttle (k : Ctx) (t : TileNo) (c : CtxNo) (dest : TileNo) (launch : Nat) (base : BitVec 5) : Shuttle :=
  { fromTile := t, fromCtx := c, dest := dest, launch := launch, pc := k.pc + 4
    regs := k.x.filter fun p => decide (1 ≤ p.1) && decide (p.1 < 24) && k.livemask.getLsbD p.1
    frnd := k.frnd, fstat := k.fstat, livemask := k.livemask, pwatch := k.pwatch, qmode := k.qmode
    base := base, refused := false }

/-- The context of a launch's group that a shuttle takes: the lowest-numbered FREE one (R270). DESIGN CHOICE (log 59): before the
tile's own start message arrives that may be the root, which the message then starts all the same. -/
def Tile.freeCtx (t : Tile) (id : Nat) : Option (CtxNo × Resident) :=
  t.residents.findSome? fun r =>
    if r.id == id && !r.ended then
      (r.members.find? fun c => !(t.ctx c).sup && (t.ctx c).state == .free).map fun c => (c, r)
    else none

/-- Start a shuttle's thread on a context (R270). -/
def Tile.land (t : Tile) (sh : Shuttle) (c : CtxNo) (r : Resident) : Tile :=
  let k := t.ctx c
  let k := k.start sh.pc 0 sh.qmode (t.ctx r.root).macc
  let x := Assoc.set 0 3 0xFFFFFFFFFF000000 (sh.regs ++ k.x.filter fun p => decide (24 ≤ p.1))
  t.setCtx c { k with
    x := x, frnd := sh.frnd, fstat := sh.fstat, livemask := sh.livemask, pwatch := sh.pwatch
    state := if t.stop.getLsbD c.toNat then .stopped else .ready }

/-- The source context of a shuttle that was started or queued becomes FREE (R270). A killed one records its kill. -/
def State.sourceFree (s : State) (sh : Shuttle) : State :=
  s.modCtx sh.fromTile sh.fromCtx fun k =>
    { k.consume [sh.base] with
      state := .free, park := none, woken := false, hop := .none, killStatus := 0
      endStatus := if k.state = .ending then k.killStatus else 0 }

/-- A context of a launch has become FREE: the first queued shuttle of the launch starts on it (R270). -/
def State.startQueued (s : State) (t : TileNo) (id : Nat) : State :=
  let tl := s.tile t
  match tl.arrivals.find? (·.launch == id), tl.freeCtx id with
  | some sh, some (c, r) => s.setTile t { tl.land sh c r with arrivals := tl.arrivals.erase sh }
  | _, _ => s

/-- HOP: the checks, the wait for the counters, then the shuttle leaves (R270, R357). DESIGN CHOICE (log 44): a group root's
HOP whose source register is synchronised and empty parks on it before its state-only cause 0x02, where TSPAWN, TREAP, TKILL
and TSLOT take theirs first; R65 ranks causes, not parks. -/
def execHop (xs1 : BitVec 5) (s : State) : Res :=
  .next <| s.gated (Uses.x [xs1] []) fun s =>
    let (t, c) := s.cur
    let a := s.me.getX xs1
    if s.isRoot t c then s.trap 0x02 (wordOf (.hop xs1))
    else
      match target s.part t a, s.launchOf t c with
      | .chip o _ _, some r =>
        if !s.hasTask o r.id then s.trap 0x11 a
        else if o = t then s.done 4 (s.me.consume [xs1])
        else if !s.me.quiet then s.parkMe .drained
        else
          let s := s.dropGrant t c
          let sh := s.me.shuttle t c o r.id xs1
          let s : State := { s with shuttles := s.shuttles ++ [sh] }
          (s.parkMe .hop).modMe fun k => { k with hop := .sent 0 }
      | .chip _ _ _, none => s.trap 0x11 a
      | _, _ => s.trap 0x04 a

/-- Shuttle packets, and their refusals, keep their order between one source and one destination (R251, R253): the `n`-th
may not pass an earlier one. -/
def State.shuttleFirst (s : State) (n : Nat) (sh : Shuttle) : Bool :=
  let way (h : Shuttle) := if h.refused then (h.dest, h.fromTile) else (h.fromTile, h.dest)
  (s.shuttles.take n).all fun h => way h != way sh

/-- A refused shuttle returns to its source, which waits 64 × 2^k cycles, or stops at the HOP when it was stopped
meanwhile (R270, R306). -/
def execShuttleRefusal (n : Nat) (s : State) : Res :=
  .next <| match s.shuttles[n]? with
  | none => s
  | some sh =>
    if !sh.refused || !s.shuttleFirst n sh then s
    else
      let s : State := { s with shuttles := s.shuttles.eraseIdx n }
      let stop := (s.tile sh.fromTile).stop.getLsbD sh.fromCtx.toNat
      s.modCtx sh.fromTile sh.fromCtx fun k =>
        if stop && k.state == .parked then { k with state := .stopped, park := none, hop := .none }
        else if k.state == .ending then { k with hop := .none }
        else
          let r := match k.hop with | .sent r => min 6 (r + 1) | _ => 1
          { k with hop := .backoff { sh with refused := false } r (s.time + 64 * 2 ^ r) }

/-- The back-off expires and the source resends its shuttle (R270). -/
def execShuttleResend (t : TileNo) (c : CtxNo) (s : State) : Res :=
  .next <| match (s.ctx t c).hop with
  | .backoff sh r due =>
    if s.time < due ∨ (s.ctx t c).state ≠ .parked then s
    else ({ s with shuttles := s.shuttles ++ [sh] } : State).modCtx t c fun k => { k with hop := .sent r }
  | _ => s

end Sys2Proof.Machine
end

