-- ==== Sys2Proof/Machine/Thread.lean ====
section
/-! DEFINITION. Threads of a context group, their start and end, kills, slots, barriers, sleeping and counters (R99,
R102, R103, R106, R107, R125, R128, R129, R217, R300, R336 to R338, R389, R391, R393, R396 to R398, R415). -/

namespace Sys2Proof.Machine

/-! ### The end of a thread and of a tile task -/

/-- Whether a router still holds tile table entries of an ended launch: a generation in UP or DOWN (R23, R392). -/
def Tile.ttHeld (t : Tile) (r : Resident) : Bool :=
  (List.range r.ttCnt).any fun i =>
    let st := Assoc.get TtState.zero (r.ttFirst + i) t.ttState
    st.launch == r.id && (st.phase == .up || st.phase == .down)

/-- An ended launch is kept while a context of its group still ends, or a router holds an entry of it (R392). -/
def Tile.keeps (t : Tile) (r : Resident) : Bool :=
  t.ttHeld r || r.members.any fun c => (t.residentOf c).any (·.id == r.id)

/-- Ended launches that nothing needs any more are forgotten. -/
def Tile.forget (t : Tile) : Tile := { t with residents := t.residents.filter fun r => !r.ended || t.keeps r }

/-- The reservations of an ended task go back: its group, heddle slots, barrier, placements and entries (R143, R222). DESIGN CHOICE
(log 59): shuttles of the launch that still wait in the tile's arrival queue are dropped. -/
def Tile.releaseTask (t : Tile) (r : Resident) : Tile :=
  let hd : Heddle := ⟨false, 0, false, ⟨0, []⟩, 0⟩
  let slots := (List.range 8).filter fun i => r.slotmask.getLsbD i
  Tile.forget { t with
    heddle := slots.foldl (fun h i => Assoc.set hd i hd h) t.heddle
    barriers := Assoc.set ⟨0, 0, 0, 0⟩ r.group ⟨0, 0, 0, 0⟩ t.barriers
    arrivals := t.arrivals.filter (·.launch != r.id)
    residents := t.residents.map fun x => if x.id == r.id then { x with ended := true } else x }

/-- A tile task ends (R143): the hub counts it, and its reservations go back at once. -/
def State.endTask (s : State) (t : TileNo) (id : Nat) : State :=
  let s := s.picksOver fun l => l.id == id && l.live.all (· == t)
  let h : Hub := { s.hub with launches := s.hub.launches.map fun l =>
    if l.id == id then { l with live := l.live.filter (· != t) } else l }
  let s : State := { s with hub := h }
  match (s.tile t).residentId id with
  | some r => if r.ended then s else s.modTile t fun tl => tl.releaseTask r
  | none => s

/-- What follows a context's becoming FREE: a queued shuttle of its launch may start, and an ended launch is forgotten. -/
def State.freed (s : State) (t : TileNo) (c : CtxNo) : State :=
  match (s.tile t).residentOf c with
  | some r => s.startQueued t r.id
  | none => s.modTile t Tile.forget

/-! ### Kill (R300, R391) -/

/-- Requests that a kill drops: those of the log that are not granted or applied at a home, the ones that stand ungranted
in the FIFO of one among them (R300). -/
def Req.killed (q : Req) : Bool :=
  q.logged && (match q.phase with | .issued | .queued | .refused _ _ => true | _ => false)

/-- Kill one context: ENDING, or at its release when it is STOPPED (R391). A HOP that waits to send its shuttle again is
given up. -/
def State.killOne (s : State) (t : TileNo) (c : CtxNo) (status : Word) : State :=
  let k := s.ctx t c
  let st := if k.sup then k.under else k.state
  match st with
  | .free | .ending => s
  | .stopped => s.modCtx t c fun k => { k with killStatus := status, served := false }
  | _ =>
    let s := (((s.dropGrant t c).withdrawPost t c)).unwatch t c
    let gone := (k.reqs.filter Req.killed).map (·.seq)
    let s : State := { s with homes := s.homes.map fun h =>
      { h with fifo := h.fifo.filter fun e => !(e.tile == t && e.ctx == c && gone.contains e.seq && !e.granted) } }
    let s := s.modTile t fun tl => { tl with recs := tl.recs.filter fun r => r.intr || r.ctx != c }
    s.modCtx t c fun k =>
      let k := gone.foldl Ctx.dropReq k
      { k with late := [], woken := k.sup && k.woken, held := k.sup && k.held, fencing := k.sup && k.fencing, served := false, killStatus := status
               hop := match k.hop with | .sent r => .sent r | _ => .none
               state := if k.sup then k.state else .ending, park := if k.sup then k.park else none
               under := if k.sup then .ending else k.under }

/-- Kill: a group root takes every live context of its group with it, and the tile task ends (R300). -/
def State.kill (s : State) (t : TileNo) (c : CtxNo) (status : Word) : State :=
  let s := s.killOne t c status
  match (s.tile t).residentOf c with
  | some r =>
    if r.root == c then
      let s := (r.members.filter (· != c)).foldl (fun s m => s.killOne t m status) s
      s.endTask t r.id
    else s
  | none => s

/-- The end status of a kill (R300, R391). -/
def killStatus (code : Nat) : Word := (1#64 <<< 63) ||| BitVec.ofNat 64 (code % 256)

/-- A killed context becomes FREE when its counters are 0 and no shuttle of it waits for its answer (R300, R391). -/
def execEndingToFree (t : TileNo) (c : CtxNo) (s : State) : Res :=
  .next <| let k := s.ctx t c
  let waits := match k.hop with | .sent _ => true | _ => false
  let st := if k.sup then k.under else k.state
  if st = .ending && k.quiet && !waits then
    let s := s.modCtx t c fun k =>
      { k with state := if k.sup then k.state else .free, under := .free, endStatus := k.killStatus, killStatus := 0
               hop := .none }
    s.freed t c
  else s

/-! ### TSPAWN, TREAP, TKILL, TEXIT (R107, R389, R391, R393, R398) -/

/-- The group root in task mode, with its launch: what TSPAWN, TREAP and TKILL need (R107). -/
def State.asRoot (s : State) (i : Instr) (eff : Resident → State → State) : State :=
  match s.here.residentOf s.cur.2 with
  | some r => if r.root == s.cur.2 && !s.me.sup then eff r s else s.trap 0x02 (wordOf i)
  | none => s.trap 0x02 (wordOf i)

def execTspawn (xd xs1 xs2 : BitVec 5) (s : State) : Res :=
  .next <| s.asRoot (.tspawn xd xs1 xs2) fun r s => s.gated (Uses.x [xs1, xs2] [xd]) fun s =>
    let o := s.me.getX xs1
    if o.toNat % 4 ≠ 0 then s.trap 0x03 o
    else if o.toNat < r.ioff ∨ r.ioff + r.isize ≤ o.toNat ∨ 0x10000 ≤ o.toNat then s.trap 0x04 o
    else if s.me.st ≠ 0 then s.parkMe .st
    else
      let arg := s.me.getX xs2
      let k := s.me.consume [xs1, xs2]
      match r.members.find? fun c => (s.here.ctx c).state == .free && c != r.root with
      | none => s.done 4 (k.setX xd (-1))
      | some c =>
        let s := s.modCtx s.cur.1 c fun n => n.start o arg k.qmode k.macc
        s.done 4 (k.setX xd (c.zeroExtend 64))

/-- A context of the root's own group other than the root (R391, R393). -/
def Resident.other (r : Resident) (c : CtxNo) : Bool := r.members.contains c && c != r.root

def execTreap (xd xs1 : BitVec 5) (s : State) : Res :=
  .next <| s.asRoot (.treap xd xs1) fun r s => s.gated (Uses.x [xs1] [xd]) fun s =>
    let c := (s.me.getX xs1).extractLsb' 0 4
    if !r.other c then s.trap 0x02 (wordOf (.treap xd xs1))
    else if (s.here.ctx c).isFree then s.done 4 ((s.me.consume [xs1]).setX xd (s.here.ctx c).endStatus)
    else s.parkMe (.reap c)

/-- TKILL (R391). The stopped cards of the killed context are aborted (R213). -/
def execTkill (xs1 : BitVec 5) (s : State) : Res :=
  .next <| s.asRoot (.tkill xs1) fun r s => s.gated (Uses.x [xs1] []) fun s =>
    let c := (s.me.getX xs1).extractLsb' 0 4
    if !r.other c then s.trap 0x02 (wordOf (.tkill xs1))
    else
      let s := s.done 4 (s.me.consume [xs1])
      if (s.here.ctx c).isFree then s
      else
        let s := s.kill s.cur.1 c (killStatus 0xFF)
        (s.here.cards.filter fun k => k.ctx == c && k.state == .stopped).foldl
          (fun s k => s.endCard s.cur.1 k 0x2F) s

/-- TEXIT (R389). -/
def execTexit (s : State) : Res :=
  .next <|
    let (t, c) := s.cur
    if s.me.sup then s.trap 0x02 (wordOf .texit)
    else
      let root := (s.here.residentOf c).filter fun r => r.root == c
      match root with
      | some r =>
        if r.members.any fun m => m != c && (s.here.ctx m).state.live then s.trap 0x13 0
        else
          let leaves := (s.inPicks t c).isSome
          if leaves && !(s.me.ld == 0 && s.me.st == 0) then s.parkMe .ldst
          else
            let s := if leaves then s.leavePicks else s
            if !s.me.quiet then s.parkMe .drained
            else
              let s := s.done 4 s.me
              let s := s.modMe fun k => { k with state := .free, endStatus := 0 }
              (s.endTask t r.id).freed t c
      | none =>
        if !s.me.quiet then s.parkMe .drained
        else
          let s := s.done 4 s.me
          (s.modMe fun k => { k with state := .free, endStatus := 0 }).freed t c

/-! ### Slots (R102, R103, R397) -/

/-- Write a slot table entry (R102). -/
def Tile.setSlot (t : Tile) (n : Nat) (v : Word) : Tile := { t with slots := Assoc.set 0 n (v &&& 0xF0F) t.slots }

def execTslot (xs1 xs2 : BitVec 5) (s : State) : Res :=
  .next <| s.supervisor (.tslot xs1 xs2) fun s => s.gated (Uses.x [xs1, xs2] []) fun s =>
    let n := bits (s.me.getX xs1) 0 4
    let v := s.me.getX xs2
    let s := s.done 4 (s.me.consume [xs1, xs2])
    s.modHere fun t => t.setSlot n v

/-- The live contexts of a launch, in ascending order. -/
def Tile.liveOf (t : Tile) (r : Resident) : List CtxNo := r.members.filter fun c => (t.ctx c).state.live

/-- Insert in a list sorted by `le`. -/
def insertBy {α : Type} (le : α → α → Bool) (a : α) : List α → List α
  | [] => [a]
  | b :: r => if le a b then a :: b :: r else b :: insertBy le a r

/-- Sort, stably. -/
def sortBy {α : Type} (le : α → α → Bool) : List α → List α
  | [] => []
  | a :: r => insertBy le a (sortBy le r)

/-- Slot counts of launches by weight: the whole parts, then the largest remainders, ties to the lower index (R103). -/
def shares (n total : Nat) (ws : List Nat) : List Nat :=
  let whole := ws.map fun w => n * w / total
  let left := n - whole.foldl (· + ·) 0
  let rem := ws.map fun w => n * w % total
  let order := sortBy (fun a b =>
    decide (rem.getD b 0 < rem.getD a 0) || (rem.getD a 0 == rem.getD b 0 && decide (a ≤ b))) (List.range ws.length)
  let extra := order.take left
  (whole.zipIdx).map fun p => if extra.contains p.2 then p.1 + 1 else p.1

/-- Give each slotless launch, in ascending index, a slot of the launch with the most, the higher index on a tie, while
some launch holds two (R103, step 3). -/
def fillShares : List Nat → List Nat → List Nat
  | [], cs => cs
  | i :: r, cs =>
    if cs.getD i 0 ≠ 0 then fillShares r cs
    else
      let top := cs.foldl max 0
      let donor := (cs.zipIdx.filter fun p => p.1 == top).foldl (fun _ p => p.2) 0
      if top < 2 then fillShares r cs else fillShares r (setNth i 1 (setNth donor (top - 1) cs))

/-- Round-robin over the live contexts of a launch, from the one after the last receiver (R103, step 5). -/
def rotateAfter (last : Option CtxNo) (cs : List CtxNo) : List CtxNo :=
  match last with
  | none => cs
  | some l => cs.filter (fun c => decide (l.toNat < c.toNat)) ++ cs.filter (fun c => decide (c.toNat ≤ l.toNat))

/-- Write the entries of one launch's slots. -/
def Tile.giveSlots (t : Tile) (idx : BitVec 2) (order : List CtxNo) : List Nat → Nat → Tile
  | [], _ => t
  | sl :: r, n =>
    let c := order.getD (n % order.length) 0
    let e := (idx.zeroExtend 64 <<< 10) ||| 0x100 ||| c.zeroExtend 64
    let t := { t with slots := Assoc.set 0 sl e t.slots, lastSlot := Assoc.set 16 idx.toNat c.toNat t.lastSlot }
    Tile.giveSlots t idx order r (n + 1)

/-- Hand the unpinned slots to the launches in ascending index order (R103, step 4). DESIGN CHOICE (log 43): the round-robin
of step 5 starts after the last context that any launch of that index received a slot for, the manual gives no start for a
launch without slots at the boundary before. -/
def Tile.giveAll (t : Tile) : List (Resident × Nat) → List Nat → Tile
  | [], _ => t
  | (r, n) :: rest, slots =>
    let last := Assoc.get 16 r.index.toNat t.lastSlot
    let order := rotateAfter (if last = 16 then none else some (BitVec.ofNat 4 last)) (t.liveOf r)
    Tile.giveAll (t.giveSlots r.index order (slots.take n) 0) rest (slots.drop n)

/-- Apportion the unpinned slots (R103). -/
def Tile.apportion (t : Tile) : Tile :=
  let free := (List.range 16).filter fun n => !(Assoc.get 0 n t.slots).getLsbD 9
  let rs := sortBy (fun a b => decide (a.group * a.size ≤ b.group * b.size)) (t.residents.filter fun r => !r.ended && t.liveOf r != [])
  if rs = [] then free.foldl (fun t n => { t with slots := Assoc.set 0 n (Assoc.get 0 n t.slots &&& ~~~0x100) t.slots }) t
  else
    let ws := rs.map (·.weight)
    let cs := shares free.length (ws.foldl (· + ·) 0) ws
    let cs := fillShares (List.range cs.length) cs
    t.giveAll (rs.zip cs) free

/-- A rotation boundary (R101, R103). -/
def execRotationBoundary (t : TileNo) (s : State) : Res :=
  .next (if s.time % 16 = 0 then s.modTile t Tile.apportion else s)

/-! ### TSLEEP and WAITC (R125, R217, R396, R415) -/

def execTsleep (xs1 : BitVec 5) (s : State) : Res :=
  .next <| s.gated (Uses.x [xs1] []) fun s =>
    let t := s.me.getX xs1
    if t.toNat ≤ s.time ∨ s.me.woken then s.done 4 (s.me.consume [xs1]) else s.parkMe (.sleep t)

/-- The condition of WAITC: 31 is no constraint (R125). -/
def Ctx.meets (k : Ctx) (ld st cp mx : BitVec 5) : Bool :=
  let ok (n : Nat) (f : BitVec 5) : Bool := f == 31 || decide (n ≤ f.toNat)
  ok k.ld ld && ok k.st st && ok k.cp cp && ok k.mx mx

def execWaitc (ld st cp mx : BitVec 5) (s : State) : Res :=
  .next (if s.me.meets ld st cp mx then s.done 4 s.me else s.parkMe (.waitc ld st cp mx))

/-! ### Local barriers (R128, R129, R336 to R338) -/

def noBarrier : Barrier := ⟨0, 0, 0, 0⟩

/-- The contexts of a group as a mask. -/
def Resident.groupMask (r : Resident) : BitVec 16 := r.members.foldl (fun m c => m ||| (1#16 <<< c.toNat)) 0

/-- The tile's increment of a barrier word, an AMOADD.D of +1 that no counter counts (R129, R337). DESIGN CHOICE (log 70): the increment
that BARREG itself sends is a request of the context that executes BARREG, which takes a refusal of it. -/
def State.increment (s : State) (word : Word) : State :=
  s.modMe fun k => k.send (k.mkReq .barrier 8 1 .none [Elem.one word 8 []] false)

/-- Mark arrivals; when every masked context has arrived, the increment goes out and the next generation starts. -/
def State.arrive (s : State) (g : Nat) (b : Barrier) : State :=
  if b.mask ≠ 0 ∧ b.arrived &&& b.mask = b.mask then
    (s.modHere fun t => { t with barriers := Assoc.set noBarrier g { b with arrived := 0, gen := b.gen + 1 } t.barriers }).increment b.word
  else s.modHere fun t => { t with barriers := Assoc.set noBarrier g b t.barriers }

/-- BARREG: a new barrier, a new generation, and no increment for the old one (R128, R338). A context parked in BARA because it had
arrived in the old generation ends its BARA, and counts as arrived in the new one when its mask names it; every other arrival is
discarded. DEDUCED (log 56): the two contexts that the cases of R338 count as arrived are parked so. DESIGN CHOICE (log 72): of a context that no group holds it has no effect. -/
def execBarreg (xs1 xs2 : BitVec 5) (s : State) : Res :=
  .next <| s.gated (Uses.x [xs1, xs2] []) fun s =>
    let a := s.me.getX xs2
    let bad : Option (BitVec 8) :=
      if a.toNat % 8 ≠ 0 then some 0x03
      else match target s.part s.cur.1 a with
        | .bad => some 0x04
        | .mem => none
        | .chip o off _ => match placeOf o off with
          | some (.ls _ _) => if s.checkAccess s.cur.1 s.cur.2 true .atomic 8 a then none else some 0x04
          | _ => some 0x04
    match bad, s.here.residentOf s.cur.2 with
    | some cause, _ => s.trap cause a
    | none, none => s.done 4 (s.me.consume [xs1, xs2])
    | none, some r =>
      let mask := (s.me.getX xs1).extractLsb' 0 16 &&& r.groupMask
      let old := Assoc.get noBarrier r.group s.here.barriers
      let s := s.done 4 (s.me.consume [xs1, xs2])
      let waiting := r.members.filter fun c => match (s.here.ctx c).park with | some ⟨.barrier g, _⟩ => g == old.gen | _ => false
      let s := waiting.foldl (fun s c => s.modCtx s.cur.1 c fun k => k.retire s.time 4) s
      let carried := waiting.foldl (fun m c => m ||| (1#16 <<< c.toNat)) 0
      s.arrive r.group ⟨mask, a, carried &&& mask, old.gen + 1⟩

/-- BARA (R129, R336). -/
def execBara (s : State) : Res :=
  .next <|
    s.whenPerformed fun s =>
      match s.here.residentOf s.cur.2 with
      | none => s.done 4 s.me
      | some r =>
        let b := Assoc.get noBarrier r.group s.here.barriers
        if !b.mask.getLsbD s.cur.2.toNat then s.done 4 s.me
        else if b.arrived.getLsbD s.cur.2.toNat then s.parkMe (.barrier b.gen)
        else
          let s := s.done 4 s.me
          s.arrive r.group { b with arrived := b.arrived ||| (1#16 <<< s.cur.2.toNat) }

end Sys2Proof.Machine
end

