-- ==== Sys2Proof/Machine/System.lean ====
section
/-! DEFINITION. CSRs, traps by instruction, the return from a trap and the fences (R130, R298, R300, R341, R342, R345
to R348, R394). -/

namespace Sys2Proof.Machine

/-! ### CSRs (R130, R298, R341) -/

/-- Whether a number names a CSR (R130). -/
def csrExists (n : Nat) : Bool :=
  (0x800 ≤ n && n ≤ 0x806) || (0x5C0 ≤ n && n ≤ 0x5C8) || (0xC00 ≤ n && n ≤ 0xC02) || (0xCC0 ≤ n && n ≤ 0xCC4)
    || (0xCC8 ≤ n && n ≤ 0xCD7)

/-- The CSRs 0xC00 to 0xCFF are read-only (R46). -/
def csrReadOnly (n : Nat) : Bool := 0xC00 ≤ n && n ≤ 0xCFF
/-- The supervisor CSRs (R46). -/
def csrSupervisor (n : Nat) : Bool := 0x5C0 ≤ n && n ≤ 0x5C8

/-- `lidx`n of a context (R142). -/
def Resident.lidxOf (r : Resident) (c : CtxNo) (n : Nat) : Nat :=
  if r.thread = some n then c.toNat - r.root.toNat else r.lidx.getD n 0

/-- The value a CSR reads (R130, R342). -/
def State.csrRead (s : State) (n : Nat) : Word :=
  let (t, c) := s.cur
  let k := s.me
  let tl := s.here
  let held := BitVec.ofNat 4 (bits tl.tctx 0 4)
  if 0xCD0 ≤ n ∧ n ≤ 0xCD7 then
    match s.launchOf t c with | some r => BitVec.ofNat 64 (r.ldim.getD (n - 0xCD0) 1) | none => 1
  else if 0xCC8 ≤ n ∧ n ≤ 0xCCF then
    match s.launchOf t c with | some r => BitVec.ofNat 64 (r.lidxOf c (n - 0xCC8)) | none => 0
  else match n with
    | 0x800 => k.qmode.zeroExtend 64
    | 0x801 => k.full.zeroExtend 64
    | 0x802 => k.frnd.zeroExtend 64
    | 0x803 => k.fstat.zeroExtend 64
    | 0x804 => k.livemask.zeroExtend 64
    | 0x805 => tl.pstatWord k
    | 0x806 => BitVec.ofNat 64 k.pwatch
    | 0x5C0 => k.macc.zeroExtend 64
    | 0x5C1 => tl.ocperm.zeroExtend 64
    | 0x5C2 => tl.tcause
    | 0x5C3 => tl.tval
    | 0x5C4 => tl.tseq
    | 0x5C5 => (tl.ctx held).pc
    | 0x5C6 => tl.tstat
    | 0x5C7 => tl.tvec
    | 0x5C8 => tl.tctx
    | 0xC00 => BitVec.ofNat 64 s.time
    | 0xC01 => BitVec.ofNat 64 s.time
    | 0xC02 => k.instret
    | 0xCC0 => c.zeroExtend 64
    | 0xCC1 => BitVec.ofNat 64 (t.toNat % 64 + 256 * (t.toNat / 64))
    | 0xCC2 => BitVec.ofNat 64 tl.pick
    | 0xCC3 => s.cfgid
    | 0xCC4 => k.cntWord
    | _ => 0

/-- A PWLOG or `pwatch`.LOG value is accepted from 10 to 40, else the old one stays (R110, R266). -/
def logField (old : Nat) (v : Word) : Nat :=
  let n := bits v 0 6
  if 10 ≤ n ∧ n ≤ 40 then n else old

/-- A CSR write, field by field: read-only and reserved fields keep their value (R71, R75, R111, R152, R199, R265,
R266, R269, R298, R341). -/
def State.csrWrite (s : State) (n : Nat) (v : Word) : State :=
  match n with
  | 0x800 => s.modMe fun k => { k with qmode := v.extractLsb' 0 8 }
  | 0x801 => s.modMe fun k => { k with full := v.extractLsb' 0 8 }
  | 0x802 => s.modMe fun k => { k with frnd := v.extractLsb' 0 4 &&& 0b1011 }
  | 0x803 => s.modMe fun k => { k with fstat := v.extractLsb' 0 12 &&& 0xF1F }
  | 0x804 => s.modMe fun k => { k with livemask := v.extractLsb' 0 24 &&& 0xFFFFFE }
  | 0x805 => s.modMe fun k => { k with pstat := v.extractLsb' 0 16 &&& 0x0707 }
  | 0x806 => s.modMe fun k => { k with pwatch := logField k.pwatch v }
  | 0x5C0 => s.modMe fun k => { k with macc := v.extractLsb' 0 4 }
  | 0x5C1 => s.modHere fun t => { t with ocperm := v.extractLsb' 0 12 }
  | 0x5C5 => s.modCtx s.cur.1 (BitVec.ofNat 4 (bits s.here.tctx 0 4)) fun k => { k with pc := v }
  | 0x5C7 => s.modHere fun t => { t with tvec := v &&& 0xFFFC }
  | 0x5C8 => s.modHere fun t => { t with tctx := (t.tctx &&& 0xF) ||| (v &&& 0x300) }
  | _ => s

/-- The CSR group (R341): the checks of R46, the read, the write, in one step. `new` makes the value written from the
old one and the source. DESIGN CHOICE (log 44): cause 0x01 and cause 0x02 of R46, which do not depend on a register, are raised
also while a synchronised source is empty; R65 ranks no park against a cause. And the source is read and consumed before
the CSR is read, so CSRRS of `qfull` does not write the consumed register's bit back. -/
def State.csrOp (s : State) (i : Instr) (xd : BitVec 5) (csr : BitVec 12) (xs : List (BitVec 5)) (writes reads : Bool)
    (new : Ctx → Word → Word) : State :=
  let n := csr.toNat
  if !csrExists n || (writes && csrReadOnly n) then s.trap 0x01 (wordOf i)
  else if csrSupervisor n && !s.me.sup then s.trap 0x02 (wordOf i)
  else s.gated (Uses.x xs (if reads then [xd] else [])) fun s =>
    let s := s.setMe (s.me.consume xs)
    let old := s.csrRead n
    let v := new s.me old
    let dst := s.me.dstX xd
    let s := if writes then s.csrWrite n v else s
    s.done 4 (if reads then s.me.writeDst dst old else s.me)

def execCsrrw (xd : BitVec 5) (csr : BitVec 12) (xs1 : BitVec 5) (s : State) : Res :=
  .next (s.csrOp (.csrrw xd csr xs1) xd csr [xs1] true (xd != 0) fun k _ => k.getX xs1)
def execCsrrs (xd : BitVec 5) (csr : BitVec 12) (xs1 : BitVec 5) (s : State) : Res :=
  .next (s.csrOp (.csrrs xd csr xs1) xd csr [xs1] (xs1 != 0) true fun k t => t ||| k.getX xs1)
def execCsrrc (xd : BitVec 5) (csr : BitVec 12) (xs1 : BitVec 5) (s : State) : Res :=
  .next (s.csrOp (.csrrc xd csr xs1) xd csr [xs1] (xs1 != 0) true fun k t => t &&& ~~~k.getX xs1)
def execCsrrwi (xd : BitVec 5) (csr : BitVec 12) (uimm : BitVec 5) (s : State) : Res :=
  .next (s.csrOp (.csrrwi xd csr uimm) xd csr [] true (xd != 0) fun _ _ => uimm.zeroExtend 64)
def execCsrrsi (xd : BitVec 5) (csr : BitVec 12) (uimm : BitVec 5) (s : State) : Res :=
  .next (s.csrOp (.csrrsi xd csr uimm) xd csr [] (uimm != 0) true fun _ t => t ||| uimm.zeroExtend 64)
def execCsrrci (xd : BitVec 5) (csr : BitVec 12) (uimm : BitVec 5) (s : State) : Res :=
  .next (s.csrOp (.csrrci xd csr uimm) xd csr [] (uimm != 0) true fun _ t => t &&& ~~~(uimm.zeroExtend 64))

/-! ### Traps by instruction (R345) -/

def execEcall (s : State) : Res := .next (s.trap 0x0E 0)
def execEbreak (s : State) : Res := .next (s.trap 0x0F 0)

/-! ### The return from a trap (R300, R394) -/

/-- A task that starts on a group root: the state of R107, every channel plain and empty, its accumulators (R107, R199). DESIGN
CHOICE (log 59): where a shuttle came before the message and took the root, the task replaces what it brought. -/
def State.startTask (s : State) (m : StartMsg) (r : Resident) : State :=
  let all := r.members
  let macc : BitVec 4 := match r.size with
    | 16 => 0xF
    | 8 => 0b11#4 <<< (2 * r.group)
    | _ => 1#4 <<< r.group
  let s := all.foldl (fun s c => s.modCtx m.tile c fun k => { k with qmode := 0, full := 0, endStatus := 0 }) s
  s.modCtx m.tile r.root fun k => k.start m.entry m.arg 0 macc

/-- A HELD context goes on, or stays stopped while its STOP bit is set (R300, R306). -/
def Ctx.resume (k : Ctx) (stop : Bool) : Ctx := { k with state := if stop then .stopped else .ready }

/-- What TRET does with the context of the closed record (R300); one with damaged registers is killed (R311). A context that
was killed meanwhile is left alone (R391); one that the monitor has resumed meanwhile is killed as any other. DESIGN CHOICE (log 63):
with action 0 such a context goes on as it is, also HELD again for a record of its own that is still pending. -/
def State.closeRecord (s : State) : State :=
  let t := s.cur.1
  let tl := s.here
  let c := BitVec.ofNat 4 (bits tl.tctx 0 4)
  let act := bits tl.tctx 8 2
  if tl.tcause.getLsbD 63 || !(tl.ctx c).served then s
  else if act = 0 ∧ tl.tstat.getLsbD 5 = false ∧ (tl.ctx c).dead = false then
    s.modCtx t c fun k =>
      if c = 0 then { k with under := .ready, served := false }
      else { (if k.state = .held ∧ !tl.recorded c then k.resume (tl.stopDue c) else k) with served := false }
  else if act = 0 ∨ act = 1 ∨ c = 0 then s.kill t c (killStatus (bits tl.tcause 0 8))
  else s.modCtx t c fun k => { k with served := false }

/-- The monitor ends: context 0 goes back to its task, or a waiting task starts on it in place of its becoming FREE, or it is FREE
(R143, R300). A task with damaged registers stays HELD (R311). -/
def State.leaveMonitor (s : State) (t : TileNo) : State :=
  let s := s.modTile t fun tl => { tl with monitor := false }
  let k := s.ctx t 0
  let st : CtxState := if k.under = .ending && k.quiet then .free else if k.under = .held && !k.dead then .ready else k.under
  let stopped := k.under = .ready && (s.tile t).stopDue 0
  let s := s.modCtx t 0 fun k =>
    { k with sup := false, under := .free, state := if stopped then .stopped else st
             endStatus := if k.under = .ending && st = .free then k.killStatus else k.endStatus }
  if st = .free then
    match (s.tile t).waitStart.bind fun m => (((s.tile t).residentId m.launch).filter (!·.ended)).map fun r => (m, r) with
    | some (m, r) => (s.startTask m r).modTile t fun tl => { tl with waitStart := none }
    | none => s.freed t 0
  else s

/-- TRET (R300): it closes the current record; a pending record is taken at once. -/
def execTret (s : State) : Res :=
  .next <| s.supervisor .tret fun s =>
    let t := s.cur.1
    let s := s.done 4 s.me
    let s := s.closeRecord
    match (s.tile t).recs with
    | r :: rest => (s.modTile t fun tl => { tl with recs := rest }).takeRecord t r
    | [] => s.leaveMonitor t

/-- A pending record is taken when the monitor may be entered (R294, R295). -/
def execTrapEntry (t : TileNo) (s : State) : Res :=
  .next <| let tl := s.tile t
  if !tl.mayEnter || tl.quarantined then s
  else match tl.recs with
    | r :: rest => (s.modTile t fun tl => { tl with recs := rest }).takeRecord t r
    | [] => s

/-! ### Fences (R45, R182, R346 to R348) -/

/-- The classes of a FENCE set I, O, R, W: R and I are l, W and O are s (R182). -/
def fenceClasses (x : BitVec 4) : BitVec 4 :=
  (if x.getLsbD 3 || x.getLsbD 1 then 1 else 0) ||| (if x.getLsbD 2 || x.getLsbD 0 then 2 else 0)

def execFencex (sc : Scope) (pred succ : BitVec 4) (s : State) : Res := .next (s.fenceMe sc pred succ)
def execFence (pred succ : BitVec 4) (s : State) : Res := .next (s.fenceMe .package (fenceClasses pred) (fenceClasses succ))
def execFenceTso (s : State) : Res := .next (s.fenceMe .package 3 3)
/-- PAUSE has no effect beyond its 4 cycles (R346). -/
def execPause (s : State) : Res := .next (s.done 4 s.me)

/-- A range lies, in any byte, in the I-store of a tile. -/
def inIstore (t : TileNo) (r : Nat × Nat) : Bool :=
  rangesMeet r (0xFFFFF00000000000 + t.toNat * 2 ^ 24 + 0x100000, 0x10000)

/-- Stores and cards of a context that reach its tile's I-store are outstanding (R347). -/
def State.istoreBusy (s : State) (t : TileNo) (c : CtxNo) : Bool :=
  let tl := s.tile t
  ((tl.ctx c).reqs.any fun q => q.kind.rights.2 && q.pending.any fun e => inIstore t (e.range t))
  || tl.cards.any fun k => k.ctx == c && (k.reads ++ k.writes).any (inIstore t)

/-- FENCE.I: once the context's own stores and cards that reach the I-store are done, every later fetch on the tile
returns their bytes and those of the stores performed before (R127, R347). Until then it occupies its context: the monitor is not
entered there, and no late cause is delivered (R294, R302). DESIGN CHOICE (log 3):
so it is also with stores of other contexts, other tiles and cards, which a fetch may or may not return by R127. -/
def execFenceI (s : State) : Res :=
  .next <| let (t, c) := s.cur
  if s.istoreBusy t c then s.modMe fun k => { k with held := true, fencing := true }
  else
    let s := s.modTile t fun tl => { tl with ctxs := tl.ctxs.map fun p => (p.1, { p.2 with stale := [] }) }
    s.done 4 s.me

end Sys2Proof.Machine
end

