-- ==== Sys2Proof/Machine/Channel.lean ====
section
/-! DEFINITION. Channel deliveries, register-window writes, CWAIT, and the steps that wake a parked context or trap
it (R109 to R121, R283, R306, R312, R313, R343, R352, R353, R417). -/

namespace Sys2Proof.Machine

/-! ### Writing to a context buffer (R306, R307) -/

/-- The network interface of a tile as a writer of spills. -/
def spiller (t : TileNo) (q : Tag) : Writer := ⟨t, 0, q, false, .spill⟩

/-- The places of some words and the values for them, once every word is reached. -/
def State.wordPlaces (s : State) (t : TileNo) (q : Tag) : List (Word × Word) → State × Option (List (Place × Bool × Word))
  | [] => (s, some [])
  | (a, v) :: r =>
    match s.reach t q false true a with
    | .place p hv _ =>
      match s.wordPlaces t q r with
      | (s, some ps) => (s, some ((p, hv, v) :: ps))
      | (s, none) => (s, none)
    | .miss => (s.openWalk t q a, none)
    | _ => (s, none)

/-- Store aligned words for a tile's network interface through the translations of a launch: done only when every
word is reached; a write joins the FIFO of a word where something waits, and all of them have room there (R171, R173). DESIGN CHOICE
(log 68): it is done then for R313 too, before the FIFO has applied it. -/
def State.storeWords (s : State) (t : TileNo) (q : Tag) (ws : List (Word × Word)) : State × Bool :=
  match s.wordPlaces t q ws with
  | (s, some ps) =>
    if s.fits (ps.map (·.1.word8)) then
      (ps.foldl (fun s p => s.post1 (spiller t q) p.1 p.2.1 (leBytes 8 p.2.2.toNat)) s, true)
    else (s, false)
  | (s, none) => (s, false)

/-- The launch whose save uses the context buffer of a tile: the one that the last STOP write stopped, while it is stopped, else that
of the lowest stopped context. DESIGN CHOICE (log 19). -/
def Tile.savingLaunch (tl : Tile) : Option Resident :=
  (tl.residents.find? fun r => !r.ended && tl.saving == some r.id && tl.stop.getLsbD r.root.toNat).orElse fun _ =>
    (allCtxs.find? fun c => tl.stop.getLsbD c.toNat).bind tl.residentOf

/-- The queue whose translations reach a tile's context buffer: that of the launch whose save uses it. -/
def State.bufTag (s : State) (t : TileNo) : Tag :=
  match (s.tile t).savingLaunch with
  | some r => r.tag
  | none => s.tag t 0

/-- The spill counts of the header of PBUF (R307). -/
def Tile.spillCounts (tl : Tile) (d sh : Nat) : List (Word × Word) :=
  [(tl.pbuf + 8, BitVec.ofNat 64 d), (tl.pbuf + 16, BitVec.ofNat 64 sh)]

/-- Deliveries for a context are spilled: from the stop until a PRES write (R306, R308). -/
def Tile.spills (tl : Tile) (c : CtxNo) : Bool := tl.stopDue c && !tl.restoring.getLsbD c.toNat

/-- A delivery for a stopped context goes to the delivery spill of PBUF (R306, R307). DESIGN CHOICE (log 68): one whose words no
translation reaches, or none may write, waits and raises no cause. -/
def State.spill (s : State) (t : TileNo) (c : CtxNo) (r : BitVec 5) (v : Word) : State × Bool :=
  let tl := s.tile t
  if 256 ≤ tl.dspill then (s, false)
  else
    let a := tl.pbuf + BitVec.ofNat 64 (0x28000 + 16 * tl.dspill)
    let ws := [(a, v), (a + 8, BitVec.ofNat 64 (c.toNat + 16 * (r.toNat - 24)))] ++ tl.spillCounts (tl.dspill + 1) tl.sspill
    match s.storeWords t (s.bufTag t) ws with
    | (s, true) => (s.modTile t fun tl => { tl with dspill := tl.dspill + 1 }, true)
    | (s, false) => (s, false)

/-! ### Deliveries (R111, R112, R116 to R121, R312) -/

/-- A synchronised register can take a value: empty and not reserved (R119). -/
def Ctx.canLand (k : Ctx) (r : BitVec 5) : Bool := !k.isFull r && !k.reservedX r

/-- A value is written and the full bit set. -/
def Ctx.landX (k : Ctx) (r : BitVec 5) (v : Word) : Ctx := (k.putX r v).setFull r true

/-- The inbox holds an entry that is to be spilled, before anything that came later (R306). -/
def Tile.spillsInbox (t : Tile) : Bool := t.inbox.any fun f => t.spills f.ctx

/-- Whether an inbox entry targets a register. -/
def Tile.inboxHas (t : Tile) (c : CtxNo) (r : BitVec 5) : Bool := t.inbox.any fun e => e.ctx == c && e.reg == r

/-- A GIVE whose value is on its way to a synchronised register has an inbox entry reserved. -/
def Req.givesTo (q : Req) (tl : Tile) : Bool :=
  match q.kind, q.phase with
  | .delivery _ c r true, .issued => (tl.ctx c).isSync r
  | _, _ => false

/-- The inbox entries in use, those that GIVEs have reserved among them (R120). -/
def Tile.inboxUsed (t : Tile) : Nat := t.inbox.length + ((t.ctxs.flatMap fun p => p.2.reqs.filter (·.givesTo t))).length

/-- Whether a GIVE to a register finds the inbox full: never for a plain one (R117, R120, R353). -/
def Tile.inboxFull (t : Tile) (c : CtxNo) (r : BitVec 5) : Bool :=
  (t.ctx c).isSync r && (t.landing != [] || decide (16 ≤ t.inboxUsed))

/-- GIVE (R117, R352, R353). Its delivery has an inbox entry from its issue on; behind an earlier access to the register that
is not performed it occupies its context until that is (R121; log 46). -/
def execGive (xs1 xs2 : BitVec 5) (s : State) : Res :=
  .next <| s.gated (Uses.x [xs1, xs2] []) fun s =>
    let (t, c) := s.cur
    let w := s.me.getX xs1
    let v := s.me.getX xs2
    let target := w.extractLsb' 0 4
    let reg : BitVec 5 := 0b11#2 ++ w.extractLsb' 4 3
    let mine := match s.launchOf t c with | some r => s.ctxOfLaunch t target r.id | none => false
    if !mine then s.trap 0x04 w
    else
      match s.me.capacity false true false false false with
      | some r => s.parkMe r
      | none =>
        if s.here.inboxFull target reg then s.parkMe (.inbox target reg)
        else
          let a := BitVec.ofNat 64 (0xFFFFF00000000000 + t.toNat * 2 ^ 24 + 0x120000 + 0x1000 * target.toNat + 8 * reg.toNat)
          let k := s.me.consume [xs1, xs2]
          let q := k.mkReq (.delivery t target reg true) 8 v .none [Elem.one a 8 (leBytes 8 v.toNat)] false
          if !s.mayPerform t c q q.elems then s.holdMe else s.done 4 (k.send q)

/-- What becomes of a value that reaches its tile. -/
inductive Landing where
  | landed | queued | refused

/-- A value lands at once, overwrites a plain register, or takes an inbox entry where there is `room`; one that was decided synchronised
before stays so (R112, R119, R312). DESIGN
CHOICE (log 54): a delivery that finds its register plain lands at once (R112) also where an earlier one of the same issuer still
waits for that register in the inbox (R119), which SYNC has left meanwhile; R121 would let the earlier one land first. -/
def State.landOrQueue (s : State) (e : InboxEntry) (o : TileNo) (room : Bool) : State × Landing :=
  let tl := s.tile o
  let k := tl.ctx e.ctx
  if !(e.decided || k.isSync e.reg) || (k.canLand e.reg && !tl.inboxHas e.ctx e.reg) then
    (s.modCtx o e.ctx fun k => k.landX e.reg e.value, .landed)
  else if room then (s.setTile o { tl with inbox := tl.inbox ++ [{ e with decided := true }] }, .queued)
  else (s, .refused)

/-- A value reaches its tile: it lands, is queued, is spilled, or waits outside: behind what a PRES still lands, behind older
inbox entries that are to be spilled, and, but for a GIVE, while every inbox entry is in use (R119 to R121, R306, R308). -/
def State.deliver (s : State) (e : InboxEntry) (o : TileNo) (give : Bool) : State × Landing :=
  let tl := s.tile o
  if tl.landing ≠ [] then (s, .refused)
  else if tl.spills e.ctx then
    if tl.spillsInbox then (s, .refused)
    else match s.spill o e.ctx e.reg e.value with
      | (s, true) => (s, .landed)
      | (s, false) => (s, .refused)
  else if !give && decide (16 ≤ tl.inboxUsed) then (s, .refused)
  else s.landOrQueue e o (decide (tl.inbox.length < 16))

/-- The store or GIVE of an entry that has landed or is spilled is performed (R119, R306). -/
def State.arrived (s : State) (e : InboxEntry) : State :=
  match e.seq with | some q => s.modCtx e.fromTile e.fromCtx fun k => k.dropReq q | none => s

/-- The spilled deliveries that a PRES lands, in spill order, and what the inbox held behind them, as far as there is room (R308). One for
a stopped context is spilled again, behind the older entries of the inbox that are to be (R306). -/
def State.refill (s : State) (t : TileNo) : Nat → State
  | 0 => s
  | n + 1 =>
    match (s.tile t).landing with
    | [] => s
    | e :: rest =>
      if (s.tile t).spills e.ctx then
        if (s.tile t).spillsInbox then s
        else match s.spill t e.ctx e.reg e.value with
        | (s, true) => ((s.modTile t fun tl => { tl with landing := rest }).arrived e).refill t n
        | (s, false) => s
      else
        match s.landOrQueue e t (decide ((s.tile t).inboxUsed < 16)) with
        | (_, .refused) => s
        | (s, .landed) => ((s.modTile t fun tl => { tl with landing := rest }).arrived e).refill t n
        | (s, .queued) => (s.modTile t fun tl => { tl with landing := rest }).refill t n

/-- A store's or a GIVE's value reaches its tile. -/
def execDelivery (t : TileNo) (c : CtxNo) (n : Nat) (s : State) : Res :=
  .next <| match s.req t c n with
  | none => s
  | some q =>
    match q.kind, q.phase with
    | .delivery o c' r give, .issued =>
      if !s.mayPerform t c q q.elems then s
      else
        match s.deliver ⟨c', r, q.data, t, c, some q.seq, none, false⟩ o give with
        | (s, .landed) => s.endReq t c q id
        | (s, .queued) => s.modReq t c q.seq fun q => { q with phase := .queued }
        | (s, .refused) => s
    | _, _ => s

/-- An inbox entry lands when its register is empty and not reserved, in arrival order for one register; the entries of
stopped contexts are spilled in arrival order (R119, R306). Without an entry, what a PRES still lands is tried again (R308). -/
def execInboxLand (t : TileNo) (n : Nat) (s : State) : Res :=
  .next <| match (s.tile t).inbox[n]? with
  | none => s.refill t (s.tile t).landing.length
  | some e =>
    let tl := s.tile t
    if (tl.inbox.take n).any fun f => (f.ctx == e.ctx && f.reg == e.reg) || (tl.spills e.ctx && tl.spills f.ctx) then s
    else
      let gone (s : State) : State :=
        ((s.modTile t fun tl => { tl with inbox := tl.inbox.eraseIdx n }).arrived e).refill t tl.landing.length
      if tl.spills e.ctx then
        match s.spill t e.ctx e.reg e.value with
        | (s, true) => gone s
        | (s, false) => s
      else if (tl.ctx e.ctx).canLand e.reg then gone (s.modCtx t e.ctx fun k => k.landX e.reg e.value)
      else s

/-! ### Register windows (R118, R300, R308) -/

/-- What the monitor on context 0 has outstanding itself: its ld, st, cp and mx. -/
def Tile.monitorCounts (tl : Tile) (c : CtxNo) : Nat × Nat × Nat × Nat :=
  let own := (tl.ctx c).reqs.filter (·.sup)
  let cards := tl.cards.filter fun d => d.sup && d.ctx == c
  ((own.filter (·.kind.isLd)).length, (own.filter (·.kind.isSt)).length, cards.length,
    (cards.filter (·.kind == .xcopym)).length + (tl.mats.filter fun m => m.sup && m.ctx == c && m.job.isNone).length)

/-- Write the aligned 8-byte word of a context's window. The counters are written only for a resume, by the monitor, while
the context is stopped (R118, R308): they are then those of the image and, on context 0, what the monitor has outstanding itself,
`own`. `macc` is the monitor's (`sup`) to write (R199). The state field is never written here (R300). -/
def Ctx.windowWrite (k : Ctx) (sup : Bool) (o : Nat) (v : Word) (own : Option (Nat × Nat × Nat × Nat)) : Ctx :=
  if o < 0x100 then k.putX (BitVec.ofNat 5 (o / 8)) v
  else if o < 0x500 then
    let r := BitVec.ofNat 4 ((o - 0x100) / 64)
    let i := (o - 0x100) / 8 % 8
    k.setV r ((k.getV r &&& ~~~(BitVec.ofNat 512 ((2 ^ 64 - 1) * 2 ^ (64 * i)))) ||| BitVec.ofNat 512 (v.toNat * 2 ^ (64 * i)))
  else if o < 0x540 then k.setK (BitVec.ofNat 3 ((o - 0x500) / 8)) v
  else match (o - 0x540) / 8 with
    | 0 => { k with qmode := v.extractLsb' 0 8 }
    | 1 => { k with full := v.extractLsb' 0 8 }
    | 2 => match own with
      | some (l, s, c, m) => { k with ld := bits v 0 8 + l, st := bits v 8 8 + s, cp := bits v 16 8 + c, mx := bits v 24 8 + m }
      | none => k
    | 3 => { k with pc := v }
    | 24 => { k with frnd := v.extractLsb' 0 4 &&& 0b1011 }
    | 25 => { k with fstat := v.extractLsb' 0 12 &&& 0xF1F }
    | 26 => { k with livemask := v.extractLsb' 0 24 &&& 0xFFFFFE }
    | 27 => { k with pstat := v.extractLsb' 0 16 &&& 0x0707 }
    | 28 => let l := bits v 0 6; if 10 ≤ l ∧ l ≤ 40 then { k with pwatch := l } else k
    | 29 => if sup then { k with macc := v.extractLsb' 0 4 } else k
    | _ => k

/-- Write the aligned word at an offset of a tile's register windows, for the monitor (`sup`) or a task. -/
def State.windowPut (s : State) (sup : Bool) (o : TileNo) (off : Nat) (v : Word) : State :=
  let c := BitVec.ofNat 4 (off / 0x1000)
  let own := if s.restores sup o c then some ((s.tile o).monitorCounts c) else none
  s.modCtx o c fun k => k.windowWrite sup (off % 0x1000) v own

/-- The window offset of a request that writes a register window. -/
def Req.windowOff (q : Req) : Nat :=
  match q.elems with
  | e :: _ => e.addr.toNat % 2 ^ 24 - 0x120000
  | [] => 0

/-- A supervisor write of 1 to the state field of a HELD context (R300), no record of which waits: that one stays HELD until it is
taken and closed (R295). -/
def State.resumes (s : State) (o : TileNo) (q : Req) : Bool :=
  q.windowOff % 0x1000 == 0x560 && q.sup && q.data.extractLsb' 0 3 == 1
    && (s.ctx o (BitVec.ofNat 4 (q.windowOff / 0x1000))).state == .held
    && !(s.tile o).recorded (BitVec.ofNat 4 (q.windowOff / 0x1000))

/-- A write to a register window that is not a delivery takes effect between two instructions of its target (R118). -/
def execRegisterWindowWrite (t : TileNo) (c : CtxNo) (n : Nat) (s : State) : Res :=
  .next <| match s.req t c n with
  | none => s
  | some q =>
    match q.kind, q.phase with
    | .window o, .issued =>
      if !s.mayPerform t c q q.elems || s.resumes o q then s
      else
        (s.windowPut q.sup o q.windowOff q.data).endReq t c q id
    | _, _ => s

/-- The monitor resumes a context it left HELD, or holds for the record it serves, whose TRET still acts on it (R300). -/
def execHeldResume (t : TileNo) (c : CtxNo) (n : Nat) (s : State) : Res :=
  .next <| match s.req t c n with
  | none => s
  | some q =>
    match q.kind, q.phase with
    | .window o, .issued =>
      if !s.mayPerform t c q q.elems || !s.resumes o q then s
      else
        let c' := BitVec.ofNat 4 (q.windowOff / 0x1000)
        (s.modCtx o c' fun k => k.resume ((s.tile o).stopDue c')).endReq t c q id
    | _, _ => s

/-! ### CWAIT (R283, R343) -/

/-- The pseudo access with which CWAIT reads its word, for the orders of R179. -/
def Ctx.cwaitRead (k : Ctx) (a : Word) : Req := k.mkReq (.load false) 8 0 .none [Elem.one a 8 []] false

/-- Register a watch at the home of a word, when a record is free (R283). -/
def State.watch (s : State) (t : TileNo) (c : CtxNo) (w : Place) : State :=
  let h := s.home w
  if h.watches.contains (t, c) || w.watchDepth ≤ s.atUnit w (·.watches.length) then s
  else s.setHome { h with watches := h.watches ++ [(t, c)] }

/-- Whether the word has a home (R168, R343). -/
def hasHome (p : Part) (t : TileNo) (a : Word) : Bool :=
  match target p t a with
  | .mem => true
  | .chip o off _ => match placeOf o off with | some (.ls _ _) => true | _ => false
  | .bad => false

/-- The word has reached the threshold, and no card that wrote it holds the wait (R184, R343; log 47): a threshold of 0 is met
whatever the word. -/
def State.cwaitMet (s : State) (p : Place) (lim : Word) : Bool :=
  decide (lim.toNat ≤ (leWord (s.readPlaces p 8)).toNat) && (lim == 0 || !s.cardHolds p.word8)

/-- CWAIT (R283, R343): it occupies its context while an earlier access holds its read or a walk is made for it, ends at once
where the word meets the threshold, and parks else. A threshold of 0, which every word meets, never parks, also where the read
would be refused. -/
def execCwait (xs1 xs2 : BitVec 5) (s : State) : Res :=
  .next <| s.gated (Uses.x [xs1, xs2] []) fun s =>
    let (t, c) := s.cur
    let a := s.me.getX xs1
    let lim := s.me.getX xs2
    if a.toNat % 8 ≠ 0 then s.trap 0x03 a
    else if !s.checkAccess t c false .scalar 8 a || !hasHome s.part t a then s.trap 0x04 a
    else
      let fin (s : State) : State := s.done 4 (s.me.consume [xs1, xs2])
      if s.me.woken then fin s
      else if !s.mayPerform t c (s.me.cwaitRead a) [Elem.one a 8 []] then s.holdMe
      else
        let wait (s : State) : State := if lim = 0 then fin s else s.parkMe (.cwait a lim)
        match s.reach t (s.tag t c) true false a with
        | .place p hv _ =>
          let s := s.touchPlace p hv
          if lim = 0 || (!s.poisoned p && s.cwaitMet p lim) then fin s else (s.watch t c p).parkMe (.cwait a lim)
        | .miss => if (s.walk (s.tag t c) a).isSome then (s.openWalk t (s.tag t c) a).holdMe else wait s
        | _ => wait s

/-- A parked CWAIT reads its word again; a refusal of the read is raised on it (R283). -/
def execCwaitPoll (t : TileNo) (c : CtxNo) (s : State) : Res :=
  .next <| let k := s.ctx t c
  match k.park with
  | some ⟨.cwait a lim, _⟩ =>
    let refuse (cause : BitVec 8) : State :=
      (s.walkFault t (s.tag t c) a).trapCtx t c cause a k.pcNow 0 (tstatBits true false true false false)
    if k.woken || k.amoHeld || !s.mayPerform t c (k.cwaitRead a) [Elem.one a 8 []] then s
    else
      match s.reach t (s.tag t c) true false a with
      | .place p hv _ =>
        if s.poisoned p then ((s.touchPlace p hv).uncorrected t).trapCtx t c 0x10 a k.pcNow 0 (tstatBits true false true false false)
        else
          let s := s.touchPlace p hv
          if s.cwaitMet p lim then s.modCtx t c fun k => { k with woken := true } else s.watch t c p
      | .miss => if (s.walk (s.tag t c) a).isNone then refuse 0x05 else s.openWalk t (s.tag t c) a
      | .denied => refuse 0x06
      | .bad => s
  | _ => s

/-! ### Waking (R108, R109) -/

/-- Whether the condition of a park holds (R108). -/
def State.wakes (s : State) (t : TileNo) (c : CtxNo) (r : Reason) : Bool :=
  let tl := s.tile t
  let k := tl.ctx c
  match r with
  | .sources m => (maskRegs m).all fun x => !(k.isSync x && (!k.isFull x || k.reservedX x))
  | .dests m => (maskRegs m).all fun x => !(k.isSync x && (k.isFull x || k.reservedX x))
  | .capacity ld st cp mx log => k.hasRoom ld st cp mx log
  | .waitc ld st cp mx => k.meets ld st cp mx
  | .inbox c' x => !tl.inboxFull c' x
  | .drained => k.quiet
  | .ldst => k.ld == 0 && k.st == 0
  | .st => k.st == 0
  | .reap c' => (tl.ctx c').isFree
  | .barrier g => match tl.residentOf c with
    | some l => (Assoc.get noBarrier l.group tl.barriers).gen != g
    | none => true
  | .cwait _ _ => k.woken
  | .queue | .hop => false
  | .wrs _ => !(s.homes.any fun h => h.watchers.contains (t, c))
  | .accept j => match k.job j with | some r => r.done || r.promise.isSome | none => true
  | .promise j _ => match k.job j with | some r => r.done | none => true
  | .sleep x => decide (x.toNat ≤ s.time)
  | .neighbours => tl.slack || (match s.pickLaunch t c with | some l => (s.lagging t l tl.pick).isNone | none => true)
  | .hold => !(tl.phold.getLsbD 63 && bits tl.phold 0 60 == tl.pick)
  | .fence sc pred => s.fenceClear t c sc pred

/-- Whether the condition, once it held, is not tested again. -/
def Reason.latches : Reason → Bool
  | .cwait .. | .wrs _ | .sleep _ => true
  | _ => false

/-- A parked context becomes READY (R109). A WAITC ends with its park and then occupies the context for its 4 cycles (R100, R415), so
that the instruction after it issues next (R105). DESIGN CHOICE (log 61): any other instruction is issued again in the context's next
slot, where it completes and occupies the context for its `n` cycles. -/
def execParkWake (t : TileNo) (c : CtxNo) (s : State) : Res :=
  .next <| let k := s.ctx t c
  match k.state, k.park with
  | .parked, some p =>
    if s.wakes t c p.reason then
      match p.reason with
      | .waitc .. => s.modCtx t c fun k => k.retire s.time 4
      | r => (s.unwatch t c).modCtx t c fun k => { k with state := .ready, park := none, woken := r.latches }
    else s
  | _, _ => s

/-- Rows of R108 under the park watchdog. -/
def Reason.watched : Reason → Bool
  | .sources _ | .dests _ | .inbox _ _ | .reap _ | .cwait _ _ | .queue | .wrs false => true
  | _ => false

/-- A context parked for 2^PWLOG cycles in a watched row raises cause 0x0A without effect; a waiting QPUTW post is
withdrawn first, and one already made completes instead (R109, R145, R417). -/
def execParkWatchdog (t : TileNo) (c : CtxNo) (s : State) : Res :=
  .next <| let k := s.ctx t c
  match k.state, k.park with
  | .parked, some p =>
    if p.reason.watched && decide (p.since + 2 ^ (s.tile t).pwlog ≤ s.time) && k.posted.isNone && !k.amoHeld then
      s.trapCtx t c 0x0A 0 k.pcNow 0 (tstatBits true false true false false)
    else s
  | _, _ => s

/-- A WRS.STO park ends after 512 cycles (R417). -/
def execWrsStoTimeout (t : TileNo) (c : CtxNo) (s : State) : Res :=
  .next <| match (s.ctx t c).park with
  | some ⟨.wrs true, since⟩ =>
    if since + 512 ≤ s.time then
      (s.unwatch t c).modCtx t c fun k => { k with state := .ready, park := none, woken := true }
    else s
  | _ => s

end Sys2Proof.Machine
end

