-- ==== Sys2Proof/Machine/Desc.lean ====
section
/-! DEFINITION. TID entries, descriptor pairs, footprints and the checks at issue that cards and matrix operations
share, and reading operand bytes as an engine or the matrix unit does (R153, R155, R194 to R198, R206, R212). -/

namespace Sys2Proof.Machine

/-! ### TID entries (R194, R196) -/

def Tid.zero : Tid := ⟨0, 0, 0, 0⟩
def Tile.tid (t : Tile) (n : Nat) : Tid := Assoc.get Tid.zero n t.tids
def Tid.word (e : Tid) (i : Nat) : Word := match i with | 0 => e.w0 | 1 => e.w1 | 2 => e.w2 | _ => e.w3
def Tid.ofBytes (bs : List Byte) : Tid :=
  ⟨leWord (bs.take 8), leWord ((bs.drop 8).take 8), leWord ((bs.drop 16).take 8), leWord ((bs.drop 24).take 8)⟩

def Tid.fmt (e : Tid) : Option Fmt := Fmt.ofNat (bits e.w0 0 4)
def Tid.mode (e : Tid) : Rm := Rm.ofBits (e.w0.extractLsb' 5 2)
def Tid.np (e : Tid) : Bool := e.w0.getLsbD 7
def Tid.scale (e : Tid) : Int := (e.w0.extractLsb' 16 16).toInt
def Tid.depth (e : Tid) : Nat := bits e.w0 32 16
def Tid.rows (e : Tid) : Nat := bits e.w1 0 32
def Tid.cols (e : Tid) : Nat := bits e.w1 32 32

/-- What every use of an entry requires, else status 0x11 (R194). DESIGN CHOICE (log 66): ROWTAB of another format than WEFT8 may hold
any address. -/
def Tid.valid (e : Tid) : Bool :=
  e.w0.getLsbD 8 && e.fmt.isSome && e.depth != 0 && e.rows != 0 && e.cols != 0 && e.w3 == 0 && bits e.w2 48 16 == 0
    && bits e.w0 48 16 == 0 && bits e.w0 9 7 == 0 && !e.w0.getLsbD 4

/-- The format, for an entry that is valid. -/
def Tid.format (e : Tid) : Fmt := e.fmt.getD .acc80

/-- Whether a context may name an entry: its launch's range; the monitor may name all (R196, R390). -/
def State.tidAllowed (s : State) (t : TileNo) (c : CtxNo) (n : Nat) : Bool :=
  (s.ctx t c).sup || (match (s.tile t).residentOf c with
    | some r => decide (r.tidFirst ≤ n) && decide (n < r.tidFirst + r.tidCnt)
    | none => false)

/-- The first address of LS words from offset `off` that hold an uncorrectable error, for an instruction that reads the
LS at issue (R311). -/
def State.lsError (s : State) (a : Word) (n : Nat) : Option Word :=
  let off := a.toNat - 0xFFFFFFFFFF000000
  ((List.range ((n + 7) / 8)).find? fun i => s.poisoned (.ls s.cur.1 (off + 8 * i))).map fun i => a + BitVec.ofNat 64 (8 * i)

/-- Read `n` bytes of the LS at issue. TIDSET, TTSET, QPUT and QPUTW raise no late cause (R383, R390, R400): an uncorrectable
error in the bytes is counted, and they are used as they stand (log 23). -/
def State.withLs (s : State) (a : Word) (n : Nat) (eff : State → List Byte → State) : State :=
  eff (if (s.lsError a n).isSome then s.uncorrected s.cur.1 else s)
    (Memory.readBytes s.here.ls (a.toNat - 0xFFFFFFFFFF000000) n)

def execTidset (xs1 xs2 : BitVec 5) (s : State) : Res :=
  .next <| s.gated (Uses.x [xs1, xs2] []) fun s =>
    let n := bits (s.me.getX xs1) 0 8
    let a := s.me.getX xs2
    if !s.tidAllowed s.cur.1 s.cur.2 n then s.trap 0x04 (BitVec.ofNat 64 n)
    else if a.toNat % 32 ≠ 0 then s.trap 0x03 a
    else if !isLsAddr a then s.trap 0x04 a
    else s.withLs a 32 fun s bs =>
      let s := s.done 4 (s.me.consume [xs1, xs2])
      s.modHere fun t => { t with
        tids := Assoc.set Tid.zero n (Tid.ofBytes bs) t.tids, badTids := t.badTids.filter (· != n) }

def execTidget (xd xs1 xs2 : BitVec 5) (s : State) : Res :=
  .next <| s.gated (Uses.x [xs1, xs2] [xd]) fun s =>
    let n := bits (s.me.getX xs1) 0 8
    if !s.tidAllowed s.cur.1 s.cur.2 n then s.trap 0x04 (BitVec.ofNat 64 n)
    else
      let v := (s.here.tid n).word (bits (s.me.getX xs2) 0 2)
      s.done 4 ((s.me.consume [xs1, xs2]).setX xd v)

/-! ### Descriptor pairs (R155, R195, R197) -/

/-- The operand that a pair of words names, its TID entry copied (R196). -/
def State.operand (s : State) (t : TileNo) (w0 w1 : Word) : Operand := ⟨w0, w1, (s.tile t).tid (bits w0 56 8)⟩

/-- The pair in x[r], x[r + 1] of the executing context. -/
def State.pair (s : State) (r : BitVec 5) : Operand := s.operand s.cur.1 (s.me.getX r) (s.me.getX (r + 1))

def Operand.none : Operand := ⟨0, 0, Tid.zero⟩
def Operand.addr (o : Operand) : Word := sext48 (bits o.w0 0 48)
def Operand.rot (o : Operand) : Nat := bits o.w1 40 4
def Operand.tilePitch (o : Operand) : Nat := bits o.w1 16 24
def Operand.rowPitch (o : Operand) : Nat := bits o.w1 0 16
def Operand.fmt (o : Operand) : Fmt := o.tid.format

/-- The extents of an operand: its own, or the source's for a copy's destination (R214). -/
structure Geo where
  rows : Nat
  cols : Nat
  depth : Nat
deriving DecidableEq, Repr

def Tid.geo (e : Tid) : Geo := ⟨e.rows, e.cols, e.depth⟩

/-- Bytes from one row to the next. -/
def Operand.rp (o : Operand) (g : Geo) : Nat := if o.rowPitch = 0 then g.cols * (Fmt.size o.fmt) else o.rowPitch

/-- The address of an operand with the self window written as the aperture of the tile that builds the card (R197). -/
def Operand.base (o : Operand) (t : TileNo) : Nat := normVa t o.addr

/-- LsOffset: the offset `a` of a byte of row `r`, moved by the bank rotation, within the 20 bits of an LS offset (R155). -/
def rotate (code r a : Nat) : Nat := a / 1024 % 1024 * 1024 + (a / 64 + r * code) % 16 * 64 + a % 64

/-- The address of byte `b` of row (t, r) of an operand (R197); a rotated one stays in the LS of its base (R155). -/
def Operand.byteAt (o : Operand) (tl : TileNo) (g : Geo) (t r b : Nat) : Nat :=
  let base := o.base tl
  let d := t * o.tilePitch + r * o.rp g + b
  if o.rot = 0 then (base + d) % 2 ^ 64 else base / 2 ^ 24 * 2 ^ 24 + rotate o.rot r (base % 2 ^ 24 + d)

/-- The bytes of WEFT8 blocks (R195). -/
def weftExtent (g : Geo) : Nat := g.rows * g.depth * ((54 * g.cols + 511) / 512 * 16)

def Tid.rowTab (e : Tid) (t : TileNo) : Nat := normVa t (sext48 (bits e.w2 0 48))

/-- The byte ranges of one tile of an operand. -/
def Operand.tileRanges (o : Operand) (tl : TileNo) (g : Geo) (t : Nat) : List (Nat × Nat) :=
  let ln := g.cols * Fmt.size o.fmt
  if o.rot ≠ 0 then
    (List.range g.rows).flatMap fun r => (List.range ((ln + 63) / 64)).map fun i =>
      (o.byteAt tl g t r (64 * i), min 64 (ln - 64 * i))
  else if o.rp g = ln then [(o.byteAt tl g t 0 0, g.rows * ln)]
  else (List.range g.rows).map fun r => (o.byteAt tl g t r 0, ln)

/-- The footprint of an operand (R195, R197, R206). -/
def Operand.footprint (o : Operand) (tl : TileNo) (g : Geo) : List (Nat × Nat) :=
  match o.fmt with
  | .weft8 => [(o.base tl, weftExtent g), (o.tid.rowTab tl, 4 * g.rows * g.depth)]
  | _ => (List.range g.depth).flatMap (o.tileRanges tl g)

/-- Whether a range lies in the LS of a tile. -/
def inLs (t : TileNo) (r : Nat × Nat) : Bool :=
  let b := 0xFFFFF00000000000 + t.toNat * 2 ^ 24
  decide (b ≤ r.1) && decide (r.1 + r.2 ≤ b + 0x100000)

/-- An address in the LS of a tile of the part. -/
def State.lsAddr (s : State) (t : TileNo) (a : Word) : Bool :=
  match target s.part t a with
  | .chip _ off _ => decide (off < 0x100000)
  | _ => false

/-- The checks of a descriptor and its TID entry: the status of the first that fails (R194, R195, R197, R198; log 14
gives their order). `matrix` adds R198, and `cols` R195's rule on COLS, which the destination of a copy is not held to (R214). DESIGN CHOICE (log 70): a non-zero TILEPITCH with DEPTH = 1 breaks no descriptor. -/
def State.descStatus (s : State) (t : TileNo) (c : CtxNo) (o : Operand) (g : Geo) (matrix : Bool) (cols : Bool := true) : Option Nat :=
  let n := bits o.w0 56 8
  let weft := o.fmt == .weft8
  let sz := Fmt.size o.fmt
  if bits o.w1 44 20 ≠ 0 ∨ bits o.w0 48 8 ≠ 0 then some 0x10
  else if (s.tile t).badTids.contains n then some 0x22
  else if !s.tidAllowed t c n || !o.tid.valid then some 0x11
  else if weft && (o.rowPitch != 0 || o.tilePitch != 0) then some 0x10
  else if o.rot ≠ 0 ∧ (o.base t % 1024 ≠ 0 ∨ o.rp g % 1024 ≠ 0 ∨ o.tilePitch % 1024 ≠ 0 ∨ !s.lsAddr t o.addr) then some 0x10
  else if weft && cols && g.cols % 32 != 0 then some 0x12
  else if !weft && o.rowPitch != 0 && decide (o.rowPitch < g.cols * sz) then some 0x12
  else if !weft && decide (1 < g.depth) && decide (o.tilePitch < g.rows * o.rp g) then some 0x12
  else if matrix && (!isLsAddr o.addr || o.tid.depth != 1 || (weft && !isLsAddr (sext48 (bits o.tid.w2 0 48)))
      || !(o.footprint t g).all (inLs t)) then some 0x10
  else none

/-- Run what follows when no check fails, else raise cause 0x0D with the first status. -/
def State.checked (s : State) (matrix : Option (BitVec 2)) (st : Option Nat) (eff : State → State) : State :=
  match st with
  | some x => s.trap 0x0D (jobVal matrix x 0)
  | none => eff s

/-! ### The on-chip bytes of a card (R116, R153) -/

/-- Where the rights of an address may change next: the ends of the translated ranges (R149), the end of an LS, else the next
64 bytes. -/
def nextCut (a : Nat) : Nat :=
  if a < 0x800000000000 then 0x800000000000
  else if a < 0xFFFF800000000000 then 0xFFFF800000000000
  else if a < 0xFFFFF00000000000 then 0xFFFFF00000000000
  else
    let off := a % 2 ^ 24
    if off < 0x100000 then a - off + 0x100000 else (a / 64 + 1) * 64

/-- The first address of a range, from `a` up to `e`, at which a predicate fails. -/
def firstBad (ok : Nat → Bool) (e : Nat) : Nat → Nat → Option Nat
  | 0, _ => none
  | fuel + 1, a => if e ≤ a then none else if !ok a then some a else firstBad ok e fuel (nextCut a)

def lowestBad (ok : Nat → Bool) (rs : List (Nat × Nat)) : Option Nat :=
  (rs.filterMap fun r => firstBad ok (r.1 + r.2) (r.2 / 64 + 5) r.1).foldl
    (fun m a => match m with | some b => some (min a b) | none => some a) none

/-- The lowest byte of a card's footprints that R149 to R151 refuse (R153). -/
def State.cardRefusal (s : State) (t : TileNo) (c : CtxNo) (reads writes : List (Nat × Nat)) : Option Word :=
  let ok (w : Bool) (a : Nat) : Bool := decide (a < 2 ^ 64) && s.checkAccess t c w .card 1 (BitVec.ofNat 64 a)
  match lowestBad (ok false) reads, lowestBad (ok true) writes with
  | some a, some b => some (BitVec.ofNat 64 (min a b))
  | some a, none | none, some a => some (BitVec.ofNat 64 a)
  | none, none => none

/-- Whether a card would deliver to a context of another launch (R116); what the monitor restores is no delivery (R308). -/
def State.foreignDelivery (s : State) (t : TileNo) (c : CtxNo) (writes : List (Nat × Nat)) : Bool :=
  let ok (a : Nat) : Bool :=
    match target s.part t (BitVec.ofNat 64 a) with
    | .chip o off _ =>
      if 0x120000 ≤ off ∧ off < 0x130000 then
        match channelOffset ((off - 0x120000) / 8 * 8) with
        | some (c', _) =>
          s.restores (s.ctx t c).sup o c' || (match s.launchOf t c with | some r => s.ctxOfLaunch o c' r.id | none => false)
        | none => true
      else true
    | _ => true
  (lowestBad ok writes).isSome

/-! ### Reading as an engine or the matrix unit does -/

/-- What reading or writing bytes answers. -/
inductive Got (α : Type) where
  | ok (v : α)
  /-- nothing yet: a translation is missing, or an earlier entry waits at the word's home -/
  | wait
  /-- a refusal with its status and address: the card stops (R211) -/
  | stop (status : Nat) (addr : Word)
  /-- an error with its status (R211) -/
  | fail (status : Nat)

/-- One byte read by tile `t` under queue tag `q`. -/
def State.readByte (s : State) (t : TileNo) (q : Tag) (a : Nat) : State × Got Byte :=
  let va := BitVec.ofNat 64 a
  match s.reach t q true false va with
  | .place p hv _ =>
    let u := s.touchPlace p hv
    if s.poisoned p then (u, .fail 0x22) else (u, .ok (u.readPlace p))
  | .miss => if (s.walk q va).isNone then (s, .stop 0x20 va) else (s.openWalk t q va, .wait)
  | .denied => (s, .stop 0x21 va)
  | .bad => (s, .stop 0x20 va)

/-- `n` bytes from an address up, or what the first of them meets. -/
def State.readAt (s : State) (t : TileNo) (q : Tag) (a : Nat) : Nat → State × Got (List Byte)
  | 0 => (s, .ok [])
  | n + 1 =>
    match s.readByte t q a with
    | (s, .ok b) =>
      match s.readAt t q (a + 1) n with
      | (s, .ok bs) => (s, .ok (b :: bs))
      | r => r
    | (s, .wait) => (s, .wait)
    | (s, .stop x va) => (s, .stop x va)
    | (s, .fail x) => (s, .fail x)

/-- The bytes of an element, each at its own address when rows rotate (R155). -/
def State.readList (s : State) (t : TileNo) (q : Tag) : List Nat → State × Got (List Byte)
  | [] => (s, .ok [])
  | a :: r =>
    match s.readByte t q a with
    | (s, .ok b) =>
      match s.readList t q r with
      | (s, .ok bs) => (s, .ok (b :: bs))
      | x => x
    | (s, .wait) => (s, .wait)
    | (s, .stop x va) => (s, .stop x va)
    | (s, .fail x) => (s, .fail x)

/-- An element as read: its bits, or the exact value of a WEFT8 element without σ (R81). -/
inductive Raw where
  | bits (n : Nat)
  | weft (v : FVal)
deriving DecidableEq, Repr

/-- The blocks of a WEFT8 row from address `a`: status 0x12 past the extent, 0x14 malformed (R82, R195). -/
def State.weftRow (s : State) (t : TileNo) (q : Tag) (last : Nat) : Nat → Nat → State × Got (List FVal)
  | 0, _ => (s, .ok [])
  | n + 1, a =>
    if last < a + 18 then (s, .fail 0x12)
    else
      match s.readAt t q a 18 with
      | (s, .ok h) =>
        if last < a + 18 + weftLen h then (s, .fail 0x12)
        else
          match s.readAt t q (a + 18) (weftLen h) with
          | (s, .ok p) =>
            match s.weftRow t q last n (a + 18 + weftLen h) with
            | (s, .ok r) => match weftBlock (h ++ p) with | some vs => (s, .ok (vs ++ r)) | none => (s, .fail 0x14)
            | x => x
          | (s, .wait) => (s, .wait)
          | (s, .stop x va) => (s, .stop x va)
          | (s, .fail x) => (s, .fail x)
      | (s, .wait) => (s, .wait)
      | (s, .stop x va) => (s, .stop x va)
      | (s, .fail x) => (s, .fail x)

/-- Row (tt, r) of an operand. DESIGN CHOICE (log 48): the blocks of a WEFT8 operand are read as they lie, whatever its ROT; the
manual rotates the rows of the other formats and lays down no rotated layout for blocks. -/
def State.readRow (s : State) (t : TileNo) (q : Tag) (o : Operand) (g : Geo) (tt r : Nat) : State × Got (List Raw) :=
  match o.fmt with
  | .weft8 =>
    match s.readAt t q (o.tid.rowTab t + 4 * (tt * g.rows + r)) 4 with
    | (s, .ok e) =>
      match s.weftRow t q (o.base t + weftExtent g) (g.cols / 32) (o.base t + leNat e) with
      | (s, .ok vs) => (s, .ok (vs.map Raw.weft))
      | (s, .wait) => (s, .wait)
      | (s, .stop x va) => (s, .stop x va)
      | (s, .fail x) => (s, .fail x)
    | (s, .wait) => (s, .wait)
    | (s, .stop x va) => (s, .stop x va)
    | (s, .fail x) => (s, .fail x)
  | f =>
    let n := Fmt.size f
    match s.readList t q ((List.range (n * g.cols)).map (o.byteAt t g tt r)) with
    | (s, .ok bs) => (s, .ok ((List.range g.cols).map fun c => .bits (leNat ((bs.drop (c * n)).take n))))
    | (s, .wait) => (s, .wait)
    | (s, .stop x va) => (s, .stop x va)
    | (s, .fail x) => (s, .fail x)

/-- Element (tt, r, c) of an operand of tile `t`; a WEFT8 row is read whole (R195). -/
def State.readElement (s : State) (t : TileNo) (q : Tag) (o : Operand) (g : Geo) (tt r c : Nat) : State × Got Raw :=
  match o.fmt with
  | .weft8 =>
    match s.readRow t q o g tt r with
    | (s, .ok vs) => (s, .ok (vs.getD c (.bits 0)))
    | (s, .wait) => (s, .wait)
    | (s, .stop x va) => (s, .stop x va)
    | (s, .fail x) => (s, .fail x)
  | f =>
    match s.readList t q ((List.range (Fmt.size f)).map fun b => o.byteAt t g tt r (c * Fmt.size f + b)) with
    | (s, .ok bs) => (s, .ok (.bits (leNat bs)))
    | (s, .wait) => (s, .wait)
    | (s, .stop x va) => (s, .stop x va)
    | (s, .fail x) => (s, .fail x)

/-- The exact value of an element of a format, σ included (R81, R86). -/
def rawValue (f : Fmt) (sigma : Int) : Raw → FVal
  | .weft v => v.scale sigma
  | .bits n => match f with
    | .ty t => (elemValue t n).scale sigma
    | _ => Acc.value (BitVec.ofNat 80 n)

/-- An element converted for a destination entry: by R74 between vector types, R81 from WEFT8, R90 from ACC80, R203
into ACC80; none for an exponent out of range (R214). -/
def convertElement (src dst : Tid) (x : Raw) : Option (Nat × Flags) :=
  match src.format, dst.format, x with
  | .ty a, .ty b, .bits n => some (convert a b dst.mode dst.np n)
  | .acc80, .ty b, .bits n => some (accTo b dst.mode dst.np (BitVec.ofNat 80 n))
  | .acc80, _, .bits n => some (n, Flags.none)
  | f, .ty b, v => some (roundTo b dst.mode dst.np (rawValue f src.scale v))
  | f, _, v => (toAcc (Fmt.lambda f + src.scale) (rawValue f src.scale v)).map fun a => (a.toNat, Flags.none)

end Sys2Proof.Machine
end

