-- ==== Sys2Proof/Machine/EngineMem.lean ====
section
/-! DEFINITION. Writing operand bytes as an engine or the matrix unit does: plain words, register windows and
deliveries (R116, R118, R171, R211, R386, R419). -/

namespace Sys2Proof.Machine

/-- Bytes by address, cut into runs that lie in one aligned 8-byte word. -/
def runs : List (Nat × Byte) → List (Nat × List Byte)
  | [] => []
  | (a, b) :: r =>
    match runs r with
    | (x, bs) :: rest => if x = a + 1 ∧ x / 8 = a / 8 then (a, b :: bs) :: rest else (a, [b]) :: (x, bs) :: rest
    | [] => [(a, [b])]

/-- Whether a write footprint covers the whole aligned word of an address, so that its check bits are replaced (R386). -/
def coversWord (writes : List (Nat × Nat)) (a : Nat) : Bool :=
  (List.range 8).all fun i => writes.any fun r => decide (r.1 ≤ a / 8 * 8 + i) && decide (a / 8 * 8 + i < r.1 + r.2)

/-- The channel register at an address: its tile, context and register. In a window that the monitor (`sup`) restores the
channel registers are written as the others are (R308). -/
def State.channelAt (s : State) (t : TileNo) (sup : Bool) (a : Nat) : Option (TileNo × CtxNo × BitVec 5) :=
  match target s.part t (BitVec.ofNat 64 a) with
  | .chip o off _ =>
    if 0x120000 ≤ off ∧ off < 0x130000 then
      match channelOffset ((off - 0x120000) / 8 * 8) with
      | some (c, r) => if s.restores sup o c then none else some (o, c, r)
      | none => none
    else none
  | _ => none

/-- What writing a run of bytes would meet. -/
def State.writeCheck (s : State) (w : Writer) (writes : List (Nat × Nat)) (run : Nat × List Byte) : State × Got Unit :=
  let va := BitVec.ofNat 64 run.1
  match s.reach w.tile w.tag false true va with
  | .place p hv _ =>
    if s.poisoned p && run.2.length != 8 && !coversWord writes run.1 then (s.touchPlace p hv, .fail 0x22)
    else (s, .ok ())
  | .miss => if (s.walk w.tag va).isNone then (s, .stop 0x20 va) else (s.openWalk w.tile w.tag va, .wait)
  | .denied => (s, .stop 0x21 va)
  | .bad => (s, .stop 0x20 va)

def State.writeChecks (s : State) (w : Writer) (writes : List (Nat × Nat)) : List (Nat × List Byte) → State × Got Unit
  | [] => (s, .ok ())
  | run :: r =>
    match s.writeCheck w writes run with
    | (s, .ok _) => s.writeChecks w writes r
    | x => x

/-- The bytes of a word with some replaced, from byte `o` up. -/
def patchWord (w : Word) (o : Nat) (bs : List Byte) : Word := (bs.zipIdx).foldl (fun w b => putByte w (o + b.2) b.1) w

/-- A card records a word that it writes (R184). -/
def Card.writes1 (k : Card) (w : Writer) (p : Place) : Card :=
  if w.poster = .card k.job ∧ !k.wrote.contains p.word8 then { k with wrote := k.wrote ++ [p.word8] } else k

/-- Write a run that passed the checks. A register window takes it as its aligned word with the bytes replaced. -/
def State.writeRun (s : State) (w : Writer) (run : Nat × List Byte) : State :=
  match s.reach w.tile w.tag false true (BitVec.ofNat 64 run.1) with
  | .place (.window o off) _ _ => s.windowPut w.sup o (off / 8 * 8) (patchWord ((s.tile o).windowWord (off / 8 * 8)) (off % 8) run.2)
  | .place p hv _ =>
    let s := s.modTile w.tile fun tl => { tl with cards := tl.cards.map fun k => k.writes1 w p }
    s.post1 w p hv run.2
  | _ => s

/-- The word in whose FIFO a run may have to wait. -/
def State.runWord (s : State) (w : Writer) (run : Nat × List Byte) : Option Place :=
  match s.reach w.tile w.tag false true (BitVec.ofNat 64 run.1) with
  | .place p _ _ => some p.word8
  | _ => none

/-- Write bytes, all or none: what they meet, a wait for room in the FIFOs of their words (R173), else the state after. -/
def State.writeBytes (s : State) (w : Writer) (writes : List (Nat × Nat)) (bs : List (Nat × Byte)) : State × Got Unit :=
  let rs := runs bs
  match s.writeChecks w writes rs with
  | (s, .ok _) => if s.fits (rs.filterMap (s.runWord w)) then (rs.foldl (fun s r => s.writeRun w r) s, .ok ()) else (s, .wait)
  | x => x

end Sys2Proof.Machine
end

