-- ==== Sys2Proof/Machine/Matrix.lean ====
section
/-! DEFINITION. The matrix unit: its instructions, their checks at issue, and the steps in which an operation starts
and completes (R85 to R90, R198 to R205, R371 to R377). -/

namespace Sys2Proof.Machine

/-! ### Checks at issue (R200, R202, R371) -/

/-- The class of a format: 8-bit, 16-bit or neither (R200). -/
def Fmt.cls : Fmt → Nat
  | .ty .i8 | .ty .n8 | .ty .e4 | .ty .e5 | .weft8 => 8
  | .ty .f16 | .ty .bf16 => 16
  | _ => 0

/-- K of a multiply form (R372). -/
def MatOp.k (kind : MatKind) (a b : Operand) : Nat :=
  match kind with
  | .mmav => 32
  | .mmas => b.tid.rows
  | _ => a.tid.cols

/-- λ of an operand, σ included (R86). -/
def Tid.lambda (e : Tid) : Int := Fmt.lambda e.format + e.scale

/-- The address and the row pitch of a metadata record (R202). -/
def metaAddr (mr : Word) : Word := sext48 (bits mr 0 48)
def metaPitch (mr : Word) : Nat := bits mr 48 16

/-- The bytes of the metadata of Ma rows, K / 4 nibbles each (R202, R206). -/
def metaRanges (t : TileNo) (mr : Word) (ma k : Nat) : List (Nat × Nat) :=
  (List.range ma).map fun i => (normVa t (metaAddr mr) + i * metaPitch mr, (k + 7) / 8)

/-- A TID entry of MZERO: status 0x22 or 0x11 (R377). -/
def State.tidStatus (s : State) (t : TileNo) (c : CtxNo) (o : Operand) : Option Nat :=
  let n := bits o.w0 56 8
  if (s.tile t).badTids.contains n then some 0x22
  else if !s.tidAllowed t c n || !o.tid.valid then some 0x11 else none

/-- MZERO's checks (R86, R377). -/
def State.mzeroStatus (s : State) (t : TileNo) (c : CtxNo) (a b : Operand) : Option Nat :=
  let e := a.tid.lambda + b.tid.lambda
  (s.tidStatus t c a).or <| (s.tidStatus t c b).or <|
    if Fmt.cls a.fmt = 0 ∨ Fmt.cls a.fmt ≠ Fmt.cls b.fmt then some 0x11
    else if e < -32768 ∨ 32767 < e then some 0x17 else none

/-- The checks of MMA, MMAV and MMAS (R198, R200, R202, R372). DESIGN CHOICE (log 49): metadata rows that run past the end of
the LS fail with status 0x10; R202 asks only that ADDR be a self-window LS address. -/
def State.mmaStatus (s : State) (t : TileNo) (c : CtxNo) (kind : MatKind) (a b : Operand) (mr : Word) : Option Nat :=
  let k := MatOp.k kind a b
  (s.descStatus t c a a.tid.geo true).or <|
  (if kind = .mmav then none else s.descStatus t c b b.tid.geo true).or <|
    if Fmt.cls a.fmt = 0 ∨ (kind ≠ .mmav ∧ Fmt.cls a.fmt ≠ Fmt.cls b.fmt) then some 0x11
    else if 32 < a.tid.rows ∨ 2 ^ 20 < k then some 0x12
    else match kind with
      | .mmav => if a.tid.cols = 32 then none else some 0x12
      | .mmas =>
        if 32 < b.tid.cols ∨ a.tid.cols * 2 ≠ k ∨ k % 4 ≠ 0 then some 0x12
        else if metaPitch mr % 8 ≠ 0 ∨ metaPitch mr * 8 < k ∨ !isLsAddr (metaAddr mr) ∨ (metaAddr mr).toNat % 256 ≠ 0
            ∨ !(metaRanges t mr a.tid.rows k).all (inLs t) then some 0x10
        else none
      | _ => if 32 < b.tid.cols ∨ k ≠ b.tid.rows then some 0x12 else none

/-- The checks of MREAD and MWRITE (R375). -/
def State.mreadStatus (s : State) (t : TileNo) (c : CtxNo) (a : Operand) : Option Nat :=
  (s.descStatus t c a a.tid.geo true).or <|
    if a.fmt = .weft8 then some 0x11 else if 32 < a.tid.rows ∨ 32 < a.tid.cols then some 0x12 else none

/-- The byte ranges an operation reads and writes in memory. -/
def matReads (t : TileNo) (kind : MatKind) (a b : Operand) (mr : Word) : List (Nat × Nat) :=
  match kind with
  | .mma => a.footprint t a.tid.geo ++ b.footprint t b.tid.geo
  | .mmav | .mwrite => a.footprint t a.tid.geo
  | .mmas => a.footprint t a.tid.geo ++ b.footprint t b.tid.geo ++ metaRanges t mr a.tid.rows b.tid.rows
  | _ => []
def matWrites (t : TileNo) (kind : MatKind) (a : Operand) : List (Nat × Nat) :=
  match kind with | .mread => a.footprint t a.tid.geo | _ => []

/-- A matrix instruction (R371): cause 0x12, the checks, mx, then its place in the unit's order. -/
def State.matrixOp (s : State) (kind : MatKind) (m : BitVec 2) (xs : List (BitVec 5)) (a b : Operand) (mr : Word)
    (status : Option Nat) : State :=
  let (t, c) := s.cur
  if !s.me.macc.getLsbD m.toNat then s.trap 0x12 (m.zeroExtend 64)
  else s.checked (some m) status fun s =>
    match s.me.capacity false false false true false with
    | some r => s.parkMe r
    | none =>
      let k := s.me.consume xs
      let op : MatOp :=
        { ctx := c, num := k.num, kind := kind, m := m, a := a, b := b, mrec := mr
          vregs := if kind = .mmav then (List.range 16).map fun i => s.me.getV (BitVec.ofNat 4 i) else []
          reads := accRange t m :: matReads t kind a b mr, writes := matWrites t kind a, started := none, job := none, sup := k.sup, posted := none }
      let s := s.done 4 { k with mx := k.mx + 1 }
      s.modHere fun tl => { tl with mats := tl.mats ++ [op] }

/-- The registers of a pair. -/
def pairRegs (r : BitVec 5) : List (BitVec 5) := [r, r + 1]

def execMzero (m : BitVec 2) (xs1 xs2 : BitVec 5) (s : State) : Res :=
  .next <| s.gated (Uses.x (pairRegs xs1 ++ pairRegs xs2) []) fun s =>
    let a := s.pair xs1
    let b := s.pair xs2
    s.matrixOp .mzero m (pairRegs xs1 ++ pairRegs xs2) a b 0 (s.mzeroStatus s.cur.1 s.cur.2 a b)

def execMma (m : BitVec 2) (xs1 xs2 : BitVec 5) (s : State) : Res :=
  .next <| s.gated (Uses.x (pairRegs xs1 ++ pairRegs xs2) []) fun s =>
    let a := s.pair xs1
    let b := s.pair xs2
    s.matrixOp .mma m (pairRegs xs1 ++ pairRegs xs2) a b 0 (s.mmaStatus s.cur.1 s.cur.2 .mma a b 0)

/-- MMAV reads all sixteen v registers at issue (R372). -/
def execMmav (m : BitVec 2) (xs1 : BitVec 5) (s : State) : Res :=
  .next <| s.gated ⟨pairRegs xs1, [], (List.range 16).map (BitVec.ofNat 4), [], []⟩ fun s =>
    let a := s.pair xs1
    s.matrixOp .mmav m (pairRegs xs1) a Operand.none 0 (s.mmaStatus s.cur.1 s.cur.2 .mmav a Operand.none 0)

def execMmas (m : BitVec 2) (xs1 xs2 : BitVec 5) (s : State) : Res :=
  let xs := pairRegs xs1 ++ [xs1 + 2] ++ pairRegs xs2
  .next <| s.gated (Uses.x xs []) fun s =>
    let a := s.pair xs1
    let b := s.pair xs2
    let mr := s.me.getX (xs1 + 2)
    s.matrixOp .mmas m xs a b mr (s.mmaStatus s.cur.1 s.cur.2 .mmas a b mr)

def execMread (m : BitVec 2) (xs1 : BitVec 5) (s : State) : Res :=
  .next <| s.gated (Uses.x (pairRegs xs1) []) fun s =>
    let a := s.pair xs1
    s.matrixOp .mread m (pairRegs xs1) a Operand.none 0 (s.mreadStatus s.cur.1 s.cur.2 a)

def execMwrite (m : BitVec 2) (xs1 : BitVec 5) (s : State) : Res :=
  .next <| s.gated (Uses.x (pairRegs xs1) []) fun s =>
    let a := s.pair xs1
    s.matrixOp .mwrite m (pairRegs xs1) a Operand.none 0 (s.mreadStatus s.cur.1 s.cur.2 a)

/-! ### Running an operation (R87, R201, R204) -/

/-- Cycles from start to last write (R204); in P1 the K terms double (R328). -/
def MatOp.cycles (o : MatOp) (slow : Bool) : Nat :=
  let k := MatOp.k o.kind o.a o.b
  let m := if slow then 2 else 1
  match o.kind with
  | .mzero => 8
  | .mread | .mwrite => 40
  | .mma | .mmav => m * (if Fmt.cls o.a.fmt = 8 then (k + 1) / 2 else k) + 24
  | .mmas => m * (if Fmt.cls o.a.fmt = 8 then (k + 3) / 4 else k / 2) + 24
  | .card => 0

/-- Rows of an operand as read. -/
def State.readRaws (s : State) (t : TileNo) (q : Tag) (o : Operand) : List Nat → State × Got (List (List Raw))
  | [] => (s, .ok [])
  | r :: rest =>
    match s.readRow t q o o.tid.geo 0 r with
    | (s, .ok xs) =>
      match s.readRaws t q o rest with
      | (s, .ok rs) => (s, .ok (xs :: rs))
      | x => x
    | (s, .wait) => (s, .wait)
    | (s, .stop x va) => (s, .stop x va)
    | (s, .fail x) => (s, .fail x)

/-- The values of rows of an operand. -/
def State.readRows (s : State) (t : TileNo) (q : Tag) (o : Operand) (rs : List Nat) : State × Got (List (List FVal)) :=
  match s.readRaws t q o rs with
  | (s, .ok xs) => (s, .ok (xs.map (·.map (rawValue o.fmt o.tid.scale))))
  | (s, .wait) => (s, .wait)
  | (s, .stop x va) => (s, .stop x va)
  | (s, .fail x) => (s, .fail x)

/-- B of MMAV: row k is 32 bytes of v[k ÷ 2]; the format is A's, WEFT8 read as F8E4 (R201). -/
def mmavB (a : Fmt) (vs : List VecBits) : List (List FVal) :=
  let t := match a with | .ty t => t | _ => .e4
  let w := Ty.width t
  (List.range 32).map fun k => (List.range (256 / w)).map fun j =>
    elemValue t (laneOf (vs.getD (k / 2) 0) w (k % 2 * (256 / w) + j))

/-- The kept positions of one metadata row: none when a nibble is invalid (R202). -/
def keptAt (k : Nat) (bs : List Byte) : Option (List Nat) :=
  (List.range (k / 4)).foldl (fun acc g =>
    match acc with
    | none => none
    | some ps =>
      let nib := (bs.getD (g / 2) 0).toNat / (if g % 2 = 0 then 1 else 16) % 16
      if nib % 4 < nib / 4 then some (ps ++ [4 * g + nib % 4, 4 * g + nib / 4]) else none) (some [])

/-- The kept positions of every row of A. -/
def State.keptRows (s : State) (t : TileNo) (q : Tag) (mr : Word) (k : Nat) : List Nat → State × Got (List (List Nat))
  | [] => (s, .ok [])
  | i :: rest =>
    match s.readAt t q (normVa t (metaAddr mr) + i * metaPitch mr) ((k + 7) / 8) with
    | (s, .ok bs) =>
      match keptAt k bs with
      | none => (s, .fail 0x15)
      | some ps =>
        match s.keptRows t q mr k rest with
        | (s, .ok r) => (s, .ok (ps :: r))
        | x => x
    | (s, .wait) => (s, .wait)
    | (s, .stop x va) => (s, .stop x va)
    | (s, .fail x) => (s, .fail x)

/-- The exact sum of the products of each lane step, `n` products to a step (R87, R201). -/
def stepSums (n : Nat) : Nat → List FVal → List FVal
  | 0, _ => []
  | fuel + 1, ps =>
    if ps = [] then []
    else ((ps.take n).foldl (fun a p => (exactAdd .rne a p).1) (.fin false 0 0)) :: stepSums n fuel (ps.drop n)

/-- The lane steps of one element. -/
def accSteps (a : Acc) (sums : List FVal) : Acc × Bool :=
  sums.foldl (fun r p => let x := accStep r.1 p; (x.1, r.2 || x.2)) (a, false)

/-- Element (i, j) of accumulator m. -/
def Tile.accAt (t : Tile) (m : BitVec 2) (i j : Nat) : Acc := Assoc.get 0#80 (m.toNat * 1024 + 32 * i + j) t.acc
def Tile.setAcc (t : Tile) (m : BitVec 2) (i j : Nat) (a : Acc) : Tile :=
  { t with acc := Assoc.set 0#80 (m.toNat * 1024 + 32 * i + j) a t.acc }

/-- Write elements, row by row, and tell whether any set ACCINEX. -/
def Tile.setAccs (t : Tile) (m : BitVec 2) : List (Nat × Nat × Acc) → Tile
  | [] => t
  | (i, j, a) :: r => (t.setAcc m i j a).setAccs m r

/-- The products of element (i, j). -/
def products (arow : List FVal) (b : List (List FVal)) (kept : List Nat) (j : Nat) : List FVal :=
  (arow.zip kept).map fun p => (exactMul p.1 ((b.getD p.2 []).getD j (.fin false 0 0))).1

/-- Every element of a multiply, with whether any step set ACCINEX. -/
def Tile.multiply (t : Tile) (o : MatOp) (a b : List (List FVal)) (kept : List (List Nat)) (nb : Nat) :
    List (Nat × Nat × Acc) × Bool :=
  let n := if o.kind = .mmas || Fmt.cls o.a.fmt == 8 then 2 else 1
  let es := (a.zipIdx).flatMap fun p => (List.range nb).map fun j =>
    let ps := products p.1 b (kept.getD p.2 []) j
    (p.2, j, accSteps (t.accAt o.m p.2 j) (stepSums n ps.length ps))
  (es.map fun e => (e.1, e.2.1, e.2.2.1), es.any fun e => e.2.2.2)

/-- What an operation leaves: the tile's accumulators and flags of the context, or a data failure. -/
inductive MatDone where
  | done (s : State) (flags : Flags) (inexact : Bool)
  | wait (s : State)
  | fail (s : State) (status : Nat)

/-- MMA, MMAV and MMAS (R87, R201). DESIGN CHOICE (log 66): of failures on the data (R205) that of A is reported first, then that of B,
then that of the metadata. -/
def State.runMultiply (s : State) (t : TileNo) (q : Tag) (o : MatOp) : MatDone :=
  let k := MatOp.k o.kind o.a o.b
  let ma := o.a.tid.rows
  match s.readRows t q o.a (List.range ma) with
  | (s, .ok a) =>
    let (s, b) := if o.kind = .mmav then (s, .ok (mmavB o.a.fmt o.vregs)) else s.readRows t q o.b (List.range k)
    match b with
    | .ok b =>
      let (s, ks) := if o.kind = .mmas then s.keptRows t q o.mrec k (List.range ma)
        else (s, .ok ((List.range ma).map fun _ => List.range k))
      match ks with
      | .ok kept =>
        let nb := if o.kind = .mmav then (b.headD []).length else o.b.tid.cols
        let r := (s.tile t).multiply o a b kept nb
        .done (s.modTile t fun tl => tl.setAccs o.m r.1) Flags.none r.2
      | .fail x | .stop x _ => .fail s x
      | .wait => .wait s
    | .fail x | .stop x _ => .fail s x
    | .wait => .wait s
  | (s, .fail x) | (s, .stop x _) => .fail s x
  | (s, .wait) => .wait s

/-- MREAD: each element converted by R90 under the destination entry, then written (R375). -/
def State.runMread (s : State) (t : TileNo) (q : Tag) (o : MatOp) : MatDone :=
  let e := o.a.tid
  let n := Fmt.size o.a.fmt
  let es := (List.range e.rows).flatMap fun i => (List.range e.cols).map fun j =>
    let a := (s.tile t).accAt o.m i j
    let v := match o.a.fmt with | .ty d => accTo d e.mode e.np a | _ => (a.toNat, Flags.none)
    (((List.range n).zip (leBytes n v.1)).map fun b => (o.a.byteAt t e.geo 0 i (j * n + b.1), b.2), v.2)
  match s.writeBytes ⟨t, o.ctx, q, o.sup, .matrix o.num⟩ o.writes (es.flatMap (·.1)) with
  | (s, .ok _) => .done s (es.foldl (fun f p => f.or p.2) Flags.none) false
  | (s, .fail x) | (s, .stop x _) => .fail s x
  | (s, .wait) => .wait s

/-- The element that MWRITE makes of one it read: ACC80 bits unchanged, any other value by R203. -/
def mwriteElement (e : Tid) (x : Raw) : Option Acc :=
  match e.format, x with
  | .acc80, .bits n => some (BitVec.ofNat 80 n)
  | f, x => toAcc e.lambda (rawValue f e.scale x)

/-- Whether an element is NaN or infinite. -/
def accIsSpecial (a : Acc) : Bool := match Acc.value a with | .fin .. => false | _ => true

/-- MWRITE (R203, R375). -/
def State.runMwrite (s : State) (t : TileNo) (q : Tag) (o : MatOp) : MatDone :=
  let e := o.a.tid
  match s.readRaws t q o.a (List.range e.rows) with
  | (s, .ok rows) =>
    let as := (rows.zipIdx).flatMap fun p => (p.1.zipIdx).map fun v => (p.2, v.2, mwriteElement e v.1)
    if as.any fun p => p.2.2.isNone then .fail s 0x17
    else
      let es := as.map fun p => (p.1, p.2.1, p.2.2.getD 0#80)
      .done (s.modTile t fun tl => tl.setAccs o.m es) Flags.none (es.any fun p => accIsSpecial p.2.2)
  | (s, .fail x) | (s, .stop x _) => .fail s x
  | (s, .wait) => .wait s

/-- MZERO: S = 0 and E = λ(A) + λ(B) in all 32 × 32 elements (R86). -/
def State.runMzero (s : State) (t : TileNo) (o : MatOp) : MatDone :=
  let a := Acc.mk 0 (o.a.tid.lambda + o.b.tid.lambda)
  let es := (List.range 32).flatMap fun i => (List.range 32).map fun j => (i, j, a)
  .done (s.modTile t fun tl => tl.setAccs o.m es) Flags.none false

def State.runMat (s : State) (t : TileNo) (o : MatOp) : MatDone :=
  let q := s.tag t o.ctx
  match o.kind with
  | .mzero => s.runMzero t o
  | .mma | .mmav | .mmas => s.runMultiply t q o
  | .mread => s.runMread t q o
  | .mwrite => s.runMwrite t q o
  | .card => .wait s

/-! ### The steps of the unit -/

/-- ACCINEX of accumulator m (R75). -/
def accInex (m : BitVec 2) : BitVec 12 := 1#12 <<< (8 + m.toNat)

/-- Flags of a completed operation go to its context (R76). -/
def Ctx.raiseMat (k : Ctx) (m : BitVec 2) (fl : Flags) (inex : Bool) : Ctx :=
  let k := k.raise fl
  if inex then { k with fstat := k.fstat ||| accInex m } else k

/-- The unit starts the first operation in its order, once no fence holds it (R181, R204). -/
def execMatrixOpStart (t : TileNo) (s : State) : Res :=
  .next <| match (s.tile t).mats with
  | [] => s
  | o :: rest =>
    if o.started.isSome || (o.kind != .card && s.fenceHolds t o.ctx o.num 8 (o.reads ++ o.writes)) then s
    else s.modTile t fun tl => { tl with mats := { o with started := some s.time } :: rest }

end Sys2Proof.Machine
end

