-- ==== Sys2Proof/Machine/Vector.lean ====
section
/-! DEFINITION. The vector unit: format V lanes, compares, conversions, reductions, moves between x, v and k registers
and the mask group (R48, R95, R192, R362, R401 to R406, R411 to R414). -/

namespace Sys2Proof.Machine

/-! ### Lane-wise instructions (R401, R402) -/

/-- An instruction over v registers: sources `vs`, destination vd; the new vd and its flags from the context. -/
def State.vecOp (s : State) (vd : BitVec 4) (vs : List (BitVec 4)) (n : Nat) (f : Ctx → VecBits × Flags) : State :=
  s.gated ⟨[], [], vs, [vd], []⟩ fun s =>
    let r := f s.me
    s.done n ((s.me.setV vd r.1).raise r.2)

/-- Lane `i` of V[r] at the width of a type. -/
def Ctx.lane (k : Ctx) (ty : Ty) (r : BitVec 4) (i : Nat) : Nat := laneOf (k.getV r) (Ty.width ty) i

/-- New active lanes of vd at the width of a type. -/
def Ctx.laneWise (k : Ctx) (ty : Ty) (vd : BitVec 4) (g : Guard) (f : Nat → Nat × Flags) : VecBits × Flags :=
  k.mergeLanes g (Ty.width ty) (k.getV vd) f

/-- F(a, b) in every active lane. -/
def State.lanes2 (s : State) (ty : Ty) (vd vs1 vs2 : BitVec 4) (g : Guard) (n : Nat)
    (f : Rm → Nat → Nat → Nat × Flags) : State :=
  s.vecOp vd [vs1, vs2] n fun k => k.laneWise ty vd g fun i => f k.mode (k.lane ty vs1 i) (k.lane ty vs2 i)

/-- F(a) in every active lane. -/
def State.lanes1 (s : State) (ty : Ty) (vd vs1 : BitVec 4) (g : Guard) (n : Nat) (f : Rm → Nat → Nat × Flags) : State :=
  s.vecOp vd [vs1] n fun k => k.laneWise ty vd g fun i => f k.mode (k.lane ty vs1 i)

/-- F(a, b, c) in every active lane, with c the old lane of vd. -/
def State.lanes3 (s : State) (ty : Ty) (vd vs1 vs2 : BitVec 4) (g : Guard) (n : Nat)
    (f : Rm → Nat → Nat → Nat → Nat × Flags) : State :=
  s.vecOp vd [vs1, vs2] n fun k =>
    k.laneWise ty vd g fun i => f k.mode (k.lane ty vs1 i) (k.lane ty vs2 i) (k.lane ty vd i)

/-- A lane of bits, without flags. -/
def plain (x : Nat) : Nat × Flags := (x, Flags.none)

def execVadd (ty : Ty) (vd vs1 vs2 : BitVec 4) (g : Guard) (s : State) : Res := .next (s.lanes2 ty vd vs1 vs2 g 8 (laneAdd ty))
def execVsub (ty : Ty) (vd vs1 vs2 : BitVec 4) (g : Guard) (s : State) : Res := .next (s.lanes2 ty vd vs1 vs2 g 8 (laneSub ty))
def execVmul (ty : Ty) (vd vs1 vs2 : BitVec 4) (g : Guard) (s : State) : Res := .next (s.lanes2 ty vd vs1 vs2 g 8 (laneMul ty))
def execVfma (ty : Ty) (vd vs1 vs2 : BitVec 4) (g : Guard) (s : State) : Res := .next (s.lanes3 ty vd vs1 vs2 g 8 (laneFma ty))
def execVmin (ty : Ty) (vd vs1 vs2 : BitVec 4) (g : Guard) (s : State) : Res :=
  .next (s.lanes2 ty vd vs1 vs2 g 8 fun _ => laneMin ty)
def execVmax (ty : Ty) (vd vs1 vs2 : BitVec 4) (g : Guard) (s : State) : Res :=
  .next (s.lanes2 ty vd vs1 vs2 g 8 fun _ => laneMax ty)
def execVabs (ty : Ty) (vd vs1 : BitVec 4) (g : Guard) (s : State) : Res := .next (s.lanes1 ty vd vs1 g 8 fun _ => laneAbs ty)
def execVneg (ty : Ty) (vd vs1 : BitVec 4) (g : Guard) (s : State) : Res := .next (s.lanes1 ty vd vs1 g 8 fun _ => laneNeg ty)

/-- VMIN(VMAX(c, a), b) (R77). -/
def laneClamp (ty : Ty) (a b c : Nat) : Nat × Flags :=
  let m := laneMax ty c a
  let r := laneMin ty m.1 b
  (r.1, r.2.or m.2)

def execVclamp (ty : Ty) (vd vs1 vs2 : BitVec 4) (g : Guard) (s : State) : Res :=
  .next (s.lanes3 ty vd vs1 vs2 g 8 fun _ => laneClamp ty)
def execVand (ty : Ty) (vd vs1 vs2 : BitVec 4) (g : Guard) (s : State) : Res :=
  .next (s.lanes2 ty vd vs1 vs2 g 8 fun _ a b => plain (a &&& b))
def execVor (ty : Ty) (vd vs1 vs2 : BitVec 4) (g : Guard) (s : State) : Res :=
  .next (s.lanes2 ty vd vs1 vs2 g 8 fun _ a b => plain (a ||| b))
def execVxor (ty : Ty) (vd vs1 vs2 : BitVec 4) (g : Guard) (s : State) : Res :=
  .next (s.lanes2 ty vd vs1 vs2 g 8 fun _ a b => plain (a ^^^ b))
def execVshl (ty : Ty) (vd vs1 vs2 : BitVec 4) (g : Guard) (s : State) : Res :=
  .next (s.lanes2 ty vd vs1 vs2 g 8 fun _ a b => plain (laneShl ty a b))
/-- Zero fill for N types, fill from the top bit for I types. -/
def execVshr (ty : Ty) (vd vs1 vs2 : BitVec 4) (g : Guard) (s : State) : Res :=
  .next (s.lanes2 ty vd vs1 vs2 g 8 fun _ a b => plain (if Ty.signed ty then laneSar ty a b else laneShr ty a b))
def execVdiv (ty : Ty) (vd vs1 vs2 : BitVec 4) (g : Guard) (s : State) : Res := .next (s.lanes2 ty vd vs1 vs2 g 24 (fDiv ty))
def execVsqrt (ty : Ty) (vd vs1 : BitVec 4) (g : Guard) (s : State) : Res := .next (s.lanes1 ty vd vs1 g 24 (fSqrt ty))
def execVexp2 (ty : Ty) (vd vs1 : BitVec 4) (g : Guard) (s : State) : Res :=
  .next (s.lanes1 ty vd vs1 g 24 fun _ => laneFun exp2 ty)
def execVlog2 (ty : Ty) (vd vs1 : BitVec 4) (g : Guard) (s : State) : Res :=
  .next (s.lanes1 ty vd vs1 g 24 fun _ => laneFun log2F ty)
def execVrsqrt (ty : Ty) (vd vs1 : BitVec 4) (g : Guard) (s : State) : Res :=
  .next (s.lanes1 ty vd vs1 g 24 fun _ => laneFun rsqrt ty)

/-! ### Moves of lanes (R411, R413, R414) -/

/-- VSLIDE: lane i + n, or zero bits beyond the top. -/
def execVslide (ty : Ty) (vd vs1 n : BitVec 4) (g : Guard) (s : State) : Res :=
  .next <| s.vecOp vd [vs1] 8 fun k => k.laneWise ty vd g fun i =>
    plain (if i + n.toNat < Ty.lanes ty then k.lane ty vs1 (i + n.toNat) else 0)

/-- VSEL writes every lane. -/
def execVsel (ty : Ty) (vd vs1 vs2 : BitVec 4) (g : Guard) (s : State) : Res :=
  .next <| s.vecOp vd [vs1, vs2] 8 fun k =>
    k.mergeLanes g (Ty.width ty) (k.getV vs2) fun i => plain (k.lane ty vs1 i)

def execVperm (ty : Ty) (vd vs1 vs2 : BitVec 4) (g : Guard) (s : State) : Res :=
  .next <| s.vecOp vd [vs1, vs2] 8 fun k => k.laneWise ty vd g fun i =>
    plain (k.lane ty vs1 (k.lane ty vs2 i % Ty.lanes ty))

/-! ### VCVT (R406) -/

def execVcvt (ty dt : Ty) (vd vs1 : BitVec 4) (g : Guard) (s : State) : Res :=
  .next <| s.vecOp vd [vs1] 8 fun k => k.laneWise dt vd g fun i =>
    if i < Ty.lanes ty then convert ty dt k.mode k.np (k.lane ty vs1 i) else plain (k.lane dt vd i)

/-! ### VRED (R95, R412) -/

/-- One node of the tree. -/
def redOp (ty : Ty) (op : RedOp) (mode : Rm) (a b : Nat) : Nat × Flags :=
  match op with
  | .add => laneAdd ty mode a b
  | .min => laneMin ty a b
  | .max => laneMax ty a b
  | .and => plain (a &&& b)
  | .or => plain (a ||| b)
  | .xor => plain (a ^^^ b)

/-- The identity of the operation. -/
def redId (ty : Ty) (op : RedOp) : Nat :=
  match op with
  | .add | .or | .xor => 0
  | .and => 2 ^ Ty.width ty - 1
  | .min => if Ty.isFloat ty then Ty.inf ty false else ofInt ty (intMax ty)
  | .max => if Ty.isFloat ty then Ty.inf ty true else ofInt ty (intMin ty)

/-- One level of the tree: adjacent results combine; a side of inactive lanes only passes the other through. -/
def redLevel (f : Nat → Nat → Nat × Flags) : List (Option Nat) → List (Option Nat) × Flags
  | a :: b :: r =>
    let rest := redLevel f r
    match a, b with
    | some x, some y => let v := f x y; (some v.1 :: rest.1, v.2.or rest.2)
    | some x, none => (some x :: rest.1, rest.2)
    | none, y => (y :: rest.1, rest.2)
  | l => (l, Flags.none)

/-- The levels of the tree. -/
def redTree (f : Nat → Nat → Nat × Flags) : Nat → List (Option Nat) → List (Option Nat) × Flags
  | 0, l => (l, Flags.none)
  | n + 1, l =>
    let v := redLevel f l
    let w := redTree f n v.1
    (w.1, v.2.or w.2)

/-- The reduction of the lanes of a register. -/
def Ctx.reduce (k : Ctx) (ty : Ty) (op : RedOp) (vs1 : BitVec 4) (g : Guard) : Nat × Flags :=
  let ls := (List.range (Ty.lanes ty)).map fun i => if k.active g i then some (k.lane ty vs1 i) else none
  let r := redTree (redOp ty op k.mode) 6 ls
  match r.1 with
  | some v :: _ => (v, r.2)
  | _ => (redId ty op, r.2)

def execVred (ty : Ty) (vd vs1 : BitVec 4) (rop : RedOp) (g : Guard) (s : State) : Res :=
  .next <| s.vecOp vd [vs1] 8 fun k =>
    let r := k.reduce ty rop vs1 g
    (packLanes (Ty.width ty) (setNth 0 r.1 (lanesOf (k.getV vd) (Ty.width ty))), r.2)

/-! ### VCMP (R78, R405) -/

def execVcmp (pred : Pred) (ty : Ty) (kd : BitVec 3) (dual : BitVec 1) (vs1 vs2 : BitVec 4) (g : Guard) (s : State) : Res :=
  .next <|
    let k2 := kd ^^^ 1
    s.gated ⟨[], [], [vs1, vs2], [], if dual = 1 then [kd, k2] else [kd]⟩ fun s =>
      let k := s.me
      let r (i : Nat) := laneCmp ty pred (k.lane ty vs1 i) (k.lane ty vs2 i)
      let m := Ty.lanes ty
      let fl := (List.range m).foldl (fun f i => if k.active g i then f.or (r i).2 else f) Flags.none
      let k' := k.setK kd (k.mergeBits g 64 (k.getK kd) fun i => if i < m then (r i).1 else (k.getK kd).getLsbD i)
      let k' := if dual = 1 then
        k'.setK k2 (k.mergeBits g 64 (k.getK k2) fun i => if i < m then !(r i).1 else (k.getK k2).getLsbD i) else k'
      s.done 8 (k'.raise fl)

/-! ### Moves between x and v registers (R404) -/

def Width.bits : Width → Nat
  | .b => 8 | .h => 16 | .w => 32 | .d => 64

def execVbcast (wd : Width) (vd : BitVec 4) (xs1 : BitVec 5) (g : Guard) (s : State) : Res :=
  .next <| s.gated ⟨[xs1], [], [], [vd], []⟩ fun s =>
    let k := s.me
    let v := k.mergeLanes g (Width.bits wd) (k.getV vd) fun _ => plain ((k.getX xs1).toNat % 2 ^ Width.bits wd)
    s.done 4 ((k.consume [xs1]).setV vd v.1)

def execVext (xd : BitVec 5) (vs1 : BitVec 4) (xs1 : BitVec 5) (s : State) : Res :=
  .next <| s.gated ⟨[xs1], [xd], [vs1], [], []⟩ fun s =>
    let k := s.me
    s.done 4 ((k.consume [xs1]).setX xd (chunkOf (k.getV vs1) (bits (k.getX xs1) 0 3)))

def execVins (vd : BitVec 4) (xs1 xs2 : BitVec 5) (s : State) : Res :=
  .next <| s.gated ⟨[xs1, xs2], [], [], [vd], []⟩ fun s =>
    let k := s.me
    let v := packLanes 64 (setNth (bits (k.getX xs2) 0 3) (k.getX xs1).toNat (lanesOf (k.getV vd) 64))
    s.done 4 ((k.consume [xs1, xs2]).setV vd v)

/-! ### The mask group (R362) -/

def execKmovx (xd : BitVec 5) (ks : BitVec 3) (s : State) : Res := .next (s.regOp [] xd 4 fun k => k.getK ks)

def execKmovk (kd : BitVec 3) (xs1 : BitVec 5) (g : Guard) (s : State) : Res :=
  .next <| s.gated ⟨[xs1], [], [], [], [kd]⟩ fun s =>
    let k := s.me
    s.done 4 ((k.consume [xs1]).setK kd (k.mergeBits g 64 (k.getK kd) (k.getX xs1).getLsbD))

def execKpop (xd : BitVec 5) (ks : BitVec 3) (g : Guard) (s : State) : Res :=
  .next <| s.regOp [] xd 4 fun k =>
    BitVec.ofNat 64 ((List.range 64).filter fun i => k.active g i && (k.getK ks).getLsbD i).length

def KOp.apply (op : KOp) (a b : Word) : Word :=
  match op with
  | .and => a &&& b | .or => a ||| b | .xor => a ^^^ b | .andn => a &&& ~~~b

def execKop (op : KOp) (kd ka kb : BitVec 3) (g : Guard) (s : State) : Res :=
  .next <| s.gated ⟨[], [], [], [], [kd]⟩ fun s =>
    let k := s.me
    s.done 4 (k.setK kd (k.mergeBits g 64 (k.getK kd) (KOp.apply op (k.getK ka) (k.getK kb)).getLsbD))

end Sys2Proof.Machine
end

