-- ==== Sys2Proof/Machine/Draft.lean ====
section
/-! DEFINITION. Drafts: their encoding and checks, running one, and the instructions and steps of the heddle array of a
tile (R222 to R236, R354 to R356, R422, R423). -/

namespace Sys2Proof.Machine

/-! ### Encoding (R224, R225) -/

def Draft.ident (d : Draft) : Nat := bits d.header 32 32
def Draft.etype (d : Draft) : Option Ty := Ty.ofCode (BitVec.ofNat 4 (bits d.header 16 4))
def Draft.hasId (d : Draft) : Bool := d.header.getLsbD 15
def Draft.assoc (d : Draft) : Bool := d.header.getLsbD 13
/-- The declared latency, 1 to 32 cycles. -/
def Draft.lat (d : Draft) : Nat := bits d.header 8 5 + 1
def Draft.nout (d : Draft) : Nat := bits d.header 7 1 + 1
def Draft.nin (d : Draft) : Nat := bits d.header 5 2 + 1
def Draft.nnode (d : Draft) : Nat := bits d.header 0 5 + 1
/-- The element type of a draft that passed its checks. -/
def Draft.ty (d : Draft) : Ty := d.etype.getD .n32
def Draft.empty : Draft := ⟨0, []⟩

def nodeOp (n : Word) : Nat := bits n 0 6
def nodeA (n : Word) : Nat := bits n 6 6
def nodeB (n : Word) : Nat := bits n 12 6
def nodeC (n : Word) : Nat := bits n 18 6
def nodeType (n : Word) : Option Ty := Ty.ofCode (BitVec.ofNat 4 (bits n 24 4))
def nodeFrom (n : Word) : Option Ty := Ty.ofCode (BitVec.ofNat 4 (bits n 28 4))
def nodeImm (n : Word) : Nat := bits n 32 32

/-- How many of the sources a, b, c an operation uses (R227). -/
def opSources (op : Nat) : Nat :=
  if op = 28 then 0
  else if op = 3 ∨ op = 18 then 3
  else if op ≤ 5 ∨ (8 ≤ op ∧ op ≤ 17 ∧ op ≠ 11) ∨ op = 23 then 2
  else 1

/-- The types an operation accepts (R227). -/
def opAccepts (op : Nat) (ty et : Ty) : Bool :=
  if op ≤ 5 ∨ (15 ≤ op ∧ op ≤ 17) then ty.isInt || ty.isFp
  else if op ≤ 7 then ty.isSint || ty.isFp
  else if op ≤ 14 ∨ op = 25 ∨ op = 26 then ty.isInt
  else if 20 ≤ op ∧ op ≤ 24 then ty.isFp
  else if 30 ≤ op then ty == et
  else true

/-- The cost of a node in cycles (R227). -/
def opWeight (op : Nat) : Nat :=
  if op = 2 ∨ op = 3 ∨ op = 19 ∨ op = 27 then 2
  else if 20 ≤ op ∧ op ≤ 24 then 6
  else if 30 ≤ op then 0 else 1

/-! ### The checks (R226, R229) -/

/-- Type and chain weight of the nodes so far, and whether each is an OUT node. -/
structure NodeInfo where
  ty : Ty
  weight : Nat
  out : Bool

/-- The type of a source code for node `j` of type `ty`: none when the code is invalid (R225, R226). -/
def sourceType (d : Draft) (seen : List NodeInfo) (ty : Ty) (code : Nat) : Option Ty :=
  if code < 32 then (seen[code]?).map (·.ty)
  else if code < 36 then (if code < 32 + d.nin then some d.ty else none)
  else if code = 36 then some ty
  else if code ≤ 38 then some .n32
  else none

/-- The type source a must have: none when any type will do (R226). -/
def wantA (n : Word) (ty : Ty) : Option Ty :=
  match nodeOp n with
  | 19 => nodeFrom n
  | 18 => none
  | 27 => some .n32
  | _ => some ty

/-- The chain weight at a source. -/
def sourceWeight (seen : List NodeInfo) (code : Nat) : Nat :=
  if code < 32 then match seen[code]? with | some i => i.weight | none => 0 else 0

/-- One node's checks: its information, or none when it fails. -/
def checkNode (d : Draft) (seen : List NodeInfo) (n : Word) : Option NodeInfo :=
  let op := nodeOp n
  match nodeType n with
  | none => none
  | some ty =>
    let k := opSources op
    let codes := [nodeA n, nodeB n, nodeC n]
    let used := codes.take k
    let okUnused := (codes.drop k).all (· == 0)
    let okFrom := if op = 19 then (nodeFrom n).isSome else bits n 28 4 == 0
    let okType (i code : Nat) : Bool :=
      match sourceType d seen ty code with
      | none => false
      | some t => if i = 0 then (match wantA n ty with | some w => t == w | none => true) else t == ty
    let okOut := used.all fun c => decide (30 ≤ op) || !(decide (c < 32) && (match seen[c]? with | some i => i.out | none => false))
    if op < 32 && opAccepts op ty d.ty && okUnused && okFrom && okOut && (used.zipIdx).all (fun p => okType p.2 p.1) then
      let w := opWeight op + (used.map (sourceWeight seen)).foldl max 0
      some ⟨if (15 ≤ op ∧ op ≤ 17) ∨ op = 25 ∨ op = 26 then .n32 else ty, w, decide (30 ≤ op)⟩
    else none

def checkNodes (d : Draft) : List Word → List NodeInfo → Option (List NodeInfo)
  | [], seen => some seen
  | n :: r, seen => match checkNode d seen n with | some i => checkNodes d r (seen ++ [i]) | none => none

/-- A draft passes its checks (R224 to R229). -/
def Draft.ok (d : Draft) : Bool :=
  match d.etype with
  | none => false
  | some et =>
    bits d.header 20 12 == 0 && decide (d.ident < 2 ^ Ty.width et) && d.nodes.length == d.nnode
      && (d.nodes.filter fun n => nodeOp n == 30).length == 1
      && (d.nodes.filter fun n => nodeOp n == 31).length == d.nout - 1
      && (match checkNodes d d.nodes [] with
          | none => false
          | some is => is.all fun i => !i.out || decide (i.weight ≤ d.lat))

/-- Whether a draft holds a LOOKUP. -/
def Draft.looks (d : Draft) : Bool := d.nodes.any fun n => nodeOp n == 27

/-- What a tile slot accepts (R229). -/
def Draft.okTile (d : Draft) : Bool := d.ok && !d.looks

/-! ### Running a draft (R227, R228, R233) -/

/-- How a unit runs a draft: the inputs, the element index, the scalar argument, rounding and NP (R72, R230), and for a
slice the tile and queue tag of its LOOKUPs. -/
structure DraftEnv where
  ins : List Nat
  idx : Nat
  arg : Nat
  mode : Rm
  np : Bool
  tile : TileNo
  queue : Tag

/-- Leading zeros of a value in a width. -/
def clz (w x : Nat) : Nat := if x = 0 then w else w - 1 - Nat.log2 x

/-- The result of a node that is no LOOKUP, from its sources. -/
def nodeResult (e : DraftEnv) (op : Nat) (ty src : Ty) (imm a b c : Nat) : Nat × Flags :=
  let w := Ty.width ty
  let cmp (p : Pred) : Nat × Flags := let r := laneCmp ty p a b; (if r.1 then 1 else 0, r.2)
  match op with
  | 0 => laneAdd ty e.mode a b
  | 1 => laneSub ty e.mode a b
  | 2 => laneMul ty e.mode a b
  | 3 => laneFma ty e.mode a b c
  | 4 => laneMin ty a b
  | 5 => laneMax ty a b
  | 6 => laneAbs ty a
  | 7 => laneNeg ty a
  | 8 => plain (a &&& b)
  | 9 => plain (a ||| b)
  | 10 => plain (a ^^^ b)
  | 11 => plain (2 ^ w - 1 - a)
  | 12 => plain (laneShl ty a b)
  | 13 => plain (laneShr ty a b)
  | 14 => plain (laneSar ty a b)
  | 15 => cmp .eq
  | 16 => cmp .lt
  | 17 => cmp .le
  | 18 => plain (if a ≠ 0 then b else c)
  | 19 => convert src ty e.mode e.np a
  | 20 => laneFun exp2 ty a
  | 21 => laneFun log2F ty a
  | 22 => laneFun rsqrt ty a
  | 23 => fDiv ty e.mode a b
  | 24 => fSqrt ty e.mode a
  | 25 => plain (clz w a)
  | 26 => plain ((List.range w).filter fun i => a.testBit i).length
  | 28 => plain (imm % 2 ^ w)
  | _ => plain a

/-- The value at a source code (R225). -/
def sourceValue (e : DraftEnv) (vals : List Nat) (w imm code : Nat) : Nat :=
  if code < 32 then vals.getD code 0
  else if code < 36 then e.ins.getD (code - 32) 0
  else if code = 36 then imm % 2 ^ w
  else if code = 37 then e.idx % 2 ^ 32
  else e.arg % 2 ^ 32

/-- What running a draft answers. -/
inductive Ran where
  | ok (outs : List Nat) (flags : Flags)
  | wait
  | fault (node : Nat) (addr : Word)
  | fail (status : Nat)

/-- LOOKUP: one element of a table in translated memory (R228). -/
def State.lookup (s : State) (e : DraftEnv) (ty : Ty) (imm a : Nat) : State × Got Nat :=
  let n := Ty.width ty / 8
  let va := sext48 (imm * 65536) + BitVec.ofNat 64 (a * n)
  if target s.part e.tile va = .mem then
    match s.readAt e.tile e.queue va.toNat n with
    | (s, .ok bs) => (s, .ok (leNat bs))
    | (s, .wait) => (s, .wait)
    | (s, .stop x v) => (s, .stop x v)
    | (s, .fail x) => (s, .fail x)
  else (s, .stop 0x20 va)

/-- The nodes in order, with the values and flags so far. -/
def State.runNodes (s : State) (e : DraftEnv) : List Word → List Nat → Flags → State × Ran
  | [], vals, fl => (s, .ok vals fl)
  | n :: r, vals, fl =>
    let ty := (nodeType n).getD .n32
    let w := Ty.width ty
    let src := sourceValue e vals w (nodeImm n)
    if nodeOp n = 27 then
      match s.lookup e ty (nodeImm n) (src (nodeA n)) with
      | (s, .ok v) => s.runNodes e r (vals ++ [v]) fl
      | (s, .wait) => (s, .wait)
      | (s, .stop _ a) => (s, .fault vals.length a)
      | (s, .fail x) => (s, .fail x)
    else
      let v := nodeResult e (nodeOp n) ty ((nodeFrom n).getD ty) (nodeImm n) (src (nodeA n)) (src (nodeB n)) (src (nodeC n))
      s.runNodes e r (vals ++ [v.1]) (fl.or v.2)

/-- The value of an OUT node. -/
def Draft.outValue (d : Draft) (op : Nat) (vals : List Nat) : Nat :=
  match (d.nodes.zip vals).find? fun p => nodeOp p.1 == op with
  | some p => p.2
  | none => 0

/-- RunDraft (R233): output values 0 and 1. -/
def State.runDraft (s : State) (d : Draft) (e : DraftEnv) : State × Ran :=
  match s.runNodes e d.nodes [] Flags.none with
  | (s, .ok vals fl) => (s, .ok [d.outValue 30 vals, d.outValue 31 vals] fl)
  | x => x

/-- A tile's draft, which holds no LOOKUP, always answers. -/
def State.runTile (s : State) (d : Draft) (k : Ctx) (ins : List Nat) (idx : Nat) : Nat × Nat × Flags :=
  match (s.runDraft d ⟨ins, idx, 0, k.mode, k.np, 0, Tag.none⟩).2 with
  | .ok [a, b] fl => (a, b, fl)
  | _ => (0, 0, Flags.none)

/-! ### Slots (R222, R223) -/

def Heddle.empty : Heddle := ⟨false, 0, false, Draft.empty, 0⟩
def Tile.slot (t : Tile) (n : Nat) : Heddle := Assoc.get Heddle.empty n t.heddle
def Tile.setHeddle (t : Tile) (n : Nat) (h : Heddle) : Tile := { t with heddle := Assoc.set Heddle.empty n h t.heddle }

/-- Whether the executing context may use a slot: its launch owns it, or it is the monitor (R231). -/
def State.ownsSlot (s : State) (n : Nat) : Bool :=
  s.me.sup || (match s.here.residentOf s.cur.2 with
    | some r => (s.here.slot n).owned && (s.here.slot n).launch == r.index
    | none => false)

/-- Cause 0x08 of a draft that needs more than the use supplies (R233, R243). -/
def draftVal : Word := 0x02000000000000FF

/-- The slot checks of R233, then the draft that the slot holds at issue (R235). DESIGN CHOICE (log 44): causes 0x15, 0x04, 0x07
and 0x08 of a slot, which depend on no register, are raised also while a synchronised source is empty; R65 ranks no park
against a cause. -/
def State.withDraft (s : State) (i : Instr) (slot : BitVec 3) (bad : Draft → Bool) (eff : Draft → State → State) : State :=
  s.heddleOnly i fun s =>
    let h := s.here.slot slot.toNat
    if !s.ownsSlot slot.toNat then s.trap 0x04 (slot.zeroExtend 64)
    else if !h.loaded then s.trap 0x07 (slot.zeroExtend 64)
    else if bad h.draft then s.trap 0x08 draftVal
    else eff h.draft s

/-! ### XOP and XOPX (R233, R234, R422, R423) -/

def execXop (vi : BitVec 1) (slot : BitVec 3) (vd vs1 vs2 : BitVec 4) (g : Guard) (s : State) : Res :=
  .next <| s.withDraft (.xop vi slot vd vs1 vs2 g) slot (fun d => decide ((if vi = 1 then 4 else 2) < d.nin)) fun d s =>
    let v2 := vd ^^^ 1
    let dsts := if d.nout = 2 then [vd, v2] else [vd]
    let vs := [vs1, vs2] ++ (if vi = 1 then [vd, v2] else [])
    s.gated ⟨[], [], vs, dsts, []⟩ fun s =>
      let k := s.me
      let w := Ty.width d.ty
      let lane (r : BitVec 4) (i : Nat) := laneOf (k.getV r) w i
      let run (i : Nat) := s.runTile d k ((vs.map fun r => lane r i).take d.nin) i
      let outs := (List.range (512 / w)).map fun i => if k.active g i then some (run i) else none
      let pick (r : BitVec 4) (f : Nat × Nat × Flags → Nat) : VecBits :=
        packLanes w ((outs.zipIdx).map fun p => match p.1 with | some o => f o | none => lane r p.2)
      let fl := outs.foldl (fun f o => match o with | some x => f.or x.2.2 | none => f) Flags.none
      let k' := k.setV vd (pick vd fun o => o.1)
      let k' := if d.nout = 2 then k'.setV v2 (pick v2 fun o => o.2.1) else k'
      s.done (d.lat + 4) (k'.raise fl)

/-- A lane in an x register: sign-extended for I types, zero-extended for the others (R230). -/
def laneWord (ty : Ty) (x : Nat) : Word := if Ty.signed ty then sext (Ty.width ty) x else BitVec.ofNat 64 x

def execXopx (xd xs1 xs2 : BitVec 5) (slot : BitVec 3) (s : State) : Res :=
  .next <| s.withDraft (.xopx xd xs1 xs2 slot) slot (fun d => decide (2 < d.nin)) fun d s =>
    let xs := [xs1, xs2].take d.nin
    let two := d.nout = 2 ∧ xd ≠ 0
    let x2 := xd ^^^ 1
    s.gated (Uses.x xs (if two then [xd, x2] else [xd])) fun s =>
      let k := s.me
      let ins := xs.map fun r => (k.getX r).toNat % 2 ^ Ty.width d.ty
      let o := s.runTile d k ins 0
      let k' := (k.consume xs).setX xd (laneWord d.ty o.1)
      let k' := if two then k'.setX x2 (laneWord d.ty o.2.1) else k'
      s.done (d.lat + 4) (k'.raise o.2.2)

/-! ### HLOAD and HDROP (R231, R232, R354 to R356) -/

def execHload (xs1 xs2 : BitVec 5) (s : State) : Res :=
  .next <| s.heddleOnly (.hload xs1 xs2) fun s => s.gated (Uses.x [xs1, xs2] []) fun s =>
    let n := (s.me.getX xs1).extractLsb' 0 3
    let a := s.me.getX xs2
    if !s.ownsSlot n.toNat then s.trap 0x04 (n.zeroExtend 64)
    else if a.toNat % 8 ≠ 0 then s.trap 0x03 a
    else if !s.checkAccess s.cur.1 s.cur.2 false .scalar 8 a then s.trap 0x04 a
    else
      match s.me.capacity true false false false false with
      | some r => s.parkMe r
      | none =>
        let k := s.me.consume [xs1, xs2]
        s.done 4 (k.send (k.mkReq (.hload n) 8 0 .none [Elem.one a 8 []] false))

def execHdrop (xs1 : BitVec 5) (s : State) : Res :=
  .next <| s.heddleOnly (.hdrop xs1) fun s => s.gated (Uses.x [xs1] []) fun s =>
    let n := bits (s.me.getX xs1) 0 3
    if !s.ownsSlot n then s.trap 0x04 (BitVec.ofNat 64 n)
    else
      let s := s.done 4 (s.me.consume [xs1])
      s.modHere fun t => t.setHeddle n { t.slot n with loaded := false, draft := Draft.empty }

/-- Aligned words from an address up, each by its own translation, or what the first of them meets. -/
def State.readWords (s : State) (t : TileNo) (q : Tag) (a : Nat) : Nat → State × Got (List Word)
  | 0 => (s, .ok [])
  | n + 1 =>
    match s.readAt t q a 8 with
    | (s, .ok bs) =>
      match s.readWords t q (a + 8) n with
      | (s, .ok ws) => (s, .ok (leWord bs :: ws))
      | x => x
    | (s, .wait) => (s, .wait)
    | (s, .stop x v) => (s, .stop x v)
    | (s, .fail x) => (s, .fail x)

/-- The launch of a context still holds a slot: its task has not ended meanwhile (R222). -/
def Tile.stillOwns (tl : Tile) (c : CtxNo) (n : Nat) : Bool :=
  match tl.residentOf c with
  | some r => !r.ended && (tl.slot n).owned && (tl.slot n).launch == r.index
  | none => false

/-- HLOAD's reads are made and the draft is checked: the slot takes it, or cause 0x08 is delivered; ld falls (R231). -/
def execHloadComplete (t : TileNo) (c : CtxNo) (n : Nat) (s : State) : Res :=
  .next <| match s.req t c n with
  | none => s
  | some q =>
    match q.kind, q.elems, q.phase with
    | .hload slot, e :: _, .issued =>
      if !s.mayPerform t c q [{ e with size := 264 }] || (s.refusal t c q).isSome then s
      else
        let tag := s.tag t c
        match s.readWords t tag e.addr.toNat 1 with
        | (s, .ok (h :: _)) =>
          match s.readWords t tag (e.addr.toNat + 8) (bits h 0 5 + 1) with
          | (s, .ok ns) =>
            let d : Draft := ⟨h, ns⟩
            let s := s.endReq t c q id
            if d.okTile then
              s.modTile t fun tl =>
                if q.sup || tl.stillOwns c slot.toNat then
                  tl.setHeddle slot.toNat { tl.slot slot.toNat with loaded := true, draft := d, src := e.addr }
                else tl
            else s.late t c ⟨0x08, draftVal, none, some (q.num, q.pc), q.sup⟩
          | (s, _) => s
        | (s, _) => s
    | _, _, _ => s

/-! ### AMODR (R236, R334) and the release of the queue (R169, R332) -/

/-- AMODR. DESIGN CHOICE (log 44): its slot causes 0x04, 0x07 and 0x08 come before the register gate, as those of XOPX do. -/
def execAmodr (xd xs1 xs2 : BitVec 5) (slot : BitVec 3) (s : State) : Res :=
  .next <| s.withDraft (.amodr xd xs1 xs2 slot) slot (fun d => decide (2 < d.nin) || d.nout == 2) fun d s =>
    s.gated (Uses.x [xs1, xs2] [xd]) fun s =>
      s.atomicOp (some xd) xs1 [xs1, xs2] (Ty.width d.ty / 8) (.amodr d) (s.me.getX xs2) false false id

/-- The new element of an AMODR and the draft's flags. -/
def State.amodrNew (s : State) (d : Draft) (q : Req) (old : Nat) : Nat × Flags :=
  let e : DraftEnv := ⟨[old, q.data.toNat % 2 ^ Ty.width d.ty].take d.nin, 0, 0, Rm.ofBits (q.frnd.extractLsb' 0 2), q.frnd.getLsbD 3, 0, Tag.none⟩
  match (s.runDraft d e).2 with
  | .ok (v :: _) fl => (v, fl)
  | _ => (old, Flags.none)

/-- The core sends the release of a grant, and the home applies it (R169, R170, R332). A late cause that waited for it is delivered
where its context can take it (R212, R302). -/
def execAmoRelease (t : TileNo) (c : CtxNo) (n : Nat) (s : State) : Res :=
  .next <| match s.req t c n with
  | none => s
  | some q =>
    match q.phase, q.elems with
    | .granted v, e :: _ =>
      let old := elemOfWord v e.addr q.size
      let opd := q.data.toNat % 2 ^ (8 * q.size)
      let fin (s : State) (new : Nat) (fl : Flags) : State :=
        (((s.release t c q new).modReq t c q.seq fun q => { q with phase := .applied v }).modCtx t c fun k => k.raise fl).deliverLate t c
      match q.kind with
      | .amo op => fin s (op.apply q.size old opd) Flags.none
      | .amodr d => let r := s.amodrNew d q old; fin s r.1 r.2
      | .qsig | .barrier => fin s ((old + opd) % 2 ^ 64) Flags.none
      | .sc => fin s opd Flags.none
      | _ => s
    | _, _ => s

/-- The value that an atomic writes to xd: sign-extended, but for an AMODR extended by its ETYPE (R169, R230, R236). -/
def ReqKind.extend (k : ReqKind) (n v : Nat) : Word :=
  match k with
  | .amodr d => laneWord d.ty v
  | _ => sext (8 * n) v

/-- The Ack reaches the core: the old value is written to xd, and the counter falls (R169, R122). -/
def execAmoAck (t : TileNo) (c : CtxNo) (n : Nat) (s : State) : Res :=
  .next <| match s.req t c n with
  | none => s
  | some q =>
    match q.phase, q.kind with
    | .applied v, .amo _ | .applied v, .amodr _ =>
      let a := match q.elems with | e :: _ => e.addr | [] => 0
      s.endReq t c q fun k => k.writeDst q.dst (q.kind.extend q.size (elemOfWord v a q.size))
    | .applied _, _ => s.endReq t c q id
    | _, _ => s

end Sys2Proof.Machine
end

