-- ==== Sys2Proof/Machine/Cards.lean ====
section
/-! DEFINITION. Building job cards: XCOPY, XFILL, WENC, XCOPYM, TRIG, FOLD, SCAN, ZIP and OUTER at issue (R206, R214 to
R216, R237 to R242, R349, R350, R378, R379, R388, R395, R416, R418 to R421, R424, R425). -/

namespace Sys2Proof.Machine

/-! ### Building a card (R206) -/

/-- A card with its operands and footprint, before it has a job number. -/
def Card.mk0 (kind : CardKind) (src dst : Operand) (reads writes : List (Nat × Nat)) : Card :=
  { job := 0, ctx := 0, num := 0, kind := kind, src := src, src2 := Operand.none, dst := dst, fill := 0, handle := 0
    count := none, arg := 0, cmd := 0, other := Operand.none, reads := reads, writes := writes, queue := Tag.none, cls := 0
    since := 0, state := if kind = .trig then .unfired else .queued, engine := 0, promise := none, prog := 0, ahead := [], part := []
    old := [], flags := 0, draft := none, words := [], wrote := [], status := 0, refused := 0, elem := 0, node := 0, line := 0
    dpart := 0, sup := false }

/-- The next job number: 16 bits, skipping 0. -/
def nextJob (j : BitVec 16) : BitVec 16 := if j + 1 = 0 then 1 else j + 1

/-- The class of the launch a context works for; the monitor's own work is C0. -/
def State.classOf (s : State) (t : TileNo) (c : CtxNo) : BitVec 2 :=
  match s.launchOf t c with
  | some r => r.cls
  | none => 0

/-- The end of a card instruction: R153, deliveries to another launch, the counters, then the job number, the record
and the card (R123, R206, R350, R418). -/
def State.buildCard (s : State) (xd : BitVec 5) (xs : List (BitVec 5)) (card : Card) : State :=
  let (t, c) := s.cur
  match s.cardRefusal t c card.reads card.writes with
  | some a => s.trap 0x04 a
  | none =>
    if s.foreignDelivery t c card.writes then s.trap 0x0D (jobVal none 0x18 0)
    else
      match s.me.capacity false false true (card.kind == .xcopym) false with
      | some r => s.parkMe r
      | none =>
        let j := nextJob s.here.jobCtr
        let k := s.me
        let card : Card := { card with
          job := j, ctx := c, num := k.num, queue := s.tag t c, cls := s.classOf t c, since := s.time, sup := k.sup }
        let k := ((k.consume xs).addJob j).setX xd (j.zeroExtend 64)
        let s := s.done 4 { k with cp := k.cp + 1, mx := if card.kind = .xcopym then k.mx + 1 else k.mx }
        s.modHere fun tl => { tl with jobCtr := j, cards := tl.cards ++ [card] }

/-- A card instruction: the status checks, then the card. -/
def State.cardOp (s : State) (xd : BitVec 5) (xs : List (BitVec 5)) (st : Option Nat) (card : Unit → Card) : State :=
  s.checked none st fun s => s.buildCard xd xs (card ())

/-! ### Copies (R214, R418) -/

/-- The checks of a copy (R214): the source, the destination under the source's extents, a WEFT8 destination, overlap. `r198`:
the destination must also meet R198. -/
def State.copyStatus (s : State) (src dst : Operand) (r198 : Bool) : Option Nat :=
  let (t, c) := s.cur
  let g := src.tid.geo
  (s.descStatus t c src g false).orElse fun _ => (s.descStatus t c dst g r198 false).orElse fun _ =>
    if dst.fmt = .weft8 then some 0x11
    else if anyMeet (src.footprint t g) (dst.footprint t g) then some 0x13 else none

/-- The card of a copy. -/
def copyCard (kind : CardKind) (t : TileNo) (src dst : Operand) : Card :=
  Card.mk0 kind src dst (src.footprint t src.tid.geo) (dst.footprint t src.tid.geo)

def execXcopy (xd xs1 xs2 : BitVec 5) (s : State) : Res :=
  let xs := pairRegs xs1 ++ pairRegs xs2
  .next <| s.gated (Uses.x xs [xd]) fun s =>
    let src := s.pair xs1
    let dst := s.pair xs2
    s.cardOp xd xs (s.copyStatus src dst false) fun _ => copyCard .xcopy s.cur.1 src dst

/-- XFILL (R421): the destination alone. -/
def execXfill (xd xs1 xs2 : BitVec 5) (s : State) : Res :=
  let xs := xs1 :: pairRegs xs2
  .next <| s.gated (Uses.x xs [xd]) fun s =>
    let (t, c) := s.cur
    let dst := s.pair xs2
    let st := (s.descStatus t c dst dst.tid.geo false false).orElse fun _ =>
      if dst.fmt = .weft8 ∨ dst.fmt = .acc80 then some 0x11 else none
    s.cardOp xd xs st fun _ =>
      { Card.mk0 .xfill Operand.none dst [] (dst.footprint t dst.tid.geo) with fill := s.me.getX xs1 }

/-- The bytes WENC keeps for a row: 34 a block, in whole sixteens (R214). -/
def wencRow (g : Geo) : Nat := (g.cols * 34 + 511) / 512 * 16

/-- The footprint of a WENC destination: its worst case and its table (R214). -/
def wencRanges (t : TileNo) (dst : Operand) (g : Geo) : List (Nat × Nat) :=
  [(dst.base t, g.rows * g.depth * wencRow g), (dst.tid.rowTab t, 4 * g.rows * g.depth)]

/-- WENC (R416). -/
def execWenc (xd xs1 xs2 : BitVec 5) (s : State) : Res :=
  let xs := pairRegs xs1 ++ pairRegs xs2
  .next <| s.gated (Uses.x xs [xd]) fun s =>
    let (t, c) := s.cur
    let src := s.pair xs1
    let dst := s.pair xs2
    let g := src.tid.geo
    let st := (s.descStatus t c src g false).orElse fun _ => (s.descStatus t c dst g false false).orElse fun _ =>
      if src.fmt ≠ .ty .e4 ∨ dst.fmt ≠ .weft8 then some 0x11
      else if g.cols % 32 ≠ 0 then some 0x12
      else if anyMeet (src.footprint t g) (wencRanges t dst g) then some 0x13 else none
    s.cardOp xd xs st fun _ => Card.mk0 .wenc src dst (src.footprint t g) (wencRanges t dst g)

/-! ### XCOPYM and TRIG (R215, R216, R395, R420) -/

/-- The register of the other pair that an XCOPYM command word names. -/
def cmdPair (w : Word) : BitVec 5 := w.extractLsb' 4 5

/-- The command word is well formed (R215). -/
def cmdOk (w : Word) : Bool := bits w 9 55 == 0 && (cmdPair w).toNat % 2 == 0

/-- The A and B operands of the follow-on, from the copy destination and the other pair. -/
def followPair (w : Word) (dst other : Operand) : Operand × Operand := if w.getLsbD 2 then (other, dst) else (dst, other)

/-- The destination of an instruction, for the gate of its direct sources: one that is also a source `extra`, named through the
value of another register, is tested when that one has been (R113, R114). -/
def destBefore (xd : BitVec 5) (extra : List (BitVec 5)) : List (BitVec 5) := if extra.contains xd then [] else [xd]

/-- XCOPYM: the command word, the accumulator, the copy, then the matrix checks (R205, R420; log 14). DESIGN CHOICE (log 60): a
matrix check that fails at issue gives a `tval` with MATRIX = 0, as the other checks of the card do. -/
def execXcopym (xd xs1 xs2 xs3 : BitVec 5) (s : State) : Res :=
  let xs := pairRegs xs1 ++ pairRegs xs2 ++ [xs3]
  .next <| s.gated (Uses.x xs (destBefore xd (pairRegs (cmdPair (s.me.getX xs3))))) fun s =>
    let w := s.me.getX xs3
    if !cmdOk w then s.trap 0x0D (jobVal none 0x10 0)
    else if !s.me.macc.getLsbD (bits w 0 2) then s.trap 0x12 (BitVec.ofNat 64 (bits w 0 2))
    else
      let all := xs ++ pairRegs (cmdPair w)
      s.gated (Uses.x all [xd]) fun s =>
        let (t, c) := s.cur
        let src := s.pair xs1
        let dst := s.pair xs2
        let other := s.pair (cmdPair w)
        let p := followPair w dst other
        let st := (s.copyStatus src dst true).orElse fun _ => (s.mmaStatus t c .mma p.1 p.2 0).orElse fun _ =>
          if w.getLsbD 3 then s.mzeroStatus t c p.1 p.2 else none
        s.cardOp xd all st fun _ =>
          let k := copyCard .xcopym t src dst
          { k with
            cmd := w, other := other
            reads := k.reads ++ other.footprint t other.tid.geo ++ dst.footprint t dst.tid.geo }

/-- The counter of a trigger word has reached its threshold on tile `t` (R216). -/
def State.trigMet (s : State) (t : TileNo) (w : Word) : Bool :=
  decide (bits w 32 32 ≤ (leWord (Memory.readBytes (s.tile t).ls (bits w 0 20) 8)).toNat)

/-- TRIG: an XCOPY card that waits for a counter, and fires at once where it has the threshold already, after the end of a card
that wrote it (R184, R216, R395). -/
def execTrig (xd xs1 xs2 xs3 : BitVec 5) (s : State) : Res :=
  let xs := pairRegs xs1 ++ pairRegs xs2 ++ [xs3]
  .next <| s.gated (Uses.x xs [xd]) fun s =>
    let w := s.me.getX xs3
    let src := s.pair xs1
    let dst := s.pair xs2
    let st := (s.copyStatus src dst false).orElse fun _ =>
      if bits w 20 12 ≠ 0 ∨ bits w 0 20 % 8 ≠ 0 then some 0x10 else none
    s.cardOp xd xs st fun _ =>
      { copyCard .trig s.cur.1 src dst with cmd := w, state := if s.trigMet s.cur.1 w then .armed else .unfired }

/-! ### The handle word and the stock operators (R237 to R239) -/

def handleX (w : Word) : Bool := w.getLsbD 58
def handleEngine (w : Word) : Nat := bits w 56 2
def handleAxis (w : Word) : Nat := bits w 48 8
def handleOper (w : Word) : Nat := bits w 0 48
/-- A handle of 16 or more names a draft. -/
def handleDraft (w : Word) : Bool := decide (16 ≤ handleOper w)

/-- FOLD and SCAN, as against ZIP and OUTER. -/
def CardKind.along : CardKind → Bool
  | .fold | .scan => true
  | _ => false

/-- Status 0x10 of a handle word (R239). -/
def handleBad (kind : CardKind) (xs3 : BitVec 5) (w : Word) : Bool :=
  let op := handleOper w
  bits w 59 5 != 0 || decide (2 ≤ handleEngine w) || decide ((if kind.along then 2 else 0) < handleAxis w)
    || (decide (12 ≤ op) && decide (op < 16)) || (!kind.along && (op == 8 || op == 9 || op == 11))
    || (decide (16 ≤ op) && op % 8 != 0) || (handleX w && xs3.toNat % 2 == 1)

/-- The format a stock operator combines in: the source's, or FP32 (R238). -/
def combineTy : Fmt → Ty
  | .ty .e4 | .ty .e5 | .weft8 | .acc80 => .f32
  | .ty t => t

/-- The formats a stock operator accepts (R238). -/
def stockAccepts (op : Nat) (ty : Ty) : Bool :=
  if op = 0 then true else if 5 ≤ op ∧ op ≤ 7 then ty.isInt else if op = 10 then ty.isFp else ty.isInt || ty.isFp

/-- The extent along an axis: COLS, ROWS or DEPTH. -/
def Geo.axis (g : Geo) : Nat → Nat
  | 0 => g.cols | 1 => g.rows | _ => g.depth

/-- The number of lines across an axis. -/
def Geo.lines (g : Geo) : Nat → Nat
  | 0 => g.depth * g.rows | 1 => g.depth * g.cols | _ => g.rows * g.cols

/-- The extents with the one along an axis replaced. -/
def Geo.setAxis (g : Geo) (axis n : Nat) : Geo :=
  match axis with
  | 0 => { g with cols := n } | 1 => { g with rows := n } | _ => { g with depth := n }

/-- The geometry of the elements written (R240); SCAN of none writes nothing. DESIGN CHOICE (log 57): a FOLD of none must fit
position 0 of every line also where it has no identity and so leaves that element unchanged (R239, R241). -/
def writtenGeo (kind : CardKind) (axis n : Nat) (a b : Geo) : Geo :=
  match kind with
  | .fold => a.setAxis axis 1
  | .scan => if n = 0 then ⟨0, 0, 0⟩ else a.setAxis axis n
  | .outer => ⟨a.cols, b.cols, 1⟩
  | _ => a

def Geo.within (a b : Geo) : Bool := decide (a.rows ≤ b.rows) && decide (a.cols ≤ b.cols) && decide (a.depth ≤ b.depth)

/-- A format that combines in FP32 in place of its own (R238). -/
def Fmt.widens (f : Fmt) : Bool := f == .ty .e4 || f == .ty .e5 || f == .weft8

/-- Status 0x11 of the formats (R238, R239). -/
def hofFormatBad (kind : CardKind) (w : Word) (src src2 dst : Fmt) : Bool :=
  let srcs := if kind.along then [src] else [src, src2]
  srcs.any (fun f => f == .acc80 || (!handleDraft w && !stockAccepts (handleOper w) (combineTy f))) || dst == .weft8
    || (!kind.along && !handleDraft w && src != src2 && !(src.widens && src2.widens))

/-- Status 0x12 of the geometry (R239, R378, R388, R424). -/
def hofGeoBad (kind : CardKind) (axis n : Nat) (a b d : Geo) : Bool :=
  (match kind with
   | .zip => a != b || decide (2 ^ 32 < a.rows * a.cols * a.depth)
   | .outer => a.rows != 1 || a.depth != 1 || b.rows != 1 || b.depth != 1
   | _ => decide (a.axis axis < n))
  || !(writtenGeo kind axis n a b).within d

/-- n of R240. -/
def hofCount (w : Word) (count : Nat) (g : Geo) : Nat := if handleX w then count else g.axis (handleAxis w)

/-- The checks of R239 in the order of R350. -/
def State.hofStatus (s : State) (kind : CardKind) (xs3 : BitVec 5) (w : Word) (count : Nat) (src src2 dst : Operand) :
    Option Nat :=
  let (t, c) := s.cur
  let m := handleEngine w == 1
  let g := src.tid.geo
  if handleBad kind xs3 w then some 0x10
  else
    (s.descStatus t c src g m).orElse fun _ =>
    (if kind.along then none else s.descStatus t c src2 src2.tid.geo m).orElse fun _ =>
    (s.descStatus t c dst dst.tid.geo m).orElse fun _ =>
    if hofFormatBad kind w src.fmt src2.fmt dst.fmt then some 0x11
    else if hofGeoBad kind (handleAxis w) (hofCount w count g) g src2.tid.geo dst.tid.geo then some 0x12
    else if anyMeet (src.footprint t g ++ (if kind.along then [] else src2.footprint t src2.tid.geo))
        (dst.footprint t dst.tid.geo) then some 0x13
    else none

/-- FOLD, SCAN, ZIP and OUTER at issue (R239, R350, R379, R388, R425): cause 0x15 for a draft handle on a part without
heddle hardware, the checks, the card. DESIGN CHOICE (log 44): the cause comes after the wait for the direct sources and before that
for `x[xs3 + 1]`. -/
def State.hof (s : State) (i : Instr) (kind : CardKind) (xd xs1 xs2 xs3 : BitVec 5) : State :=
  let src := if kind.along then pairRegs xs1 else pairRegs xs1 ++ pairRegs (xs1 + 2)
  let xs := src ++ pairRegs xs2 ++ [xs3]
  let named (w : Word) : List (BitVec 5) := if handleX w && xs3.toNat % 2 == 0 then [xs3 + 1] else []
  s.gated (Uses.x xs (destBefore xd (named (s.me.getX xs3)))) fun s =>
    let w := s.me.getX xs3
    if handleDraft w && !s.part.heddle then s.trap 0x15 (wordOf i)
    else
      let all := xs ++ named w
      s.gated (Uses.x all [xd]) fun s =>
        let t := s.cur.1
        let a := s.pair xs1
        let b := if kind.along then Operand.none else s.pair (xs1 + 2)
        let d := s.pair xs2
        let x := if (named w).isEmpty then 0 else s.me.getX (xs3 + 1)
        s.cardOp xd all (s.hofStatus kind xs3 w (bits x 32 32) a b d) fun _ =>
          let rs := a.footprint t a.tid.geo ++ (if kind.along then [] else b.footprint t b.tid.geo)
          { Card.mk0 kind a d rs (d.footprint t d.tid.geo) with
            src2 := b, handle := w, count := if handleX w then some (bits x 32 32) else none, arg := x.extractLsb' 0 32 }

def execFold (xd xs1 xs2 xs3 : BitVec 5) (s : State) : Res := .next (s.hof (.fold xd xs1 xs2 xs3) .fold xd xs1 xs2 xs3)
def execScan (xd xs1 xs2 xs3 : BitVec 5) (s : State) : Res := .next (s.hof (.scan xd xs1 xs2 xs3) .scan xd xs1 xs2 xs3)
def execZip (xd xs1 xs2 xs3 : BitVec 5) (s : State) : Res := .next (s.hof (.zip xd xs1 xs2 xs3) .zip xd xs1 xs2 xs3)
def execOuter (xd xs1 xs2 xs3 : BitVec 5) (s : State) : Res := .next (s.hof (.outer xd xs1 xs2 xs3) .outer xd xs1 xs2 xs3)

end Sys2Proof.Machine
end

