-- ==== Sys2Proof/Machine/Fetch.lean ====
section
/-! DEFINITION. Choosing the context that issues and fetching its word (R39, R40, R101, R104, R127). -/

namespace Sys2Proof.Machine

/-! ### Issue slots -/

/-- READY and not occupied (R100, R101). -/
def Ctx.canIssue (c : Ctx) (time : Nat) : Bool := c.state == .ready && !c.held && decide (c.busy ≤ time)

/-- A context whose stop is due issues nothing; STOP bit 0 acts on context 0's task only (R306). -/
def Tile.stops (t : Tile) (c : CtxNo) : Bool := t.stopDue c && !(t.ctx c).sup

/-- The addresses of the v registers in the window of context `c` of tile `t` (R118). -/
def ownWindow (t : TileNo) (c : CtxNo) (a : Word) : Bool :=
  let w := 0xFFFFF00000000000 + t.toNat * 2 ^ 24 + 0x120000 + c.toNat * 0x1000
  decide (w + 0x100 ≤ normVa t a) && decide (normVa t a < w + 0x500)

/-- A vector store to a v register of its own context: it takes effect at the context's next instruction boundary, before
another instruction issues (R408). -/
def Req.ownStore (q : Req) (t : TileNo) (c : CtxNo) : Bool :=
  q.kind == .vstore && q.phase == .issued && q.elems.any fun e => !e.done && ownWindow t c e.addr

/-- A context may issue: it can, no STOP bit and no store to its own v registers keeps it (R101, R306, R408). -/
def Tile.mayIssue (t : Tile) (time : Nat) (n : TileNo) (c : CtxNo) : Bool :=
  (t.ctx c).canIssue time && !t.stops c && !((t.ctx c).reqs.any fun q => q.ownStore n c)

/-- A context whose instruction occupies it may try that again. -/
def Tile.mayRetry (t : Tile) (c : CtxNo) : Bool := (t.ctx c).held && (t.ctx c).state == .ready && !t.stops c && !t.quarantined

/-- The first of `n` contexts from `c` upward, wrapping, that can issue (R104). -/
def Tile.search (t : Tile) (time : Nat) (n : TileNo) (c : Nat) : Nat → Option CtxNo
  | 0 => none
  | m + 1 =>
    let k := BitVec.ofNat 4 c
    if t.mayIssue time n k then some k else t.search time n (c + 1) m

/-- The context that takes this cycle's slot: its owner, or the one it is lent to (R101, R104). -/
def Tile.choose (t : Tile) (time : Nat) (n : TileNo) : Option CtxNo :=
  if t.quarantined then none
  else
    let e := Assoc.get 0 (time % 16) t.slots
    let owner := bits e 0 4
    if e.getLsbD 8 then
      if t.mayIssue time n (BitVec.ofNat 4 owner) then some (BitVec.ofNat 4 owner) else t.search time n (owner + 1) 16
    else t.search time n 0 16

/-! ### Fetch -/

/-- One fetched byte: the I-store's byte, or an older one where no FENCE.I or start orders the store (R127). -/
def State.fetchByte (s : State) (t : TileNo) (c : CtxNo) (off : Nat) : Byte × State :=
  let now := Memory.read (s.tile t).istore off
  match (s.ctx t c).stale.filter (·.1 == off) with
  | [] => (now, s)
  | olds =>
    let cand := now :: olds.map (·.2)
    (cand.getD (Config.staleChoice s.freeCtr % cand.length) now, { s with freeCtr := s.freeCtr + 1 })

/-- The instruction a context issues next, as a step of the machine: a decoded instruction, an illegal word (R39,
R64), or a fetch outside the I-store (R40). DESIGN CHOICE (log 41): a PC below 0x1_0000 that is no multiple of 4, which only
the monitor can write, fetches the four bytes from that PC; the manual does not say what it does. -/
def State.fetch (s : State) (t : TileNo) (c : CtxNo) : Instr × State :=
  let pc := (s.ctx t c).pcNow
  if 0x10000 ≤ pc.toNat then (.fetchOutsideTheIstore, s)
  else
    let o := pc.toNat
    let (b0, s) := s.fetchByte t c o
    let (b1, s) := s.fetchByte t c (o + 1)
    let (b2, s) := s.fetchByte t c (o + 2)
    let (b3, s) := s.fetchByte t c (o + 3)
    let w := wordOfBytes b0 b1 b2 b3
    match decode w with
    | .ok i => (i, s)
    | .error _ => (.illegalInstruction w, s)

/-- The code a tile holds: the monitor placement (R324) and the code of its launches (R143). -/
def State.holdsCode (s : State) (t : TileNo) (pc : Nat) : Bool :=
  (match s.hub.monitor with | some (off, len) => decide (off ≤ pc) && decide (pc < off + len) | none => false)
    || (s.tile t).residents.any fun r => !r.ended && decide (r.ioff ≤ pc) && decide (pc < r.ioff + r.isize)

/-- A fetch that fails otherwise: the first of the monitor's fetches from a `tvec` outside the code that the tile holds is a
double trap with cause 0x14 (R304); an uncorrectable error is cause 0x10, precise, and in the monitor a double trap (R304,
R311). -/
def State.fetchError (s : State) (t : TileNo) (c : CtxNo) : Option State :=
  let pc := (s.ctx t c).pcNow
  if (s.ctx t c).sup && (s.tile t).entering && !s.holdsCode t pc.toNat then some (s.quarantine t 0x14)
  else if decide (pc.toNat < 0x10000) && s.poisoned (.istore t pc.toNat) then
    some (if (s.ctx t c).amoHeld then s.modCtx t c fun k => { k with held := true }
      else (s.uncorrected t).trapCtx t c 0x10 pc pc 0 (tstatBits true false false false false))
  else none

/-- What a tile's issue port does this cycle: none when no context can issue, a trap taken at an instruction
boundary, or an instruction of the context in `cur`. -/
inductive Issue where
  | idle (s : State)
  | instr (i : Instr) (s : State)

/-- What a context does that takes a slot, or tries again the instruction that occupies it. -/
def State.runNext (s : State) (t : TileNo) (c : CtxNo) : Issue :=
  if (s.ctx t c).late ≠ [] && (s.ctx t c).takesLate then .idle (s.deliverLate t c)
  else
    match s.fetchError t c with
    | some s => .idle s
    | none =>
      let s := s.modTile t fun tl => { tl with entering := tl.entering && c != 0 }
      let (i, s) := s.fetch t c
      .instr i { s with cur := (t, c) }

/-- The issue port of a tile at a cycle (R101). DESIGN CHOICE (log 60): a context that is chosen and then parks without having issued
uses up the cycle. -/
def State.issue (s : State) (t : TileNo) : Issue :=
  let tl := s.tile t
  if tl.lastIssue = s.time + 1 then .idle s
  else
    match if s.loomRuns then tl.choose s.time t else none with
    | none => .idle s
    | some c => (s.modTile t fun tl => { tl with lastIssue := s.time + 1 }).runNext t c

/-- An instruction that occupies its context is tried again: it has issued, and takes no slot (R100; log 52). -/
def State.retry (s : State) (t : TileNo) (c : CtxNo) : Issue :=
  if s.loomRuns && (s.tile t).mayRetry c then s.runNext t c else .idle s

/-- The first word at a context's fetch address, for an instruction placed from outside (log 9). -/
def Tile.placeWord (t : Tile) (pc nbits w : Nat) : Tile :=
  { t with istore := Memory.writeBytes t.istore pc (leBytes 4 (w % 2 ^ nbits)) }

end Sys2Proof.Machine
end

