-- ==== Sys2Proof/Machine/Engines.lean ====
section
/-! DEFINITION. Running job cards: what one unit of a card does, and the steps of the scheduler, the engines, the
matrix unit's card work and JOBCTL (R72, R74, R84, R90, R96, R116, R184, R204, R205, R207 to R216, R238 to R245, R350,
R351, R379, R388, R416, R419, R420, R425). -/

namespace Sys2Proof.Machine

/-- What one unit of a card answers: it is done, it can do nothing yet, it meets a refusal (R211), an error ends the
card (R211), or nothing is left to do. -/
inductive CardStep where
  | more (k : Card)
  | wait (k : Card)
  | stop (k : Card) (status : Nat) (addr : Word)
  | fail (k : Card) (status : Nat)
  | finish (k : Card) (status : Nat)

/-- Go on with what a read or a write answers. -/
def State.cardGot {α : Type} (r : State × Got α) (k : Card) (f : State → α → State × CardStep) : State × CardStep :=
  match r with
  | (s, .ok v) => f s v
  | (s, .wait) => (s, .wait k)
  | (s, .stop x a) => (s, .stop k x a)
  | (s, .fail x) => (s, .fail k x)

def Card.flag (k : Card) (fl : Flags) : Card := { k with flags := k.flags ||| fl.bits }
def Card.next (k : Card) : Card := { k with prog := k.prog + 1 }

/-- In a kind whose elements run in any order (R177), the next element that a unit takes: the one `i` after the first that is
not done, where that is not done either, else the first. -/
def Card.todo (k : Card) (total i : Nat) : Nat :=
  if i ≠ 0 ∧ k.prog + i < total ∧ !k.ahead.contains (k.prog + i) then k.prog + i else k.prog

/-- Go past elements that are done already. -/
def Card.skip : Nat → Card → Card
  | 0, k => k
  | n + 1, k => if k.ahead.contains k.prog then ({ k with prog := k.prog + 1, ahead := k.ahead.erase k.prog } : Card).skip n else k

/-- Element `e` is done. -/
def Card.did (k : Card) (e : Nat) : Card :=
  if e = k.prog then k.next.skip k.ahead.length else { k with ahead := e :: k.ahead }

/-- The engine as a writer. -/
def Card.writer (k : Card) (t : TileNo) : Writer := ⟨t, k.ctx, k.queue, k.sup, .card k.job⟩

/-! ### Writing (R116, R419) -/

/-- An address lies in a register window. -/
def State.inWindows (s : State) (t : TileNo) (a : Nat) : Bool :=
  match target s.part t (BitVec.ofNat 64 a) with
  | .chip _ off _ => decide (0x120000 ≤ off) && decide (off < 0x130000)
  | _ => false

/-- Write bytes of a card: plain ones at once or behind what waits at their words, those in register windows into the words in
hand, so that each aligned word is written or delivered whole (R116, R118). -/
def State.cardWrite (s : State) (t : TileNo) (k : Card) (bs : List (Nat × Byte)) : State × Got Card :=
  let (chan, plain) := bs.partition fun b => s.inWindows t b.1
  match s.writeBytes (k.writer t) k.writes plain with
  | (s, .ok _) =>
    let wrote := (((s.tile t).cards.find? (·.job == k.job)).map (·.wrote)).getD []
    (s, .ok { k with wrote := wrote, words := chan.foldl (fun w b => (w.filter (·.1 != b.1)) ++ [b]) k.words })
  | (s, .wait) => (s, .wait)
  | (s, .stop x a) => (s, .stop x a)
  | (s, .fail x) => (s, .fail x)

/-- The first aligned word in hand that may be written or delivered: a whole one, or at the card's end any. -/
def Card.readyWord (k : Card) (last : Bool) : Option Nat :=
  (k.words.find? fun b => last || (List.range 8).all fun i => k.words.any fun x => x.1 == b.1 / 8 * 8 + i).map fun b => b.1 / 8 * 8

/-- Bytes put into an aligned word at address `a`. -/
def patchCells (w : Word) (a : Nat) (bs : List Host.Cell) : Word := bs.foldl (fun w b => putByte w (b.1 - a) b.2) w

/-- Write an aligned word of a register window, the bytes that are not given unchanged. -/
def State.putWindow (s : State) (t : TileNo) (sup : Bool) (a : Nat) (bs : List Host.Cell) : State :=
  match target s.part t (BitVec.ofNat 64 a) with
  | .chip o off _ => s.windowPut sup o (off - 0x120000) (patchCells ((s.tile o).windowWord (off - 0x120000)) a bs)
  | _ => s

/-- Write or deliver the words in hand that are ready; false when a delivery finds its inbox full (R116, R118). A word written
only in part keeps the register's other bytes. -/
def State.flushWords (s : State) (t : TileNo) (last : Bool) : Nat → Card → State × Card × Bool
  | 0, k => (s, k, true)
  | fuel + 1, k =>
    match k.readyWord last with
    | none => (s, k, true)
    | some a =>
      let own := k.words.filter fun b => b.1 / 8 * 8 == a
      let rest : Card := { k with words := k.words.filter fun b => b.1 / 8 * 8 != a }
      match s.channelAt t k.sup a with
      | none => (s.putWindow t k.sup a own).flushWords t last fuel rest
      | some (o, c, r) =>
        match s.deliver ⟨c, r, patchCells ((s.ctx o c).getX r) a own, t, k.ctx, none, some (.card k.job), false⟩ o false with
        | (s, .refused) => (s, k, false)
        | (s, _) => s.flushWords t last fuel rest

/-- Nothing is left to compute: the words in hand are delivered, and once every write has been performed and every delivery
has landed the card is at its end (R116, R184). -/
def State.cardFinish (s : State) (t : TileNo) (k : Card) (status : Nat) : State × CardStep :=
  match s.flushWords t true (k.words.length + 1) k with
  | (s, k, true) => if s.postedBy t (.card k.job) then (s, .wait k) else (s, .finish k status)
  | (s, k, false) => (s, .wait k)

/-- The bytes of an element at their addresses. -/
def elemBytes (tl : TileNo) (o : Operand) (g : Geo) (t r c v : Nat) : List (Nat × Byte) :=
  let n := Fmt.size o.fmt
  ((List.range n).map fun b => o.byteAt tl g t r (c * n + b)).zip (leBytes n v)

/-! ### XCOPY, XFILL, WENC (R214, R416, R418, R421) -/

/-- Element `i` in ascending order: its tile, row and column. -/
def Geo.coord (g : Geo) (i : Nat) : Nat × Nat × Nat := (i / (g.cols * g.rows), i / g.cols % g.rows, i % g.cols)
def Geo.total (g : Geo) : Nat := g.rows * g.cols * g.depth

/-- One element of a copy, in any order (R418). -/
def State.copyUnit (s : State) (t : TileNo) (k : Card) (i : Nat) : State × CardStep :=
  let g := k.src.tid.geo
  if g.total ≤ k.prog then s.cardFinish t k 0
  else
    let e := k.todo g.total i
    let (tt, r, c) := g.coord e
    State.cardGot (s.readElement t k.queue k.src g tt r c) k fun s x =>
      match convertElement k.src.tid k.dst.tid x with
      | none => (s, .fail k 0x17)
      | some (v, fl) =>
        State.cardGot (s.cardWrite t k (elemBytes t k.dst g tt r c v)) k fun s k => (s, .more ((k.did e).flag fl))

/-- One element of a fill, copied raw (R421), in any order (R177). -/
def State.fillUnit (s : State) (t : TileNo) (k : Card) (i : Nat) : State × CardStep :=
  let g := k.dst.tid.geo
  if g.total ≤ k.prog then s.cardFinish t k 0
  else
    let e := k.todo g.total i
    let (tt, r, c) := g.coord e
    State.cardGot (s.cardWrite t k (elemBytes t k.dst g tt r c k.fill.toNat)) k fun s k => (s, .more (k.did e))

/-- The blocks of a row: none when an element is a NaN (R84). -/
def wencBlocks : Nat → List Nat → Option (List Byte)
  | 0, _ => some []
  | n + 1, xs =>
    if (xs.take 32).any fun x => x % 128 == 127 then none
    else (wencBlocks n (xs.drop 32)).map fun r => weftWrite (xs.take 32) ++ r

/-- One row of a WENC: its blocks and its table entry, in one step (R214, R416). DESIGN CHOICE (log 57): rows in ascending order.
DESIGN CHOICE (log 66): the multiple of 16 at which a row starts is one of the offset from the destination address. -/
def State.wencUnit (s : State) (t : TileNo) (k : Card) : State × CardStep :=
  let g := k.src.tid.geo
  if g.rows * g.depth ≤ k.prog then s.cardFinish t k 0
  else
    State.cardGot (s.readRow t k.queue k.src g (k.prog / g.rows) (k.prog % g.rows)) k fun s raws =>
      match wencBlocks (g.cols / 32) (raws.map fun x => match x with | .bits n => n | .weft _ => 0) with
      | none => (s, .fail k 0x16)
      | some bs =>
        let off := k.part.headD 0
        let at' (a : Nat) (l : List Byte) : List (Nat × Byte) := l.zipIdx.map fun b => ((a + b.2) % 2 ^ 64, b.1)
        let cells := at' (k.dst.base t + off) bs ++ at' (k.dst.tid.rowTab t + 4 * k.prog) (leBytes 4 off)
        State.cardGot (s.cardWrite t k cells) k fun s k =>
          (s, .more { k.next with part := [(off + bs.length + 15) / 16 * 16] })

/-! ### Combining (R96, R230, R238) -/

/-- The format a card combines in: the draft's ETYPE, or the stock format. -/
def Card.ety (k : Card) : Ty := match k.draft with | some d => d.ty | none => combineTy k.src.fmt

/-- A source element in the combine format, by R74 under RNE (R239) and the NP of the destination entry (R72; log 53). -/
def toCombine (dst src : Tid) (ty : Ty) (x : Raw) : Nat × Flags :=
  match src.format, x with
  | .ty a, .bits n => convert a ty .rne dst.np n
  | f, v => roundTo ty .rne dst.np (rawValue f src.scale v)

/-- A result in the destination's format (R72, R74, R90; ACC80 by R203). -/
def fromCombine (ty : Ty) (dst : Tid) (x : Nat) : Nat × Flags :=
  match dst.format with
  | .ty b => convert ty b dst.mode dst.np x
  | _ => match toAcc (Fmt.lambda (.ty ty)) (elemValue ty x) with
    | some a => (a.toNat, Flags.none)
    | none => (0, Flags.none)

/-- LOGADDEXP2, each step an FP32 operation under RNE (R238). -/
def logAddExp2 (ty : Ty) (x y : Nat) : Nat × Flags :=
  let a := Ty.value ty x
  let b := Ty.value ty y
  if a.isNan || b.isNan then nanOf ty (a.isSig || b.isSig)
  else
    match a, b with
    | .inf p, .inf q => if p = q then (Ty.inf ty p, Flags.none) else (Ty.inf ty false, Flags.none)
    | _, _ =>
      let x := (convert ty .f32 .rne false x).1
      let y := (convert ty .f32 .rne false y).1
      let m := fMinMax .f32 true x y
      let l := fMinMax .f32 false x y
      let d := fSub .f32 .rne l.1 m.1
      let e := exp2 (f32 d.1)
      let p := fAdd .f32 .rne 0x3F800000 e.1
      let g := log2F (f32 p.1)
      let r := fAdd .f32 .rne m.1 g.1
      let z := convert .f32 ty .rne false r.1
      (z.1, d.2.or (e.2.or (p.2.or (g.2.or (r.2.or z.2)))))

/-- ARGMAX and ARGMIN on pairs held as value + 2^32 × position, the lower position on the left (R77, R238). -/
def argOp (isMax : Bool) (ty : Ty) (x y : Nat) : Nat × Flags :=
  let a := x % 2 ^ 32
  let b := y % 2 ^ 32
  if Ty.isFloat ty then
    let u := Ty.value ty a
    let v := Ty.value ty b
    let right := !v.isNan && (u.isNan || (if isMax then fLtTotal u v else fLtTotal v u))
    (if right then y else x, Flags.ifInvalid (u.isSig || v.isSig))
  else
    let right := if isMax then toInt ty a < toInt ty b else toInt ty b < toInt ty a
    (if right then y else x, Flags.none)

/-- A stock operator (R238). -/
def stockOp (op : Nat) (ty : Ty) (x y : Nat) : Nat × Flags :=
  match op with
  | 0 => plain x
  | 1 | 11 => laneAdd ty .rne x y
  | 2 => laneMul ty .rne x y
  | 3 => laneMin ty x y
  | 4 => laneMax ty x y
  | 5 => plain (x &&& y)
  | 6 => plain (x ||| y)
  | 7 => plain (x ^^^ y)
  | 8 => argOp true ty x y
  | 9 => argOp false ty x y
  | _ => logAddExp2 ty x y

/-- The identity of a stock operator: none for PASS, ARGMAX and ARGMIN (R238). -/
def stockIdentity (op : Nat) (ty : Ty) : Option Nat :=
  match op with
  | 1 | 11 => some (redId ty .add)
  | 2 => some (if Ty.isFloat ty then (roundVal ty .rne false (.fin false 1 0)).1 else 1)
  | 3 => some (redId ty .min)
  | 4 => some (redId ty .max)
  | 5 => some (redId ty .and)
  | 6 => some (redId ty .or)
  | 7 => some (redId ty .xor)
  | 10 => some (Ty.inf ty true)
  | _ => none

/-- Whether the combine is associative: every stock operator is (R238). -/
def Card.assoc (k : Card) : Bool := match k.draft with | some d => d.assoc | none => true

/-- The identity of a card's combine (R241). -/
def Card.identity (k : Card) : Option Nat :=
  match k.draft with
  | some d => if d.hasId then some d.ident else none
  | none => stockIdentity (handleOper k.handle) k.ety

/-- What a combine, or several, answer; a fault names the element index of R230 and the node. -/
inductive Folded where
  | ok (stack : List Nat) (flags : Flags)
  | wait
  | fault (elem node : Nat) (addr : Word)
  | fail (status : Nat)

/-- Op(x, y) with element index `idx` (R230, R238). -/
def State.combine (s : State) (t : TileNo) (k : Card) (x y z idx : Nat) : State × Folded :=
  match k.draft with
  | none => let r := stockOp (handleOper k.handle) k.ety x y; (s, .ok [r.1] r.2)
  | some d =>
    match s.runDraft d ⟨[x, y, z].take d.nin, idx, k.arg.toNat, .rne, false, t, k.queue⟩ with
    | (s, .ok outs fl) => (s, .ok [outs.headD 0] fl)
    | (s, .wait) => (s, .wait)
    | (s, .fault n a) => (s, .fault idx n a)
    | (s, .fail x) => (s, .fail x)

/-- Push element `i` on the stack of finished subtrees, merging equal ones: level `j` of the tree of R96. -/
def State.pushTree (s : State) (t : TileNo) (k : Card) (i : Nat) : Nat → List Nat → Nat → Flags → State × Folded
  | _, [], cur, fl => (s, .ok [cur] fl)
  | j, top :: rest, cur, fl =>
    if i.testBit j then
      match s.combine t k top cur 0 (i + 1 - 2 ^ j) with
      | (s, .ok (v :: _) g) => s.pushTree t k i (j + 1) rest v (fl.or g)
      | (s, .ok [] _) => (s, .wait)
      | x => x
    else (s, .ok (cur :: top :: rest) fl)

/-- A number without its lowest bit. -/
def dropLow (n : Nat) : Nat := n &&& (n - 1)

/-- The value of Tree(0, n) from the stack after n pushes: `p` is the lowest position of the right operand (R96). -/
def State.closeTree (s : State) (t : TileNo) (k : Card) : List Nat → Nat → Nat → Flags → State × Folded
  | [], cur, _, fl => (s, .ok [cur] fl)
  | top :: rest, cur, p, fl =>
    match s.combine t k top cur 0 p with
    | (s, .ok (v :: _) g) => s.closeTree t k rest v (dropLow p) (fl.or g)
    | (s, .ok [] _) => (s, .wait)
    | x => x

/-- The stack after element `i`, a leaf of value `v`. -/
def State.pushLeaf (s : State) (t : TileNo) (k : Card) (i v : Nat) (fl : Flags) : State × Folded :=
  if k.assoc then s.pushTree t k i 0 k.part v fl
  else
    match k.part with
    | [] => (s, .ok [v] fl)
    | acc :: _ =>
      match s.combine t k acc v 0 i with
      | (s, .ok st g) => (s, .ok st (fl.or g))
      | x => x

/-- The fold of the elements 0 to i from the stack after i + 1 of them. -/
def State.foldValue (s : State) (t : TileNo) (k : Card) (i : Nat) (stack : List Nat) : State × Folded :=
  match stack with
  | [] => (s, .wait)
  | cur :: rest => if k.assoc then s.closeTree t k rest cur (dropLow (i + 1)) Flags.none else (s, .ok [cur] Flags.none)

/-- Go on with what combines answer; a fault stops the card with status 0x28 and keeps the line and the left-to-right
partial result (R243, R244). -/
def State.cardFold (r : State × Folded) (k : Card) (line : Nat) (f : State → Nat → List Nat → Flags → State × CardStep) :
    State × CardStep :=
  match r with
  | (s, .ok (v :: st) fl) => f s v st fl
  | (s, .ok [] _) | (s, .wait) => (s, .wait k)
  | (s, .fault e n a) =>
    (s, .stop { k with elem := e, node := BitVec.ofNat 8 n, line := line, dpart := if k.assoc then 0 else k.part.headD 0 } 0x28 a)
  | (s, .fail x) => (s, .fail k x)

/-! ### FOLD and SCAN (R240, R241, R350, R388) -/

def Card.axis (k : Card) : Nat := handleAxis k.handle
/-- n of R240. -/
def Card.n (k : Card) : Nat := k.count.getD (k.src.tid.geo.axis k.axis)
def Card.lines (k : Card) : Nat := k.src.tid.geo.lines k.axis

/-- The tile, row and column of position `i` of a line. -/
def Card.lineCoord (k : Card) (line i : Nat) : Nat × Nat × Nat :=
  let g := k.src.tid.geo
  match k.axis with
  | 0 => (line / g.rows, line % g.rows, i)
  | 1 => (line / g.cols, i, line % g.cols)
  | _ => (i, line / g.cols, line % g.cols)

/-- A leaf: converted, squared for SUMSQ, paired with its position for ARGMAX and ARGMIN (R238). -/
def Card.leaf (k : Card) (i : Nat) (x : Raw) : Nat × Flags :=
  let v := toCombine k.dst.tid k.src.tid k.ety x
  match k.draft, handleOper k.handle with
  | none, 11 => let q := laneMul k.ety .rne v.1 v.1; (q.1, v.2.or q.2)
  | none, 8 | none, 9 => (v.1 + 2 ^ 32 * i, v.2)
  | _, _ => v

/-- The result of a fold in the destination's format: a position for ARGMAX and ARGMIN. DESIGN CHOICE (log 70): so for one element too,
whose position is 0, where R241 and R388 speak of the element converted. -/
def Card.result (k : Card) (v : Nat) : Nat × Flags :=
  match k.draft, handleOper k.handle with
  | none, 8 | none, 9 => fromCombine .n32 k.dst.tid (v / 2 ^ 32)
  | _, _ => fromCombine k.ety k.dst.tid v

/-- A draft with one input reads no right operand (R230): of an associative one those are the elements at odd positions and, where
it stands alone, the last; of another all but the first. -/
def Card.unread (k : Card) (i : Nat) : Bool :=
  match k.draft with
  | some d => d.nin == 1 && i != 0 && (!d.assoc || i % 2 == 1 || i + 1 == k.n)
  | none => false

/-- The leaf at position `i` of a line as it is read; one that is not read is no value. -/
def State.readLeaf (s : State) (t : TileNo) (k : Card) (line i : Nat) : State × Got (Nat × Flags) :=
  if k.unread i then (s, .ok (0, Flags.none))
  else
    let (tt, r, c) := k.lineCoord line i
    match s.readElement t k.queue k.src k.src.tid.geo tt r c with
    | (s, .ok x) => (s, .ok (k.leaf i x))
    | (s, .wait) => (s, .wait)
    | (s, .stop x a) => (s, .stop x a)
    | (s, .fail x) => (s, .fail x)

/-- Write the result of a line of a FOLD. -/
def State.writeResult (s : State) (t : TileNo) (k : Card) (line : Nat) (v : Nat × Flags) : State × CardStep :=
  let (tt, r, c) := k.lineCoord line 0
  let k := { k with line := line }
  State.cardGot (s.cardWrite t k (elemBytes t k.dst k.dst.tid.geo tt r c v.1)) k fun s k => (s, .more (k.next.flag v.2))

/-- The computed element that a unit of a SCAN writes, in any order and also before its last combine (R177, R388): the one that
`off` names, counted from 1, or once all are computed the first that is not written; none when the unit computes the next. -/
def Card.toWrite (k : Card) (total off : Nat) : Option Nat :=
  if off ≠ 0 ∧ off ≤ k.prog ∧ !k.ahead.contains (off - 1) then some (off - 1)
  else if k.prog < total then none
  else (List.range total).find? (!k.ahead.contains ·)

/-- Write a computed element of a SCAN. DESIGN CHOICE (log 64): where the write is refused, the line and the partial that DLINE and
DPART show stay those of the last computed element (R244). -/
def State.scanWrite (s : State) (t : TileNo) (k : Card) (e : Nat) : State × CardStep :=
  let (tt, r, c) := k.lineCoord (e / k.n) (e % k.n)
  State.cardGot (s.cardWrite t k (elemBytes t k.dst k.dst.tid.geo tt r c (k.old.getD e 0))) k fun s k =>
    (s, .more { k with ahead := e :: k.ahead })

/-- One element of a FOLD or a SCAN, or one write of a FOLD after its last combine (R184, R350). DESIGN CHOICE (log 57): a FOLD writes
its lines' results in ascending order. -/
def State.foldUnit (s : State) (t : TileNo) (k : Card) : State × CardStep :=
  let n := k.n
  let total := k.lines * n
  if k.prog < total then
    let line := k.prog / n
    let i := k.prog % n
    let k := { k with elem := i, line := line, dpart := if k.assoc then 0 else k.part.headD 0 }
    State.cardGot (s.readLeaf t k line i) k fun s leaf =>
      State.cardFold (s.pushLeaf t k i leaf.1 leaf.2) k line fun s v st fl =>
        let stack := v :: st
        let last := i + 1 == n
        if k.kind = .scan then
          State.cardFold (s.foldValue t k i stack) k line fun s v _ g =>
            let res := k.result v
            (s, .more { k.next.flag (fl.or (g.or res.2)) with part := if last then [] else stack, old := k.old ++ [res.1] })
        else if last then
          State.cardFold (s.foldValue t k i stack) k line fun s v _ g =>
            (s, .more { k.next.flag (fl.or g) with part := [], old := k.old ++ [v] })
        else (s, .more { k.next.flag fl with part := stack })
  else if k.kind = .scan then s.cardFinish t k 0
  else
    let line := k.prog - total
    if k.lines ≤ line then s.cardFinish t k (if n = 0 ∧ k.identity.isNone then 1 else 0)
    else if n = 0 then
      match k.identity with
      | some v => s.writeResult t k line (fromCombine k.ety k.dst.tid v)
      | none => (s, .more k.next)
    else s.writeResult t k line (k.result (k.old.getD line 0))

/-! ### ZIP and OUTER (R240, R379, R425) -/

/-- How many elements a ZIP or an OUTER writes. -/
def Card.pairs (k : Card) : Nat :=
  if k.kind = .zip then k.src.tid.geo.total else k.src.tid.cols * k.src2.tid.cols

/-- Where result `i` goes. -/
def Card.pairCoord (k : Card) (i : Nat) : Nat × Nat × Nat :=
  if k.kind = .zip then k.src.tid.geo.coord i else (0, i / k.src2.tid.cols, i % k.src2.tid.cols)

/-- Whether the combine reads in1, the second source: not a draft with one input (R230). -/
def Card.usesSecond (k : Card) : Bool := match k.draft with | some d => d.nin != 1 | none => true

/-- The second input of an element, in the combine format; 0 where the draft does not read it. -/
def State.readSecond (s : State) (t : TileNo) (k : Card) (tt r c : Nat) : State × Got (Nat × Flags) :=
  if !k.usesSecond then (s, .ok (0, Flags.none))
  else
    match s.readElement t k.queue k.src2 k.src2.tid.geo tt r c with
    | (s, .ok y) => (s, .ok (toCombine k.dst.tid k.src2.tid k.ety y))
    | (s, .wait) => (s, .wait)
    | (s, .stop x a) => (s, .stop x a)
    | (s, .fail x) => (s, .fail x)

/-- Whether the draft reads in2, the destination's element from before the card. -/
def Card.usesOld (k : Card) : Bool := match k.draft with | some d => decide (3 ≤ d.nin) | none => false

/-- One element: first, for a draft that reads in2, every old element; then the results, in any order (R177). -/
def State.pairUnit (s : State) (t : TileNo) (k : Card) (off : Nat) : State × CardStep :=
  let total := k.pairs
  let pre := if k.usesOld then total else 0
  if k.prog < pre then
    let (tt, r, c) := k.pairCoord k.prog
    State.cardGot (s.readElement t k.queue k.dst k.dst.tid.geo tt r c) k fun s x =>
      let z := toCombine k.dst.tid k.dst.tid k.ety x
      (s, .more { k.next.flag z.2 with old := k.old ++ [z.1] })
  else
    let e := k.todo (pre + total) off
    let i := e - pre
    if pre + total ≤ k.prog then s.cardFinish t k 0
    else
      let (tt, r, c) := k.pairCoord i
      let (at', ar, ac) := if k.kind = .zip then (tt, r, c) else (0, 0, r)
      let (bt, br, bc) := if k.kind = .zip then (tt, r, c) else (0, 0, c)
      let k := { k with elem := i }
      State.cardGot (s.readElement t k.queue k.src k.src.tid.geo at' ar ac) k fun s x =>
        State.cardGot (s.readSecond t k bt br bc) k fun s b =>
          let a := toCombine k.dst.tid k.src.tid k.ety x
          State.cardFold (s.combine t k a.1 b.1 (k.old.getD i 0) i) k 0 fun s v _ fl =>
            let res := fromCombine k.ety k.dst.tid v
            State.cardGot (s.cardWrite t k (elemBytes t k.dst k.dst.tid.geo tt r c res.1)) k fun s k =>
              (s, .more ((k.did e).flag (a.2.or (b.2.or (fl.or res.2)))))

/-! ### One unit of any card -/

/-- The inputs a use supplies (R230). -/
def CardKind.inputs : CardKind → Nat
  | .fold | .scan => 2
  | _ => 3

/-- What an on-chip word of a draft meets when a card fetches it: status 0x20 where nothing is there, 0x21 where an engine access
in the mode `sup` of its issue may not read it (R150, R151, R153, R245, R351). -/
def State.draftRefusal (s : State) (t : TileNo) (c : CtxNo) (sup : Bool) (a : Nat) : Option Nat :=
  match target s.part t (BitVec.ofNat 64 a) with
  | .mem => none
  | .bad => some 0x20
  | .chip o off _ =>
    if (placeOf o off).isNone then some 0x20
    else if (s.asIssuer t c sup).checkAccess t c false .card 8 (BitVec.ofNat 64 a) then none else some 0x21

/-- Words of a card's draft from an address up; a refusal names the draft's address. -/
def State.draftWords (s : State) (t : TileNo) (k : Card) (va : Word) (a n : Nat) : State × Got (List Word) :=
  match (List.range n).findSome? fun i => s.draftRefusal t k.ctx k.sup (a + 8 * i) with
  | some x => (s, .stop x va)
  | none => match s.readWords t k.queue a n with
    | (s, .stop x _) => (s, .stop x va)
    | r => r

/-- The draft is fetched when the card starts: status 0x28 with NODE 255 when it fails R229 or R230 (R239). DESIGN CHOICE (log 70):
ELEMENT, DLINE and DPART are then 0. -/
def State.draftUnit (s : State) (t : TileNo) (k : Card) : State × CardStep :=
  let va := sext48 (handleOper k.handle)
  let a := normVa t va
  State.cardGot (s.draftWords t k va a 1) k fun s h =>
    State.cardGot (s.draftWords t k va (a + 8) (bits (h.headD 0) 0 5 + 1)) k fun s ns =>
      let d : Draft := ⟨h.headD 0, ns⟩
      if d.ok && decide (d.nnode ≤ 16) && decide (d.nin ≤ k.kind.inputs) && d.nout == 1 then
        (s, .more { k with draft := some d })
      else (s, .stop { k with elem := 0, node := 255, line := 0, dpart := 0 } 0x28 va)

/-- The card carries a draft handle. -/
def Card.drafted (k : Card) : Bool :=
  (match k.kind with | .fold | .scan | .zip | .outer => true | _ => false) && handleDraft k.handle

/-- One unit of a card; `i` chooses among its elements where their order is free. -/
def State.cardUnit (s : State) (t : TileNo) (k : Card) (i : Nat) : State × CardStep :=
  match s.flushWords t false (k.words.length + 1) k with
  | (s, k, false) => (s, .wait k)
  | (s, k, true) =>
    if k.drafted && k.draft.isNone then s.draftUnit t k
    else match k.kind with
      | .xcopy | .trig | .xcopym => s.copyUnit t k i
      | .xfill => s.fillUnit t k i
      | .wenc => s.wencUnit t k
      | .fold => s.foldUnit t k
      | .scan => match k.toWrite (k.lines * k.n) i with
        | some e => s.scanWrite t k e
        | none => s.foldUnit t k
      | .zip | .outer => s.pairUnit t k i

/-! ### The scheduler and the engines (R207, R208, R242) -/

def Tile.card (t : Tile) (j : BitVec 16) : Option Card := t.cards.find? (·.job == j)
def State.setCard (s : State) (t : TileNo) (k : Card) : State :=
  s.modTile t fun tl => { tl with cards := tl.cards.map fun x => if x.job == k.job then k else x }

/-- The card runs in the tile's matrix unit. -/
def Card.onMatrix (k : Card) : Bool :=
  (match k.kind with | .fold | .scan | .zip | .outer => true | _ => false) && handleEngine k.handle == 1

/-- Two footprints, each of bytes read and of bytes written, overlap with a write in the overlap (R184). -/
def conflict (r w r' w' : List (Nat × Nat)) : Bool := anyMeet w (r' ++ w') || anyMeet r w'

/-- Two cards overlap with a write in the overlap (R184). -/
def Card.conflicts (a b : Card) : Bool := conflict a.reads a.writes b.reads b.writes

/-- No older incomplete card of the tile overlaps it, an unfinished generation of a TREADY among them, and no fence holds it (R181,
R184, R207, R280). -/
def State.cardFree (s : State) (t : TileNo) (k : Card) : Bool :=
  !(((s.tile t).cards.takeWhile (·.job != k.job)).any fun b => b.conflicts k)
    && !(((s.tile t).liveGens t).any fun g => decide (g.st.fired < k.since) && conflict g.reads g.writes k.reads k.writes)
    && !s.fenceHolds t k.ctx k.num 4 (k.reads ++ k.writes)

/-- The place of a card in the matrix unit's order (R242). -/
def Card.matOp (k : Card) : MatOp :=
  { ctx := k.ctx, num := k.num, kind := .card, m := 0, a := k.src, b := k.src2, mrec := 0, vregs := [], reads := k.reads
    writes := k.writes, started := none, job := some k.job, sup := k.sup, posted := none }

/-- Operations take their places in the unit's order (R204, R420): at its end, but ahead of a later operation of their context
that a fence holds, and which may wait for them (R181; log 49). -/
def State.enterUnit (s : State) (t : TileNo) (ops : List MatOp) : State :=
  let held (o : MatOp) : Bool :=
    o.started.isNone && o.kind != .card && ops.any (fun p => p.ctx == o.ctx && decide (p.num < o.num))
      && s.fenceHolds t o.ctx o.num 8 (o.reads ++ o.writes)
  s.modTile t fun tl => { tl with mats := tl.mats.takeWhile (!held ·) ++ ops ++ tl.mats.dropWhile (!held ·) }

/-- The scheduler releases a card; one for the matrix unit takes its place there. -/
def execCardSchedule (t : TileNo) (j : BitVec 16) (s : State) : Res :=
  .next <| match (s.tile t).card j with
  | some k =>
    if k.state = .queued && s.cardFree t k then
      let s := s.setCard t { k with state := .scheduled }
      if k.onMatrix then s.enterUnit t [k.matOp] else s
    else s
  | none => s

/-- A TRIG card fires when its counter has reached the threshold, and is then offered to the scheduler (R216): after the end of
a card that wrote the counter (R184). -/
def execTrigFire (t : TileNo) (j : BitVec 16) (s : State) : Res :=
  .next <| match (s.tile t).card j with
  | some k =>
    if (k.state = .armed || (k.state = .unfired && s.trigMet t k.cmd)) && !s.cardHolds (.ls t (bits k.cmd 0 20)) then s.setCard t { k with state := .queued }
    else s
  | none => s

/-! ### The bytes that a card moves (R208) -/

/-- A byte as it stands when a card is accepted, whatever the TLBs hold; 0 where the card will find none. -/
def State.peek (s : State) (t : TileNo) (q : Tag) (a : Nat) : Byte :=
  let va := BitVec.ofNat 64 a
  match s.reach t q true false va with
  | .place p _ _ => s.readPlace p
  | .miss => match s.walk q va with | some e => s.readPlace (s.transPlace e va) | none => 0
  | _ => 0

def State.peekNat (s : State) (t : TileNo) (q : Tag) (a n : Nat) : Nat := leNat ((List.range n).map fun i => s.peek t q (a + i))

/-- The bytes of `n` WEFT8 blocks from address `a`, each as long as its header says (R80). -/
def State.peekBlocks (s : State) (t : TileNo) (q : Tag) : Nat → Nat → Nat
  | 0, _ => 0
  | n + 1, a => let len := 18 + (s.peek t q a).toNat; len + s.peekBlocks t q n (a + len)

/-- The bytes that reading some rows of an operand takes, whole: a row of WEFT8 is its table entry and its blocks (R195). -/
def State.rowBytes (s : State) (t : TileNo) (q : Tag) (o : Operand) (g : Geo) (rows : List Nat) : Nat :=
  (rows.map fun i => match o.fmt with
    | .weft8 => 4 + s.peekBlocks t q (g.cols / 32) (o.base t + s.peekNat t q (o.tid.rowTab t + 4 * i) 4)
    | f => f.size * g.cols).foldl (· + ·) 0

/-- The bytes that reading a whole operand takes. -/
def State.operandBytes (s : State) (t : TileNo) (q : Tag) (o : Operand) : Nat :=
  s.rowBytes t q o o.tid.geo (List.range (o.tid.rows * o.tid.depth))

/-- The positions of a line of a FOLD or a SCAN that are read. -/
def Card.leaves (k : Card) : List Nat := (List.range k.n).filter (!k.unread ·)

/-- The bytes that a FOLD or a SCAN reads: of the elements that COUNT takes those that the combine reads, and of WEFT8 the rows where
they lie (R195, R240). -/
def State.lineBytes (s : State) (t : TileNo) (k : Card) : Nat :=
  let g := k.src.tid.geo
  let has (i : Nat) : Bool := match k.axis with
    | 0 => k.leaves != []
    | 1 => k.leaves.contains (i % g.rows)
    | _ => k.leaves.contains (i / g.rows)
  match k.src.fmt with
  | .weft8 => s.rowBytes t k.queue k.src g ((List.range (g.rows * g.depth)).filter has)
  | f => f.size * (k.lines * k.leaves.length)

/-- The bytes of blocks and table entries that a WENC writes for some rows, up to the first with a NaN (R84, R214). -/
def State.wencBytes (s : State) (t : TileNo) (k : Card) : List Nat → Nat
  | [] => 0
  | i :: r =>
    let g := k.src.tid.geo
    let xs := (List.range g.cols).map fun c => (s.peek t k.queue (k.src.byteAt t g (i / g.rows) (i % g.rows) c)).toNat
    match wencBlocks (g.cols / 32) xs with
    | none => 0
    | some bs => bs.length + 4 + s.wencBytes t k r

/-- The card with its draft, as it stands in memory, where it is not fetched yet. -/
def State.withItsDraft (s : State) (t : TileNo) (k : Card) : Card :=
  if !(k.drafted && k.draft.isNone) then k
  else
    let a := normVa t (sext48 (handleOper k.handle))
    let word (i : Nat) : Word := BitVec.ofNat 64 (s.peekNat t k.queue (a + 8 * i) 8)
    { k with draft := some ⟨word 0, (List.range (bits (word 0) 0 5 + 1)).map fun i => word (i + 1)⟩ }

/-- The bytes that a card with its draft reads. -/
def State.bytesRead (s : State) (t : TileNo) (k : Card) : Nat :=
  match k.kind with
  | .xfill => 0
  | .xcopy | .trig | .xcopym | .wenc => s.operandBytes t k.queue k.src
  | .fold | .scan => s.lineBytes t k
  | .zip | .outer =>
    s.operandBytes t k.queue k.src + (if k.usesSecond then s.operandBytes t k.queue k.src2 else 0)
      + (if k.usesOld then k.dst.fmt.size * k.pairs else 0)

/-- The bytes that a card with its draft writes. -/
def State.bytesWritten (s : State) (t : TileNo) (k : Card) : Nat :=
  match k.kind with
  | .wenc => s.wencBytes t k (List.range (k.src.tid.rows * k.src.tid.depth))
  | .xfill => k.dst.fmt.size * k.dst.tid.geo.total
  | .xcopy | .trig | .xcopym => k.dst.fmt.size * k.src.tid.geo.total
  | .fold => if k.n = 0 ∧ k.identity.isNone then 0 else k.dst.fmt.size * k.lines
  | .scan => k.dst.fmt.size * (k.lines * k.n)
  | .zip | .outer => k.dst.fmt.size * k.pairs

/-- The bytes that the engine moves for a card of tile `t`: the larger of what it reads and what it writes, by what stands in memory
when it is accepted; the draft, the tables of its LOOKUPs, and what the operation after an XCOPYM reads are not among them.
DEDUCED (log 29). -/
def State.moved (s : State) (t : TileNo) (k : Card) : Nat :=
  let k := s.withItsDraft t k
  max (s.bytesRead t k) (s.bytesWritten t k)

/-- A promise an engine may give now (R208). -/
def State.promiseOk (s : State) (t : TileNo) (k : Card) (p : Word) : Bool :=
  decide (s.time ≤ p.toNat) && (k.cls != 0 || decide (p.toNat ≤ s.time + 1320 + (s.moved t k + 154) / 155))

/-- The order in which the scheduler of a die assigns cards: class, issue time, tile (R207). -/
def Card.before (a : Card) (ta : TileNo) (b : Card) (tb : TileNo) : Bool :=
  decide (a.cls.toNat < b.cls.toNat) || (a.cls == b.cls &&
    (decide (a.since < b.since) || (a.since == b.since && decide (ta.toNat < tb.toNat))))

/-- No card that waits for an engine of the die goes first. -/
def State.isNext (s : State) (t : TileNo) (k : Card) : Bool :=
  (s.tileNos.filter fun o => dieOf o == dieOf t).all fun o =>
    (s.tile o).cards.all fun b => b.state != .scheduled || b.onMatrix || !b.before o k t

/-- The unit has started the card's place in its order (R204). -/
def Tile.cardStarted (t : Tile) (j : BitVec 16) : Option Nat :=
  match t.mats with
  | o :: _ => if o.job = some j ∧ o.kind = .card then o.started else none
  | [] => none

/-- An engine, or the matrix unit, accepts a card with a promise (R208, R242). -/
def execEngineAccept (t : TileNo) (j : BitVec 16) (e : BitVec 5) (p : Word) (s : State) : Res :=
  .next <| match (s.tile t).card j with
  | some k =>
    let turn := if k.onMatrix then ((s.tile t).cardStarted j).isSome else decide (e.toNat < 24) && s.isNext t k
    if k.state = .scheduled && turn && s.promiseOk t k p then
      let s := s.setCard t { k with state := .running, engine := if k.onMatrix then 0 else e, promise := some p }
      s.modCtx t k.ctx fun c => c.modJob j fun r => { r with promise := some p }
    else s
  | none => s

/-! ### The ends of a card (R209, R211, R212) -/

/-- A card ends with a status; an error is also delivered to its context. -/
def State.cardError (s : State) (t : TileNo) (k : Card) (m : Option (BitVec 2)) (status : Nat) : State :=
  let s := if status = 0x22 then s.uncorrected t else s
  (s.endCard t k (BitVec.ofNat 8 status)).late t k.ctx ⟨0x0D, jobVal m status k.job.toNat, none, none, k.sup⟩

/-- The elements a card of the matrix unit handles, for its time (R242). -/
def Card.elements (k : Card) : Nat :=
  match k.kind with
  | .fold | .scan => k.lines * k.n
  | _ => k.pairs

/-- Whether a card may run now, and whether its time has passed: always on an engine, by R204 in the matrix unit. -/
def State.cardMayRun (s : State) (t : TileNo) (k : Card) : Bool × Bool :=
  if k.onMatrix then
    match (s.tile t).cardStarted k.job with
    | some b => (true, decide (b + (k.elements + 31) / 32 + 24 ≤ s.time))
    | none => (false, false)
  else (true, true)

/-- Up to `n` units of a card, and its end when nothing is left; an error ends it once its writes have been performed. -/
def State.runUnits (s : State) (t : TileNo) (late : Bool) (i : Nat) : Nat → Card → State
  | 0, k => s.setCard t k
  | n + 1, k =>
    match s.cardUnit t k i with
    | (s, .more k) => s.runUnits t late i n k
    | (s, .wait k) | (s, .stop k _ _) => s.setCard t k
    | (s, .fail k x) => if s.postedBy t (.card k.job) then s.setCard t k else s.cardError t k none x
    | (s, .finish k x) => if k.kind = .xcopym || !late then s.setCard t k else s.endCard t k (BitVec.ofNat 8 x)

/-- An engine runs units of a card, each on the element that `r` names where their order is free (R177, R184, R211). -/
def execCardCompletion (t : TileNo) (j : BitVec 16) (r : CardRun) (s : State) : Res :=
  .next <| match (s.tile t).card j with
  | some k =>
    let (run, late) := s.cardMayRun t k
    if k.state = .running && run then s.runUnits t late r.pick r.units k else s
  | none => s

/-- The address whose walk refused a card that stops: `a`, or of a draft that reaches into a second page, whose refusal names the
draft's address (R239), that of the page, where the first one is reached. -/
def State.refusedWalk (s : State) (t : TileNo) (k : Card) (a : Word) : Word :=
  match k.drafted && k.draft.isNone, s.reach t k.queue true false a with
  | true, .place _ _ _ => BitVec.ofNat 64 ((a.toNat / 65536 + 1) * 65536)
  | _, _ => a

/-- A card stops at a refusal or a draft fault, which sets PKGERR.MEM when it is for an uncorrectable error in a table (R327): no
log entry, cp stays, and the context takes cause 0x0D, or 0x08 for a
draft fault (R211, R213, R243). DESIGN CHOICE (log 64): of the elements that are not done only the lowest stops it. -/
def execCardStop (t : TileNo) (j : BitVec 16) (s : State) : Res :=
  .next <| match (s.tile t).card j with
  | some k =>
    if k.state = .running && (s.cardMayRun t k).1 then
      match s.cardUnit t k 0 with
      | (s, .stop k x a) =>
        let k := { k with state := .stopped, status := BitVec.ofNat 8 x, refused := a }
        let s := (s.setCard t k).modTile t fun tl =>
          { tl with selected := some j, mats := tl.mats.filter (·.job != some j) }
        let s := s.walkFault t k.queue (if x = 0x28 then a else s.refusedWalk t k a)
        if x = 0x28 then s.late t k.ctx ⟨0x08, k.faultVal, none, none, k.sup⟩
        else s.late t k.ctx ⟨0x0D, jobVal none x j.toNat, none, none, k.sup⟩
      | _ => s
    else s
  | none => s

/-! ### XCOPYM and the matrix unit's completions (R204, R205, R209, R420) -/

/-- The copy has landed: MZERO, if asked for, and the MMA take their places in the unit's order (R420). -/
def execXcopymFollowOn (t : TileNo) (j : BitVec 16) (s : State) : Res :=
  .next <| match (s.tile t).card j with
  | some k =>
    if k.state = .running && k.kind = .xcopym then
      match s.cardUnit t k 0 with
      | (s, .finish k _) =>
        let p := followPair k.cmd k.dst k.other
        let m := k.cmd.extractLsb' 0 2
        let op (kind : MatKind) : MatOp :=
          { ctx := k.ctx, num := k.num, kind := kind, m := m, a := p.1, b := p.2, mrec := 0, vregs := []
            reads := accRange t m :: matReads t kind p.1 p.2 0, writes := [], started := none, job := some j, sup := k.sup
            posted := none }
        (s.setCard t { k with state := .follow }).enterUnit t ((if k.cmd.getLsbD 3 then [op .mzero] else []) ++ [op .mma])
      | _ => s
    else s
  | none => s

/-- What an operation of the unit does, once: an MREAD whose writes wait in FIFOs has done it already, and is done when they
have been performed (R171, R205). -/
def State.runOnce (s : State) (t : TileNo) (o : MatOp) : MatDone :=
  match o.posted with
  | some (fl, inex) => if s.postedBy t (.matrix o.num) then .wait s else .done s (Flags.ofBits fl) inex
  | none =>
    match s.runMat t o with
    | .done s fl inex =>
      if s.postedBy t (.matrix o.num) then
        .wait (s.modTile t fun tl => { tl with mats := match tl.mats with
          | p :: rest => { p with posted := some (fl.bits, inex) } :: rest
          | [] => [] })
      else .done s fl inex
    | r => r

/-- The first operation of the unit ends once its cycles have passed: its last write, its flags, mx, or for an XCOPYM
the card's end (R76, R204, R205, R420). DESIGN CHOICE (log 49): its operands are read and its results written in this one step;
the manual says only that they are read after issue (R185, R204). -/
def execMatrixOpComplete (t : TileNo) (s : State) : Res :=
  .next <| match (s.tile t).mats with
  | o :: rest =>
    match o.started with
    | some b =>
      if o.kind = .card || s.time < b + o.cycles (s.hub.actual == 1) then s
      else
        let off (s : State) : State := s.modTile t fun tl => { tl with mats := rest }
        let card := o.job.bind (s.tile t).card
        match s.runOnce t o with
        | .wait s => s
        | .done s fl inex =>
          let s := (off s).modCtx t o.ctx fun k => k.raiseMat o.m fl inex
          match o.job, o.kind, card with
          | some _, .mzero, _ => s
          | some _, _, some k => s.endCard t k 0
          | some _, _, none => s
          | none, _, _ => s.modCtx t o.ctx fun k => { k with mx := k.mx - 1 }
        | .fail s x =>
          let s := off s
          match card with
          | some k => s.cardError t k (some o.m) x
          | none =>
            let s := if x = 0x22 then s.uncorrected t else s
            (s.modCtx t o.ctx fun k => { k with mx := k.mx - 1 }).late t o.ctx
              ⟨0x0D, jobVal (some o.m) x 0, none, none, o.sup⟩
    | none => s
  | [] => s

/-! ### JOBCTL (R213, R244) -/

/-- The JOBCTL write that a control request carries: its operation and the stopped card it names. A must-be-0 bit, or a
card that is not stopped, makes it no operation. -/
def State.jobctl (s : State) (t : TileNo) (c : CtxNo) (n : Nat) : Option (Req × TileNo × Nat × Option Card) :=
  match s.req t c n with
  | none => none
  | some q =>
    match q.kind, q.phase, q.elems with
    | .control o, .issued, e :: _ =>
      if e.addr.toNat % 2 ^ 24 = 0x150100 && s.mayPerform t c q q.elems then
        let k := (s.tile o).card (q.data.extractLsb' 0 16)
        let ok := bits q.data 18 46 == 0 && (match k with | some k => k.state == .stopped | none => false)
        some (q, o, if ok then bits q.data 16 2 else 3, if ok then k else none)
      else none
    | _, _, _ => none

/-- OP 0 selects; a write without effect ends here too. -/
def execJobctlSelect (t : TileNo) (c : CtxNo) (n : Nat) (s : State) : Res :=
  .next <| match s.jobctl t c n with
  | some (q, o, 0, some k) => (s.modTile o fun tl => { tl with selected := some k.job }).endReq t c q id
  | some (q, _, 3, _) => s.endReq t c q id
  | _ => s

/-- OP 1: the card goes on from where it stopped, with a new promise (R208, R213, R244); a SCAN first writes again what it wrote
before (R388). No stopped card is then the one that the last write named: none is selected (R213). -/
def execJobctlResume (t : TileNo) (c : CtxNo) (n : Nat) (p : Word) (s : State) : Res :=
  .next <| match s.jobctl t c n with
  | some (q, o, 1, some k) =>
    if s.promiseOk o k p then
      let ahead := if k.kind = .scan then [] else k.ahead
      let s := s.setCard o { k with state := .running, promise := some p, status := 0, ahead := ahead }
      let s := s.modTile o fun tl => { tl with selected := none }
      let s := if k.onMatrix then s.enterUnit o [k.matOp] else s
      (s.modCtx o k.ctx fun x => x.modJob k.job fun r => { r with promise := some p }).endReq t c q id
    else s
  | _ => s

/-- OP 2: the card ends with STATUS 0x2F, once its writes have been performed (R184, R213), and none is selected. -/
def execJobctlAbort (t : TileNo) (c : CtxNo) (n : Nat) (s : State) : Res :=
  .next <| match s.jobctl t c n with
  | some (q, o, 2, some k) =>
    if s.postedBy o (.card k.job) then s
    else ((s.endCard o k 0x2F).modTile o fun tl => { tl with selected := none }).endReq t c q id
  | _ => s

end Sys2Proof.Machine
end

