-- ==== Sys2Proof/Machine/Links.lean ====
section
/-! DEFINITION. Scale-out links: training, replay, retraining, credits and audits, and loom time between packages (R287
to R289). -/

namespace Sys2Proof.Machine

def State.link (s : State) (p : BitVec 4) : Link := Assoc.get Link.reset p.toNat s.links
def State.setLink (s : State) (p : BitVec 4) (l : Link) : State := { s with links := Assoc.set Link.reset p.toNat l s.links }

/-- The part has the port and its link is trained. -/
def State.linkUp (s : State) (p : BitVec 4) : Bool := decide (p.toNat < s.part.ports) && (s.link p).trained && s.loomRuns

/-- The flits of a packet: a header and 64-byte data flits (R251). -/
def flitsOf (bytes : Nat) : Nat := 1 + (bytes + 63) / 64

/-- A packet of a collective crosses a link on WAVE (R251, R284). -/
def Link.room (l : Link) (n : Nat) : Bool := decide (Assoc.get 0 Vc.wave.key l.used + n ≤ Config.linkSlots)

/-- The flits of a packet leave by a port: they are counted, they fill slots of the partner's channel, they are kept until
acknowledged, and they carry the acknowledgement and the credits due. A tag flit follows every 64 link flits (R287,
R288). -/
def State.linkPut (s : State) (p : BitVec 4) (bytes : Nat) (c : Chunk) : State :=
  let l := s.link p
  let n := flitsOf bytes
  let flits := (List.range n).map fun i => (l.sendSeq + BitVec.ofNat 12 (i + 1), s.time)
  let credit := min 255 (Assoc.get 0 Vc.wave.key l.owed)
  let seq := l.sendSeq + BitVec.ofNat 12 n
  let l' : Link := { l with
    sendSeq := seq, sent := l.sent + BitVec.ofNat 32 n, replay := l.replay ++ flits
    used := Assoc.set 0 Vc.wave.key (Assoc.get 0 Vc.wave.key l.used + n) l.used
    owed := Assoc.set 0 Vc.wave.key (Assoc.get 0 Vc.wave.key l.owed - credit) l.owed
    returned := l.returned + BitVec.ofNat 32 credit, sinceTag := (l.sinceTag + n) % 64 }
  let s := (s.setLink p l').answer (.chunk { c with port := some p } ⟨seq, n, l.recvSeq, BitVec.ofNat 8 credit, .wave⟩)
  if 64 ≤ l.sinceTag + n then s.answer (.tag p) else s

/-- A packet with `bytes` bytes of payload goes to a port. It waits, behind the ones that wait already, during a retrain
and while its virtual channel has no credits for it (R288); a port without a trained link loses it. -/
def State.linkSend (s : State) (p : BitVec 4) (bytes : Nat) (c : Chunk) : State :=
  let l := s.link p
  if !s.linkUp p then s
  else if l.retraining || !l.held.isEmpty || !l.room (flitsOf bytes) then s.setLink p { l with held := l.held ++ [(bytes, c)] }
  else s.linkPut p bytes c

/-- The packets that wait at a port go on, in order, as far as there are credits (R288). -/
def State.linkPump (s : State) (p : BitVec 4) : State :=
  if !s.linkUp p || (s.link p).retraining then s
  else
    let held := (s.link p).held
    held.foldl (fun s q => s.linkSend p q.1 q.2) (s.setLink p { s.link p with held := [] })

/-- The replay buffer without the flits up to an acknowledged one. -/
def ackFlits (ack : BitVec 12) (l : List (BitVec 12 × Nat)) : List (BitVec 12 × Nat) :=
  match l.findIdx? (·.1 == ack) with
  | some i => l.drop (i + 1)
  | none => l

/-- Credits of a virtual channel come back. -/
def Link.credit (l : Link) (vc : Vc) (n : Nat) : Link :=
  { l with credits := l.credits + BitVec.ofNat 32 n, used := Assoc.set 0 vc.key (Assoc.get 0 vc.key l.used - n) l.used }

/-- The flits of a packet arrive by a port, the last of them with sequence number `seq`. What they acknowledge leaves the
replay buffer. In sequence they are taken: they are counted, and their slots, which a router empties at once, are owed to
the partner; out of sequence they are flits that a replay brings again, or that follow a bad one, and they are dropped,
with their credit return (R172, R287, R288). The answer says whether the packet is taken. -/
def State.linkReceive (s : State) (p : BitVec 4) (bytes : Nat) (seq ack : BitVec 12) (credit : BitVec 8) : State × Bool :=
  let l := s.link p
  let n := flitsOf bytes
  let l := { l with replay := ackFlits ack l.replay }
  if seq = l.recvSeq + BitVec.ofNat 12 n then
    let l := l.credit .wave credit.toNat
    ((s.setLink p { l with
      recvSeq := seq, recv := l.recv + BitVec.ofNat 32 n
      owed := Assoc.set 0 Vc.wave.key (Assoc.get 0 Vc.wave.key l.owed + n) l.owed }).linkPump p, true)
  else (s.setLink p l, false)

/-- A receiver sends its count of free slots: all of them, since a router empties them at once. It owes no credits of the
channel any more (R288). -/
def State.sendSlots (s : State) (p : BitVec 4) : State :=
  (s.setLink p { s.link p with owed := Assoc.set 0 Vc.wave.key 0 (s.link p).owed }).answer (.credit p .wave Config.linkSlots)

/-- The bits of TIMECTL. -/
def timeMaster (w : Word) : Bool := w.getLsbD 0
def timePort (w : Word) : BitVec 4 := w.extractLsb' 4 4

/-- A link is trained with new keys and a measured delay, or not: `ok` stands for the training itself and for the two ends
having authenticated each other by their device certificates (R287, R289, R325; log 51). A change of TIMECTL takes effect at
the training of the link it names, and of any link when it makes this package the master (R326). -/
def execLinkTraining (port : BitVec 4) (ok : Bool) (delay : BitVec 16) (s : State) : Res :=
  .next <| if s.part.ports ≤ port.toNat ∨ s.loomRuns = false then s
  else if !ok then s.setLink port Link.reset
  else
    let h : Hub := s.hub
    let named := timeMaster h.timectl || timePort h.timectl == port
    let h : Hub := { h with timeRole := if named then h.timectl else h.timeRole
                            synced := if named then timeMaster h.timectl else h.synced }
    let s := s.setLink port { Link.reset with
      trained := true, key := Config.sessionKey s.freeCtr, delay := delay.toNat, lastCorrect := s.time }
    { s with hub := h, freeCtr := s.freeCtr + 1 }

/-- A flit with a bad CRC, or the 64 flits of a tag that does not match: when they came here they are dropped, and
since a credit return may be lost with them the receiver sends its free slots (R288); the partner's bad flits are sent
again from the buffer, and one that is still unacknowledged at 4096 cycles retrains the link (R287). -/
def execLinkReplay (e : FlitError) (s : State) : Res :=
  .next <| let port := e.port
  let l := s.link port
  if !s.linkUp port || l.retraining then s
  else if e.here then s.sendSlots port
  else if l.replay.any fun f => decide (f.2 + 4096 ≤ s.time) then s.setLink port { l with retraining := true }
  else if l.replay = [] then s
  else s.answer (.replayed port (l.replay.map (·.1)))

/-- A retrain ends: traffic resumes in order, or the link has failed and PKGERR.LINK is set (R288, R327). DESIGN CHOICE (log 35): the
age of a flit that is sent again starts anew (R287). -/
def execLinkRetrain (port : BitVec 4) (ok : Bool) (s : State) : Res :=
  .next <| let l := s.link port
  if !s.linkUp port || !l.retraining then s
  else if ok then
    let s := s.setLink port { l with
      retraining := false, mismatches := [], replay := l.replay.map fun f => (f.1, s.time) }
    let s := if l.replay = [] then s else s.answer (.replayed port (l.replay.map (·.1)))
    s.linkPump port
  else
    let s := s.setLink port Link.reset
    ({ s with hub := { s.hub with pkgLink := true } } : State).answer (.msix 0)

/-- The audit flit of a port (R288, R289). -/
def State.audit (s : State) (port : BitVec 4) : State :=
  let l := s.link port
  (s.setLink port { l with auditDue := false }).answer (.audit port l.sent l.credits (BitVec.ofNat 64 s.time))

/-- An audit flit is sent; during a retrain it is held until the link is trained (R288). -/
def State.auditNow (s : State) (port : BitVec 4) : State :=
  if (s.link port).retraining then s.setLink port { s.link port with auditDue := true } else s.audit port

/-- Every 2^16 cycles a sender sends an audit flit (R288). -/
def execAuditSend (port : BitVec 4) (s : State) : Res :=
  .next <| if s.linkUp port && (s.time % 65536 == 0 || (s.link port).auditDue) then s.auditNow port else s

/-- Loom time is corrected toward the partner's, by one count at most once in 4096 cycles (R289): a count is added by a
further tick, or one is skipped. -/
def State.correct (s : State) (port : BitVec 4) (tm : Word) : State :=
  let h : Hub := s.hub
  let l := s.link port
  if timeMaster h.timeRole || timePort h.timeRole != port then s
  else
    let there := tm.toNat + l.delay
    let near := decide (there ≤ s.time + 8) && decide (s.time ≤ there + 8)
    let due := decide (l.lastCorrect + 4096 ≤ s.time)
    let s : State := { s with hub := { h with synced := near, skip := h.skip || (due && decide (there < s.time)) } }
    if due && there != s.time then
      let s := s.setLink port { l with lastCorrect := s.time }
      if s.time < there then { s with agenda := .tick :: s.agenda } else s
    else s

/-- An audit flit arrives: its counts are compared with the receiver's own, and its loom time corrects this package's. On
a mismatch the receiver sends its count of free slots; three mismatches within 2^20 cycles retrain the link (R288,
R289). A received count of free slots is adopted (R288). -/
def execAuditFlit (port : BitVec 4) (sent credits : BitVec 32) (m : AuditMsg) (s : State) : Res :=
  .next <| let l := s.link port
  if !s.linkUp port then s
  else match m with
    | .slots vc n =>
      (s.setLink port { l with used := Assoc.set 0 vc.key (Config.linkSlots - n) l.used }).linkPump port
    | .counts tm =>
      let s :=
        if sent = l.recv ∧ credits = l.returned then s
        else
          let ms := (l.mismatches.filter fun m => decide (s.time < m + 2 ^ 20)) ++ [s.time]
          (s.setLink port { l with mismatches := ms, retraining := l.retraining || decide (3 ≤ ms.length) }).sendSlots port
      s.correct port tm

/-- A parity error in a credit counter forces an audit at once (R288). -/
def execCreditCounterParityError (port : BitVec 4) (s : State) : Res :=
  .next <| if s.linkUp port then s.auditNow port else s

end Sys2Proof.Machine
end

