-- ==== Sys2Proof/Machine/Collectives.lean ====
section
/-! DEFINITION. Collectives: the tile table, TTSET, TREADY and TSTAT, and the routers' waves, acknowledgements, alternate
placements and failures (R276 to R286, R392, R399, R400, R427). -/

namespace Sys2Proof.Machine

/-! ### The checks of an image (R278, R279) -/

/-- The fields of an endpoint are good: the must-be-0 bits, PORT 0 without REMOTE, and, of an endpoint that exists, its tile or
its port. DESIGN CHOICE (log 16): the ports of a part are numbered from 0, those of a part with 8 are ports 0 to 7; R11 gives
their count and edges, and no numbers. -/
def State.epOk (s : State) (n : Nat) : Bool :=
  n / 2 ^ 16 % 4 == 0 && (epRemote n || epPort n == 0)
    && (!n.testBit 19 || (if epRemote n then decide ((epPort n).toNat < s.part.ports) else decide ((epTile n).toNat < s.part.tiles)))

/-- Whether a packet that came by `port` from tile `o` comes from an endpoint. -/
def epIs (n : Nat) (port : Option (BitVec 4)) (o : TileNo) : Bool :=
  n.testBit 19 && epTile n == o && (match port with | some p => epRemote n && epPort n == p | none => !epRemote n)

/-- The stock operators of a router on a type (R276, R279). -/
def ttStockOk (op : Nat) (ty : Ty) : Bool :=
  (1 ≤ op && op ≤ 4) || (5 ≤ op && op ≤ 7 && ty.isInt) || (op == 10 && ty.isFp)

/-- The checks of an image, at TTSET and at TREADY: the status of the first that fails (R279). -/
def State.ttStatus (s : State) (t : TileNo) (c : CtxNo) (e : List Word) (fire : Bool) : Option Nat :=
  let w := ttW e
  let n := Ty.width (ttType e) / 8
  let kids := (ttKids e).map (·.testBit 19)
  let task (o : TileNo) : Bool := match s.launchOf t c with | some r => s.hasTask o r.id | none => false
  let big := decide (8 < bits (w 0) 48 4)
  if (fire && !ttValid e) || ttKind e == 3 || bits (w 0) 60 4 != 0 || (w 0).getLsbD 54 || bits (w 1) 32 32 != 0
      || bits (w 2) 48 16 != 0 || bits (w 3) 48 16 != 0 || bits (w 4) 60 4 != 0 || bits (w 5) 53 11 != 0
      || bits (w 6) 20 44 != 0 || w 7 != 0 || ttCount e == 0 || (ttKind e == 2 && ttOper e != 0)
      || (decide (16 ≤ ttOper e) && ttOper e % 8 != 0) || (!big && (ttSrc t e % n != 0 || ttDst t e % n != 0))
      || !(kids == (kids.filter id) ++ (kids.filter (!·))) || !(ttParent e :: ttKids e).all s.epOk || ttCtr e % 8 != 0
      || (match ttAlt e with | some o => o == t || !task o | none => false) then some 0x10
  else if big || (ttKind e != 2 && decide (ttOper e < 16) && !ttStockOk (ttOper e) (ttType e)) then some 0x11
  else none

/-! ### TTSET, TREADY, TSTAT (R280 to R282, R392, R399, R400) -/

/-- Whether the executing context may name an entry. -/
def State.ttAllowed (s : State) (n : Nat) : Bool :=
  s.me.sup || (match s.here.residentOf s.cur.2 with
    | some r => decide (r.ttFirst ≤ n) && decide (n < r.ttFirst + r.ttCnt)
    | none => false)

/-- The checks that TTSET and TREADY share, then the effect (R279). DESIGN CHOICE (log 66): cause 0x15 comes first, then the statuses
0x10, 0x11 and 0x19 in this order. -/
def State.ttChecked (s : State) (i : Instr) (n : Nat) (e : List Word) (fire : Bool) (eff : State → State) : State :=
  if decide (16 ≤ ttOper e) && !s.part.heddle then s.trap 0x15 (wordOf i)
  else s.checked none (s.ttStatus s.cur.1 s.cur.2 e fire) fun s =>
    if (s.here.ttSt n).phase.busy then s.trap 0x0D (jobVal none 0x19 0) else eff s

def execTtset (xs1 xs2 : BitVec 5) (s : State) : Res :=
  .next <| s.gated (Uses.x [xs1, xs2] []) fun s =>
    let n := bits (s.me.getX xs1) 0 6
    let a := s.me.getX xs2
    if !s.ttAllowed n then s.trap 0x04 (BitVec.ofNat 64 n)
    else if a.toNat % 64 ≠ 0 then s.trap 0x03 a
    else if !isLsAddr a then s.trap 0x04 a
    else s.withLs a 64 fun s bs =>
      let e := (List.range 8).map fun i => leWord ((bs.drop (8 * i)).take 8)
      s.ttChecked (.ttset xs1 xs2) n e false fun s =>
        let s := s.done 4 (s.me.consume [xs1, xs2])
        s.modHere fun t =>
          let t := (t.setTt n e).setTtSt n { t.ttSt n with phase := .idle }
          { t with badTts := t.badTts.filter (· != n) }

/-- A router's turn for an entry of its own tile. -/
def turnChunk (t : TileNo) (n : BitVec 6) (gen : BitVec 16) (time : Nat) : Chunk :=
  { kind := .turn, fromTile := t, node := t, dest := t, port := none, entry := n, gen := gen, num := 0, slot := 0, data := []
    cls := 0, born := time, since := time, acked := false, moved := false, prog := 0 }

/-- Where a generation number stands against an entry: past or ended, now, or not fired yet. -/
inductive GenAge where
  | past | now | future
deriving DecidableEq, Repr

def TtState.age (st : TtState) (gen : BitVec 16) : GenAge :=
  let d := (st.gen - gen).toNat
  if d = 0 then (if st.phase.busy then .now else .past) else if d < 0x8000 then .past else .future

def execTready (xs1 : BitVec 5) (s : State) : Res :=
  .next <| s.gated (Uses.x [xs1] []) fun s =>
    let (t, c) := s.cur
    let n := bits (s.me.getX xs1) 0 6
    let e := s.here.tt n
    if !s.ttAllowed n then s.trap 0x04 (BitVec.ofNat 64 n)
    else if s.here.badTts.contains n then s.trap 0x0D (jobVal none 0x22 0)
    else s.ttChecked (.tready xs1) n e true fun s =>
      let old := s.here.ttSt n
      let id := match s.launchOf t c with | some r => r.id | none => 0
      let st : TtState :=
        { phase := if ttKind e == 2 && !ttRoot e then .down else .up, gen := old.gen + 1, flags := 0, altUsed := false
          sent := 0, written := 0, heard := s.time, launch := id, ctx := c, num := s.me.num, draft := none, since := s.time
          fired := s.time }
      let s := s.done 4 (s.me.consume [xs1])
      -- chunks that came before this generation fired are looked at again, those of later ones go on waiting (R284)
      let early := s.here.chunks.filter fun k => k.entry.toNat == n && k.gen == st.gen
      let s := s.modHere fun tl =>
        { tl.setTtSt n st with
          chunks := tl.chunks.filter fun k => k.entry.toNat != n || st.age k.gen == .future
          retained := tl.retained.filter fun k => k.entry.toNat != n || !(k.kind == .up || k.acked) }
      { s with chunks := s.chunks ++ early ++ [turnChunk t (BitVec.ofNat 6 n) st.gen s.time] }

def TtPhase.code : TtPhase → Nat
  | .idle => 0 | .up => 1 | .down => 2 | .done => 3 | .failed => 4

/-- The status word of an entry (R281). -/
def TtState.word (st : TtState) : Word :=
  BitVec.ofNat 64 (st.gen.toNat * 2 ^ 32 + (if st.altUsed then 2 ^ 16 else 0) + st.flags.toNat * 2 ^ 8 + st.phase.code)

def execTstat (xd xs1 : BitVec 5) (s : State) : Res :=
  .next <| s.gated (Uses.x [xs1] [xd]) fun s =>
    let n := bits (s.me.getX xs1) 0 6
    if !s.ttAllowed n then s.trap 0x04 (BitVec.ofNat 64 n)
    else s.done 4 ((s.me.consume [xs1]).setX xd (s.here.ttSt n).word)

/-! ### The end of a generation (R282, R285, R427) -/

def State.modTt (s : State) (t : TileNo) (n : Nat) (f : TtState → TtState) : State :=
  s.modTile t fun tl => tl.setTtSt n (f (tl.ttSt n))

/-- An entry enters FAILED: it sends nothing more, and interrupt 3 is raised. -/
def State.failEntry (s : State) (t : TileNo) (n : BitVec 6) : State :=
  let st := (s.tile t).ttSt n.toNat
  if !st.phase.busy then s
  else
    let mine (k : Chunk) : Bool := k.entry == n && k.gen == st.gen
    let s := s.modTile t fun tl =>
      ({ tl.setTtSt n.toNat { st with phase := .failed } with
          chunks := tl.chunks.filter (!mine ·), retained := tl.retained.filter (!mine ·) }).forget
    s.interrupt t 3 (n.zeroExtend 64)

/-- An entry may enter DONE: its DST writes have been performed, and nothing waits at the counter's home (R282). -/
def State.mayEnd (s : State) (t : TileNo) (n : BitVec 6) : Bool :=
  s.fifoEmpty (.ls t (ttCtr ((s.tile t).tt n.toNat))) && !s.postedBy t (.router n)

/-- An entry enters DONE and its arrival counter rises by 1, in one step. -/
def State.doneEntry (s : State) (t : TileNo) (n : BitVec 6) : State :=
  let st := (s.tile t).ttSt n.toNat
  let w := Place.ls t (ttCtr ((s.tile t).tt n.toNat))
  if !s.mayEnd t n then s
  else
    let v := leNat (s.readPlaces w 8) + 1
    let s := s.store w (leBytes 8 (v % 2 ^ 64)) none
    s.modTile t fun tl =>
      ({ tl.setTtSt n.toNat { st with phase := .done } with
          chunks := tl.chunks.filter fun k => !(k.entry == n && k.gen == st.gen)
          retained := tl.retained.filter fun k => !(k.entry == n && k.gen == st.gen && k.kind == ChunkKind.up) }).forget

/-! ### Rights and bytes (R277, R427) -/

/-- Whether the rights of R277 let the router reach an address: a task-mode access of the tile that fired the entry. -/
def State.ttReach (s : State) (t : TileNo) (st : TtState) (write : Bool) (a : Nat) : Bool :=
  let task := s.modCtx t st.ctx fun k => { k with sup := false }
  decide (a < 2 ^ 64) && (match target s.part t (BitVec.ofNat 64 a) with
    | .bad => false
    | .mem => true
    | .chip o off _ => (o == t || s.hasTask o st.launch)
        && (match placeOf o off with | none => false | some p => task.allowed t st.ctx write .card 1 p))

/-- The queue tag of a generation's translations. -/
def State.ttTag (s : State) (t : TileNo) (st : TtState) : Tag :=
  match (s.tile t).residentId st.launch with
  | some r => r.tag
  | none => Tag.none

/-- A word at a channel offset of a context that does not belong to the launch (R116, R427). -/
def State.ttForeign (s : State) (t : TileNo) (st : TtState) (a : Nat) : Bool :=
  match s.channelAt t false a with
  | some (o, c, _) => !s.ctxOfLaunch o c st.launch
  | none => false

/-- The elements in bytes. -/
def elemsOf (n : Nat) (bs : List Byte) : List Nat := (List.range (bs.length / n)).map fun i => leNat ((bs.drop (n * i)).take n)

/-- A value that a tree of disagreeing entries leaves undefined (R278; log 4). -/
def State.undefElem (s : State) (n i : Nat) : Nat :=
  leNat ((List.range n).map fun b => Config.undefinedChunkByte s.freeCtr (n * i + b))

/-- The parts on which the entries of a tree must agree. -/
def ttShape (e : List Word) : Nat × Nat × Nat := (bits (ttW e 0) 48 4, ttKind e, ttOper e)

/-- Whether the parent and the children that lie on this package agree with an entry (R278). -/
def State.ttAgrees (s : State) (e : List Word) (n : Nat) : Bool :=
  ((ttParent e :: ttKids e).filter fun p => p.testBit 19 && !epRemote p).all fun p => ttShape ((s.tile (epTile p)).tt n) == ttShape e

/-- Chunk elements as a node sees them: with a disagreeing neighbour, or where an element is missing, undefined ones. -/
def State.chunkElems (s : State) (e : List Word) (n c : Nat) (data : List Nat) : List Nat :=
  let ok := s.ttAgrees e n
  let w := Ty.width (ttType e)
  (List.range (ttLen e c)).map fun i =>
    match ok, data[i]? with
    | true, some v => v % 2 ^ w
    | _, _ => s.undefElem (w / 8) i

/-! ### Sending (R284, R285) -/

/-- The port that leads to an endpoint. -/
def epVia (ep : Nat) : Option (BitVec 4) := if epRemote ep then some (epPort ep) else none

/-- The child slot of a node in its parent's entry, which its chunks carry (R284): as the parent's entry names the node, or, of
a parent on another package, a value that no field of the entry gives (log 55). -/
def State.childSlot (s : State) (t : TileNo) (n : BitVec 6) : Nat :=
  let p := ttParent ((s.tile t).tt n.toNat)
  let named := if epRemote p then none else (ttChildren ((s.tile (epTile p)).tt n.toNat)).findIdx? fun ep => epIs ep none t
  named.getD (Config.childSlot t.toNat n.toNat)

/-- The class of the launch that a tile's entry works for. -/
def State.ttClass (s : State) (t : TileNo) (n : BitVec 6) : BitVec 2 := (s.ttTag t ((s.tile t).ttSt n.toNat)).cls

/-- A packet goes to an endpoint, injected now with the class of its sender's launch (R251, R254). -/
def State.sendTo (s : State) (ep : Nat) (bytes : Nat) (c : Chunk) : State :=
  let c := { c with cls := s.ttClass c.fromTile c.entry, born := s.time }
  if epRemote ep then s.linkSend (epPort ep) bytes { c with dest := epTile ep, node := epTile ep }
  else { s with chunks := s.chunks ++ [{ c with dest := epTile ep, node := epTile ep, port := none }] }

/-- The bytes of a chunk's payload. -/
def chunkBytes (e : List Word) (data : List Nat) : Nat := data.length * (Ty.width (ttType e) / 8)

/-- Send a chunk or a notice and retain it until it is acknowledged or released. -/
def State.sendRetained (s : State) (t : TileNo) (e : List Word) (ep : Nat) (c : Chunk) : State :=
  let c := { c with fromTile := t, since := s.time, acked := false, dest := epTile ep, node := epTile ep, port := epVia ep
                    slot := s.childSlot t c.entry, cls := s.ttClass t c.entry }
  let same (k : Chunk) : Bool :=
    k.kind == c.kind && k.entry == c.entry && k.gen == c.gen && k.num == c.num && k.node == c.node && k.port == c.port
  let s := s.modTile t fun tl => { tl with retained := tl.retained.filter (!same ·) ++ [c] }
  s.sendTo ep (chunkBytes e c.data) c

/-- A chunk of an entry's generation. -/
def mkChunk (kind : ChunkKind) (t : TileNo) (n : BitVec 6) (gen : BitVec 16) (c : Nat) (data : List Nat) : Chunk :=
  { turnChunk t n gen 0 with kind := kind, num := c, data := data }

/-- Send to every child. -/
def State.sendKids (s : State) (t : TileNo) (e : List Word) (c : Chunk) : State :=
  (ttChildren e).foldl (fun s ep => s.sendRetained t e ep c) s

/-! ### The reduce wave (R276, R284) -/

/-- Op(x, y) of the router (R276). -/
def State.ttCombine (s : State) (t : TileNo) (st : TtState) (e : List Word) (x y idx : Nat) : Nat × Flags :=
  match st.draft with
  | some d =>
    match (s.runDraft d ⟨[x, y].take d.nin, idx, 0, .rne, false, t, Tag.none⟩).2 with
    | .ok (v :: _) fl => (v, fl)
    | _ => (x, Flags.none)
  | none => stockOp (ttOper e) (ttType e) x y

/-- Combine a contribution with the value so far, element by element from position `p`. -/
def State.ttZip (s : State) (t : TileNo) (st : TtState) (e : List Word) (p : Nat) (xs ys : List Nat) : List Nat × Flags :=
  let r := ((xs.zip ys).zipIdx).map fun q => s.ttCombine t st e q.1.1 q.1.2 (p + q.2)
  (r.map (·.1), r.foldl (fun f q => f.or q.2) Flags.none)

/-- The draft of an entry, once fetched, is fit for a router (R427). -/
def ttDraftOk (e : List Word) (d : Draft) : Bool :=
  d.ok && decide (d.nodes.length ≤ 8) && d.assoc && !d.looks && decide (d.nin ≤ 2) && d.nout == 1 && d.ty == ttType e

/-- The router fetches the draft when the generation starts (R427). -/
def State.ttFetch (s : State) (t : TileNo) (n : BitVec 6) : State :=
  let tl := s.tile t
  let st := tl.ttSt n.toNat
  let e := tl.tt n.toNat
  let a := normVa t (sext48 (ttOper e))
  let ok (lo n : Nat) : Bool := (List.range n).all fun i => s.ttReach t st false (a + lo + i)
  if st.draft.isSome || decide (ttOper e < 16) then s
  else if !ok 0 8 then s.failEntry t n
  else
    match s.readWords t (s.ttTag t st) a 1 with
    | (s, .ok (h :: _)) =>
      let m := bits h 0 5 + 1
      if !ok 8 (8 * m) then s.failEntry t n
      else match s.readWords t (s.ttTag t st) (a + 8) m with
      | (s, .ok ns) =>
        if ttDraftOk e ⟨h, ns⟩ then s.modTt t n.toNat fun st => { st with draft := some ⟨h, ns⟩ } else s.failEntry t n
      | (s, .wait) => s
      | (s, .fail _) => (s.uncorrected t).failEntry t n
      | (s, .stop _ va) => (s.walkFault t (s.ttTag t st) va).failEntry t n
    | (s, .ok []) | (s, .wait) => s
    | (s, .fail _) => (s.uncorrected t).failEntry t n
    | (s, .stop _ va) => (s.walkFault t (s.ttTag t st) va).failEntry t n

/-- An older card of the tile, or an older generation, which is a card too, is not complete and overlaps a generation that fired at a
time, with a write in the overlap: until it is complete no chunk of the generation is read from SRC or written to DST (R184, R280). -/
def Tile.genBusy (tl : Tile) (t : TileNo) (fired : Nat) (e : List Word) : Bool :=
  let meets (r w : List (Nat × Nat)) : Bool := conflict r w (ttReads t e) (ttWrites t e)
  (tl.cards.any fun k => decide (k.since < fired) && meets k.reads k.writes)
    || (tl.liveGens t).any fun g => decide (g.st.fired < fired) && meets g.reads g.writes

/-- Chunks sent up and not released yet, of which there are at most 64 (R284). -/
def Tile.unreleased (tl : Tile) (n : BitVec 6) (gen : BitVec 16) : Nat :=
  (tl.retained.filter fun k => k.kind == .up && k.entry == n && k.gen == gen).length

/-- The contribution of child `i` to a chunk: held at the router, or, for an alternate placement, retained by the child. -/
def State.kidChunk (s : State) (t : TileNo) (n : BitVec 6) (gen : BitVec 16) (c : Nat) (alt : Bool) (i ep : Nat) : Option Chunk :=
  let held := (s.tile t).chunks.find? fun k => k.kind == .up && k.entry == n && k.gen == gen && k.num == c && k.slot == i
  held.orElse fun _ =>
    if alt && !epRemote ep then
      (s.tile (epTile ep)).retained.find? fun k => k.kind == .up && k.entry == n && k.gen == gen && k.num == c && k.node == t
    else none

/-- A fence that follows an earlier access of the context, and precedes the TREADY, holds the generation as a card (R181, R280). -/
def State.ttHeld (s : State) (t : TileNo) (n : BitVec 6) : Bool :=
  let tl := s.tile t
  let st := tl.ttSt n.toNat
  let e := tl.tt n.toNat
  s.fenceHolds t st.ctx st.num 4 (ttReads t e ++ ttWrites t e)

/-- The next chunk of the reduce wave: when every child's is there, SRC is read, they are combined in slot order, and the
value goes up, or at the root becomes the result (R284). `alt` says whether an alternate placement does it (R285). -/
def State.ttUp (s : State) (t : TileNo) (n : BitVec 6) (alt : Bool) : State :=
  let tl := s.tile t
  let st := tl.ttSt n.toNat
  let e := tl.tt n.toNat
  let c := st.sent
  let kids := if ttKind e = 2 then [] else (ttChildren e).zipIdx
  let got := kids.filterMap fun p => s.kidChunk t n st.gen c alt p.2 p.1
  let size := Ty.width (ttType e) / 8
  let a := ttSrc t e + 256 * c
  let len := ttLen e c * size
  if st.phase ≠ .up ∨ ttChunks e ≤ c ∨ (decide (16 ≤ ttOper e) && st.draft.isNone) = true then s
  else if got.length ≠ kids.length ∨ tl.genBusy t st.fired e ∨ 64 ≤ tl.unreleased n st.gen ∨ s.ttHeld t n then s
  else if (lowestBad (s.ttReach t st false) [(a, len)]).isSome then s.failEntry t n
  else
    match s.readAt t (s.ttTag t st) a len with
    | (s, .wait) => s
    | (s, .stop _ va) => (s.walkFault t (s.ttTag t st) va).failEntry t n
    | (s, .fail _) => (s.uncorrected t).failEntry t n
    | (s, .ok bs) =>
      let step (acc : List Nat × Flags) (k : Chunk) : List Nat × Flags :=
        let r := s.ttZip t st e (c * ttPer e) acc.1 (s.chunkElems e n.toNat c k.data)
        (r.1, acc.2.or r.2)
      let v := got.foldl step (elemsOf size bs, Flags.none)
      let last := c + 1 == ttChunks e
      let st' : TtState :=
        { st with sent := c + 1, flags := st.flags ||| v.2.bits, since := s.time, altUsed := st.altUsed || alt
                  phase := if last && !(ttRoot e && ttKind e == 1) then .down else .up }
      let s : State := { s with freeCtr := s.freeCtr + 1 }
      let s := s.modTile t fun tl =>
        { tl.setTtSt n.toNat st' with
          chunks := tl.chunks.filter fun k => !(k.kind == .up && k.entry == n && k.gen == st.gen && k.num == c) }
      if ttRoot e then s.modTile t fun tl => { tl with chunks := tl.chunks ++ [mkChunk .down t n st.gen c v.1] }
      else s.sendRetained t e (ttParent e) { mkChunk .up t n st.gen c v.1 with moved := alt }

/-! ### The broadcast wave (R282, R284) -/

/-- Deliver the words of a result chunk that lie at channel offsets, from the `k`-th of them on; how many are done and
whether all are. -/
def State.ttDeliver (s : State) (t : TileNo) (n : BitVec 6) (st : TtState) (bs : List (Nat × Byte)) : List Nat → Nat → State × Nat × Bool
  | [], k => (s, k, true)
  | a :: r, k =>
    match s.channelAt t false a with
    | none => (s, k, true)
    | some (o, c, x) =>
      let v := (bs.filter fun b => b.1 / 8 * 8 == a).foldl (fun w b => putByte w (b.1 - a) b.2) ((s.ctx o c).getX x)
      match s.deliver ⟨c, x, v, t, st.ctx, none, some (.router n), false⟩ o false with
      | (s, .refused) => (s, k, false)
      | (s, _) => s.ttDeliver t n st bs r (k + 1)

/-- A node whose chunks are all written ends, once its writes have been performed; the root of a REDUCE sends the notice then
(R282, R284). -/
def State.ttEnd (s : State) (t : TileNo) (n : BitVec 6) : State :=
  let e := (s.tile t).tt n.toNat
  if !s.mayEnd t n then s
  else
    let s := if ttKind e = 1 then s.sendKids t e (mkChunk .notice t n ((s.tile t).ttSt n.toNat).gen 0 []) else s
    s.doneEntry t n

/-- The next result chunk that the node holds is written to DST and forwarded; after the last one the generation ends. A
REDUCE node ends at the notice, and its root sends the notice once DST is written (R282, R284). DESIGN CHOICE (log 71): a write of a
part of a word of DST with an uncorrectable error fails the node. -/
def State.ttDown (s : State) (t : TileNo) (n : BitVec 6) : State :=
  let tl := s.tile t
  let st := tl.ttSt n.toNat
  let e := tl.tt n.toNat
  let root := ttRoot e
  let mine (k : Chunk) : Bool := k.entry == n && k.gen == st.gen
  if !(st.phase == .down || (st.phase == .up && root)) || s.ttHeld t n || tl.genBusy t st.fired e then s
  else if ttKind e = 1 ∧ root = false then
    match tl.chunks.find? fun k => k.kind == .notice && mine k with
    | some k =>
      let s := if k.acked then s else s.sendKids t e (mkChunk .notice t n st.gen 0 [])
      let s := s.modTile t fun tl => { tl with chunks := tl.chunks.map fun x => if x == k then { x with acked := true } else x }
      s.doneEntry t n
    | none => s
  else if st.written = ttChunks e then (if st.phase == .down || ttKind e == 1 then s.ttEnd t n else s)
  else
    match tl.chunks.find? fun k => k.kind == .down && mine k && k.num == st.written with
    | none => s
    | some k =>
      let size := Ty.width (ttType e) / 8
      let a := ttDst t e + 256 * k.num
      let vals := if root then k.data else s.chunkElems e n.toNat k.num k.data
      let bytes := vals.flatMap fun v => leBytes size v
      let cells := bytes.zipIdx.map fun b => (a + b.2, b.1)
      let chan := cells.filter fun b => (s.channelAt t false b.1).isSome
      let range := [(a, bytes.length)]
      if (lowestBad (s.ttReach t st true) range).isSome || cells.any (fun b => s.ttForeign t st b.1) then s.failEntry t n
      else
        match s.writeBytes ⟨t, st.ctx, s.ttTag t st, false, .router n⟩ range
            (cells.filter fun b => (s.channelAt t false b.1).isNone) with
        | (s, .wait) => s
        | (s, .stop _ va) => (s.walkFault t (s.ttTag t st) va).failEntry t n
        | (s, .fail _) => (s.uncorrected t).failEntry t n
        | (s, .ok _) =>
          let words := (chan.map fun b => b.1 / 8 * 8).eraseDups
          match s.ttDeliver t n st chan (words.drop k.prog) k.prog with
          | (s, p, false) =>
            s.modTile t fun tl => { tl with chunks := tl.chunks.map fun x => if x == k then { x with prog := p } else x }
          | (s, _, true) =>
            let s := if ttKind e = 1 then s else s.sendKids t e (mkChunk .down t n st.gen k.num vals)
            let s : State := { s with freeCtr := s.freeCtr + 1 }
            let s := s.modTile t fun tl =>
              { tl.setTtSt n.toNat { st with written := st.written + 1 } with chunks := tl.chunks.filter (· != k) }
            if st.written + 1 = ttChunks e ∧ (st.phase == .down || ttKind e == 1) = true then s.ttEnd t n else s

/-- A router's turn for one of its entries. -/
def State.ttTurn (s : State) (t : TileNo) (n : BitVec 6) : State := ((s.ttFetch t n).ttUp t n false).ttDown t n

/-! ### Receiving (R284, R285) -/

/-- Acknowledge a packet to its sender. -/
def State.acknowledge (s : State) (c : Chunk) : State :=
  let kind : ChunkKind := match c.kind with | .up => .ackUp | .alt => .ackAlt | _ => .ackDown
  let a : Chunk := { c with kind := kind, data := [], born := s.time, fromTile := c.node, node := c.fromTile, dest := c.fromTile }
  match c.port with
  | some p => s.linkSend p 0 a
  | none => { s with chunks := s.chunks ++ [a] }

/-- A packet stays at the node's router. -/
def State.hold (s : State) (c : Chunk) : State := s.modTile c.node fun tl => { tl with chunks := tl.chunks ++ [c] }

/-- A result chunk or notice passes back through a router: what it retained for it is released. -/
def Tile.releaseUps (tl : Tile) (n : BitVec 6) (gen : BitVec 16) (p : Nat → Bool) : Tile :=
  { tl with retained := tl.retained.filter fun k => !(k.kind == .up && k.entry == n && k.gen == gen && p k.num) }

/-- The slot of the child that sent an up chunk: the one that the chunk carries where it names the sender, else the one that names
the sender (R284; log 55). -/
def slotOf (e : List Word) (c : Chunk) : Option Nat :=
  let named := match (ttChildren e)[c.slot]? with | some ep => epIs ep c.port c.fromTile | none => false
  if named then some c.slot else (ttChildren e).findIdx? fun ep => epIs ep c.port c.fromTile

/-- An up chunk is accepted, once, for the slot of the child that sent it (R284, R285). DESIGN CHOICE (log 16): a router hears
something when it accepts a chunk or a notice, when an acknowledgement of its generation comes, and at TREADY; a duplicate or a
request is not counted. -/
def State.takeUp (s : State) (c : Chunk) : State :=
  let tl := s.tile c.node
  let n := c.entry.toNat
  let st := tl.ttSt n
  let e := tl.tt n
  match slotOf e c with
  | none => s
  | some i =>
  let c := { c with slot := i }
  let dup := tl.chunks.any fun k => k.kind == .up && k.entry == c.entry && k.gen == c.gen && k.num == c.num && k.slot == c.slot
  if st.phase ≠ .up ∨ ttChunks e ≤ c.num ∨ c.num < st.sent ∨ dup then s
  else (s.modTt c.node n fun st => { st with heard := s.time, altUsed := st.altUsed || c.moved }).hold c

/-- A down chunk is accepted, once, from the parent. It waits at the router until the node is in DOWN (R284); what the router
retains for it is released. -/
def State.takeDown (s : State) (c : Chunk) : State :=
  let tl := s.tile c.node
  let n := c.entry.toNat
  let st := tl.ttSt n
  let e := tl.tt n
  let dup := tl.chunks.any fun k => k.kind == .down && k.entry == c.entry && k.gen == c.gen && k.num == c.num
  if !epIs (ttParent e) c.port c.fromTile || decide (ttChunks e ≤ c.num) || decide (c.num < st.written) || dup || ttKind e == 1 then s
  else
    let s := s.modTile c.node fun tl =>
      (tl.setTtSt n { st with heard := s.time, altUsed := st.altUsed || c.moved }).releaseUps c.entry c.gen (· == c.num)
    s.hold { c with acked := false }

/-- A completion notice is accepted, once, from the parent. -/
def State.takeNotice (s : State) (c : Chunk) : State :=
  let tl := s.tile c.node
  let n := c.entry.toNat
  let st := tl.ttSt n
  let e := tl.tt n
  let dup := tl.chunks.any fun k => k.kind == .notice && k.entry == c.entry && k.gen == c.gen
  if !epIs (ttParent e) c.port c.fromTile || dup || ttKind e != 1 then s
  else
    let s := s.modTile c.node fun tl =>
      (tl.setTtSt n { st with heard := s.time, altUsed := st.altUsed || c.moved }).releaseUps c.entry c.gen fun _ => true
    s.hold { c with acked := false }

/-- A packet that another package sends to a node's alternate placement: the placement stands in the node's own entry, and
without one the packet's generation fails (R285). -/
def State.toAlt (s : State) (c : Chunk) (go : State → Chunk → State) : State :=
  if c.moved && c.port.isSome && c.dest == c.node && (c.kind == .down || c.kind == .notice || c.kind == .alt) then
    match ttAlt ((s.tile c.node).tt c.entry.toNat) with
    | some o => go s { c with dest := o }
    | none => if ((s.tile c.node).ttSt c.entry.toNat).gen == c.gen then s.failEntry c.node c.entry else s
  else go s c

/-- A packet that its node has not acknowledged yet is acknowledged; but a node whose generation has failed sends nothing further
for it (R285, R427). -/
def State.acceptChunk (s : State) (c : Chunk) : State :=
  let st := (s.tile c.node).ttSt c.entry.toNat
  if c.acked || (st.phase == .failed && st.gen == c.gen) then s else s.acknowledge c

/-- A chunk or notice reaches a router: it is acknowledged, and dropped, held until its generation fires, or taken. -/
def State.receiveChunk (s : State) (c : Chunk) (take : State → Chunk → State) : State :=
  let s := s.acceptChunk c
  match ((s.tile c.node).ttSt c.entry.toNat).age c.gen with
  | .past => s
  | .future => s.hold { c with acked := true }
  | .now => s.toAlt { c with acked := false } take

/-- A packet is on its way: not the turn of a router, nor one that a router holds and looks at again. -/
def Chunk.flies (c : Chunk) : Bool := c.kind != .turn && !c.acked

/-- The packets of the WAVE channel keep their order between one source and one destination (R253): the `n`-th in flight may not
pass an earlier one. A packet of a takeover may come from another router and is held back by none but such. -/
def State.chunkFirst (s : State) (n : Nat) (c : Chunk) : Bool :=
  !c.flies || (s.chunks.take n).all fun k => !(k.flies && k.fromTile == c.fromTile && k.dest == c.dest && k.moved == c.moved)

/-- The packet that an event names: one in flight of a kind, taken off the network in its order, or one that a link brings in
sequence. -/
def State.packet (s : State) (p : PacketRef) (kind : ChunkKind → Bool) : State × Option Chunk :=
  match p with
  | .here n =>
    match s.chunks[n]? with
    | some c => if kind c.kind && s.chunkFirst n c then ({ s with chunks := s.chunks.eraseIdx n }, some c) else (s, none)
    | none => (s, none)
  | .wire w =>
    if s.linkUp w.port && kind w.kind then
      match s.linkReceive w.port w.bytes w.seq w.ack w.credit with
      | (s, true) =>
        (s, some { kind := w.kind, fromTile := w.fromTile, node := w.node, dest := w.node, port := some w.port, entry := w.entry
                   gen := w.gen, num := w.num, slot := w.slot.toNat, data := w.data, cls := w.cls, born := w.born, since := s.time
                   acked := false, moved := w.moved, prog := 0 })
      | (s, false) => (s, none)
    else (s, none)

/-- A child sends its retained chunk again, for the alternate placement of its parent (R285). -/
def State.resend (s : State) (c : Chunk) : State :=
  let tl := s.tile c.node
  match tl.retained.find? fun k => k.kind == .up && k.entry == c.entry && k.gen == c.gen && k.num == c.num with
  | some k =>
    let s := s.modTt c.node c.entry.toNat fun st => { st with altUsed := true }
    s.sendRetained c.node (tl.tt c.entry.toNat) (ttParent (tl.tt c.entry.toNat)) { k with moved := true }
  | none => s

/-- A chunk arrives, or the request to send one again, or a router takes its turn for an entry (R284, R285). -/
def execChunkArrival (p : PacketRef) (s : State) : Res :=
  .next <| match s.packet p (fun k => k == .up || k == .down || k == .resend || k == .turn) with
  | (s, none) => s
  | (s, some c) =>
    match c.kind with
    | .up => s.receiveChunk c State.takeUp
    | .down => s.receiveChunk c State.takeDown
    | .resend => s.resend c
    | _ =>
      match ((s.tile c.node).ttSt c.entry.toNat).age c.gen with
      | .now => ({ s with chunks := s.chunks ++ [c] } : State).ttTurn c.node c.entry
      | _ => s

/-- The root's completion notice of a REDUCE arrives (R282, R284). -/
def execReduceCompletionNotice (p : PacketRef) (s : State) : Res :=
  .next <| match s.packet p (· == .notice) with
  | (s, none) => s
  | (s, some c) => s.receiveChunk c State.takeNotice

/-- Whether an acknowledgement answers a retained packet: one to its sender, by the port it comes back by. -/
def Chunk.answers (a k : Chunk) : Bool :=
  a.entry == k.entry && a.gen == k.gen && a.num == k.num && a.fromTile == k.node && a.port == k.port &&
  (match a.kind, k.kind with
   | .ackUp, .up | .ackDown, .down | .ackDown, .notice | .ackAlt, .alt => true
   | _, _ => false)

/-- An acknowledgement arrives (R285). -/
def execChunkAck (p : PacketRef) (s : State) : Res :=
  .next <| match s.packet p (fun k => k == .ackUp || k == .ackDown || k == .ackAlt) with
  | (s, none) => s
  | (s, some a) =>
    let n := a.entry.toNat
    s.modTile a.dest fun tl =>
      let st := tl.ttSt n
      let tl := if st.age a.gen = .now then tl.setTtSt n { st with heard := s.time } else tl
      { tl with retained := (tl.retained.map fun k => if a.answers k then { k with acked := true } else k).filter fun k =>
          !(k.acked && (k.kind == .down || k.kind == .notice)) }

/-! ### Timeouts and alternate placements (R285) -/

/-- A request to the alternate placement of the node at an endpoint: retained until acknowledged; without an alternate
placement the entry fails. A request to another package goes to the node, whose package knows its placement. -/
def State.askAlt (s : State) (t : TileNo) (n : BitVec 6) (ep c : Nat) : State :=
  let gen := ((s.tile t).ttSt n.toNat).gen
  let req : Chunk :=
    { mkChunk .alt t n gen c [] with
      node := epTile ep, dest := epTile ep, since := s.time, port := epVia ep, cls := s.ttClass t n, born := s.time }
  let keep (s : State) : State := s.modTile t fun tl =>
    { tl.setTtSt n.toNat { tl.ttSt n.toNat with altUsed := true } with retained := tl.retained ++ [req] }
  if epRemote ep then (keep s).linkSend (epPort ep) 0 { req with moved := true }
  else
    match ttAlt ((s.tile (epTile ep)).tt n.toNat) with
    | none => s.failEntry t n
    | some o => let s := keep s; { s with chunks := s.chunks ++ [{ req with dest := o }] }

/-- A retained packet of chunk `c` is past its timeout. -/
def Chunk.late (k : Chunk) (n : BitVec 6) (c limit time : Nat) : Bool :=
  k.entry == n && k.num == c && !k.acked && decide (k.since + limit ≤ time)

/-- A hop of chunk `c` of an entry times out: a chunk sent up is redone over the parent's alternate placement, one sent
down goes to the child's, and a router that waits for a child's chunk asks the child's. A packet that went to an alternate
placement fails the generation, as does a placement that is not there; a chunk that an alternate placement has sent up is redone
like any other (R285). -/
def execHopTimeout (t : TileNo) (n : BitVec 6) (c : Nat) (s : State) : Res :=
  .next <| let tl := s.tile t
  let st := tl.ttSt n.toNat
  let e := tl.tt n.toNat
  let limit := ttTimeout e
  match tl.retained.find? fun k => k.late n c limit s.time with
  | some k =>
    -- what an ended generation still retains is given up, and fails nothing
    let fail (s : State) : State :=
      if k.gen == st.gen then s.failEntry t n else s.modTile t fun tl => { tl with retained := tl.retained.filter (· != k) }
    if k.kind == .alt || (k.moved && k.kind != .up) || (k.kind == .up && k.gen != st.gen) then fail s
    else if k.kind == .up then
      let s := s.modTile t fun tl => { tl with retained := tl.retained.map fun x => if x == k then { x with acked := true } else x }
      s.askAlt t n (ttParent e) c
    else
      let k' := { k with moved := true, since := s.time, born := s.time }
      let put (s : State) : State :=
        s.modTile t fun tl =>
          { tl.setTtSt n.toNat { st with altUsed := st.altUsed || k.gen == st.gen } with
            retained := tl.retained.map fun x => if x == k then k' else x }
      match k.port with
      | some p => (put s).linkSend p (chunkBytes e k.data) k'
      | none =>
        match ttAlt ((s.tile k.node).tt n.toNat) with
        | none => fail s
        | some o => let s := put s; { s with chunks := s.chunks ++ [{ k' with dest := o }] }
  | none =>
    if st.phase = .up ∧ ttKind e ≠ 2 ∧ c = st.sent ∧ st.since + limit ≤ s.time then
      ((ttChildren e).zipIdx).foldl (fun s p =>
        let asked := (s.tile t).retained.any fun k => k.kind == .alt && k.entry == n && k.gen == st.gen && k.num == c && k.node == epTile p.1
            && k.port == epVia p.1
        if (s.kidChunk t n st.gen c false p.2 p.1).isSome || asked || ((s.tile t).ttSt n.toNat).phase != .up then s
        else s.askAlt t n p.1 c) s
    else s

/-- The children of a node of whose chunk an alternate placement has none: those on other packages are asked, once, to send
the chunk that they retain again (R285). -/
def State.askKids (s : State) (c : Chunk) : State :=
  let e := (s.tile c.node).tt c.entry.toNat
  (((ttChildren e).zipIdx).filter fun p => epRemote p.1 && (s.kidChunk c.node c.entry c.gen c.num true p.2 p.1).isNone).foldl
    (fun s p =>
      let m := mkChunk .resend c.node c.entry c.gen c.num []
      s.linkSend (epPort p.1) 0 { m with node := epTile p.1, dest := epTile p.1, cls := c.cls, born := s.time }) s

/-- The node and its children on this package have had a chunk go over an alternate placement (R281). -/
def State.tookOver (s : State) (c : Chunk) : State :=
  let e := (s.tile c.node).tt c.entry.toNat
  let mark (s : State) (t : TileNo) : State := s.modTt t c.entry.toNat fun st => if st.gen == c.gen then { st with altUsed := true } else st
  (((ttChildren e).filter (!epRemote ·)).map epTile).foldl mark (mark s c.node)

/-- A request to an alternate placement: it waits until the node's entry is in UP, then does the node's part for the chunk
with the chunks that the children retain, asking those on other packages to send theirs again; a chunk that the node has
sent is sent again. -/
def execAltRequest (p : PacketRef) (s : State) : Res :=
  .next <| match s.packet p (· == .alt) with
  | (s, none) => s
  | (s, some c) =>
    let s := s.acceptChunk c
    s.toAlt { c with acked := true, moved := c.moved && !c.acked } fun s c =>
    let n := c.entry.toNat
    let tl := s.tile c.node
    let st := tl.ttSt n
    let again (s : State) (c : Chunk) : State := { s with chunks := s.chunks ++ [c] }
    -- the chunk that the node has sent and still retains
    let sent := tl.retained.find? fun k => k.kind == .up && k.entry == c.entry && k.gen == c.gen && k.num == c.num
    match st.age c.gen, sent with
    | .past, _ => s
    | .now, some _ => s.resend { c with kind := .resend }
    | .now, none =>
      if st.phase ≠ .up ∨ c.num < st.sent then s
      else if c.num = st.sent then
        let s := s.ttUp c.node c.entry true
        if ((s.tile c.node).ttSt n).sent = st.sent then
          -- `prog` says that the children have been asked
          again (if c.prog = 0 then s.askKids c else s) { c with prog := 1 }
        else s.tookOver c
      else again s c
    | .future, _ => again s c

/-- A router in UP or DOWN that has heard nothing for four timeouts enters FAILED (R285). -/
def execCollectiveFailure (t : TileNo) (n : BitVec 6) (s : State) : Res :=
  .next <| let st := (s.tile t).ttSt n.toNat
  if st.phase.busy && decide (st.heard + 4 * ttTimeout ((s.tile t).tt n.toNat) ≤ s.time) then s.failEntry t n else s

/-- The steps that the passing of time makes due for the entries of a tile (R285). -/
def State.ttDue (s : State) (t : TileNo) : List Instr :=
  let tl := s.tile t
  let hops := tl.retained.filterMap fun k =>
    if k.late k.entry k.num (ttTimeout (tl.tt k.entry.toNat)) s.time then some (.hopTimeout t k.entry k.num) else none
  hops ++ tl.ttState.flatMap fun p =>
    let n := BitVec.ofNat 6 p.1
    let limit := ttTimeout (tl.tt p.1)
    (if p.2.phase = .up ∧ p.2.since + limit ≤ s.time then [Instr.hopTimeout t n p.2.sent] else []) ++
    (if p.2.phase.busy && decide (p.2.heard + 4 * limit ≤ s.time) then [.collectiveFailure t n] else [])

end Sys2Proof.Machine
end

