-- ==== Sys2Proof/Machine/Queue.lean ====
section
/-! DEFINITION. User queues: descriptors, notify words, mapping, the start and the end of a command, queue errors, and the
posts of QPUT and QPUTW (R131 to R139, R144 to R147, R383, R384). -/

namespace Sys2Proof.Machine

/-! ### Descriptors (R131) -/

def State.writeDesc (s : State) (q : QueueNo) (i : Nat) (w : Word) : State := s.writePhys (s.descAddr q + 8 * i) (leBytes 8 w.toNat)

/-- A word of the descriptor holds an uncorrectable error. -/
def State.descBad (s : State) (q : QueueNo) : Bool := (List.range 8).any fun i => s.badPhys (s.descAddr q + 8 * i)

/-- A descriptor passes its checks; one with an uncorrectable error, or outside main memory, does not (log 17). -/
def State.descOk (s : State) (q : QueueNo) (d : List Word) : Bool :=
  let a := s.descAddr q
  let sz := bits (dw d 0) 8 5
  s.part.inMemory a 64 && !s.descBad q
    && bits (dw d 0) 32 32 == 0 && bits (dw d 0) 18 6 == 0 && bits (dw d 0) 13 3 == 0 && bits (dw d 2) 22 42 == 0
    && bits (dw d 5) 13 51 == 0 && dw d 7 == 0 && decide (4 ≤ sz) && decide (sz ≤ 16) && (dw d 1).toNat % 4096 == 0
    && descNotify d % 8 == 0 && (dw d 4).toNat % 2 ^ 21 == 0 && s.part.inMemory (dw d 4).toNat (2 ^ 21)
    && (!(dw d 5).getLsbD 12 || decide ((descTile d).toNat < s.part.tiles))

def State.modSlot (s : State) (q : QueueNo) (f : QSlot → QSlot) : State :=
  { s with hub := { s.hub with slots := s.hub.slots.map fun m => if m.queue == q then f m else m } }

/-- Change the command of a queue. -/
def State.modCmd (s : State) (q : QueueNo) (f : Cmd → Cmd) : State := s.modSlot q fun m => { m with cmd := m.cmd.map f }

/-- The queue processor maps queues and runs commands: after READY, and in CONFIG_UNLOCKED or RUN (R323, R326). -/
def State.queuesRun (s : State) : Bool := s.hub.ready && s.hub.powered && (s.hub.tdi == .unlocked || s.hub.tdi == .run)

/-- The queues of the table. -/
def State.queueNos (s : State) : List QueueNo := (List.range (min s.hub.qtcount 4096)).map (BitVec.ofNat 12)

/-! ### Queue errors (R137) -/

/-- The place that the TIMED or the SIGNAL of a queue keeps in the FIFO of its word is given up. -/
def State.noTurn (s : State) (q : QueueNo) : State :=
  s.dropPlaces fun e => e.poster == some (.timed q) || e.poster == some (.signal q)

/-- A queue leaves its slot: READIDX goes to its descriptor, and its pending bit is cleared (R139). It holds no budget of the
running round: mapped again, it waits for the next (R138). -/
def State.leaveSlot (s : State) (q : QueueNo) : State :=
  let s := (match s.qslot q with | some m => s.writeDesc q 3 (BitVec.ofNat 64 m.readIdx) | none => s).noTurn q
  { s with hub := { s.hub with
    slots := s.hub.slots.filter (·.queue != q)
    pending := s.hub.pending.filter (· != q)
    budgets := Assoc.set 0 q.toNat 0 s.hub.budgets } }

/-- A queue enters ERROR: ERRCODE, ERRIDX and STATE are written, it is unmapped, the host is signalled, and NTILE's monitor
is interrupted when NTEN = 1. DESIGN CHOICE (log 50): a LAUNCH that runs as the queue's command goes on as an ASYNC one. -/
def State.queueError (s : State) (q : QueueNo) (code idx : Nat) : State :=
  let d := s.desc q
  let w0 := (dw (s.readDesc q) 0 &&& ~~~0xFF030000#64) ||| BitVec.ofNat 64 (code % 256 * 2 ^ 24 + 2 * 2 ^ 16)
  let s := s.leaveSlot q
  let s := (s.writeDesc q 0 w0).writeDesc q 6 (BitVec.ofNat 64 idx)
  -- a launch that runs as the queue's command goes on as one that no command waits for
  let freed (l : Launch) : Launch := if l.queue == q && !l.async then { l with async := true } else l
  let h : Hub := s.hub
  let s : State := { s with hub := { h with
    waitSince := Assoc.set 0 q.toNat 0 h.waitSince, launches := h.launches.map freed
    failed := h.failed.filter (· != q) ++ [q] } }
  let s := s.answer (.msix 1)
  if (dw d 5).getLsbD 12 && decide ((descTile d).toNat < s.part.tiles) then s.interrupt (descTile d) 5 (q.zeroExtend 64) else s

/-- A command fails at its ring index. -/
def State.cmdError (s : State) (q : QueueNo) (code : Nat) : State := s.queueError q code (s.readIdx q)

/-- A refusal, or an uncorrectable error, while a command reads or writes: code 0x04, and for the error PKGERR.MEM
(R137, R327). -/
def State.cmdRefused (s : State) (q : QueueNo) (uncorrectable : Bool) : State :=
  let s := s.cmdError q 0x04
  if uncorrectable then s.memError else s

/-- A descriptor fails its checks when it is read (R131): 0x0D at READIDX, and for an uncorrectable error PKGERR.MEM (R327). -/
def State.descError (s : State) (q : QueueNo) : State :=
  let bad := s.part.inMemory (s.descAddr q) 64 && s.descBad q
  let s := s.queueError q 0x0D (descRead (s.readDesc q))
  if bad then s.memError else s

/-! ### Accesses through PTROOT (R131, R133, R158) -/

/-- A walk for the queue reads a table word with an uncorrectable error (R327). -/
def State.qBad (s : State) (q : QueueNo) (va : Word) : Bool :=
  target s.part 0 va == .mem && (s.walkReads (va48 va) (s.ptroot q) 3 0).any s.badPhys

/-- Bytes at the memory controllers, page by page; the error says whether it is an uncorrectable one. -/
def State.qRead (s : State) (q : QueueNo) : Nat → Word → Nat → Except Bool (List Byte)
  | 0, _, _ => .ok []
  | fuel + 1, va, n =>
    if n = 0 then .ok []
    else
      let m := min n (65536 - va.toNat % 65536)
      match s.qPhys q false va with
      | none => .error (s.qBad q va)
      | some pa =>
        let here :=
          if flagBase ≤ pa then some (Memory.readBytes s.flag (pa - flagBase) m)
          else if (List.range (m / 8 + 2)).any (fun i => decide (pa / 8 * 8 + 8 * i < pa + m) && s.badPhys (pa / 8 * 8 + 8 * i)) then none
          else some (s.readPhys pa m)
        match here with
        | none => .error true
        | some bs => (s.qRead q fuel (va + BitVec.ofNat 64 m) (n - m)).map (bs ++ ·)

def State.qBytes (s : State) (q : QueueNo) (va : Word) (n : Nat) : Except Bool (List Byte) := s.qRead q (n / 65536 + 2) va n

/-- The words of some bytes. -/
def wordsOf (bs : List Byte) : List Word := (List.range (bs.length / 8)).map fun i => leWord ((bs.drop (8 * i)).take 8)

/-- The place of a word that a command reads or writes, by Loc(pa, 0) whatever the page says of NEAR (R158). -/
def State.qPlace (s : State) (q : QueueNo) (read write : Bool) (va : Word) : Option (Place × Bool) :=
  match target s.part 0 va with
  | .mem =>
    match s.walk (s.qTag q) va with
    | some e => if (read && !e.r) || (write && !e.w) then none else some (s.transPlace { e with near := false } va, e.hv)
    | none => none
  | _ => none

/-! ### Past a command that is complete (R135, R137, R143) -/

/-- READIDX advances past the command (log 17: it is written to the descriptor too). -/
def State.advance (s : State) (q : QueueNo) : State :=
  match s.qslot q with
  | none => s
  | some m =>
    let s := s.modSlot q fun m => { m with readIdx := m.readIdx + 1, cmd := none }
    let s := s.writeDesc q 3 (BitVec.ofNat 64 (m.readIdx + 1))
    { s with hub := { s.hub with waitSince := Assoc.set 0 q.toNat 0 s.hub.waitSince } }

/-- Images of a launch still wait to be written (R171). -/
def State.imagesPending (s : State) (id : Nat) : Bool := s.postedBy 0 (.launch id)

/-- A launch of the queue whose images are written and whose tasks have all ended. -/
def State.endedLaunch (s : State) (q : QueueNo) (async : Bool) : Option Launch :=
  s.hub.launches.find? fun l => l.queue == q && l.async == async && l.started && l.live == [] && !s.imagesPending l.id

/-- A launch that has ended is forgotten. -/
def State.dropLaunch (s : State) (l : Launch) : State := { s with hub := { s.hub with launches := s.hub.launches.filter (·.id != l.id) } }

/-- The queue past its command, where that is complete: one that is done, its images written, or a LAUNCH whose tasks have ended, which
ends in error 0x0B after one on a quarantined tile (R135, R143). -/
def State.settle (s : State) (q : QueueNo) : Option State :=
  let cmd := (s.qslot q).bind (·.cmd)
  if cmd.any fun c => c.phase == .done && !c.launch.any s.imagesPending then some (s.advance q)
  else
    match (cmd.filter (·.phase != .done)).bind (·.launch), s.endedLaunch q false with
    | some _, some l =>
      let s := (s.dropLaunch l).advance q
      some (if l.quarantined then s.queueError q 0x0B l.index else s)
    | _, _ => none

/-- An error from outside a command: a command that is complete stays so, and READIDX has advanced past it (R135, R137). -/
def State.queueFails (s : State) (q : QueueNo) (code idx : Nat) : State :=
  match s.settle q with
  | some u => if (u.qslot q).isSome then u.queueError q code idx else u
  | none => s.queueError q code idx

/-! ### Notify words (R132) -/

/-- A queue that is not mapped is in error: its STATE says so, or the queue processor put it in error and has not read its descriptor
since, as when software has cleared STATE to restart it (R131, R137). -/
def State.inError (s : State) (q : QueueNo) : Bool :=
  (s.qslot q).isNone && (descState (s.readDesc q) == 2 || s.hub.failed.contains q)

/-- The descriptor of a queue in error has been read. -/
def State.hasRead (s : State) (q : QueueNo) : State := { s with hub := { s.hub with failed := s.hub.failed.filter (· != q) } }

/-- The pending bit of a queue is set. -/
def State.setPending (s : State) (q : QueueNo) : State :=
  if s.hub.pending.contains q then s else { s with hub := { s.hub with pending := s.hub.pending ++ [q] } }

/-- A write to the notify word of an enabled queue sets its pending bit, and of a queue that is neither mapped nor in error it does no
more: the descriptor is read and checked at the mapping. A command that is complete is passed first (R135). Of a queue in error the descriptor is read and checked here; the pending bit
makes the queue run once software has cleared STATE. Of a mapped queue, and of one in error, a value out of range is error 0x0C
(R131, R132, R137). DESIGN CHOICE (log 50): ERRIDX is then READIDX, and a value out of range of any other queue is found when its
next command is to start (`execCommandStart`). -/
def execNotifyWrite (q : QueueNo) (s : State) : Res :=
  .next <| if !s.hub.notes.contains q then s
  else
    let s : State := { s with hub := { s.hub with notes := s.hub.notes.filter (· != q) } }
    let s := (s.settle q).getD s
    let d := s.desc q
    let w := s.posted d
    let r := s.readIdx q
    let outside : Bool := decide (w < r) || decide (r + descSize d < w)
    if s.inError q then
      if !s.descOk q d then s.descError q
      else if outside then s.queueError q 0x0C r
      else (s.hasRead q).setPending q
    else if (s.qslot q).isSome && outside then s.queueError q 0x0C r
    else s.setPending q

/-! ### Mapping (R138, R139) -/

/-- ENABLE = 1, STATE ≠ 2, and the pending bit set or W ≠ READIDX. -/
def State.runnable (s : State) (q : QueueNo) : Bool :=
  let d := s.desc q
  descEnable d && descState d != 2 && (s.hub.pending.contains q || s.posted d != s.readIdx q)

/-- Ranks before: class, then weight, then number. -/
def State.ranks (s : State) (a b : QueueNo) : Bool :=
  let x := s.desc a
  let y := s.desc b
  decide (descClass x < descClass y) || (descClass x == descClass y &&
    (decide (descWeight y < descWeight x) || (descWeight x == descWeight y && decide (a.toNat < b.toNat))))

/-- The first, or the last, of some queues by rank. -/
def State.topRank (s : State) (qs : List QueueNo) : Option QueueNo := qs.find? fun q => qs.all fun r => q == r || s.ranks q r
def State.lowRank (s : State) (qs : List QueueNo) : Option QueueNo := qs.find? fun q => qs.all fun r => q == r || s.ranks r q

def Cmd.op (c : Cmd) : Nat := bits (c.words.getD 0 0) 0 8
def Cmd.w (c : Cmd) (i : Nat) : Word := c.words.getD i 0

/-- A mapped queue without a pending command and without a command in progress. -/
def State.slotIdle (s : State) (m : QSlot) : Bool := m.cmd.isNone && s.posted m.desc == m.readIdx

/-- Between commands, or at a WAIT, a TIMED, a command held back, or a LAUNCH that waits under step 2 or in P2, having been tried
(R138, R143, R328). -/
def QSlot.displaceable (m : QSlot) : Bool :=
  match m.cmd with
  | none => true
  | some c => c.phase == .held || c.phase == .ready || (c.phase == .started && (c.op == 2 || c.op == 4))
      || (c.phase == .waiting && c.op != 8)

/-- The slot that a queue would take: none when it stays unmapped, else the queue that makes room. -/
def State.roomFor (s : State) (q : QueueNo) : Option (Option QueueNo) :=
  let ms := s.hub.slots
  if ms.length < 64 then some none
  else
    match s.lowRank ((ms.filter s.slotIdle).map (·.queue)) with
    | some v => some (some v)
    | none =>
      match s.lowRank ((ms.filter fun m => m.displaceable && decide (descClass (s.desc q) < descClass m.desc)).map (·.queue)) with
      | some v => some (some v)
      | none => none

/-- Unmap a queue (R139): the notify word is then looked at again, so that one that moved leaves it runnable. -/
def State.unmap (s : State) (q : QueueNo) : State :=
  let s := s.leaveSlot q
  s.writeDesc q 0 (dw (s.readDesc q) 0 &&& ~~~0x30000#64)

/-- Map a queue: its descriptor is read and checked (R131). -/
def State.mapQueue (s : State) (q : QueueNo) : State :=
  let d := s.readDesc q
  if !s.descOk q d then s.descError q
  else
    let s := (s.hasRead q).writeDesc q 0 ((dw d 0 &&& ~~~0x30000#64) ||| 0x10000)
    { s with hub := { s.hub with slots := s.hub.slots ++ [⟨q, d, descRead d, none⟩] } }

/-- The runnable queues that are not mapped. -/
def State.unmapped (s : State) : List QueueNo := s.queueNos.filter fun q => (s.qslot q).isNone && s.runnable q

/-- One mapping, of the first runnable queue by rank. DESIGN CHOICE (log 50): the queue that makes room is unmapped before the descriptor
of the new one is read, so that it stays unmapped where that descriptor fails its checks: R138 does not say. -/
def State.mapNext (s : State) : Option State :=
  match s.topRank s.unmapped with
  | none => none
  | some q =>
    match s.roomFor q with
    | none => none
    | some none => some (s.mapQueue q)
    | some (some v) => some ((s.unmap v).mapQueue q)

/-- A queue is mapped when it is the first by rank of the runnable unmapped ones and finds a slot. -/
def execQueueMapping (q : QueueNo) (s : State) : Res :=
  .next (if s.queuesRun && s.topRank s.unmapped == some q then s.mapNext.getD s else s)

/-- Map as many queues as find slots. -/
def State.mapAll : Nat → State → State
  | 0, s => s
  | n + 1, s => match s.mapNext with | some s' => State.mapAll n s' | none => s

/-- Every 4096 cycles the queue processor goes through the runnable unmapped queues (R138). -/
def execQueueScheduleTick (s : State) : Res :=
  .next (if s.queuesRun && s.time % 4096 == 0 then State.mapAll s.unmapped.length s else s)

/-! ### Starting a command (R134, R135, R138) -/

/-- The next command of a mapped queue, which it has not read yet, where its NOTBEFORE holds it back (R135). -/
def State.heldBack (s : State) (m : QSlot) : Option (List Word) :=
  let w := s.posted m.desc
  if m.cmd.isSome || decide (w ≤ m.readIdx) || decide (m.readIdx + descSize m.desc < w) then none
  else match s.qBytes m.queue (descSlot m.desc m.readIdx) 64 with
    | .error _ => none
    | .ok bs => if s.time < ((wordsOf bs).getD 7 0).toNat then some (wordsOf bs) else none

/-- A mapped queue has a command that may start, as far as the queue processor knows: one that NOTBEFORE holds back may not, and its
queue takes no part in a round that begins meanwhile (R138). -/
def State.canStart (s : State) (m : QSlot) : Bool :=
  match m.cmd with
  | none => s.posted m.desc != m.readIdx && (s.heldBack m).isNone
  | some c => c.phase == .ready

/-- The budget of a queue in the running round. -/
def State.budget (s : State) (q : QueueNo) : Nat := Assoc.get 0 q.toNat s.hub.budgets

/-- The next queue in turn, of some with budget, in ascending number from the one after the class's last (R138). DESIGN CHOICE
(log 50): before a command of the class has started, from queue 0. -/
def State.inTurn (s : State) (cls : Nat) (qs : List QueueNo) : Option QueueNo :=
  let from' := Assoc.get 0 cls s.hub.lastStarted
  let key (q : QueueNo) : Nat := (q.toNat + 4096 - from') % 4096
  qs.find? fun q => qs.all fun r => decide (key q ≤ key r)

/-- The queue whose command starts next, and the state with a new round begun where one is needed. -/
def State.nextStart (s : State) : Option (QueueNo × State) :=
  let ms := s.hub.slots.filter s.canStart
  match ms with
  | [] => none
  | m :: rest =>
    let cls := rest.foldl (fun c x => min c (descClass x.desc)) (descClass m.desc)
    let mine := ms.filter fun x => descClass x.desc == cls
    let qs := mine.map (·.queue)
    let rich := qs.filter fun q => decide (0 < s.budget q)
    if rich ≠ [] then (s.inTurn cls rich).map fun q => (q, s)
    else
      let others := s.hub.slots.filter fun x => descClass x.desc == cls
      let b := others.foldl (fun b x => Assoc.set 0 x.queue.toNat 0 b) s.hub.budgets
      let b := mine.foldl (fun b x => Assoc.set 0 x.queue.toNat (descWeight x.desc) b) b
      let s : State := { s with hub := { s.hub with budgets := b } }
      (s.inTurn cls qs).map fun q => (q, s)

/-- The must-be-0 bits of words 1 to 4 of a command (R134). DESIGN CHOICE (log 50): a COPY length of 2^48 or more counts as
such a field, so its error is 0x02. -/
def cmdZero (op i : Nat) : Word :=
  match op, i with
  | 1, 1 | 2, 1 | 2, 2 | 2, 4 | 3, 1 | 3, 2 | 4, 1 | 4, 2 | 5, 1 | 5, 2 | 6, 1 | 6, 2 | 8, 1 | 8, 2 | 9, 1 | 9, 2 => 0
  | 2, 3 | 3, 3 => ~~~3
  | 8, 3 => 0xFFFF000000000000
  | 9, 3 => ~~~1
  | _, _ => -1

/-- The error of a command that cannot start (R137). -/
def cmdStatus (c : List Word) : Option Nat :=
  let w (i : Nat) : Word := c.getD i 0
  let op := bits (w 0) 0 8
  if op = 0 ∨ 9 < op ∨ ((w 0).getLsbD 16 ∧ op ≠ 1) then some 0x01
  else if bits (w 0) 17 47 ≠ 0 ∨ bits (w 0) 8 8 ≠ 0 ∨ w 5 ≠ 0 ∨ w 6 ≠ 0
      ∨ ([1, 2, 3, 4].any fun i => (w i &&& cmdZero op i) != 0) = true then some 0x02
  else if (op = 1 ∧ (w 1).toNat % 64 ≠ 0) ∨ ((op = 2 ∨ op = 3) ∧ (w 1).toNat % 8 ≠ 0) ∨ (op = 4 ∧ (w 2).toNat % 8 ≠ 0) then some 0x03
  else none

/-- The command starts: it spends a unit of budget, and its checks are made. DESIGN CHOICE (log 50): one that was displaced
and starts again after a remap spends another unit. -/
def State.startCmd (s : State) (q : QueueNo) (c : List Word) : State :=
  let cls := descClass (s.desc q)
  let h : Hub := s.hub
  let s : State := { s with hub := { h with
    budgets := Assoc.set 0 q.toNat (s.budget q - 1) h.budgets, lastStarted := Assoc.set 0 cls ((q.toNat + 1) % 4096) h.lastStarted } }
  match cmdStatus c with
  | some code => s.cmdError q code
  | none =>
    let first := bits (c.getD 0 0) 0 8 == 2 && Assoc.get 0 q.toNat s.hub.waitSince == 0
    let s : State := if first then { s with hub := { s.hub with waitSince := Assoc.set 0 q.toNat (s.time + 1) s.hub.waitSince } } else s
    s.modSlot q fun m => { m with cmd := some ⟨c, .started, none⟩ }

/-- A queue whose ENABLE software has cleared is unmapped at its command boundary (R131); else its next command is read, and is held
back by NOTBEFORE or, in its turn, starts (R135, R138). -/
def execCommandStart (q : QueueNo) (s : State) : Res :=
  .next <| match s.qslot q with
  | none => s
  | some m =>
    if !s.queuesRun then s
    else if m.cmd.isNone && !descEnable (s.readDesc q) then s.unmap q
    else
      match s.heldBack m, s.nextStart with
      | some c, _ => s.modSlot q fun m => { m with cmd := some ⟨c, .held, none⟩ }
      | none, none => s
      | none, some (r, s') =>
        if r ≠ q then s
        else
          match m.cmd with
          | some c => s'.startCmd q c.words
          | none =>
            let w := s.posted m.desc
            if w < m.readIdx ∨ m.readIdx + descSize m.desc < w then s.queueError q 0x0C m.readIdx
            else
              match s.qBytes q (descSlot m.desc m.readIdx) 64 with
              | .error u => s.cmdRefused q u
              | .ok bs => s'.startCmd q (wordsOf bs)

/-- NOTBEFORE has passed: the command is ready to start. -/
def execNotbeforeExpiry (q : QueueNo) (s : State) : Res :=
  .next <| match (s.qslot q).bind (·.cmd) with
  | some c => if c.phase = .held ∧ (c.w 7).toNat ≤ s.time then s.modCmd q fun c => { c with phase := .ready } else s
  | none => s

/-- The running command of a queue, with an opcode and in a phase. -/
def State.cmdIn (s : State) (q : QueueNo) (op : Nat) (ph : CmdPhase) : Option Cmd :=
  if !s.queuesRun then none
  else ((s.qslot q).bind (·.cmd)).filter fun c => c.op == op && c.phase == ph

def State.cmdDone (s : State) (q : QueueNo) : State := s.modCmd q fun c => { c with phase := .done }

/-! ### The end of a command (R135, R143) -/

/-- The command of a queue completes, and READIDX advances past it; an ASYNC launch of the queue that has ended is looked at after that,
and is forgotten, or brings error 0x0B (R143). -/
def execCommandComplete (q : QueueNo) (s : State) : Res :=
  .next <| match s.settle q with
  | some u => u
  | none =>
    match s.endedLaunch q true with
    | some l =>
      let s := s.dropLaunch l
      if l.quarantined then s.queueError q 0x0B l.index else s
    | none => s

/-! ### QPUT and QPUTW (R145, R383, R384) -/

/-- The issue checks of both, then the request with the command's bytes as read at issue. -/
def State.postOp (s : State) (xd xs1 xs2 : BitVec 5) (wait : Bool) : State :=
  s.gated (Uses.x [xs1, xs2] [xd]) fun s =>
    let a := s.me.getX xs2
    let q := (s.me.getX xs1).extractLsb' 0 12
    if a.toNat % 64 ≠ 0 then s.trap 0x03 a
    else if !isLsAddr a then s.trap 0x04 a
    else
      match s.me.capacity (!wait) false false false false with
      | some r => s.parkMe r
      | none =>
        s.withLs a 64 fun s bs =>
          let k := s.me
          let q' := k.mkReq (if wait then .qputw q bs else .qput q bs) 64 0 (k.dstX xd) [] false
          if wait then
            let s := s.setMe (k.send { q' with srcX := regMask [xs1, xs2] })
            s.parkMe .queue
          else s.done 4 ((k.consume [xs1, xs2]).send q')

def execQput (xd xs1 xs2 : BitVec 5) (s : State) : Res := .next (s.postOp xd xs1 xs2 false)
def execQputw (xd xs1 xs2 : BitVec 5) (s : State) : Res := .next (s.postOp xd xs1 xs2 true)

/-- What a post meets at the queue processor: refused, full, a descriptor that fails its checks, an error, or the place of its ring slot and the new W. -/
inductive Posting where
  | refused
  | full
  | invalid
  | error (uncorrectable : Bool) (w : Nat)
  | go (pa w : Nat)

/-- A ring slot of 64 bytes holds an uncorrectable error (DESIGN CHOICE, log 50: the ring write meets it, R145). -/
def State.slotBad (s : State) (pa : Nat) : Bool :=
  decide (pa < flagBase) && (List.range 8).any fun i => s.badPhys (pa + 8 * i)

/-- The state of a queue as a post meets it (R145, R383). The descriptor of a queue that is not mapped is
read for the post, and checked (R131). DESIGN CHOICE (log 50): the check comes after those of status 2, which change no descriptor; one
that fails it puts the queue in error 0x0D, and the post has status 2. -/
def State.posting (s : State) (q : QueueNo) : Posting :=
  let d := s.desc q
  let w := s.posted d
  let r := s.readIdx q
  if s.hub.qtcount ≤ q.toNat ∨ !descEnable d ∨ !descProducer d ∨ (descState d = 2 ∧ (s.qslot q).isNone) then .refused
  else if (s.qslot q).isNone && !s.descOk q d then .invalid
  else if w = r + descSize d then .full
  else
    let va := descSlot d w
    match s.qPhys q true va with
    | none => .error (s.qBad q va) w
    | some pa => if s.slotBad pa then .error false w else .go pa w

/-- The words of a ring slot in the flag window. -/
def slotWords (pa : Nat) : List Place :=
  if flagBase ≤ pa then (List.range 8).map fun i => .flag ((pa - flagBase) / 8 * 8 + 8 * i) else []

/-- The ring slot is written, then W, then the notify word (R132, R145). -/
def State.postCmd (s : State) (q : QueueNo) (pa w : Nat) (cmd : List Byte) : State :=
  let s :=
    if flagBase ≤ pa then (slotWords pa).zipIdx.foldl (fun s p => s.store p.1 ((cmd.drop (8 * p.2)).take 8) none) s
    else s.writePhys pa cmd
  s.store (.flag (descNotify (s.desc q))) (leBytes 8 ((w + 1) % 2 ^ 64)) none

/-- A post reaches the queue processor: it is made, refused, found full, or waits; posts to one queue keep their order. Its writes of
the notify word, and of a ring slot in the flag window, wait their turn in the words' FIFOs (R171), and for what a fence orders before
them (R181). -/
def execQputPost (t : TileNo) (c : CtxNo) (n : Nat) (s : State) : Res :=
  .next <| match s.req t c n with
  | none => s
  | some r =>
    let answer (s : State) (v : Nat) : State :=
      let s : State := s.noPost t c r.seq
      let s : State := { s with hub := { s.hub with posts := s.hub.posts.filter (· != (t, c, r.seq)) } }
      s.modReq t c r.seq fun r => { r with phase := .answered (BitVec.ofNat 64 v) 0 }
    -- an earlier post of this context to the queue, or one that waits there, goes first
    let before (q : QueueNo) : Bool :=
      ((s.ctx t c).reqs.take n).any (fun p => match p.kind, p.phase with
        | .qput q' _, .issued | .qputw q' _, .issued => q' == q
        | _, _ => false)
      || (s.hub.posts.takeWhile (· != (t, c, r.seq))).any fun p =>
        (s.ctx p.1 p.2.1).reqs.any fun x => x.seq == p.2.2 && (match x.kind with | .qputw q' _ => q' == q | _ => false)
    let run (q : QueueNo) (cmd : List Byte) (wait : Bool) : State :=
      match s.posting q with
      | .refused => answer s 2
      | .invalid => (answer s 2).descError q
      | .full =>
        if !wait then answer s 1
        else if r.phase = .waiting then s.noPost t c r.seq
        else
          let s : State := s.noPost t c r.seq
          let s : State := { s with hub := { s.hub with posts := s.hub.posts ++ [(t, c, r.seq)] } }
          s.modReq t c r.seq fun r => { r with phase := .waiting }
      | .error u w =>
        let s := answer s 2
        let s := s.queueFails q 0x04 w
        if u then s.memError else s
      | .go pa w =>
        if before q || s.fenceHoldsAt t c r.num r.kind.classes (s.postLocs q) then s
        else match s.turnsAt (.flag (descNotify (s.desc q)) :: slotWords pa) (placeEntry t c r.seq .post false) with
          | (s, true) => answer (s.postCmd q pa w cmd) 0
          | (s, false) => s
    match r.kind, r.phase with
    | .qput q cmd, .issued => run q cmd false
    | .qputw q cmd, .issued | .qputw q cmd, .waiting => run q cmd true
    | _, _ => s

/-- The reply returns: xd is written; ld falls for a QPUT, and the context of a QPUTW goes on. -/
def execQputReply (t : TileNo) (c : CtxNo) (n : Nat) (s : State) : Res :=
  .next <| match s.req t c n with
  | none => s
  | some r =>
    match r.kind, r.phase with
    | .qput _ _, .answered v _ => s.endReq t c r fun k => k.writeDst r.dst v
    | .qputw _ _, .answered v _ => s.modCtx t c fun k => k.finishPost s.time r v
    | _, _ => s

end Sys2Proof.Machine
end

