-- ==== Sys2Proof/Machine/Commands.lean ====
section
/-! DEFINITION. The queue commands other than LAUNCH: WAIT, SIGNAL, TIMED, FLUSH, INV, FENCE, COPY and TLBINV (R134 to
R136, R161, R189, R191). -/

namespace Sys2Proof.Machine

/-! ### Semaphores (R133, R135, R136) -/

/-- What a command meets at a semaphore: its place, or the error with which the command ends. -/
def State.semaphore (s : State) (q : QueueNo) (read write : Bool) (va : Word) : Except Bool (Place × Bool) :=
  match s.qPlace q read write (sext48 va.toNat) with
  | none => .error (s.qBad q (sext48 va.toNat))
  | some (p, hv) => if s.poisoned p then .error true else .ok (p, hv)

/-- The comparisons of WAIT. -/
def waitHolds (code : Nat) (x v : Word) : Bool :=
  match code with
  | 0 => decide (v.toNat ≤ x.toNat)
  | 1 => x == v
  | 2 => x != v
  | _ => x &&& v == v

/-- The timeout of a WAIT has run out since its command first started. -/
def State.waitLate (s : State) (q : QueueNo) (c : Cmd) : Bool :=
  let since := Assoc.get 0 q.toNat s.hub.waitSince
  c.w 4 != 0 && decide (0 < since) && decide (since - 1 + (c.w 4).toNat ≤ s.time)

/-- One evaluation of a WAIT: error 0x0A once its timeout has run out, also while its queue was unmapped; else it completes
on the value that it reads, or goes on waiting (R135, R138). DESIGN CHOICE (log 65): past its timeout it errs without a read, whatever
the word holds. -/
def State.evalWait (s : State) (q : QueueNo) (c : Cmd) : State :=
  if s.waitLate q c then s.cmdError q 0x0A
  else match s.semaphore q true false (c.w 1) with
  | .error u => s.cmdRefused q u
  | .ok (p, hv) =>
    let s := s.touchPlace p hv
    if waitHolds (bits (c.w 3) 0 2) (leWord (s.readPlaces p 8)) (c.w 2) then s.cmdDone q
    else s.modCmd q fun c => { c with phase := .waiting }

/-- A WAIT starts, and is evaluated (R135). -/
def execWait (q : QueueNo) (s : State) : Res :=
  .next <| match s.cmdIn q 2 .started with
  | some c => s.evalWait q c
  | none => s

/-- A waiting WAIT is evaluated again. -/
def execWaitEvaluate (q : QueueNo) (s : State) : Res :=
  .next <| match s.cmdIn q 2 .waiting with
  | some c => s.evalWait q c
  | none => s

/-- The timeout of a WAIT runs out: error 0x0A. -/
def execWaitTimeout (q : QueueNo) (s : State) : Res :=
  .next <| match s.cmdIn q 2 .waiting with
  | some c => if s.waitLate q c then s.cmdError q 0x0A else s
  | none => s

/-- The operations of SIGNAL. -/
def signalOp (code : Nat) (x v : Word) : Word :=
  match code with
  | 0 => x + v
  | 1 => v
  | 2 => x ||| v
  | _ => if x.toNat ≤ v.toNat then v else x

/-- SIGNAL's atomic, in its turn in the FIFO of its word (R136, R169, R171). -/
def execSignal (q : QueueNo) (s : State) : Res :=
  .next <| match s.cmdIn q 3 .started with
  | none => s
  | some c =>
    match s.semaphore q true true (c.w 1) with
    | .error u => s.cmdRefused q u
    | .ok (p, hv) =>
      match s.turnAt p.word8 (placeEntry 0 0 0 (.signal q) hv) with
      | (s, true) =>
        let s := s.touchPlace p hv
        let v := signalOp (bits (c.w 3) 0 2) (leWord (s.readPlaces p 8)) (c.w 2)
        ((s.store p (leBytes 8 v.toNat) none).noTurn q).cmdDone q
      | (s, false) => s

/-! ### TIMED (R134) -/

/-- A TIMED starts: it waits for its loom time. -/
def execTimed (q : QueueNo) (s : State) : Res :=
  .next <| match s.cmdIn q 4 .started with
  | some _ => s.modCmd q fun c => { c with phase := .waiting }
  | none => s

/-- Who writes for a COPY; the tile and the context stand for none. -/
def State.copier (s : State) (q : QueueNo) : Writer := ⟨0, 0, s.qTag q, false, .copy q⟩

/-- Its loom time has come: the stamp is written, and the command completes (R134). The write of the queue processor to main memory goes
to the backing copy (R159); one to the flag window takes its turn in the FIFO of its word (R171). -/
def execTimedExpiry (q : QueueNo) (s : State) : Res :=
  .next <| match s.cmdIn q 4 .waiting with
  | none => s
  | some c =>
    if s.time < (c.w 1).toNat then s
    else if c.w 2 = 0 then s.cmdDone q
    else
      match s.qPlace q false true (sext48 (c.w 2).toNat) with
      | none => s.cmdRefused q (s.qBad q (sext48 (c.w 2).toNat))
      | some (p, hv) =>
        match p with
        | .main _ => (s.postBacking (s.copier q) p hv (leBytes 8 s.time)).cmdDone q
        | _ =>
          match s.turnAt p.word8 (placeEntry 0 0 0 (.timed q) hv) with
          | (s, true) => ((s.store p (leBytes 8 s.time) none).noTurn q).cmdDone q
          | (s, false) => s

/-! ### FLUSH and INV (R161, R189) -/

/-- The pages of a range, each with its part of the range; the translated ones that a walk refuses make it none. -/
def State.flushSpans (s : State) (q : QueueNo) : List Nat → Nat → Nat → Option (List (TlbEntry × Nat × Nat))
  | [], _, _ => some []
  | a :: r, lo, hi =>
    let va := BitVec.ofNat 64 a
    if target s.part 0 va ≠ .mem then s.flushSpans q r lo hi
    else
      match s.walk (s.qTag q) va, s.flushSpans q r lo hi with
      | some e, some l => some ((e, a, min hi ((a / 65536 + 1) * 65536) - a) :: l)
      | _, _ => none

/-- FLUSH and INV: as MFLUSH and MINV of the range; a length of 0 is every buffered line with HV. -/
def State.flushCmd (s : State) (q : QueueNo) (c : Cmd) (drop : Bool) : State :=
  let a := (sext48 (c.w 1).toNat).toNat
  let n := (c.w 2).toNat
  if n = 0 then (s.flushAll drop).cmdDone q
  else if (flushBad a n).isSome then s.cmdRefused q false
  else
    match s.flushSpans q (flushPages a n) a (a + n) with
    | none => s.cmdRefused q ((flushPages a n).any fun x => s.qBad q (BitVec.ofNat 64 x))
    | some l => (l.foldl (fun s x => s.flushPage x.1 (BitVec.ofNat 64 x.2.1) x.2.2 drop) s).cmdDone q

def execFlush (q : QueueNo) (s : State) : Res :=
  .next <| match s.cmdIn q 5 .started with | some c => s.flushCmd q c false | none => s
def execInv (q : QueueNo) (s : State) : Res :=
  .next <| match s.cmdIn q 6 .started with | some c => s.flushCmd q c true | none => s

/-! ### FENCE, COPY, TLBINV (R134, R191) -/

/-- FENCE completes when the queue's ASYNC launches have ended too. -/
def execFenceCommand (q : QueueNo) (s : State) : Res :=
  .next <| match s.cmdIn q 7 .started with
  | some _ => if s.hub.launches.any (·.queue == q) then s else s.cmdDone q
  | none => s

/-- Whether a range covers the whole aligned word of an address, so that its check bits are replaced (R386). -/
def coversAll (lo n : Nat) (a : Nat) : Bool := decide (lo ≤ a / 8 * 8) && decide (a / 8 * 8 + 8 ≤ lo + n)

/-- The places of the bytes of a range as a COPY reaches them: none when one is refused, or when the copy meets an
uncorrectable error: in a word that it reads, or writes only in part. -/
def State.copyPlaces (s : State) (q : QueueNo) (write : Bool) (va : Word) (n : Nat) : Except Bool (List (Place × Bool)) :=
  (List.range n).foldr (fun i acc =>
    let a := va + BitVec.ofNat 64 i
    match s.qPlace q (!write) write a, acc with
    | some p, .ok l => if s.poisoned p.1 && !(write && coversAll va.toNat n a.toNat) then .error true else .ok (p :: l)
    | none, .ok _ => .error (s.qBad q a)
    | _, .error u => .error u) (.ok [])

/-- The pieces of a copy, each in one aligned word of the destination, with the attribute HV of its page. -/
def copyPieces : List ((Place × Bool) × Byte) → List (Place × Bool × List Byte)
  | [] => []
  | ((p, hv), b) :: r =>
    match copyPieces r with
    | (x, hx, bs) :: rest => if x = p.add 1 ∧ x.word8 = p.word8 then (p, hv, b :: bs) :: rest else (p, hv, [b]) :: (x, hx, bs) :: rest
    | [] => [(p, hv, [b])]

/-- COPY: the bytes are read, then written, in one step (log 17), those of main memory in the backing copy (R158, R159); a write to the
flag window joins the FIFO of a word where an atomic waits (R171), and the command completes when none is left there. -/
def execCopy (q : QueueNo) (s : State) : Res :=
  .next <| match s.cmdIn q 8 .started, s.cmdIn q 8 .waiting with
  | none, none => s
  | none, some _ => if s.postedBy 0 (.copy q) then s else s.cmdDone q
  | some c, _ =>
    let n := bits (c.w 3) 0 48
    match s.copyPlaces q false (sext48 (c.w 1).toNat) n, s.copyPlaces q true (sext48 (c.w 2).toNat) n with
    | .ok src, .ok dst =>
      let waits (p : Place) : Bool := match p with | .main _ => false | _ => true
      if !s.fits (((copyPieces (dst.map (·, 0))).map (·.1.word8)).filter waits) then s
      else
        let bs := src.map fun p => s.readBacking p.1
        let s := (copyPieces (dst.zip bs)).foldl (fun s x => s.postBacking (s.copier q) x.1 x.2.1 x.2.2) s
        if s.postedBy 0 (.copy q) then s.modCmd q fun c => { c with phase := .waiting } else s.cmdDone q
    | .error u, _ => s.cmdRefused q u
    | _, .error u => s.cmdRefused q u

/-- A tag's translations come from the queue's PTROOT (R166, R191). -/
def State.ofRoot (s : State) (q : QueueNo) (queue : QueueNo) (root : Nat) : Bool := queue == q || root == s.ptroot q

/-- An entry holds translations of the queue's PTROOT in a range. -/
def State.invalidates (s : State) (q : QueueNo) (all : Bool) (lo n : Nat) (e : TlbEntry) : Bool :=
  s.ofRoot q e.queue (s.ptroot e.queue)
    && (all || (decide (e.page * 2 ^ e.bits < lo + n) && decide (lo < (e.page + 1) * 2 ^ e.bits)))

/-- A request stands at its word's home: an atomic, or a plain store in the word's FIFO (R171). -/
def State.atHome (s : State) (t : TileNo) (c : CtxNo) (r : Req) : Bool :=
  match r.phase with
  | .queued | .granted _ | .released _ _ => true
  | _ => s.homes.any fun h => h.fifo.any fun e => e.tile == t && e.ctx == c && e.seq == r.seq && e.store.isSome && e.poster.isNone

/-- A unit reaches storage through the TLBs of its tile. -/
def Poster.translates : Poster → Bool
  | .card _ | .matrix _ | .router _ | .spill => true
  | _ => false

/-- A request in flight has used a translation of the range and is not performed yet: it stands at its word's home. A write
of an engine, of the matrix unit, of a router or of a spill that stands in a FIFO is waited for whatever its address is. -/
def State.usesRange (s : State) (q : QueueNo) (all : Bool) (lo n : Nat) : Bool :=
  (s.homes.any fun h => h.word.unit.1 != 0 && h.fifo.any fun e => e.poster.any Poster.translates)
    || s.tileNos.any fun t => allCtxs.any fun c =>
      let tag := s.tag t c
      s.ofRoot q tag.queue tag.root && (s.ctx t c).reqs.any fun r =>
        s.atHome t c r && r.elems.any fun e => s.translated t e.addr && (all || rangesMeet (va48 e.addr, max 1 e.size) (lo, n))

/-- TLBINV: the entries of the range leave every TLB, once no access that used one is under way (R191). -/
def execTlbinv (q : QueueNo) (s : State) : Res :=
  .next <| match s.cmdIn q 9 .started with
  | none => s
  | some c =>
    let all := (c.w 3).getLsbD 0
    let lo := bits (c.w 1) 0 48
    let n := (c.w 2).toNat
    if s.usesRange q all lo n then s
    else
      let keep (l : List TlbEntry) : List TlbEntry := l.filter fun e => !s.invalidates q all lo n e
      let regions := s.regions.map fun p => (p.1, { p.2 with tlb := keep p.2.tlb })
      let tiles := s.tiles.map fun p => (p.1, { p.2 with tlb := keep p.2.tlb })
      ({ s with
        regions := regions.filter fun p => p.2 != Region.none
        tiles := tiles.filter fun p => p.2 != Tile.reset } : State).cmdDone q

end Sys2Proof.Machine
end

