-- ==== Sys2Proof/Machine/Launch.lean ====
section
/-! DEFINITION. LAUNCH: the launch record and its checks, levels, placement, the writes to the tiles and the start
messages (R21 to R23, R102, R106, R107, R137, R140 to R143, R199, R222, R257, R324, R392). -/

namespace Sys2Proof.Machine

/-! ### The launch record (R140) -/

/-- The fields of a launch record whose must-be-0 bits and alignments hold. -/
structure Rec where
  words : List Word
deriving DecidableEq, Repr

def Rec.w (r : Rec) (i : Nat) : Word := r.words.getD i 0
def Rec.addr (r : Rec) (i : Nat) : Word := sext48 (bits (r.w i) 0 48)
def Rec.ntask (r : Rec) : Nat := bits (r.w 0) 32 16
def Rec.picks (r : Rec) : Bool := (r.w 0).getLsbD 16
def Rec.groupCode (r : Rec) : Nat := bits (r.w 0) 14 2
/-- Contexts in a group. -/
def Rec.size (r : Rec) : Nat := match r.groupCode with | 0 => 16 | 1 => 8 | _ => 4
def Rec.weight (r : Rec) : Nat := bits (r.w 0) 10 4 + 1
def Rec.cls (r : Rec) : Nat := bits (r.w 0) 8 2
def Rec.levels (r : Rec) : Nat := bits (r.w 0) 4 4
def Rec.ioff (r : Rec) : Nat := bits (r.w 3) 0 16
def Rec.isize (r : Rec) : Nat := bits (r.w 3) 16 17
def Rec.codelen (r : Rec) : Nat := bits (r.w 3) 33 17
def Rec.lsoff (r : Rec) : Nat := bits (r.w 5) 0 20
def Rec.lslen (r : Rec) : Nat := bits (r.w 5) 20 21
def Rec.argoff (r : Rec) : Nat := bits (r.w 7) 0 20
def Rec.arglen (r : Rec) : Nat := bits (r.w 7) 20 13
def Rec.tidFirst (r : Rec) : Nat := bits (r.w 17) 0 8
def Rec.tidCnt (r : Rec) : Nat := bits (r.w 17) 8 9
def Rec.ttFirst (r : Rec) : Nat := bits (r.w 19) 0 6
def Rec.ttCnt (r : Rec) : Nat := bits (r.w 19) 6 7
def Rec.slotmask (r : Rec) : BitVec 8 := (r.w 21).extractLsb' 0 8

/-- A level word. -/
def lvDomain (w : Word) : Nat := bits w 0 3
def lvScope (w : Word) : Nat := bits w 4 3
def lvExtent (w : Word) : Nat := bits w 16 16
def Rec.level (r : Rec) (n : Nat) : Word := r.w (8 + n)

/-- A task: its words. -/
structure Task where
  w0 : Word
  arg : Word
deriving DecidableEq, Repr

def Task.entry (t : Task) : Nat := bits t.w0 0 16
def Task.x (t : Task) : Nat := bits t.w0 16 8
def Task.y (t : Task) : Nat := bits t.w0 24 8
def Task.tile (t : Task) : TileNo := BitVec.ofNat 12 (t.y * 64 + t.x)

/-- Slots that the record reserves. -/
def Rec.slots (r : Rec) : List Nat := (List.range 8).filter r.slotmask.getLsbD

/-! ### Levels (R141, R142) -/

/-- The minimum scope of a domain. -/
def minScope (dom : Nat) : Nat := [4, 3, 3, 2, 2, 2, 1, 0].getD dom 0

/-- The origin of a tile's unit of a domain, as y and x in one number that ranks it by y, then x. -/
def unitOf (dom : Nat) (t : TileNo) : Nat :=
  let x := t.toNat % 64
  let y := t.toNat / 64
  let (dx, dy) : Nat × Nat := match dom with
    | 0 => (64, 64) | 1 => (32, 32) | 2 => (16, 16) | 3 => (8, 8) | 4 => (4, 4) | 5 => (2, 1) | _ => (1, 1)
  (y / dy * dy) * 64 + x / dx * dx

/-- `lidx`n of a tile's task. -/
def lidxAt (r : Rec) (tiles : List TileNo) (n : Nat) (t : TileNo) : Nat :=
  let dom := lvDomain (r.level n)
  let parent (o : TileNo) : Nat := if n = 0 then 0 else unitOf (lvDomain (r.level (n - 1))) o
  let units := ((tiles.filter fun o => parent o == parent t).map (unitOf dom)).eraseDups
  (units.filter fun u => decide (u < unitOf dom t)).length

/-- The rules of R141 on the levels. -/
def Rec.levelsOk (r : Rec) : Bool :=
  (List.range r.levels).all fun n =>
    let w := r.level n
    lvExtent w != 0 && decide (lvScope w ≤ 5) && decide (minScope (lvDomain w) ≤ lvScope w)
      && (n == 0 || decide (lvDomain (r.level (n - 1)) < lvDomain w)) && (lvDomain w != 7 || n + 1 == r.levels)

/-- The level of domain THREAD. -/
def Rec.thread (r : Rec) : Option Nat := (List.range r.levels).find? fun n => lvDomain (r.level n) == 7

/-! ### The checks of step 1 (R137, R143) -/

/-- A record as read: its tasks, its DRAFTS entries and the drafts that they name. -/
structure Loaded where
  rec' : Rec
  tasks : List Task
  entries : List (Nat × Word)
  drafts : List (Nat × Draft)
deriving DecidableEq, Repr

/-- A must-be-0 field of the record or of a task is not 0. -/
def Rec.dirty (r : Rec) (ts : List Task) : Bool :=
  let lv (n : Nat) : Bool :=
    if n < r.levels then bits (r.level n) 32 32 != 0 || bits (r.level n) 7 9 != 0 || (r.level n).getLsbD 3 else r.level n != 0
  bits (r.w 0) 48 16 != 0 || bits (r.w 0) 17 15 != 0 || bits (r.w 3) 50 14 != 0 || bits (r.w 5) 41 23 != 0
    || bits (r.w 7) 33 31 != 0 || bits (r.w 17) 17 47 != 0 || bits (r.w 19) 13 51 != 0 || bits (r.w 21) 8 56 != 0
    || r.w 22 != 0 || r.w 23 != 0 || (List.range 8).any lv || ts.any fun t => bits t.w0 32 32 != 0

/-- An address or offset is misaligned. A length of 0 means that its address is not read, and nothing is asked of it. -/
def Rec.misaligned (r : Rec) (ts : List Task) (es : List (Nat × Word)) : Bool :=
  (r.w 1).toNat % 16 != 0 || (r.codelen != 0 && (r.w 2).toNat % 4 != 0) || r.ioff % 4 != 0
    || (r.tidCnt != 0 && (r.w 16).toNat % 32 != 0) || (r.ttCnt != 0 && (r.w 18).toNat % 64 != 0)
    || ts.any (fun t => t.entry % 4 != 0) || es.any fun e => e.2 != 0 && !e.2.getLsbD 0 && e.2.toNat % 8 != 0

/-- The rectangle of some tiles: its corners. -/
def rectOf (ts : List TileNo) : Nat × Nat × Nat × Nat :=
  let xs := ts.map fun t => t.toNat % 64
  let ys := ts.map fun t => t.toNat / 64
  (xs.foldl min 63, ys.foldl min 63, xs.foldl max 0, ys.foldl max 0)

/-- The record breaks a rule of R140 to R143 or R257. -/
def State.recInvalid (s : State) (r : Rec) (ts : List Task) : Bool :=
  let tiles := ts.map (·.tile)
  let q := rectOf tiles
  r.ntask == 0 || decide (4096 < r.ntask) || r.groupCode == 3 || r.levels == 0 || decide (8 < r.levels) || bits (r.w 0) 0 4 != 1
    || decide (r.isize < 4) || decide (65536 < r.isize) || r.isize % 4 != 0 || decide (r.isize < r.codelen) || r.codelen % 4 != 0
    || decide (65536 < r.ioff + r.isize) || decide (2 ^ 20 < r.lslen) || decide (2 ^ 20 < r.lsoff + r.lslen)
    || decide (4096 < r.arglen) || decide (2 ^ 20 < r.argoff + r.arglen)
    || decide (256 < r.tidFirst + r.tidCnt) || decide (64 < r.ttFirst + r.ttCnt) || !r.levelsOk
    || ts.any (fun t => decide (t.entry < r.ioff) || decide (r.ioff + r.isize ≤ t.entry) || decide (64 ≤ t.x)
        || decide (s.part.rows ≤ t.y))
    || tiles.eraseDups.length != tiles.length
    || (List.range r.levels).any (fun n => lvDomain (r.level n) != 7 && tiles.any fun t =>
        decide (lvExtent (r.level n) ≤ lidxAt r tiles n t))
    || (r.picks && (q.2.2.1 - q.1 + 1) * (q.2.2.2 - q.2.1 + 1) != r.ntask)

/-- The drafts that the entries list, in slot order: the error of the first that cannot be read or fails. -/
def State.readDrafts (s : State) (q : QueueNo) : List (Nat × Word) → Except (Nat × Bool) (List (Nat × Draft))
  | [] => .ok []
  | (n, e) :: r =>
    if e = 0 ∨ e.getLsbD 0 then s.readDrafts q r
    else
      let a := sext48 (bits e 0 48)
      match s.qBytes q a 8 with
      | .error u => .error (0x04, u)
      | .ok h =>
        match s.qBytes q (a + 8) (8 * (bits (leWord h) 0 5 + 1)) with
        | .error u => .error (0x04, u)
        | .ok ns =>
          let d : Draft := ⟨leWord h, wordsOf ns⟩
          if !d.okTile then .error (0x09, false)
          else match s.readDrafts q r with
            | .ok l => .ok ((n, d) :: l)
            | x => x

/-- Step 1 of R143: the record, its tasks and its drafts, or the error code and whether an uncorrectable error caused it. -/
def State.loadRecord (s : State) (q : QueueNo) (a : Word) : Except (Nat × Bool) Loaded :=
  match s.qBytes q (sext48 (bits a 0 48)) 192 with
  | .error u => .error (0x04, u)
  | .ok bs =>
    let r : Rec := ⟨wordsOf bs⟩
    if r.dirty [] then .error (0x02, false)
    else
      match s.qBytes q (r.addr 1) (16 * r.ntask) with
      | .error u => .error (0x04, u)
      | .ok tb =>
        let tw := wordsOf tb
        let ts := (List.range r.ntask).map fun i => (⟨tw.getD (2 * i) 0, tw.getD (2 * i + 1) 0⟩ : Task)
        let entry (n : Nat) := s.qBytes q (r.addr 20 + BitVec.ofNat 64 (8 * n)) 8
        match r.slots.find? fun n => match entry n with | .error _ => true | .ok _ => false with
        | some n => .error (0x04, match entry n with | .error u => u | .ok _ => false)
        | none =>
          let es := r.slots.map fun n => (n, match entry n with | .ok b => leWord b | .error _ => 0)
          if r.dirty ts then .error (0x02, false)
          else if r.misaligned ts es then .error (0x03, false)
          else if s.recInvalid r ts then .error (0x05, false)
          else if r.slotmask ≠ 0 ∧ !s.part.heddle then .error (0x08, false)
          else match s.readDrafts q es with
            | .error e => .error e
            | .ok ds => .ok ⟨r, ts, es, ds⟩

/-! ### Placement (R23, R106, R143 step 2) -/

/-- Two intervals given by first element and length share an element; an empty one shares none. -/
def spansMeet (a n b m : Nat) : Bool := n != 0 && m != 0 && decide (a < b + m) && decide (b < a + n)

/-- The placements of a record and of a resident launch overlap (R23). -/
def Rec.clashes (r : Rec) (o : Resident) : Bool :=
  spansMeet r.ioff r.isize o.ioff o.isize || spansMeet r.tidFirst r.tidCnt o.tidFirst o.tidCnt
    || spansMeet r.ttFirst r.ttCnt o.ttFirst o.ttCnt || (r.slotmask &&& o.slotmask) != 0

/-- A launch with picks holds the picks of its tiles until it ends as a whole: a done tile's history is read, and a slack
tile stays slack, until then (R257, R262, R264, R268; log 42). -/
def State.picksHeld (s : State) (t : TileNo) : Bool :=
  s.hub.launches.any fun l => l.picks && l.live != [] && l.tasks.any (·.1 == t)

/-- What placing a task on a tile meets: an error, a wait, or a group. -/
inductive Place1 where
  | error (code : Nat)
  | wait
  | group (g : Nat)

/-- Placing the record on one tile. A group whose contexts still end is not free yet (R143, R391). -/
def State.placeOn (s : State) (r : Rec) (t : TileNo) : Place1 :=
  let tl := s.tile t
  let res := tl.residents.filter fun o => !o.ended
  if tl.quarantined then .error 0x0B
  else if res ≠ [] ∧ tl.split ≠ r.size then .error 0x07
  else if res.any r.clashes || (r.picks && s.picksHeld t) || (match s.hub.monitor with | some m => spansMeet r.ioff r.isize m.1 m.2 | none => false) then .error 0x06
  else
    let empty (g : Nat) : Bool := (List.range r.size).all fun i => (tl.ctx (BitVec.ofNat 4 (g * r.size + i))).isFree
    let free := (List.range (16 / r.size)).find? fun g => (res.all fun o => o.group != g) && empty g
    let held := (List.range r.ttCnt).any fun i => (tl.ttSt (r.ttFirst + i)).phase.busy
    match free, held with
    | some g, false => .group g
    | _, _ => .wait

/-- Placing on every tile: the first error in task order, else a wait, else the groups. -/
def State.placeAll (s : State) (r : Rec) (ts : List TileNo) : Except Nat (Option (List (TileNo × Nat))) :=
  let ps := ts.map fun t => (t, s.placeOn r t)
  match ps.findSome? fun p => match p.2 with | .error c => some c | _ => none with
  | some c => .error c
  | none =>
    let gs := ps.filterMap fun p => match p.2 with | .group g => some (p.1, g) | _ => none
    .ok (if gs.length = ps.length then some gs else none)

/-! ### The writes of step 3 and the start messages (R143, R222) -/

/-- The images of a record: code, LS, arguments, TID entries, tile table entries. -/
structure Images where
  code : List Byte
  ls : List Byte
  arg : List Byte
  tid : List Byte
  tt : List Byte

def State.readImages (s : State) (q : QueueNo) (r : Rec) : Except Bool Images :=
  match s.qBytes q (r.addr 2) r.codelen, s.qBytes q (r.addr 4) r.lslen, s.qBytes q (r.addr 6) r.arglen,
      s.qBytes q (r.addr 16) (32 * r.tidCnt), s.qBytes q (r.addr 18) (64 * r.ttCnt) with
  | .ok a, .ok b, .ok c, .ok d, .ok e => .ok ⟨a, b, c, d, e⟩
  | .error u, _, _, _, _ | _, .error u, _, _, _ | _, _, .error u, _, _ | _, _, _, .error u, _ | _, _, _, _, .error u => .error u

/-- A word of 8 bytes lies wholly in a range of offsets. -/
def wholeIn (off len o : Nat) : Bool := decide (off ≤ o) && decide (o + 8 ≤ off + len)

/-- Write an image into the LS of a tile, but for the words `busy`, which keep what they hold; a word that is replaced whole is
clean again (R386). -/
def Tile.writeLs (tl : Tile) (off : Nat) (bs : List Byte) (busy : List Nat) : Tile :=
  { tl with
    ls := busy.foldl (fun m o => Memory.writeBytes m o (Memory.readBytes tl.ls o 8)) (Memory.writeBytes tl.ls off bs)
    poison := tl.poison.filter fun p => match p with | .ls _ o => busy.contains o || !wholeIn off bs.length o | _ => true }

/-- Write code into the I-store. A context that runs may still fetch what stood there (R127). -/
def Tile.writeCode (tl : Tile) (off : Nat) (bs : List Byte) : Tile :=
  let tl := if tl.ctxs.any fun p => p.2.state != .free then
      (List.range bs.length).foldl (fun tl i => tl.rememberStale (off + i)) tl
    else tl
  { tl with
    istore := Memory.writeBytes tl.istore off bs
    poison := tl.poison.filter fun p => match p with | .istore _ o => !wholeIn off bs.length o | _ => true }

/-- The TID entries and the tile table entries of a launch; no entry changes its state by that (R282). DESIGN CHOICE (log 72): nor GEN,
FLAGS and ALTUSED. -/
def Tile.writeTables (tl : Tile) (r : Rec) (im : Images) : Tile :=
  let tl := (List.range r.tidCnt).foldl (fun tl i =>
    { tl with tids := Assoc.set Tid.zero (r.tidFirst + i) (Tid.ofBytes ((im.tid.drop (32 * i)).take 32)) tl.tids
              badTids := tl.badTids.filter (· != r.tidFirst + i) }) tl
  (List.range r.ttCnt).foldl (fun tl i =>
    let n := r.ttFirst + i
    let tl := tl.setTt n (wordsOf ((im.tt.drop (64 * i)).take 64))
    { tl with badTts := tl.badTts.filter (· != n) }) tl

/-- The heddle slots of a launch, by their DRAFTS entries (R222). -/
def Tile.writeSlots (tl : Tile) (ld : Loaded) (g : Nat) : Tile :=
  ld.entries.foldl (fun tl e =>
    let d := (ld.drafts.find? (·.1 == e.1)).map (·.2)
    tl.setHeddle e.1 ⟨true, BitVec.ofNat 2 g, d.isSome, d.getD Draft.empty, e.2 &&& ~~~1⟩) tl

/-- The launch as a tile holds it. -/
def Loaded.resident (ld : Loaded) (id : Nat) (q : QueueNo) (root : Nat) (cls : BitVec 2) (t : TileNo) (g : Nat) : Resident :=
  let r := ld.rec'
  let tiles := ld.tasks.map (·.tile)
  { id := id, queue := q, ptroot := root, group := g, size := r.size, weight := r.weight, cls := cls, ioff := r.ioff, isize := r.isize
    tidFirst := r.tidFirst, tidCnt := r.tidCnt, ttFirst := r.ttFirst, ttCnt := r.ttCnt, slotmask := r.slotmask
    picks := r.picks, rect := rectOf tiles
    lidx := (List.range r.levels).map fun n => if lvDomain (r.level n) = 7 then 0 else lidxAt r tiles n t
    ldim := (List.range r.levels).map fun n => lvExtent (r.level n)
    thread := r.thread, ended := false }

/-- Everything that steps 2 and 3 do on one tile, but for the writes of the words `busy`, in whose FIFOs something waits. PICKS = 1
resets the picks of the tile (R257). DESIGN CHOICE (log 60): a launch without picks leaves them as an earlier launch left them, and
`pick` and `pstat` read so. -/
def Tile.place (tl : Tile) (ld : Loaded) (im : Images) (res : Resident) (busy : List Nat) : Tile :=
  let r := ld.rec'
  let tl : Tile := { tl with split := r.size, residents := tl.residents ++ [res] }
  let tl := (((tl.writeCode r.ioff im.code).writeLs r.lsoff im.ls busy).writeLs r.argoff im.arg busy).writeTables r im
  let tl := tl.writeSlots ld res.group
  if r.picks then { tl with pick := 0, joined := false, pdone := false, slack := false, nbrs := [] } else tl

/-- The words of the LS of a tile that an image touches are seen by what waits for them (R170, R216, R283). -/
def State.imageWrote (s : State) (t : TileNo) (off len : Nat) : State :=
  let words := (List.range ((off % 8 + len + 7) / 8)).map fun i => Place.ls t (off / 8 * 8 + 8 * i)
  let hot (w : Place) : Bool :=
    s.fifoEmpty w && (s.homes.any (·.word == w) || (s.tile t).cards.any fun k => Place.ls t (bits k.cmd 0 20) == w)
  (words.filter hot).foldl (fun s w => s.wrote w none) s

/-- The words of the LS of a tile in whose FIFOs something waits. -/
def State.busyWords (s : State) (t : TileNo) : List Nat :=
  s.homes.filterMap fun h => match h.word with | .ls o n => if o == t && h.fifo != [] then some n else none | _ => none

/-- The pieces of an image that go to some words, each with its offset. -/
def imagePieces (busy : List Nat) (off : Nat) (bs : List Byte) : List (Nat × List Byte) :=
  (busy.map fun o => (max off o, (bs.drop (o - off)).take (min (off + bs.length) (o + 8) - max off o))).filter (·.2 != [])

/-- The pieces of the LS image and of the argument block that must wait in FIFOs on a tile. -/
def State.waitingPieces (s : State) (r : Rec) (im : Images) (t : TileNo) : List (Nat × List Byte) :=
  imagePieces (s.busyWords t) r.lsoff im.ls ++ imagePieces (s.busyWords t) r.argoff im.arg

/-- On some tile the FIFOs have no room for them (R173). -/
def State.imagesBlocked (s : State) (r : Rec) (im : Images) (ts : List TileNo) : Bool :=
  ts.any fun t =>
    let ps := s.waitingPieces r im t
    ps != [] && decide ((Place.ls t 0).fifoDepth < s.atUnit (.ls t 0) (·.fifo.length) + ps.length)

/-- The images reach the LS of a tile on which the launch is placed: a piece for a word where something waits joins the word's
FIFO (R171, R190). -/
def State.writeImages (s : State) (id : Nat) (q : Tag) (r : Rec) (im : Images) (t : TileNo) : State :=
  let s := (s.waitingPieces r im t).foldl (fun s p => s.post1 ⟨0, 0, q, false, .launch id⟩ (.ls t p.1) false p.2) s
  (s.imageWrote t r.lsoff r.lslen).imageWrote t r.argoff r.arglen

/-- Place a launch on its tiles and send the start messages (R143, steps 2 to 4). -/
def State.runLaunch (s : State) (q : QueueNo) (c : Cmd) (ld : Loaded) (im : Images) (gs : List (TileNo × Nat)) : State :=
  let r := ld.rec'
  let id := s.hub.nextLaunch + 1
  let cls := BitVec.ofNat 2 (max r.cls (descClass (s.desc q)))
  let async := (c.w 0).getLsbD 16
  let s := gs.foldl (fun s p =>
    let s := s.modTile p.1 fun tl => tl.place ld im (ld.resident id q (s.ptroot q) cls p.1 p.2) (s.busyWords p.1)
    let s := s.writeImages id (s.qTag q) r im p.1
    if r.picks then { s with picks := s.picks.filter (·.dest != p.1) } else s) s
  let starts := (gs.zip ld.tasks).map fun p =>
    (⟨p.1.1, p.1.2, BitVec.ofNat 64 p.2.entry, p.2.arg, id⟩ : StartMsg)
  let l : Launch :=
    { id := id, queue := q, index := s.readIdx q, async := async, cls := cls, ptroot := s.ptroot q, picks := r.picks, tasks := gs
      live := gs.map (·.1), started := true, quarantined := false
      saved := [], resuming := false, ordered := false }
  let h : Hub := { s.hub with launches := s.hub.launches ++ [l], nextLaunch := id }
  let s : State := { s with hub := h, starts := s.starts ++ starts }
  s.modCmd q fun c => { c with launch := some id, phase := if async then .done else .started }

/-- One attempt of a LAUNCH: an error, a wait, or the launch runs. In P2 it waits (R328), and in step 3 too, not displaceable, while
a FIFO has no room for a piece of an image (R173). DESIGN CHOICE (log 50): each attempt reads and checks the record, its tasks and its
drafts anew; step 3 reads every image before it writes, so a fault there leaves no byte on a tile. -/
def State.tryLaunch (s : State) (q : QueueNo) (c : Cmd) : State :=
  if s.hub.actual = 2 then s.modCmd q fun c => { c with phase := .waiting }
  else
    match s.loadRecord q (c.w 1) with
    | .error (code, u) => let s := s.cmdError q code; if u then s.memError else s
    | .ok ld =>
      match s.placeAll ld.rec' (ld.tasks.map (·.tile)) with
      | .error code => s.cmdError q code
      | .ok none => s.modCmd q fun c => { c with phase := .waiting }
      | .ok (some gs) =>
        match s.readImages q ld.rec' with
        | .error u => s.cmdRefused q u
        | .ok im =>
          if s.imagesBlocked ld.rec' im (gs.map (·.1)) then s.modCmd q fun c => { c with phase := .started }
          else s.runLaunch q c ld im gs

/-- A LAUNCH starts (R143). -/
def execLaunch (q : QueueNo) (s : State) : Res :=
  .next <| match s.cmdIn q 1 .started with
  | some c => if c.launch.isNone then s.tryLaunch q c else s
  | none => s

/-- A LAUNCH that waits under step 2, or in P2, tries again. -/
def execLaunchPlacementRetry (q : QueueNo) (s : State) : Res :=
  .next <| match s.cmdIn q 1 .waiting with
  | some c => s.tryLaunch q c
  | none => s

/-- A start message reaches its tile: the task starts on its group root, or waits there while the monitor runs on context 0
(R107, R143). It is sent once the launch's images are written. -/
def execStartMessage (n : Nat) (s : State) : Res :=
  .next <| match s.starts[n]? with
  | none => s
  | some m =>
    if s.imagesPending m.launch then s else
    let s : State := { s with starts := s.starts.eraseIdx n }
    let tl := s.tile m.tile
    match tl.residentId m.launch with
    | none => s
    | some r =>
      if r.ended || tl.quarantined then s
      else if r.root = 0 ∧ (tl.ctx 0).sup then s.modTile m.tile fun tl => { tl with waitStart := some m }
      else s.startTask m r

end Sys2Proof.Machine
end

