-- ==== Sys2Proof/Machine/Monitor.lean ====
section
/-! DEFINITION. What the tile monitor and the hub do to a tile: REQCTL, STOPCTL and the drain, PRES, arriving shuttles,
PEXCUSE, pre-emption orders, TCMP, soft errors and the other tile control registers (R102, R110, R267, R268, R270,
R297, R301 to R313, R360, R426). -/

namespace Sys2Proof.Machine

/-! ### Writes to tile control (R426) -/

/-- The request that writes the control register at an offset, and its tile, once it may be performed. -/
def State.ctl (s : State) (t : TileNo) (c : CtxNo) (n off : Nat) : Option (Req × TileNo) :=
  match s.req t c n with
  | none => none
  | some q =>
    match q.kind, q.phase, q.elems with
    | .control o, .issued, e :: _ =>
      if e.addr.toNat % 2 ^ 24 = 0x150000 + off && s.mayPerform t c q q.elems then some (q, o) else none
    | _, _, _ => none

/-- The registers that a plain write changes, and how: a write with a must-be-0 bit, or to a read-only register, changes
nothing (R102, R110, R297, R305, R306, R426). -/
def Tile.writeControl (tl : Tile) (off : Nat) (v : Word) : Tile :=
  if off < 0x80 then tl.setSlot (off / 8) v
  else match off with
    | 0x080 => { tl with pwlog := logField tl.pwlog v }
    | 0x168 => { tl with mbase := v }
    | 0x178 => { tl with tcmp := v }
    | 0x1A0 => { tl with pbuf := v, dspill := 0, sspill := 0 }
    | _ => tl

/-- Offsets of tile control that have a step of their own: JOBCTL, PEXCUSE, REQCTL, STOPCTL, PRES. -/
def ctlOwn (off : Nat) : Bool := [0x100, 0x140, 0x170, 0x180, 0x1A8].contains off

/-- A store to another register of tile control is performed. -/
def State.tileWrite (s : State) (t : TileNo) (c : CtxNo) (n : Nat) : State :=
  match s.req t c n with
  | none => s
  | some q =>
    match q.elems with
    | e :: _ =>
      let off := e.addr.toNat % 2 ^ 24 - 0x150000
      match s.ctl t c n off with
      | some (q, o) =>
        if ctlOwn off then s else (s.modTile o fun tl => tl.writeControl off q.data).endReq t c q id
      | none => s
    | [] => s

/-! ### REQCTL (R303) -/

/-- The refused log entry of context `tctx`.CTX that a REQCTL write names: its context and the request. -/
def State.reqctl (s : State) (o : TileNo) (v : Word) : Option (CtxNo × Req) :=
  let tl := s.tile o
  let c := BitVec.ofNat 4 (bits tl.tctx 0 4)
  if bits v 18 46 ≠ 0 then none
  else
    ((tl.ctx c).reqs.find? fun q =>
      q.logged && q.seq == v.extractLsb' 0 16 && (match q.phase with | .refused _ _ => true | _ => false)).map fun q => (c, q)

/-- A late cause for a request that the monitor acts on is not raised any more. -/
def Ctx.forgive (k : Ctx) (seq : BitVec 16) : Ctx :=
  { k with late := k.late.filter fun l => match l.req with | some (q, _) => q != seq | none => true }

/-- MFLUSH and MINV, whose one element keeps in `pos` how far they are. -/
def Req.flushes (q : Req) : Bool := q.kind == .mflush || q.kind == .minv

/-- A request that is issued again re-executes as a whole, with every element and a flush's whole range (R303). -/
def Req.again (q : Req) : Req :=
  { q with phase := .issued, elems := q.elems.map fun e => { e with pos := if q.flushes then 0 else e.pos, done := false } }

/-- OP 1: the request is issued again, with the same sequence number. -/
def execReqctlReplay (t : TileNo) (c : CtxNo) (n : Nat) (s : State) : Res :=
  .next <| match s.ctl t c n 0x170 with
  | some (q, o) =>
    if bits q.data 16 2 ≠ 1 then s
    else
      let s := match s.reqctl o q.data with
        | some (c', r) => (s.modReq o c' r.seq Req.again).modCtx o c' fun k => k.forgive r.seq
        | none => s
      s.endReq t c q id
  | none => s

/-- What a dropped request leaves: 0 in the destination of a load, an LR or an AMO, in every active lane of a vector load. -/
def Ctx.drop (k : Ctx) (q : Req) : Ctx :=
  match q.kind, q.dst with
  | .load _, d | .lr, d | .amo _, d | .amodr _, d => k.writeDst d 0
  | .vload, .v r =>
    k.setV r (loadLanes (k.getV r) (q.elems.map fun e => { e with bytes := List.replicate e.size 0 }))
  | _, _ => k

/-- OP 2: the request is dropped and its counter falls. OP 0 and 3 have no effect, and end here too. -/
def execReqctlDrop (t : TileNo) (c : CtxNo) (n : Nat) (s : State) : Res :=
  .next <| match s.ctl t c n 0x170 with
  | some (q, o) =>
    if bits q.data 16 2 = 1 then s
    else
      let s := match bits q.data 16 2, s.reqctl o q.data with
        | 2, some (c', r) => s.endReq o c' r fun k => (k.forgive r.seq).drop r
        | _, _ => s
      s.endReq t c q id
  | none => s

/-! ### Stopping and draining (R306, R384) -/

/-- A context stops at its instruction boundary, after the release of an atomic whose grant it holds (R306), and the root
of a launch that the hub holds at its PADV (R309, R382). One in HOP whose shuttle is under way waits for the answer; a HELD one stays
HELD. A stopped wait is tested again on release. -/
def State.stopOne (s : State) (t : TileNo) (c : CtxNo) : State :=
  let k := s.ctx t c
  let sent := match k.hop with | .sent _ => true | _ => false
  if k.amoHeld || !(s.tile t).stopDue c then s
  else if k.sup then s.modCtx t c fun k => { k with under := if k.under = .ready then .stopped else k.under }
  else if (k.state = .ready ∨ k.state = .parked) ∧ !sent then
    let s := ((s.dropGrant t c).withdrawPost t c).unwatch t c
    s.modCtx t c fun k => { k with held := false, fencing := false, state := .stopped, park := none, hop := .none, woken := false }
  else s

/-- The contexts whose bits a mask holds. -/
def maskCtxs (m : BitVec 16) : List CtxNo := allCtxs.filter fun c => m.getLsbD c.toNat

/-- A write of 1 to STOP bits that are 0 (R306). -/
def execStopctlStop (t : TileNo) (c : CtxNo) (n : Nat) (s : State) : Res :=
  .next <| match s.ctl t c n 0x180 with
  | none => s
  | some (q, o) =>
    let v := q.data.extractLsb' 0 16
    let old := (s.tile o).stop
    let new := v &&& ~~~old
    if new = 0 then s
    else
      let s := s.modTile o fun tl =>
        { tl with stop := old ||| v, drained := false, restoring := tl.restoring &&& ~~~new
                  saving := ((maskCtxs new).findSome? fun c => (tl.residentOf c).map (·.id)).or tl.saving
                  dspill := if old = 0 then 0 else tl.dspill, sspill := if old = 0 then 0 else tl.sspill }
      let s := (maskCtxs new).foldl (fun s c => s.stopOne o c) s
      if old &&& ~~~v = 0 then s.endReq t c q id else s

/-- A write of 0 to a STOP bit: the context goes on, or ends if it was killed meanwhile (R306, R391). After a resume it has no
record of a job that completed before the save, whether it goes on or stays HELD (R360). -/
def State.releaseOne (s : State) (t : TileNo) (c : CtxNo) (resumed : Bool) : State :=
  let s := if resumed then s.modCtx t c fun k => { k with jobs := k.jobs.filter (!·.done) } else s
  let k := s.ctx t c
  if k.task ≠ .stopped then s
  else
    let s := s.modCtx t c fun k =>
      let st : CtxState := if k.dead then .held else .ready
      if k.sup then { k with under := st } else { k with state := st }
    if k.killStatus = 0 then s else s.killOne t c k.killStatus

/-- A withdrawn card takes its place again, under its old job number and with a new record (R308, R360); a TRIG card tests its
counter as at issue, but for one that has fired, which no step undoes (R395). -/
def State.reissue (s : State) (t : TileNo) (d : Card) : State :=
  let st : CardState := if d.state ≠ .unfired then d.state else if s.trigMet t d.cmd then .armed else .unfired
  let d : Card := { d with state := st, promise := none }
  (s.modTile t fun tl => { tl with cards := tl.cards ++ [d] }).modCtx t d.ctx fun k =>
    { k with jobs := k.jobs.filter fun r => r.job != d.job || r.done }.addJob d.job

/-- Writes of 0 to STOP bits, once no bit of the write is still to be set (R306, R308). -/
def execStopctlRelease (t : TileNo) (c : CtxNo) (n : Nat) (s : State) : Res :=
  .next <| match s.ctl t c n 0x180 with
  | none => s
  | some (q, o) =>
    let v := q.data.extractLsb' 0 16
    let old := (s.tile o).stop
    if v &&& ~~~old ≠ 0 then s
    else
      let resumed := (s.tile o).restoring
      let s := s.modTile o fun tl =>
        { tl with stop := v, drained := tl.drained && v != 0, restoring := tl.restoring &&& v }
      let s := (maskCtxs (old &&& ~~~v)).foldl (fun s c => s.releaseOne o c (resumed.getLsbD c.toNat)) s
      let (again, kept) := (s.tile o).withdrawn.partition fun d => !v.getLsbD d.ctx.toNat
      let s := s.modTile o fun tl => { tl with withdrawn := kept }
      (again.foldl (fun s d => s.reissue o d) s).endReq t c q id

/-- The unfired TRIG cards of stopped contexts, and the cards held behind them (R216, R306). -/
def withdrawals (stop : BitVec 16) : List Card → List Card → List Card
  | [], acc => acc
  | d :: r, acc =>
    let unfired := d.state == .unfired && stop.getLsbD d.ctx.toNat && !d.sup
    let behind := d.state == .queued && acc.any fun b => b.conflicts d
    withdrawals stop r (if unfired || behind then acc ++ [d] else acc)

/-- A stopped context has met the drain rules. -/
def Tile.ctxDrained (tl : Tile) (gone : List Card) (c : CtxNo) : Bool :=
  let k := tl.ctx c
  (k.task == .free || k.task == .stopped || (k.task == .held && tl.stopDue c))
    && (k.reqs.all fun q => q.sup || (q.logged && (match q.phase with | .refused _ _ => true | _ => false)))
    && (tl.cards.all fun d => d.ctx != c || d.sup || gone.any fun g => g.job == d.job)
    && (tl.mats.all fun m => m.ctx != c)
    && (decide (256 ≤ tl.dspill) || !(tl.inbox.any (·.ctx == c) || tl.landing.any (·.ctx == c)))

/-- The words of a shuttle in the spill: PC, x1 to x23, then `frnd`, `fstat`, `livemask`, `pwatch`, `qmode` and the number of its
launch. DESIGN CHOICE (log 18): R307 gives an entry 256 bytes and no layout. -/
def Shuttle.image (sh : Shuttle) : List Word :=
  [sh.pc] ++ (List.range 23).map (fun i => Assoc.get 0 (i + 1) sh.regs)
    ++ [sh.frnd.zeroExtend 64, sh.fstat.zeroExtend 64, sh.livemask.zeroExtend 64, BitVec.ofNat 64 sh.pwatch, sh.qmode.zeroExtend 64,
        BitVec.ofNat 64 sh.launch]

/-- The shuttle that an image of the spill holds. -/
def Shuttle.ofImage (t : TileNo) (launch : Nat) (ws : List Word) : Shuttle :=
  let w (i : Nat) : Word := ws.getD i 0
  { fromTile := t, fromCtx := 0, dest := t, launch := launch, pc := w 0
    regs := (List.range 23).foldl (fun m i => Assoc.set 0 (i + 1) (w (i + 1)) m) []
    frnd := (w 24).extractLsb' 0 4 &&& 0b1011, fstat := (w 25).extractLsb' 0 12 &&& 0xF1F, livemask := (w 26).extractLsb' 0 24 &&& 0xFFFFFE
    pwatch := bits (w 27) 0 6, qmode := (w 28).extractLsb' 0 8, base := 0, refused := false }

/-- Words at consecutive addresses. -/
def atWords (a : Word) (ws : List Word) : List (Word × Word) := ws.zipIdx.map fun p => (a + BitVec.ofNat 64 (8 * p.2), p.1)

/-- A shuttle for a stopped launch goes to the shuttle spill of PBUF, if it has room (R306, R307). -/
def State.spillShuttle (s : State) (t : TileNo) (sh : Shuttle) : State × Bool :=
  let tl := s.tile t
  if 8 ≤ tl.sspill then (s, false)
  else
    let a := tl.pbuf + BitVec.ofNat 64 (0x29000 + 256 * tl.sspill)
    match s.storeWords t (s.bufTag t) (atWords a sh.image ++ tl.spillCounts tl.dspill (tl.sspill + 1)) with
    | (s, true) => (s.modTile t fun tl => { tl with sspill := tl.sspill + 1 }, true)
    | (s, false) => (s, false)

/-- A launch is stopped when the context of its group root is (R306). -/
def Tile.launchStopped (tl : Tile) (id : Nat) : Bool :=
  match tl.residentId id with
  | some r => !r.ended && tl.spills r.root
  | none => false

/-- The header of PBUF holds the spill counts of a tile. -/
def State.countsHeld (s : State) (t : TileNo) : Bool :=
  let tl := s.tile t
  (tl.spillCounts tl.dspill tl.sspill).all fun w =>
    match s.reach t (s.bufTag t) false true w.1 with
    | .place p _ _ => leWord (s.readPlaces p 8) == w.2
    | _ => false

/-- The header of PBUF receives the spill counts, where a translation reaches it: the state, and whether every spill of the tile
has been performed, the counts among them (R171, R307). -/
def State.writeCounts (s : State) (t : TileNo) : State × Bool :=
  let tl := s.tile t
  let q := s.bufTag t
  if s.postedBy t .spill then (s, false)
  else if s.countsHeld t then (s, true)
  else
    match s.reach t q false true (tl.pbuf + 8) with
    | .place _ _ _ =>
      match s.storeWords t q (tl.spillCounts tl.dspill tl.sspill) with
      | (s, ok) => (s, ok && !s.postedBy t .spill)
    | .miss => if (s.walk q (tl.pbuf + 8)).isSome then (s.openWalk t q (tl.pbuf + 8), false) else (s.walkFault t q (tl.pbuf + 8), true)
    | _ => (s, true)

/-- The drain: contexts that began to run since the stop stop, queued arrivals of a stopped launch are spilled, and when
every stopped context has met the rules the cards that wait for a TRIG are withdrawn and DRAINED becomes 1 (R306). DESIGN CHOICE
(log 68): the shuttles that were queued before the stop are spilled too, one a step. -/
def execDrainComplete (t : TileNo) (s : State) : Res :=
  .next <|
    let tl := s.tile t
    if tl.stop = 0 || tl.drained then s
    else
      let s := (maskCtxs tl.stop).foldl (fun s c => s.stopOne t c) s
      match tl.arrivals.find? fun sh => decide (tl.sspill < 8) && tl.launchStopped sh.launch with
      | some sh =>
        match s.spillShuttle t sh with
        | (s, true) => s.modTile t fun tl => { tl with arrivals := tl.arrivals.erase sh }
        | (s, false) => s
      | none =>
        let tl := s.tile t
        let gone := withdrawals tl.stop tl.cards []
        if !(maskCtxs tl.stop).all (tl.ctxDrained gone) then s
        else
          match s.writeCounts t with
          | (s, false) => s
          | (s, true) => s.modTile t fun tl =>
              { tl with drained := true, withdrawn := tl.withdrawn ++ gone
                        cards := tl.cards.filter fun d => !gone.any fun g => g.job == d.job }

/-! ### PRES (R308, R312) -/

/-- Read aligned words for a tile's network interface: none when one is not reached, which opens a walk for it. DESIGN CHOICE (log 71):
one with an uncorrectable error is read as it stands. -/
def State.loadWords (s : State) (t : TileNo) (q : Tag) : List Word → State × Option (List Word)
  | [] => (s, some [])
  | a :: r =>
    match s.reach t q true false a with
    | .place p hv _ =>
      let s := s.touchPlace p hv
      match s.loadWords t q r with
      | (s, some ws) => (s, some (leWord (s.readPlaces p 8) :: ws))
      | (s, none) => (s, none)
    | .miss => (s.openWalk t q a, none)
    | _ => (s, none)

/-- A word of the buffer that no translation reaches, now or after a walk. -/
def State.unreachable (s : State) (t : TileNo) (q : Tag) (a : Word) : Bool :=
  match s.reach t q true false a with
  | .place _ _ _ => false
  | .miss => (s.walk q a).isNone
  | _ => true

/-- The launch of a spilled shuttle: that of the number in its image, for another launch than the one of the buffer too. DESIGN
CHOICE (log 59): none once it has ended on the tile. -/
def Tile.imageLaunch (tl : Tile) (ws : List Word) : Option Nat :=
  (tl.residents.find? fun b => !b.ended && BitVec.ofNat 64 b.id == ws.getD 29 0).map (·.id)

/-- A shuttle is queued at its tile (R270). -/
def Tile.queueShuttle (tl : Tile) (sh : Shuttle) : Tile := { tl with arrivals := tl.arrivals ++ [sh] }

/-- A spilled shuttle starts on a FREE context of its launch, or is queued (R308). DESIGN CHOICE (log 20): one of another launch
that is still stopped is spilled again. -/
def State.restoreShuttle (s : State) (t : TileNo) (sh : Shuttle) : State :=
  let tl := s.tile t
  if tl.launchStopped sh.launch then
    match s.spillShuttle t sh with
    | (s, true) => s
    | (s, false) => s.modTile t fun tl => tl.queueShuttle sh
  else match tl.freeCtx sh.launch with
  | some (c, r) => s.setTile t (tl.land sh c r)
  | none => s.setTile t (tl.queueShuttle sh)

/-- The launches of a tile whose root is stopped. -/
def Tile.stoppedLaunches (tl : Tile) : List Resident := tl.residents.filter fun r => !r.ended && tl.stop.getLsbD r.root.toNat

/-- After a resume every slot of a launch has OWNED = 1 and LOADED = 0 and keeps its SRC (R235, R308; log 51: at the write of
PRES). -/
def Tile.unload (tl : Tile) (r : Resident) : Tile :=
  ((List.range 8).filter r.slotmask.getLsbD).foldl (fun tl n => tl.setHeddle n { tl.slot n with owned := true, loaded := false }) tl

/-- The launch index in the header of a buffer, as the translations of a launch reach it. -/
def State.bufIndex (s : State) (t : TileNo) (q : Tag) (a : Word) : Option (BitVec 2) :=
  match s.reach t q true false (a + 24) with
  | .place p _ _ => some ((leWord (s.readPlaces p 8)).extractLsb' 0 2)
  | _ => none

/-- The stopped launch whose translation of a buffer's header is still to be walked. -/
def State.bufWalk (s : State) (t : TileNo) (a : Word) : Option Resident :=
  (s.tile t).stoppedLaunches.find? fun r =>
    match s.reach t r.tag true false (a + 24) with
    | .miss => (s.walk r.tag (a + 24)).isSome
    | _ => false

/-- The launch that a buffer restores: the stopped one of the index that word 3 of the header holds (R307, R308). -/
def State.bufLaunch (s : State) (t : TileNo) (a : Word) : Option Resident :=
  (s.tile t).stoppedLaunches.find? fun r => s.bufIndex t r.tag a == some r.index

/-- A write of the buffer address, once what the tile still spills has been written: the spilled deliveries land in spill order,
ahead of any later one, the spilled shuttles of the buffer's launch start or are queued, and its heddle slots are unloaded (R308).
DESIGN CHOICE (log 19): where the buffer is not mapped, or its header names no stopped launch, nothing lands; an uncorrectable error
in a table word of its walk is a package error all the same (R327). -/
def execPres (t : TileNo) (c : CtxNo) (n : Nat) (s : State) : Res :=
  .next <| match s.ctl t c n 0x1A8 with
  | none => s
  | some (q, o) =>
    let a := q.data &&& 0xFFFFFFFFFFFF0000
    if s.postedBy o .spill then s
    else match s.bufWalk o a, s.bufLaunch o a with
    | some r, _ => s.openWalk o r.tag (a + 24)
    | none, none => ((s.tile o).stoppedLaunches.foldl (fun s r => s.walkFault o r.tag (a + 24)) s).endReq t c q id
    | none, some r =>
    let tag := r.tag
    let pages := [a, a + 0x20000]
    if pages.any (s.unreachable o tag) then (pages.foldl (fun s a => s.walkFault o tag a) s).endReq t c q id
    else
      match s.loadWords o tag [a + 8, a + 16] with
      | (s, some [nd, ns]) =>
        let nd := min nd.toNat 256
        let ns := min ns.toNat 8
        let da := (List.range (2 * nd)).map fun i => a + BitVec.ofNat 64 (0x28000 + 8 * i)
        let sa (j : Nat) : List Word := (List.range 30).map fun i => a + BitVec.ofNat 64 (0x29000 + 256 * j + 8 * i)
        match s.loadWords o tag (da ++ (List.range ns).flatMap sa) with
        | (s, none) => s
        | (s, some ws) =>
          let entry (i : Nat) : InboxEntry :=
            let d := ws.getD (2 * i + 1) 0
            ⟨d.extractLsb' 0 4, 0b11#2 ++ d.extractLsb' 4 3, ws.getD (2 * i) 0, o, 0, none, none, false⟩
          let shuttle (j : Nat) : Option Shuttle :=
            let ws := (ws.drop (2 * nd + 30 * j)).take 30
            ((s.tile o).imageLaunch ws).map fun l => Shuttle.ofImage o l ws
          let s := s.modTile o fun tl =>
            let own : Bool := a == tl.pbuf &&& 0xFFFFFFFFFFFF0000
            { tl.unload r with
              restoring := tl.restoring ||| r.groupMask
              -- what the inbox holds for the launch came after the spill was full, and what an earlier PRES left after that
              landing := (List.range nd).map entry ++ (tl.inbox.filter fun e => r.members.contains e.ctx) ++ tl.landing
              inbox := tl.inbox.filter fun e => !r.members.contains e.ctx
              dspill := if own then 0 else tl.dspill, sspill := if own then 0 else tl.sspill }
          let s := s.refill o (s.tile o).landing.length
          (((List.range ns).filterMap shuttle).foldl (fun s sh => s.restoreShuttle o sh) s).endReq t c q id
      | (s, _) => s

/-! ### Shuttles (R270, R306) -/

/-- A shuttle for a stopped launch that the network brings: the shuttles of the launch that were queued before the stop are spilled
ahead of it, one a step, since spills keep arrival order (R306). The state, and whether this one is spilled. -/
def State.spillArrival (s : State) (t : TileNo) (sh : Shuttle) : State × Bool :=
  match (s.tile t).arrivals.find? (·.launch == sh.launch) with
  | none => s.spillShuttle t sh
  | some a =>
    match s.spillShuttle t a with
    | (s, true) => (s.modTile t fun tl => { tl with arrivals := tl.arrivals.erase a }, false)
    | (s, false) => (s, false)

/-- A shuttle reaches its tile: it is started on a FREE context of the launch, queued, spilled or refused. Once it is not
refused, its source becomes FREE. The refusal is a packet of its own, which takes its place behind those that its tile sent before
(R253). -/
def execShuttle (n : Nat) (s : State) : Res :=
  .next <| match s.shuttles[n]? with
  | none => s
  | some sh =>
    if sh.refused || !s.shuttleFirst n sh then s
    else
      let tl := s.tile sh.dest
      let refuse (s : State) : State := { s with shuttles := s.shuttles.eraseIdx n ++ [{ sh with refused := true }] }
      let gone (s : State) : State :=
        (({ s with shuttles := s.shuttles.eraseIdx n } : State).sourceFree sh).freed sh.fromTile sh.fromCtx
      if tl.launchStopped sh.launch then
        match s.spillArrival sh.dest sh with
        | (s, true) => gone s
        | (s, false) => if 8 ≤ tl.sspill then refuse s else s
      else if (match tl.residentId sh.launch with | some r => r.ended | none => true) then refuse s
      else match tl.freeCtx sh.launch with
        | some (c, r) => gone (s.setTile sh.dest (tl.land sh c r))
        | none =>
          if tl.arrivals.length < 4 then gone (s.setTile sh.dest (tl.queueShuttle sh)) else refuse s

/-! ### PEXCUSE (R267, R268) -/

/-- GO = 1 makes the named neighbour slack, unless it is absent, done or slack already. -/
def execPexcuse (t : TileNo) (c : CtxNo) (n : Nat) (s : State) : Res :=
  .next <| match s.ctl t c n 0x140 with
  | none => s
  | some (q, o) =>
    let v := q.data
    let dir := bits v 0 2
    let ok := bits v 9 55 == 0 && bits v 2 6 == 0 && v.getLsbD 8
    let s := match ok, neighbour s.part o dir with
      | true, some b =>
        let nb := s.tile b
        if (s.pnbr o dir).getLsbD 63 && !nb.pdone && !nb.slack then
          (s.modTile b fun tl => { tl with slack := true }).sendPick b
        else s
      | _, _ => s
    s.endReq t c q id

/-! ### Interrupts (R305) -/

/-- The queue processor orders a save or a resume of a launch that the tile holds. A launch with picks is saved as a whole: a tile
of it at the pick boundary at which the hub holds it and before any resume, and no tile resumes before every tile that still has a task
of it has been ordered to save (R23, R309). -/
def execPreemptOrder (t : TileNo) (launch : BitVec 2) (buf : Word) (resume : Bool) (s : State) : Res :=
  .next <|
    let tl := s.tile t
    match tl.residents.find? fun r => !r.ended && r.index == launch with
    | none => s
    | some r =>
      let order (s : State) : State :=
        s.interrupt t 1 ((buf &&& 0xFFFFFFFFFFFF0000) ||| (launch.zeroExtend 64 <<< 2) ||| boolWord resume)
      if !r.picks then order s
      else match s.hub.launches.find? (·.id == r.id) with
      | none => s
      | some l =>
        if (if resume then l.mayResume t else tl.atBoundary r && !l.resuming) then
          order { s with hub := { s.hub with launches := s.hub.launches.map fun l => if l.id == r.id then l.order t resume else l } }
        else s

/-- Loom time has reached TCMP: interrupt 2, and TCMP is cleared. -/
def execLoomTimeCompare (t : TileNo) (s : State) : Res :=
  .next <|
    let v := (s.tile t).tcmp
    if v ≠ 0 ∧ v.toNat ≤ s.time then (s.modTile t fun tl => { tl with tcmp := 0 }).interrupt t 2 v else s

/-! ### Soft errors (R310, R311) -/

/-- A corrected error is counted. -/
def execCorrectedError (t : TileNo) (s : State) : Res :=
  .next (s.modTile t fun tl => { tl with corr := min 65535 (tl.corr + 1) })

/-- A context whose registers are damaged becomes HELD with DEAD = 1, whatever its state, and no TRET lets it go on; context 0
under the monitor where its thread stands (R300, R311). -/
def State.damaged (s : State) (t : TileNo) (c : CtxNo) : State :=
  let s :=
    if (s.ctx t c).sup then s.modCtx t c fun k => { k with under := .held, dead := true }
    else
      let s := ((s.dropGrant t c).withdrawPost t c).unwatch t c
      s.modCtx t c fun k => { k with held := false, fencing := false, state := .held, park := none, woken := false, dead := true }
  let r : Record := ⟨true, 4, (1#64 <<< 62) ||| c.zeroExtend 64, 0, 0, tstatBits false false false false true, 0⟩
  if (s.tile t).recs.any (fun r => r.intr && r.code == 4) then s else s.post t r

/-- An uncorrectable error strikes. Data and code keep it until they are read; the rest is handled by its row (R311). -/
def execUncorrectableError (site : EccSite) (s : State) : Res :=
  .next <|
    let mark (t : TileNo) (p : Place) : State := s.modTile t fun tl => { tl with poison := tl.poison.filter (· != p) ++ [p] }
    match site with
    | .ls t off => mark t (.ls t (off.toNat / 8 * 8))
    | .istore t off => mark t (.istore t (off.toNat / 8 * 8))
    | .history t off => mark t (.history t (off.toNat / 8 * 8))
    | .main pa near =>
      let l := s.part.loc pa.toNat near / 8 * 8
      if s.part.inMemory pa.toNat 1 then { s with badMain := s.badMain.filter (· != l) ++ [l] } else s
    | .registers t c => (s.uncorrected t).damaged t c
    | .tidEntry t n => (s.uncorrected t).modTile t fun tl => { tl with badTids := tl.badTids.filter (· != n.toNat) ++ [n.toNat] }
    | .tileEntry t n => (s.uncorrected t).modTile t fun tl => { tl with badTts := tl.badTts.filter (· != n.toNat) ++ [n.toNat] }
    | .slotEntry t e =>
      ((s.uncorrected t).modTile t fun tl => { tl with slots := Assoc.set 0 e.toNat 0 tl.slots }).interrupt t 4
        ((2#64 <<< 62) ||| e.zeroExtend 64)
    | .tlbEntry t n => (s.uncorrected t).modTile t fun tl => { tl with tlb := tl.tlb.eraseIdx n }
    | .regionTlbEntry t n =>
      let rg := s.region (regionOf t)
      (s.uncorrected t).setRegion (regionOf t) { rg with tlb := rg.tlb.eraseIdx n }
    | .heddleSlot t e =>
      let d : Heddle := ⟨false, 0, false, ⟨0, []⟩, 0⟩
      (s.uncorrected t).modTile t fun tl =>
        { tl with heddle := Assoc.set d e.toNat { Assoc.get d e.toNat tl.heddle with loaded := false } tl.heddle }

end Sys2Proof.Machine
end

