-- ==== Sys2Proof/Machine/HostAttach.lean ====
section
/-! DEFINITION. The host attach: hub registers, BAR2 and the flag window, boot, measurement, trusted assignment, package
errors, power and heat (R13, R15, R20, R256, R318 to R328). -/

namespace Sys2Proof.Machine

/-! ### Hub registers, as data (R320 to R322, R324, R326 to R328) -/

/-- FUSEROW of die row `i`: the SPN-2400 has dies 0 and 1 (R2, R12, R321). -/
def State.fuseRow (s : State) (i : Nat) : Word :=
  if i / 32 < s.part.dies then BitVec.ofNat 64 (256 + Assoc.get 32 i s.hub.fsite % 64) else 0

/-- What a hub register reads; none for an offset that the table does not list. -/
def State.hubRead (s : State) (off : Nat) : Option Word :=
  let h := s.hub
  match off with
  | 0x0000 => some s.cfgid
  | 0x0008 => some h.serial
  | 0x0010 => some (BitVec.ofNat 64 (h.bootCode.toNat * 2 ^ 24 + h.stage.toNat * 2 ^ 8) ||| boolWord h.ready)
  | 0x0018 => some (BitVec.ofNat 64 (h.pkgTile.toNat * 2 ^ 20 + h.pkgCode.toNat * 2 ^ 8) ||| (boolWord h.pkgQuar <<< 19)
      ||| (boolWord h.pkgTherm <<< 18) ||| (boolWord h.pkgLink <<< 17) ||| (boolWord h.pkgMem <<< 16))
  | 0x0020 => some h.qtbase
  | 0x0028 => some (BitVec.ofNat 64 h.qtcount)
  | 0x0030 => some h.framectl
  | 0x0038 => some (h.timectl ||| (boolWord h.synced <<< 8))
  | 0x0040 => some h.monload
  | 0x0048 => some (BitVec.ofNat 64 (h.actual.toNat * 2 ^ 8 + h.pstate.toNat))
  | 0x0050 => some (BitVec.ofNat 64 (h.tlim.toNat * 2 ^ 40 + 105 * 2 ^ 32 + h.tmax.toNat))
  | _ => if 0x100 ≤ off ∧ off < 0x500 ∧ off % 8 = 0 then some (s.fuseRow ((off - 0x100) / 8)) else none

/-! ### Killing every launch, and the scrub (R326) -/

/-- Every launch is killed (R300, R326). -/
def State.killLaunches (s : State) : State :=
  s.tileNos.foldl (fun s t =>
    ((s.tile t).residents.filter fun r => !r.ended).foldl (fun s r => s.kill t r.root (killStatus 0)) s) s

/-- The I-store without anything but the monitor placement. -/
def onlyMonitor (m : Option (Nat × Nat)) (mem : Memory) : Memory :=
  match m with
  | some (off, len) => mem.filter fun p => decide (off ≤ p.1) && decide (p.1 < off + len)
  | none => []

/-- What a scrub leaves of a tile: the monitor placement, the registers of the monitor and the counts of errors and
completions; everything that belonged to a launch is gone. -/
def Tile.scrub (tl : Tile) (m : Option (Nat × Nat)) : Tile :=
  { Tile.reset with
    istore := onlyMonitor m tl.istore, slots := tl.slots, pwlog := tl.pwlog, ocperm := tl.ocperm, tvec := tl.tvec
    mbase := tl.mbase, tcmp := tl.tcmp, qstat := tl.qstat, slack := tl.quarantined, uncorr := tl.uncorr, corr := tl.corr
    clog := tl.clog, ccount := tl.ccount, jobCtr := tl.jobCtr, lastIssue := tl.lastIssue }

/-- The scrub: launches are killed and the queue processor is emptied; main memory, the flag window and all that the
tiles hold of programs read 0; the session keys go, unless a LOCK_INTERFACE keeps them. DESIGN CHOICE (log 33): the scale-out links
keep their state (R326). -/
def State.scrub (s : State) (keepKeys : Bool) : State :=
  let h : Hub := s.hub
  let tiles := (s.tiles.map fun p => (p.1, p.2.scrub h.monitor)).filter fun p => p.2 != Tile.reset
  let h : Hub := { h with
    slots := [], pending := [], notes := [], failed := [], posts := [], launches := [], lastStarted := [], budgets := [], waitSince := []
    session := if keepKeys then h.session else none, ide := keepKeys && h.ide }
  { s with
    tiles := tiles, backing := [], lines := [], badMain := [], flag := [], regions := [], homes := [], picks := []
    shuttles := [], chunks := [], starts := [], hub := h }

/-! ### Requests of the host (R319, R320, R326) -/

/-- A request to BAR0 is served: in CONFIG_LOCKED and RUN it needs the T bit. -/
def State.barServed (s : State) (tbit : Bool) : Bool := tbit || (s.hub.tdi != .locked && s.hub.tdi != .run)

/-- The move to ERROR: every launch is killed. -/
def State.tdiError (s : State) : State :=
  let s := s.killLaunches
  { s with hub := { s.hub with tdi := .error } }

/-- A write to a register that CONFIG_LOCKED locks: done while the package is unlocked, the move to ERROR while it is
locked or runs, dropped in ERROR. -/
def State.lockedWrite (s : State) (eff : State → State) : State :=
  match s.hub.tdi with
  | .unlocked => eff s
  | .locked | .run => s.tdiError
  | .error => s

/-- A write to a hub register that has no step of its own. A write with a must-be-0 bit is dropped; one to a read-only
register is ignored; an offset that the table does not list is not served (R256, R320, R326, R328). DESIGN CHOICE (log 32): a write
of FRAMECTL takes effect also while a launch is resident, which R256 asks the host not to do. -/
def State.hubWrite (s : State) (off : Nat) (v : Word) (tbit : Bool) : State :=
  if off = 0x18 ∨ off = 0x40 ∨ off = 0x48 then s
  else if !s.barServed tbit || (s.hubRead off).isNone then s.answer .unsupported
  else
    let set (f : Hub → Hub) (s : State) : State := { s with hub := f s.hub }
    let s := match off with
      | 0x20 => s.lockedWrite fun s =>
        if v &&& 0xFFFFFF0000000FFF = 0 then set (fun h => { h with qtbase := v }) s else s
      | 0x28 => s.lockedWrite fun s => if v.toNat ≤ 4096 then set (fun h => { h with qtcount := v.toNat }) s else s
      | 0x30 => s.lockedWrite (set fun h => { h with framectl := v &&& 0xFFF0F })
      | 0x38 => s.lockedWrite (set fun h => { h with timectl := v &&& 0xF1 })
      | 0x50 =>
        let l := bits v 40 8
        if 60 ≤ l ∧ l ≤ 100 then set (fun h => { h with tlim := BitVec.ofNat 8 l }) s else s
      | _ => s
    s.answer .done

/-- A BAR2 access reaches the backing copy of main memory, or is not served (R158, R159, R319). -/
def execHostBar2Access (acc : HostAccess) (pa : BitVec 40) (tbit : Bool) (s : State) : Res :=
  .next <| let a := pa.toNat
  let n := match acc with | .read n => n | .write bs => bs.length
  if !s.mainServed tbit || !s.part.inMemory a n then s.answer .unsupported
  else match acc with
    | .read n => s.answer (.data (s.readPhys a n))
    | .write bs =>
      let whole (l : Nat) : Bool := (List.range 8).all fun i => (List.range bs.length).any fun j => s.part.loc (a + j) false == l + i
      (({ s with badMain := s.badMain.filter fun l => !whole l } : State).writePhys a bs).answer .done

/-- The aligned words that a range of bytes touches, each with its part of the bytes. -/
def flagPieces (off : Nat) : List Byte → List (Nat × List Byte)
  | [] => []
  | b :: r =>
    match flagPieces (off + 1) r with
    | (o, bs) :: rest => if o % 8 = 0 then (off, [b]) :: (o, bs) :: rest else (off, b :: bs) :: rest
    | [] => [(off, [b])]

/-- A CXL.mem access reaches the flag window, after every write that the host link delivered before it (R162, R188). A write
joins the FIFO of a word where an atomic waits, so that none falls between the read and the write of one (R190; log 32); a
read waits for the host's own writes there. -/
def execHostFlagWindowAccess (acc : HostAccess) (off : BitVec 22) (tbit : Bool) (s : State) : Res :=
  .next <| let o := off.toNat
  let n := match acc with | .read n => n | .write bs => bs.length
  let words := (List.range (o % 8 + n)).map fun i => (o / 8 * 8 + i) / 8 * 8
  let wait (s : State) : State := { s with agenda := s.agenda ++ [.event (.hostFlagWindowAccess acc off tbit)] }
  if !s.memServed tbit || decide (0x400000 < o + n) then s.answer .unsupported
  else match acc with
    | .read n =>
      if words.any fun w => (s.home (.flag w)).fifo.any fun e => e.poster == some .host then wait s
      else s.answer (.data (Memory.readBytes s.flag o n))
    | .write bs =>
      if !s.fits ((flagPieces o bs).map fun p => (Place.flag p.1).word8) then wait s
      else ((flagPieces o bs).foldl (fun s p => s.post1 ⟨0, 0, Tag.none, false, .host⟩ (.flag p.1) false p.2) s).answer .done

/-- The hub holds MSI-X vector 0 pending while a bit of PKGERR is 1 (R327). -/
def State.vector0 (s : State) : Bool := s.hub.pkgQuar || s.hub.pkgTherm || s.hub.pkgLink || s.hub.pkgMem

/-- A write to PKGERR: the bits written 1 are cleared, and while one is left the vector stays pending, so that its message is
sent again (R327; log 51). DESIGN CHOICE (log 72): TILE and CODE keep their values once QUAR is cleared. -/
def execPkgerrClear (v : Word) (tbit : Bool) (s : State) : Res :=
  .next <| if !s.barServed tbit then s.answer .unsupported
  else
    let h : Hub := s.hub
    let s : State := { s with hub := { h with
      pkgQuar := h.pkgQuar && !v.getLsbD 19, pkgTherm := h.pkgTherm && !v.getLsbD 18
      pkgLink := h.pkgLink && !v.getLsbD 17, pkgMem := h.pkgMem && !v.getLsbD 16 } }
    let s := s.answer .done
    if s.vector0 then s.answer (.msix 0) else s

/-! ### The monitor image (R324) -/

/-- The header of an image: IOFF, LEN, ENTRY and MBASE, when its rules hold (R324). DESIGN CHOICE (log 33): so do the bits of words 0
and 1 that it does not name read 0. -/
def monitorHeader (w : List Word) : Option (Nat × Nat × Nat × Word) :=
  let w0 := w.getD 0 0
  let w1 := w.getD 1 0
  let ioff := bits w0 0 16
  let len := bits w0 16 17
  let entry := bits w1 0 16
  if bits w0 33 31 = 0 ∧ bits w1 16 48 = 0 ∧ ioff % 4 = 0 ∧ len % 4 = 0 ∧ 4 ≤ len ∧ ioff + len ≤ 65536
      ∧ entry % 4 = 0 ∧ ioff ≤ entry ∧ entry < ioff + len ∧ (w.drop 3).all (· == 0) = true
  then some (ioff, len, entry, w.getD 2 0) else none

/-- Every tile of the part. -/
def Part.tileList (p : Part) : List TileNo := (List.range p.tiles).map (BitVec.ofNat 12)

/-- A failure of the boot: CODE is set, and the loom dies are held in reset (R323): their tiles, buffers, meshes, links and
loom time stand as at reset. -/
def State.bootFail (s : State) (code : BitVec 8) : State :=
  { s with
    time := 0, tiles := [], lines := [], regions := [], homes := [], picks := [], shuttles := [], chunks := [], starts := []
    links := [], hub := { s.hub with bootCode := code } }

/-- Steps 1 to 5 of R324, and READY. DESIGN CHOICE (log 71): words of the image with an uncorrectable error are loaded as they stand. -/
def State.loadMonitor (s : State) (a : Nat) : State :=
  if !s.part.inMemory a 64 then s.bootFail 5
  else
    let hb := s.readPhys a 64
    match monitorHeader (wordsOf hb) with
    | none => s.bootFail 5
    | some (ioff, len, entry, base) =>
      if !s.part.inMemory (a + 64) len then s.bootFail 5
      else
        let code := s.readPhys (a + 64) len
        let put (t : TileNo) : Nat × Tile :=
          (t.toNat, { (s.tile t).writeCode ioff code with tvec := BitVec.ofNat 64 entry, mbase := base })
        let h : Hub := s.hub
        { s with tiles := (s.part.tileList.map put).filter (fun p => p.2 != Tile.reset), hub := { h with
          meas3 := Config.sha256 (hb ++ code), monitor := some (ioff, len), stage := 6, ready := true
          monload := h.monload &&& ~~~1#64 } }

/-- A write to MONLOAD: accepted once, with GO = 1, between stage 5 and stage 6; else ignored as a whole (R324). DESIGN CHOICE (log 34):
also after TCRIT. -/
def execMonloadGo (v : Word) (tbit : Bool) (s : State) : Res :=
  .next <| if !s.barServed tbit then s.answer .unsupported
  else
    let s := s.lockedWrite fun s =>
      let h : Hub := s.hub
      if v.getLsbD 0 && v &&& 0xFFFFFF000000003E == 0 && h.stage == 5 && !h.ready && h.bootCode == 0 && h.monload == 0 then
        ({ s with hub := { h with monload := v } } : State).loadMonitor (bits v 6 34 * 64)
      else s
    s.answer .done

/-! ### Power and heat (R328) -/

/-- No launch is resident on any tile. -/
def State.noResident (s : State) : Bool := s.tileNos.all fun t => (s.tile t).residents.all (·.ended)

/-- The state in force: the higher-numbered of PSTATE and the thermal state. A move into P2 waits for the last launch, and until
then the PSTATE before it goes on. -/
def State.power (s : State) : State :=
  let h : Hub := s.hub
  let p : BitVec 2 := if h.pstate = 2 ∧ h.pforce ≠ 2 ∧ !s.noResident then h.pforce else h.pstate
  { s with hub := { h with pforce := p, actual := if p = 0 ∧ h.thermForce = true then 1 else p } }

/-- A write to PWRCTL: a PSTATE of 3 is ignored. -/
def execPwrctlWrite (v : Word) (tbit : Bool) (s : State) : Res :=
  .next <| if !s.barServed tbit then s.answer .unsupported
  else
    let p := v.extractLsb' 0 2
    let s := if p = 3 then s else ({ s with hub := { s.hub with pstate := p } } : State).power
    s.answer .done

/-- The last launch has left: a move into P2 takes effect. -/
def execStandbyEntry (s : State) : Res := .next (if s.hub.pstate = 2 then s.power else s)

/-- A measurement: at TLIM P1 is forced and PKGERR.THERM set, below TLIM − 5 the force ends, at TCRIT the loom dies and
the stacks lose power. DESIGN CHOICE (log 34): a write that lowers TLIM to TMAX or clears THERM acts at the next measurement alone. -/
def State.measure (s : State) (t : BitVec 8) : State :=
  let h : Hub := s.hub
  let hot := decide (h.tlim.toNat ≤ t.toNat)
  let cool := decide (t.toNat + 5 < h.tlim.toNat)
  let s : State := { s with hub := { h with
    tmax := t, thermForce := hot || (h.thermForce && !cool), pkgTherm := h.pkgTherm || hot
    powered := h.powered && decide (t.toNat < 105) } }
  let s := if hot && !h.pkgTherm then s.answer (.msix 0) else s
  s.power

def execThermalMeasurement (tmax : BitVec 8) (s : State) : Res := .next (s.measure tmax)

/-! ### Boot (R321 to R323) -/

/-- A fuse row of a present die names a site of 33 or above. -/
def State.badFuses (s : State) : Bool :=
  (List.range (32 * s.part.dies)).any fun i => decide (33 ≤ Assoc.get 32 i s.hub.fsite % 64)

/-- What survives a package reset: the part and its fuses, what the package has told the host, and the model's own
counter of free values. -/
def State.coldStart (s : State) : State :=
  { State.reset with
    part := s.part, silrev := s.silrev, out := s.out, freeCtr := s.freeCtr
    hub := { Hub.reset with serial := s.hub.serial, fsite := s.hub.fsite } }

/-- A package reset: stages 0 to 5, or the stage that fails. The first measurement of the heat comes before stage 4, and
loom time starts at 0 there (R323). DESIGN CHOICE (log 72): one at TCRIT or above fails no stage. -/
def execPackageReset (img : BootInput) (s : State) : Res :=
  .next <|
    let s := s.coldStart
    let at' (s : State) (n : BitVec 8) : State := { s with hub := { s.hub with stage := n } }
    match img.flash with
    | none => s.bootFail 1
    | some bs =>
      let d := Config.sha256 bs
      if !Config.signatureValid d then s.bootFail 2
      else
        let s : State := at' { s with hub := { s.hub with meas2 := d } } 1
        if s.badFuses then s.bootFail 3
        else if !img.bobbinTrains then (at' s 2).bootFail 4
        else at' ((at' s 3).measure img.tmax) 5

/-! ### Measurement and trusted assignment (R325, R326) -/

/-- A word as bytes, little-endian. -/
def wordBytes (w : Word) : List Byte := leBytes 8 w.toNat

/-- The measurement blocks. -/
def State.measurement (s : State) (i : Nat) : Option (BitVec 256) :=
  match i with
  | 1 => some Config.maskRomDigest
  | 2 => some s.hub.meas2
  | 3 => some s.hub.meas3
  | 4 => some (Config.sha256 (wordBytes s.cfgid ++ (List.range 128).flatMap fun i => wordBytes (s.fuseRow i)))
  | 5 => some s.hub.meas5
  | _ => none

/-- An answer is signed with the device identity key (R325). -/
def State.signed (s : State) (what : List Byte) (o : BitVec 3072 → Out) : State :=
  ({ s with freeCtr := s.freeCtr + 1 } : State).answer (o (Config.signature what s.freeCtr))

/-- The bytes of a digest. -/
def digestBytes (d : BitVec 256) : List Byte := (List.range 32).map fun i => d.extractLsb' (8 * i) 8

/-- GET_MEASUREMENTS returns the block that an index names, signed. -/
def execGetMeasurements (idx : BitVec 8) (s : State) : Res :=
  .next <| match s.measurement idx.toNat with
  | some d => s.signed (digestBytes d) (.measurement idx.toNat d)
  | none => s.answer .unsupported

/-- An SPDM session: new keys, with which the IDE streams are set up. The answer carries the certificate chain of slot 0 and a
signature with the device identity key (R325). -/
def execKeyExchange (s : State) : Res :=
  .next <|
    let h : Hub := { s.hub with session := some (Config.sessionKey s.freeCtr), ide := true }
    ({ s with hub := h, freeCtr := s.freeCtr + 1 } : State).signed Config.slot0Chain (.session Config.slot0Chain)

/-- LOCK_INTERFACE: accepted from CONFIG_UNLOCKED with no launch resident, every queue unmapped and IDE set up. The
package is scrubbed, but for the keys, and measurement 5 is taken (R326). DESIGN CHOICE (log 33): refused also while the hub lists a
launch that has no task left. -/
def execLockInterface (s : State) : Res :=
  .next <|
    if s.hub.tdi ≠ .unlocked ∨ !s.noResident ∨ s.hub.slots ≠ [] ∨ s.hub.launches ≠ [] ∨ !s.hub.ide then s.answer .tdispError
    else
      let s := s.scrub true
      let h : Hub := s.hub
      let r (off : Nat) : List Byte := wordBytes ((s.hubRead off).getD 0)
      ({ s with hub := { h with
        tdi := .locked, meas5 := Config.sha256 (r 0x20 ++ r 0x28 ++ r 0x30 ++ r 0x38) } } : State).answer .done

/-- START_INTERFACE: from CONFIG_LOCKED to RUN (R326). DESIGN CHOICE (log 33): elsewhere it is answered with an error and changes nothing. -/
def execStartInterface (s : State) : Res :=
  .next <| if s.hub.tdi = .locked then ({ s with hub := { s.hub with tdi := .run } } : State).answer .done
  else s.answer .tdispError

/-- STOP_INTERFACE: the package is scrubbed and unlocked. -/
def execStopInterface (s : State) : Res :=
  .next <| if s.hub.tdi = .unlocked then s.answer .done
  else
    let s := s.scrub false
    ({ s with hub := { s.hub with tdi := .unlocked } } : State).answer .done

/-- An IDE integrity failure: an assigned package moves to ERROR (R326). DESIGN CHOICE (log 33): another one goes on. -/
def execIdeIntegrityFailure (s : State) : Res :=
  .next (if s.hub.tdi = .locked ∨ s.hub.tdi = .run then s.tdiError else s)

/-! ### Register accesses (R319, R320, R426) -/

/-- An access of the host to BAR0: of 8 bytes at a register, else completed with Unsupported Request (R320). -/
def State.bar0 (s : State) (acc : HostAccess) (off : BitVec 16) (tbit : Bool) : Res :=
  match acc with
  | .read n =>
    .next <| match s.hubRead off.toNat with
      | some w => if n = 8 && s.barServed tbit then s.answer (.data (wordBytes w)) else s.answer .unsupported
      | none => s.answer .unsupported
  | .write bs =>
    if bs.length ≠ 8 then .next (s.answer .unsupported)
    else
      let v := leWord bs
      match off.toNat with
      | 0x18 => execPkgerrClear v tbit s
      | 0x40 => execMonloadGo v tbit s
      | 0x48 => execPwrctlWrite v tbit s
      | o => .next (s.hubWrite o v tbit)

/-- A store to tile control that has no step of its own, or an access of the host to BAR0. -/
def execRegisterWrite (r : RegWrite) (s : State) : Res :=
  match r with
  | .tile t c n => .next (s.tileWrite t c n)
  | .hub off v tbit => .next (s.hubWrite off.toNat v tbit)
  | .bar0 acc off tbit => s.bar0 acc off tbit

end Sys2Proof.Machine
end

