-- ==== Sys2Proof/Machine/VectorMem.lean ====
section
/-! DEFINITION. Vector loads and stores at issue (R55, R123, R193, R301, R407 to R409). Their elements are performed
by the steps of loads and stores. -/

namespace Sys2Proof.Machine

/-- What a vector memory form addresses: the active elements lowest first, the alignment each needs, and whether it
reads or writes a whole register (VLD, VST). -/
structure VmForm where
  elems : List Elem
  align : Nat
  whole : Bool
  /-- the address whose alignment VLD and VST check; an element's own otherwise -/
  base : Option Word

/-- Active elements of `w` bytes at the addresses given, with the bytes of a source register. -/
def Ctx.vmElems (k : Ctx) (g : Guard) (w : Nat) (addr : Nat → Word) (data : Option VecBits) : List Elem :=
  ((List.range (64 / w)).filter (k.active g)).map fun i =>
    ⟨addr i, w, i * w, false, match data with | some v => leBytes w (laneOf v (8 * w) i) | none => []⟩

/-- VLD and VST: bytes at X[xs1] + 64 × off (R193, R407). -/
def Ctx.vmLine (k : Ctx) (xs1 off : BitVec 5) (g : Guard) (data : Option VecBits) : VmForm :=
  let a := k.getX xs1 + off.signExtend 64 * 64
  ⟨k.vmElems g 1 (fun i => a + BitVec.ofNat 64 i) data, 64, true, some a⟩

/-- VLDS and VSTS: a signed byte stride. -/
def Ctx.vmStride (k : Ctx) (w : Nat) (xs1 xs2 : BitVec 5) (g : Guard) (data : Option VecBits) : VmForm :=
  ⟨k.vmElems g w (fun i => k.getX xs1 + BitVec.ofNat 64 i * k.getX xs2) data, w, false, none⟩

/-- VLDX and VSTX: unsigned indices of the element width, times the size. -/
def Ctx.vmIndex (k : Ctx) (w : Nat) (xs1 : BitVec 5) (vs2 : BitVec 4) (g : Guard) (data : Option VecBits) : VmForm :=
  ⟨k.vmElems g w (fun i => k.getX xs1 + BitVec.ofNat 64 (laneOf (k.getV vs2) (8 * w) i * w)) data, w, false, none⟩

/-- The first check that fails at issue, lowest element first: alignment, then R149, R151 and R408 (R407). -/
def State.vmCheck (s : State) (write : Bool) (f : VmForm) : Option (BitVec 8 × Word) :=
  f.elems.findSome? fun e =>
    let a := f.base.getD e.addr
    if a.toNat % f.align ≠ 0 then some (0x03, e.addr)
    else if !s.checkAccess s.cur.1 s.cur.2 write (.vector f.whole) e.size e.addr then some (0x04, e.addr)
    else none

/-- The registers a form reads, which a translated one holds until it is performed (R301). -/
structure VmSources where
  xs : List (BitVec 5)
  vs : List (BitVec 4)
  k : BitVec 3

/-- A vector load or store (R407): the gate, the checks, the counter and the log, then the request. With no active
element it counts and makes no access (R123). -/
def State.vmOp (s : State) (dst : Option (BitVec 4)) (src : VmSources) (form : Ctx → VmForm) : State :=
  s.gated ⟨src.xs, [], src.vs, dst.toList, []⟩ fun s =>
    let f := form s.me
    let write := dst.isNone
    match s.vmCheck write f with
    | some (cause, a) => s.trap cause a
    | none =>
      let log := f.elems.any fun e => s.translated s.cur.1 e.addr
      match s.me.capacity (!write) write false false log with
      | some r => s.parkMe r
      | none =>
        let k := s.me.consume src.xs
        let q := k.mkReq (if write then .vstore else .vload) 0 0 (match dst with | some d => .v d | none => .none) f.elems log
        let q : Req := if log then
          { q with
            srcX := regMask src.xs &&& ~~~1
            srcV := src.vs.foldl (fun m r => m ||| (1#16 <<< r.toNat)) 0
            srcK := if src.k = 0 then 0 else 1#8 <<< src.k.toNat }
          else q
        s.done 4 (k.send q)

/-- A load into vd. -/
def State.vmLoad (s : State) (vd : BitVec 4) (xs : List (BitVec 5)) (vs : List (BitVec 4)) (g : Guard)
    (form : Ctx → VmForm) : State := s.vmOp (some vd) ⟨xs, vs, g.kg⟩ form

/-- A store of V[vs]. -/
def State.vmStore (s : State) (v : BitVec 4) (xs : List (BitVec 5)) (vs : List (BitVec 4)) (g : Guard)
    (form : Ctx → VmForm) : State := s.vmOp none ⟨xs, v :: vs, g.kg⟩ form

def execVld (vd : BitVec 4) (xs1 off : BitVec 5) (g : Guard) (s : State) : Res :=
  .next (s.vmLoad vd [xs1] [] g fun k => k.vmLine xs1 off g none)
def execVldsB (vd : BitVec 4) (xs1 xs2 : BitVec 5) (g : Guard) (s : State) : Res :=
  .next (s.vmLoad vd [xs1, xs2] [] g fun k => k.vmStride 1 xs1 xs2 g none)
def execVldsH (vd : BitVec 4) (xs1 xs2 : BitVec 5) (g : Guard) (s : State) : Res :=
  .next (s.vmLoad vd [xs1, xs2] [] g fun k => k.vmStride 2 xs1 xs2 g none)
def execVldsW (vd : BitVec 4) (xs1 xs2 : BitVec 5) (g : Guard) (s : State) : Res :=
  .next (s.vmLoad vd [xs1, xs2] [] g fun k => k.vmStride 4 xs1 xs2 g none)
def execVldxB (vd : BitVec 4) (xs1 : BitVec 5) (vs2 : BitVec 4) (g : Guard) (s : State) : Res :=
  .next (s.vmLoad vd [xs1] [vs2] g fun k => k.vmIndex 1 xs1 vs2 g none)
def execVldxH (vd : BitVec 4) (xs1 : BitVec 5) (vs2 : BitVec 4) (g : Guard) (s : State) : Res :=
  .next (s.vmLoad vd [xs1] [vs2] g fun k => k.vmIndex 2 xs1 vs2 g none)
def execVldxW (vd : BitVec 4) (xs1 : BitVec 5) (vs2 : BitVec 4) (g : Guard) (s : State) : Res :=
  .next (s.vmLoad vd [xs1] [vs2] g fun k => k.vmIndex 4 xs1 vs2 g none)
def execVst (vs : BitVec 4) (xs1 off : BitVec 5) (g : Guard) (s : State) : Res :=
  .next (s.vmStore vs [xs1] [] g fun k => k.vmLine xs1 off g (some (k.getV vs)))
def execVstsB (vs : BitVec 4) (xs1 xs2 : BitVec 5) (g : Guard) (s : State) : Res :=
  .next (s.vmStore vs [xs1, xs2] [] g fun k => k.vmStride 1 xs1 xs2 g (some (k.getV vs)))
def execVstsH (vs : BitVec 4) (xs1 xs2 : BitVec 5) (g : Guard) (s : State) : Res :=
  .next (s.vmStore vs [xs1, xs2] [] g fun k => k.vmStride 2 xs1 xs2 g (some (k.getV vs)))
def execVstsW (vs : BitVec 4) (xs1 xs2 : BitVec 5) (g : Guard) (s : State) : Res :=
  .next (s.vmStore vs [xs1, xs2] [] g fun k => k.vmStride 4 xs1 xs2 g (some (k.getV vs)))
def execVstxB (vs : BitVec 4) (xs1 : BitVec 5) (vs2 : BitVec 4) (g : Guard) (s : State) : Res :=
  .next (s.vmStore vs [xs1] [vs2] g fun k => k.vmIndex 1 xs1 vs2 g (some (k.getV vs)))
def execVstxH (vs : BitVec 4) (xs1 : BitVec 5) (vs2 : BitVec 4) (g : Guard) (s : State) : Res :=
  .next (s.vmStore vs [xs1] [vs2] g fun k => k.vmIndex 2 xs1 vs2 g (some (k.getV vs)))
def execVstxW (vs : BitVec 4) (xs1 : BitVec 5) (vs2 : BitVec 4) (g : Guard) (s : State) : Res :=
  .next (s.vmStore vs [xs1] [vs2] g fun k => k.vmIndex 4 xs1 vs2 g (some (k.getV vs)))

end Sys2Proof.Machine
end

