-- ==== Sys2Proof/Machine/Dispatch.lean ====
section
/-! DEFINITION. One arm per constructor of `Instr`: the call of its meaning. -/

namespace Sys2Proof.Machine

def exec (i : Instr) (s : State) : Host.Outcome State Fault Refusal :=
  match i with
  | .lui xd imm => Sys2Proof.Machine.execLui xd imm s
  | .auipc xd imm => Sys2Proof.Machine.execAuipc xd imm s
  | .jal xd imm => Sys2Proof.Machine.execJal xd imm s
  | .jalr xd xs1 imm => Sys2Proof.Machine.execJalr xd xs1 imm s
  | .beq xs1 xs2 imm => Sys2Proof.Machine.execBeq xs1 xs2 imm s
  | .bne xs1 xs2 imm => Sys2Proof.Machine.execBne xs1 xs2 imm s
  | .blt xs1 xs2 imm => Sys2Proof.Machine.execBlt xs1 xs2 imm s
  | .bge xs1 xs2 imm => Sys2Proof.Machine.execBge xs1 xs2 imm s
  | .bltu xs1 xs2 imm => Sys2Proof.Machine.execBltu xs1 xs2 imm s
  | .bgeu xs1 xs2 imm => Sys2Proof.Machine.execBgeu xs1 xs2 imm s
  | .lb xd xs1 imm => Sys2Proof.Machine.execLb xd xs1 imm s
  | .lh xd xs1 imm => Sys2Proof.Machine.execLh xd xs1 imm s
  | .lw xd xs1 imm => Sys2Proof.Machine.execLw xd xs1 imm s
  | .ld xd xs1 imm => Sys2Proof.Machine.execLd xd xs1 imm s
  | .lbu xd xs1 imm => Sys2Proof.Machine.execLbu xd xs1 imm s
  | .lhu xd xs1 imm => Sys2Proof.Machine.execLhu xd xs1 imm s
  | .lwu xd xs1 imm => Sys2Proof.Machine.execLwu xd xs1 imm s
  | .sb xs2 xs1 imm => Sys2Proof.Machine.execSb xs2 xs1 imm s
  | .sh xs2 xs1 imm => Sys2Proof.Machine.execSh xs2 xs1 imm s
  | .sw xs2 xs1 imm => Sys2Proof.Machine.execSw xs2 xs1 imm s
  | .sd xs2 xs1 imm => Sys2Proof.Machine.execSd xs2 xs1 imm s
  | .addi xd xs1 imm => Sys2Proof.Machine.execAddi xd xs1 imm s
  | .slti xd xs1 imm => Sys2Proof.Machine.execSlti xd xs1 imm s
  | .sltiu xd xs1 imm => Sys2Proof.Machine.execSltiu xd xs1 imm s
  | .xori xd xs1 imm => Sys2Proof.Machine.execXori xd xs1 imm s
  | .ori xd xs1 imm => Sys2Proof.Machine.execOri xd xs1 imm s
  | .andi xd xs1 imm => Sys2Proof.Machine.execAndi xd xs1 imm s
  | .slli xd xs1 sh => Sys2Proof.Machine.execSlli xd xs1 sh s
  | .srli xd xs1 sh => Sys2Proof.Machine.execSrli xd xs1 sh s
  | .srai xd xs1 sh => Sys2Proof.Machine.execSrai xd xs1 sh s
  | .add xd xs1 xs2 => Sys2Proof.Machine.execAdd xd xs1 xs2 s
  | .sub xd xs1 xs2 => Sys2Proof.Machine.execSub xd xs1 xs2 s
  | .sll xd xs1 xs2 => Sys2Proof.Machine.execSll xd xs1 xs2 s
  | .slt xd xs1 xs2 => Sys2Proof.Machine.execSlt xd xs1 xs2 s
  | .sltu xd xs1 xs2 => Sys2Proof.Machine.execSltu xd xs1 xs2 s
  | .xor xd xs1 xs2 => Sys2Proof.Machine.execXor xd xs1 xs2 s
  | .srl xd xs1 xs2 => Sys2Proof.Machine.execSrl xd xs1 xs2 s
  | .sra xd xs1 xs2 => Sys2Proof.Machine.execSra xd xs1 xs2 s
  | .or xd xs1 xs2 => Sys2Proof.Machine.execOr xd xs1 xs2 s
  | .and xd xs1 xs2 => Sys2Proof.Machine.execAnd xd xs1 xs2 s
  | .mul xd xs1 xs2 => Sys2Proof.Machine.execMul xd xs1 xs2 s
  | .mulh xd xs1 xs2 => Sys2Proof.Machine.execMulh xd xs1 xs2 s
  | .mulhsu xd xs1 xs2 => Sys2Proof.Machine.execMulhsu xd xs1 xs2 s
  | .mulhu xd xs1 xs2 => Sys2Proof.Machine.execMulhu xd xs1 xs2 s
  | .div xd xs1 xs2 => Sys2Proof.Machine.execDiv xd xs1 xs2 s
  | .divu xd xs1 xs2 => Sys2Proof.Machine.execDivu xd xs1 xs2 s
  | .rem xd xs1 xs2 => Sys2Proof.Machine.execRem xd xs1 xs2 s
  | .remu xd xs1 xs2 => Sys2Proof.Machine.execRemu xd xs1 xs2 s
  | .lr xd xs1 w aq rl => Sys2Proof.Machine.execLr xd xs1 w aq rl s
  | .sc xd xs1 xs2 w aq rl => Sys2Proof.Machine.execSc xd xs1 xs2 w aq rl s
  | .amoswap xd xs1 xs2 w aq rl => Sys2Proof.Machine.execAmoswap xd xs1 xs2 w aq rl s
  | .amoadd xd xs1 xs2 w aq rl => Sys2Proof.Machine.execAmoadd xd xs1 xs2 w aq rl s
  | .amoxor xd xs1 xs2 w aq rl => Sys2Proof.Machine.execAmoxor xd xs1 xs2 w aq rl s
  | .amoand xd xs1 xs2 w aq rl => Sys2Proof.Machine.execAmoand xd xs1 xs2 w aq rl s
  | .amoor xd xs1 xs2 w aq rl => Sys2Proof.Machine.execAmoor xd xs1 xs2 w aq rl s
  | .amomin xd xs1 xs2 w aq rl => Sys2Proof.Machine.execAmomin xd xs1 xs2 w aq rl s
  | .amomax xd xs1 xs2 w aq rl => Sys2Proof.Machine.execAmomax xd xs1 xs2 w aq rl s
  | .amominu xd xs1 xs2 w aq rl => Sys2Proof.Machine.execAmominu xd xs1 xs2 w aq rl s
  | .amomaxu xd xs1 xs2 w aq rl => Sys2Proof.Machine.execAmomaxu xd xs1 xs2 w aq rl s
  | .fence pred succ => Sys2Proof.Machine.execFence pred succ s
  | .fenceTso => Sys2Proof.Machine.execFenceTso s
  | .pause => Sys2Proof.Machine.execPause s
  | .fenceI => Sys2Proof.Machine.execFenceI s
  | .ecall => Sys2Proof.Machine.execEcall s
  | .ebreak => Sys2Proof.Machine.execEbreak s
  | .wrsNto => Sys2Proof.Machine.execWrsNto s
  | .wrsSto => Sys2Proof.Machine.execWrsSto s
  | .csrrw xd csr xs1 => Sys2Proof.Machine.execCsrrw xd csr xs1 s
  | .csrrs xd csr xs1 => Sys2Proof.Machine.execCsrrs xd csr xs1 s
  | .csrrc xd csr xs1 => Sys2Proof.Machine.execCsrrc xd csr xs1 s
  | .csrrwi xd csr uimm => Sys2Proof.Machine.execCsrrwi xd csr uimm s
  | .csrrsi xd csr uimm => Sys2Proof.Machine.execCsrrsi xd csr uimm s
  | .csrrci xd csr uimm => Sys2Proof.Machine.execCsrrci xd csr uimm s
  | .vadd ty vd vs1 vs2 g => Sys2Proof.Machine.execVadd ty vd vs1 vs2 g s
  | .vsub ty vd vs1 vs2 g => Sys2Proof.Machine.execVsub ty vd vs1 vs2 g s
  | .vmul ty vd vs1 vs2 g => Sys2Proof.Machine.execVmul ty vd vs1 vs2 g s
  | .vfma ty vd vs1 vs2 g => Sys2Proof.Machine.execVfma ty vd vs1 vs2 g s
  | .vmin ty vd vs1 vs2 g => Sys2Proof.Machine.execVmin ty vd vs1 vs2 g s
  | .vmax ty vd vs1 vs2 g => Sys2Proof.Machine.execVmax ty vd vs1 vs2 g s
  | .vabs ty vd vs1 g => Sys2Proof.Machine.execVabs ty vd vs1 g s
  | .vneg ty vd vs1 g => Sys2Proof.Machine.execVneg ty vd vs1 g s
  | .vclamp ty vd vs1 vs2 g => Sys2Proof.Machine.execVclamp ty vd vs1 vs2 g s
  | .vand ty vd vs1 vs2 g => Sys2Proof.Machine.execVand ty vd vs1 vs2 g s
  | .vor ty vd vs1 vs2 g => Sys2Proof.Machine.execVor ty vd vs1 vs2 g s
  | .vxor ty vd vs1 vs2 g => Sys2Proof.Machine.execVxor ty vd vs1 vs2 g s
  | .vshl ty vd vs1 vs2 g => Sys2Proof.Machine.execVshl ty vd vs1 vs2 g s
  | .vshr ty vd vs1 vs2 g => Sys2Proof.Machine.execVshr ty vd vs1 vs2 g s
  | .vslide ty vd vs1 n g => Sys2Proof.Machine.execVslide ty vd vs1 n g s
  | .vsel ty vd vs1 vs2 g => Sys2Proof.Machine.execVsel ty vd vs1 vs2 g s
  | .vcvt ty dt vd vs1 g => Sys2Proof.Machine.execVcvt ty dt vd vs1 g s
  | .vred ty vd vs1 rop g => Sys2Proof.Machine.execVred ty vd vs1 rop g s
  | .vperm ty vd vs1 vs2 g => Sys2Proof.Machine.execVperm ty vd vs1 vs2 g s
  | .vdiv ty vd vs1 vs2 g => Sys2Proof.Machine.execVdiv ty vd vs1 vs2 g s
  | .vsqrt ty vd vs1 g => Sys2Proof.Machine.execVsqrt ty vd vs1 g s
  | .vexp2 ty vd vs1 g => Sys2Proof.Machine.execVexp2 ty vd vs1 g s
  | .vlog2 ty vd vs1 g => Sys2Proof.Machine.execVlog2 ty vd vs1 g s
  | .vrsqrt ty vd vs1 g => Sys2Proof.Machine.execVrsqrt ty vd vs1 g s
  | .vcmp pred ty kd dual vs1 vs2 g => Sys2Proof.Machine.execVcmp pred ty kd dual vs1 vs2 g s
  | .vbcast wd vd xs1 g => Sys2Proof.Machine.execVbcast wd vd xs1 g s
  | .vext xd vs1 xs1 => Sys2Proof.Machine.execVext xd vs1 xs1 s
  | .vins vd xs1 xs2 => Sys2Proof.Machine.execVins vd xs1 xs2 s
  | .kmovx xd ks => Sys2Proof.Machine.execKmovx xd ks s
  | .kmovk kd xs1 g => Sys2Proof.Machine.execKmovk kd xs1 g s
  | .kpop xd ks g => Sys2Proof.Machine.execKpop xd ks g s
  | .kop op kd ka kb g => Sys2Proof.Machine.execKop op kd ka kb g s
  | .vld vd xs1 off g => Sys2Proof.Machine.execVld vd xs1 off g s
  | .vldsB vd xs1 xs2 g => Sys2Proof.Machine.execVldsB vd xs1 xs2 g s
  | .vldsH vd xs1 xs2 g => Sys2Proof.Machine.execVldsH vd xs1 xs2 g s
  | .vldsW vd xs1 xs2 g => Sys2Proof.Machine.execVldsW vd xs1 xs2 g s
  | .vldxB vd xs1 vs2 g => Sys2Proof.Machine.execVldxB vd xs1 vs2 g s
  | .vldxH vd xs1 vs2 g => Sys2Proof.Machine.execVldxH vd xs1 vs2 g s
  | .vldxW vd xs1 vs2 g => Sys2Proof.Machine.execVldxW vd xs1 vs2 g s
  | .vst vs xs1 off g => Sys2Proof.Machine.execVst vs xs1 off g s
  | .vstsB vs xs1 xs2 g => Sys2Proof.Machine.execVstsB vs xs1 xs2 g s
  | .vstsH vs xs1 xs2 g => Sys2Proof.Machine.execVstsH vs xs1 xs2 g s
  | .vstsW vs xs1 xs2 g => Sys2Proof.Machine.execVstsW vs xs1 xs2 g s
  | .vstxB vs xs1 vs2 g => Sys2Proof.Machine.execVstxB vs xs1 vs2 g s
  | .vstxH vs xs1 vs2 g => Sys2Proof.Machine.execVstxH vs xs1 vs2 g s
  | .vstxW vs xs1 vs2 g => Sys2Proof.Machine.execVstxW vs xs1 vs2 g s
  | .tidset xs1 xs2 => Sys2Proof.Machine.execTidset xs1 xs2 s
  | .tidget xd xs1 xs2 => Sys2Proof.Machine.execTidget xd xs1 xs2 s
  | .mzero m xs1 xs2 => Sys2Proof.Machine.execMzero m xs1 xs2 s
  | .mma m xs1 xs2 => Sys2Proof.Machine.execMma m xs1 xs2 s
  | .mmav m xs1 => Sys2Proof.Machine.execMmav m xs1 s
  | .mmas m xs1 xs2 => Sys2Proof.Machine.execMmas m xs1 xs2 s
  | .mread m xs1 => Sys2Proof.Machine.execMread m xs1 s
  | .mwrite m xs1 => Sys2Proof.Machine.execMwrite m xs1 s
  | .fold xd xs1 xs2 xs3 => Sys2Proof.Machine.execFold xd xs1 xs2 xs3 s
  | .scan xd xs1 xs2 xs3 => Sys2Proof.Machine.execScan xd xs1 xs2 xs3 s
  | .zip xd xs1 xs2 xs3 => Sys2Proof.Machine.execZip xd xs1 xs2 xs3 s
  | .outer xd xs1 xs2 xs3 => Sys2Proof.Machine.execOuter xd xs1 xs2 xs3 s
  | .xop vi slot vd vs1 vs2 g => Sys2Proof.Machine.execXop vi slot vd vs1 vs2 g s
  | .xcopy xd xs1 xs2 => Sys2Proof.Machine.execXcopy xd xs1 xs2 s
  | .xfill xd xs1 xs2 => Sys2Proof.Machine.execXfill xd xs1 xs2 s
  | .wenc xd xs1 xs2 => Sys2Proof.Machine.execWenc xd xs1 xs2 s
  | .jtime xd xs1 => Sys2Proof.Machine.execJtime xd xs1 s
  | .jwait xs1 => Sys2Proof.Machine.execJwait xs1 s
  | .ttset xs1 xs2 => Sys2Proof.Machine.execTtset xs1 xs2 s
  | .tready xs1 => Sys2Proof.Machine.execTready xs1 s
  | .tstat xd xs1 => Sys2Proof.Machine.execTstat xd xs1 s
  | .cwait xs1 xs2 => Sys2Proof.Machine.execCwait xs1 xs2 s
  | .padv => Sys2Proof.Machine.execPadv s
  | .pread xd xs1 xs2 => Sys2Proof.Machine.execPread xd xs1 xs2 s
  | .pjoin => Sys2Proof.Machine.execPjoin s
  | .pleave => Sys2Proof.Machine.execPleave s
  | .hop xs1 => Sys2Proof.Machine.execHop xs1 s
  | .give xs1 xs2 => Sys2Proof.Machine.execGive xs1 xs2 s
  | .qput xd xs1 xs2 => Sys2Proof.Machine.execQput xd xs1 xs2 s
  | .qputw xd xs1 xs2 => Sys2Proof.Machine.execQputw xd xs1 xs2 s
  | .qsig xs1 xs2 => Sys2Proof.Machine.execQsig xs1 xs2 s
  | .xcopym xd xs1 xs2 xs3 => Sys2Proof.Machine.execXcopym xd xs1 xs2 xs3 s
  | .trig xd xs1 xs2 xs3 => Sys2Proof.Machine.execTrig xd xs1 xs2 xs3 s
  | .waitc ld st cp mx => Sys2Proof.Machine.execWaitc ld st cp mx s
  | .tspawn xd xs1 xs2 => Sys2Proof.Machine.execTspawn xd xs1 xs2 s
  | .treap xd xs1 => Sys2Proof.Machine.execTreap xd xs1 s
  | .tkill xs1 => Sys2Proof.Machine.execTkill xs1 s
  | .texit => Sys2Proof.Machine.execTexit s
  | .tslot xs1 xs2 => Sys2Proof.Machine.execTslot xs1 xs2 s
  | .tsleep xs1 => Sys2Proof.Machine.execTsleep xs1 s
  | .barreg xs1 xs2 => Sys2Proof.Machine.execBarreg xs1 xs2 s
  | .bara => Sys2Proof.Machine.execBara s
  | .mflush xs1 xs2 => Sys2Proof.Machine.execMflush xs1 xs2 s
  | .minv xs1 xs2 => Sys2Proof.Machine.execMinv xs1 xs2 s
  | .amodr xd xs1 xs2 slot => Sys2Proof.Machine.execAmodr xd xs1 xs2 slot s
  | .hload xs1 xs2 => Sys2Proof.Machine.execHload xs1 xs2 s
  | .hdrop xs1 => Sys2Proof.Machine.execHdrop xs1 s
  | .xopx xd xs1 xs2 slot => Sys2Proof.Machine.execXopx xd xs1 xs2 slot s
  | .tret => Sys2Proof.Machine.execTret s
  | .fencex sc pred succ => Sys2Proof.Machine.execFencex sc pred succ s
  | .illegalInstruction w => Sys2Proof.Machine.execIllegalInstruction w s
  | .fetchOutsideTheIstore => Sys2Proof.Machine.execFetchOutsideTheIstore s
  | .rotationBoundary t => Sys2Proof.Machine.execRotationBoundary t s
  | .parkWake t c => Sys2Proof.Machine.execParkWake t c s
  | .parkWatchdog t c => Sys2Proof.Machine.execParkWatchdog t c s
  | .delivery t c n => Sys2Proof.Machine.execDelivery t c n s
  | .inboxLand t n => Sys2Proof.Machine.execInboxLand t n s
  | .registerWindowWrite t c n => Sys2Proof.Machine.execRegisterWindowWrite t c n s
  | .heldResume t c n => Sys2Proof.Machine.execHeldResume t c n s
  | .endingToFree t c => Sys2Proof.Machine.execEndingToFree t c s
  | .loadComplete t c n k => Sys2Proof.Machine.execLoadComplete t c n k s
  | .storePerformed t c n k => Sys2Proof.Machine.execStorePerformed t c n k s
  | .mflushDone t c n => Sys2Proof.Machine.execMflushDone t c n s
  | .hloadComplete t c n => Sys2Proof.Machine.execHloadComplete t c n s
  | .qputPost t c n => Sys2Proof.Machine.execQputPost t c n s
  | .qputReply t c n => Sys2Proof.Machine.execQputReply t c n s
  | .amoRequest t c n => Sys2Proof.Machine.execAmoRequest t c n s
  | .amoGrant t c n => Sys2Proof.Machine.execAmoGrant t c n s
  | .amoRelease t c n => Sys2Proof.Machine.execAmoRelease t c n s
  | .amoAck t c n => Sys2Proof.Machine.execAmoAck t c n s
  | .leaseExpiry t c => Sys2Proof.Machine.execLeaseExpiry t c s
  | .wrsStoTimeout t c => Sys2Proof.Machine.execWrsStoTimeout t c s
  | .cwaitPoll t c => Sys2Proof.Machine.execCwaitPoll t c s
  | .hostAtomicop op pa tbit => Sys2Proof.Machine.execHostAtomicop op pa tbit s
  | .lateRefusal t c n => Sys2Proof.Machine.execLateRefusal t c n s
  | .trapEntry t => Sys2Proof.Machine.execTrapEntry t s
  | .loomTimeCompare t => Sys2Proof.Machine.execLoomTimeCompare t s
  | .preemptOrder t launch buf resume => Sys2Proof.Machine.execPreemptOrder t launch buf resume s
  | .uncorrectableError site => Sys2Proof.Machine.execUncorrectableError site s
  | .correctedError t => Sys2Proof.Machine.execCorrectedError t s
  | .matrixOpStart t => Sys2Proof.Machine.execMatrixOpStart t s
  | .matrixOpComplete t => Sys2Proof.Machine.execMatrixOpComplete t s
  | .cardSchedule t j => Sys2Proof.Machine.execCardSchedule t j s
  | .engineAccept t j e p => Sys2Proof.Machine.execEngineAccept t j e p s
  | .cardCompletion t j k => Sys2Proof.Machine.execCardCompletion t j k s
  | .cardStop t j => Sys2Proof.Machine.execCardStop t j s
  | .xcopymFollowOn t j => Sys2Proof.Machine.execXcopymFollowOn t j s
  | .trigFire t j => Sys2Proof.Machine.execTrigFire t j s
  | .jobPromiseMissed t c => Sys2Proof.Machine.execJobPromiseMissed t c s
  | .jobctlSelect t c n => Sys2Proof.Machine.execJobctlSelect t c n s
  | .jobctlResume t c n p => Sys2Proof.Machine.execJobctlResume t c n p s
  | .jobctlAbort t c n => Sys2Proof.Machine.execJobctlAbort t c n s
  | .reqctlReplay t c n => Sys2Proof.Machine.execReqctlReplay t c n s
  | .reqctlDrop t c n => Sys2Proof.Machine.execReqctlDrop t c n s
  | .stopctlStop t c n => Sys2Proof.Machine.execStopctlStop t c n s
  | .stopctlRelease t c n => Sys2Proof.Machine.execStopctlRelease t c n s
  | .drainComplete t => Sys2Proof.Machine.execDrainComplete t s
  | .pres t c n => Sys2Proof.Machine.execPres t c n s
  | .phold t en p => Sys2Proof.Machine.execPhold t en p s
  | .pexcuse t c n => Sys2Proof.Machine.execPexcuse t c n s
  | .pickUpdate n => Sys2Proof.Machine.execPickUpdate n s
  | .pickStall t c => Sys2Proof.Machine.execPickStall t c s
  | .preadRequest t c n => Sys2Proof.Machine.execPreadRequest t c n s
  | .preadReply t c n => Sys2Proof.Machine.execPreadReply t c n s
  | .shuttle n => Sys2Proof.Machine.execShuttle n s
  | .shuttleRefusal n => Sys2Proof.Machine.execShuttleRefusal n s
  | .shuttleResend t c => Sys2Proof.Machine.execShuttleResend t c s
  | .chunkArrival p => Sys2Proof.Machine.execChunkArrival p s
  | .chunkAck p => Sys2Proof.Machine.execChunkAck p s
  | .reduceCompletionNotice p => Sys2Proof.Machine.execReduceCompletionNotice p s
  | .hopTimeout t e k => Sys2Proof.Machine.execHopTimeout t e k s
  | .altRequest p => Sys2Proof.Machine.execAltRequest p s
  | .collectiveFailure t e => Sys2Proof.Machine.execCollectiveFailure t e s
  | .linkReplay e => Sys2Proof.Machine.execLinkReplay e s
  | .auditSend port => Sys2Proof.Machine.execAuditSend port s
  | .tableWalk t q va => Sys2Proof.Machine.execTableWalk t q va s
  | .bufferEviction line => Sys2Proof.Machine.execBufferEviction line s
  | .notifyWrite q => Sys2Proof.Machine.execNotifyWrite q s
  | .queueMapping q => Sys2Proof.Machine.execQueueMapping q s
  | .queueScheduleTick => Sys2Proof.Machine.execQueueScheduleTick s
  | .commandStart q => Sys2Proof.Machine.execCommandStart q s
  | .commandComplete q => Sys2Proof.Machine.execCommandComplete q s
  | .launch q => Sys2Proof.Machine.execLaunch q s
  | .launchPlacementRetry q => Sys2Proof.Machine.execLaunchPlacementRetry q s
  | .startMessage n => Sys2Proof.Machine.execStartMessage n s
  | .wait q => Sys2Proof.Machine.execWait q s
  | .waitEvaluate q => Sys2Proof.Machine.execWaitEvaluate q s
  | .waitTimeout q => Sys2Proof.Machine.execWaitTimeout q s
  | .signal q => Sys2Proof.Machine.execSignal q s
  | .timed q => Sys2Proof.Machine.execTimed q s
  | .timedExpiry q => Sys2Proof.Machine.execTimedExpiry q s
  | .notbeforeExpiry q => Sys2Proof.Machine.execNotbeforeExpiry q s
  | .flush q => Sys2Proof.Machine.execFlush q s
  | .inv q => Sys2Proof.Machine.execInv q s
  | .fenceCommand q => Sys2Proof.Machine.execFenceCommand q s
  | .copy q => Sys2Proof.Machine.execCopy q s
  | .tlbinv q => Sys2Proof.Machine.execTlbinv q s
  | .hostBar2Access acc pa tbit => Sys2Proof.Machine.execHostBar2Access acc pa tbit s
  | .hostFlagWindowAccess acc off tbit => Sys2Proof.Machine.execHostFlagWindowAccess acc off tbit s
  | .registerWrite r => Sys2Proof.Machine.execRegisterWrite r s
  | .pkgerrClear v tbit => Sys2Proof.Machine.execPkgerrClear v tbit s
  | .monloadGo v tbit => Sys2Proof.Machine.execMonloadGo v tbit s
  | .pwrctlWrite v tbit => Sys2Proof.Machine.execPwrctlWrite v tbit s
  | .standbyEntry => Sys2Proof.Machine.execStandbyEntry s
  | .thermalMeasurement tmax => Sys2Proof.Machine.execThermalMeasurement tmax s
  | .packageReset img => Sys2Proof.Machine.execPackageReset img s
  | .lockInterface => Sys2Proof.Machine.execLockInterface s
  | .startInterface => Sys2Proof.Machine.execStartInterface s
  | .stopInterface => Sys2Proof.Machine.execStopInterface s
  | .ideIntegrityFailure => Sys2Proof.Machine.execIdeIntegrityFailure s
  | .getMeasurements idx => Sys2Proof.Machine.execGetMeasurements idx s
  | .keyExchange => Sys2Proof.Machine.execKeyExchange s
  | .linkTraining port ok delay => Sys2Proof.Machine.execLinkTraining port ok delay s
  | .linkRetrain port ok => Sys2Proof.Machine.execLinkRetrain port ok s
  | .auditFlit port sent credits m => Sys2Proof.Machine.execAuditFlit port sent credits m s
  | .creditCounterParityError port => Sys2Proof.Machine.execCreditCounterParityError port s

end Sys2Proof.Machine
end

