-- ==== Sys2Proof/Machine/Plan.lean ====
section
/-! DEFINITION. The order of moves that the model runs when nothing is on the agenda, and the clock with the steps that
time makes due (log 1). The manual leaves the order of units free; any agenda is a run of the machine. -/

namespace Sys2Proof.Machine

/-- Whether a unit takes this step by itself: it has no encoding and is not the outcome of a fetch (log 1). -/
def unitStep (i : Instr) : Bool :=
  match i with
  | .illegalInstruction _ | .fetchOutsideTheIstore => false
  | _ => (encode i).isNone

/-- The steps that go on while the loom dies have no power or are held in reset: the host's requests at the hub, the
measurements of the management controller, and a package reset (R323, R328). -/
def hubAnswers (i : Instr) : Bool :=
  match i with
  | .registerWrite (.hub ..) | .registerWrite (.bar0 ..) | .hostBar2Access .. | .hostFlagWindowAccess .. | .hostAtomicop ..
  | .pkgerrClear .. | .monloadGo .. | .pwrctlWrite .. | .thermalMeasurement _ | .packageReset _ | .getMeasurements _ | .keyExchange
  | .lockInterface | .startInterface | .stopInterface | .ideIntegrityFailure => true
  | _ => false

/-! ### The clock -/

/-- Steps that the passing of time makes due in one tile (R101, R109, R170, R266, R270, R305, R417). -/
def State.dueInTile (s : State) (t : TileNo) : List Instr :=
  let tl := s.tile t
  let perCtx := allCtxs.flatMap fun c =>
    let k := tl.ctx c
    let lease : List Instr := match k.grant with
      | some g => if g.since + 256 ≤ s.time then [.leaseExpiry t c] else []
      | none => []
    let parked : List Instr := match k.park with
      | some p =>
        (if p.since + 2 ^ tl.pwlog ≤ s.time then [.parkWatchdog t c] else []) ++
        (match p.reason with
         | .wrs true => if p.since + 512 ≤ s.time then [.wrsStoTimeout t c] else []
         | .neighbours => if p.since + 2 ^ k.pwatch ≤ s.time then [.pickStall t c] else []
         | .promise _ q => if q.toNat ≤ s.time then [.jobPromiseMissed t c] else []
         | _ => [])
      | none => []
    let hop : List Instr := match k.hop with
      | .backoff _ _ due => if due ≤ s.time then [.shuttleResend t c] else []
      | _ => []
    lease ++ parked ++ hop
  (if s.time % 16 = 0 then [.rotationBoundary t] else []) ++
  (if tl.tcmp ≠ 0 ∧ tl.tcmp.toNat ≤ s.time then [.loomTimeCompare t] else []) ++ perCtx ++ s.ttDue t

/-- Steps that the passing of time makes due at the hub (R134, R135, R138). -/
def State.dueAtHub (s : State) : List Instr :=
  let qs := s.hub.slots.flatMap fun m =>
    match m.cmd with
    | some c =>
      (if c.phase = .held ∧ (c.w 7).toNat ≤ s.time then [.notbeforeExpiry m.queue] else []) ++
      (if c.op = 4 ∧ c.phase = .waiting ∧ (c.w 1).toNat ≤ s.time then [.timedExpiry m.queue] else []) ++
      (if c.op = 2 ∧ c.phase = .waiting ∧ s.waitLate m.queue c then [Instr.waitTimeout m.queue] else [])
    | none => []
  (if s.time % 4096 = 0 then [.queueScheduleTick] else []) ++ qs

/-- Steps that the passing of time makes due on the links (R287, R288). -/
def State.dueOnLinks (s : State) : List Instr :=
  s.links.flatMap fun p =>
    let n := BitVec.ofNat 4 p.1
    (if s.time % 65536 = 0 ∨ p.2.auditDue then [Instr.auditSend n] else []) ++
    (if p.2.replay.any fun f => decide (f.2 + 4096 ≤ s.time) then [.linkReplay ⟨n, false⟩] else [])

/-- The clock ticks: loom time rises by one (R20), unless the count is one to skip (R289), host operations at the head of
a FIFO run (R174), and what the time makes due comes next. In loom dies without power, or held in reset, no clock ticks (R323,
R328). -/
def State.tick (s : State) : State :=
  if !s.loomRuns then { s with turn := 0 }
  else
  let time := if s.hub.skip then s.time else s.time + 1
  let s := ({ s with time := time, turn := 0, hub := { s.hub with skip := false } } : State).runHosts
  let due := s.tileNos.flatMap s.dueInTile ++ s.dueAtHub ++ s.dueOnLinks
  { s with agenda := due.map .event ++ s.agenda }

/-! ### The order of steps when the agenda is empty -/

/-- The steps one request in flight is ready for. -/
def Req.steps (t : TileNo) (c : CtxNo) (time n : Nat) (q : Req) : List Instr :=
  match q.kind, q.phase with
  | _, .refused _ _ => []
  | .load _, _ | .vload, _ => (List.range (max 1 q.elems.length)).map (.loadComplete t c n) ++ [.lateRefusal t c n]
  | .store, _ | .vstore, _ => (List.range (max 1 q.elems.length)).map (.storePerformed t c n) ++ [.lateRefusal t c n]
  | .delivery .., _ => [.delivery t c n]
  | .window _, _ => [.heldResume t c n, .registerWindowWrite t c n]
  | .control _, _ =>
    match q.elems with
    | e :: _ =>
      match e.addr.toNat % 2 ^ 24 - 0x150000 with
      | 0x100 => [.jobctlSelect t c n, .jobctlResume t c n (BitVec.ofNat 64 (time + 1320)), .jobctlAbort t c n]
      | 0x140 => [.pexcuse t c n]
      | 0x170 => [.reqctlReplay t c n, .reqctlDrop t c n]
      | 0x180 => [.stopctlStop t c n, .stopctlRelease t c n]
      | 0x1A8 => [.pres t c n]
      | _ => [.registerWrite (.tile t c n)]
    | [] => []
  | .mflush, _ | .minv, _ => [.mflushDone t c n, .lateRefusal t c n]
  | .hload _, _ => [.hloadComplete t c n, .lateRefusal t c n]
  | .qput _ _, .issued | .qputw _ _, .issued | .qputw _ _, .waiting => [.qputPost t c n]
  | .qput _ _, _ | .qputw _ _, _ => [.qputReply t c n]
  | .pread .., .issued => [.preadRequest t c n]
  | .pread .., _ => [.preadReply t c n]
  | _, .issued => [.amoRequest t c n, .lateRefusal t c n]
  | _, .queued => [.amoGrant t c n, .lateRefusal t c n]
  | _, .granted _ | _, .released _ _ => [.amoRelease t c n]
  | _, _ => [.amoAck t c n]

/-- The steps one card is ready for. -/
def Card.steps (t : TileNo) (time : Nat) (c : Card) : List Instr :=
  match c.state with
  | .unfired | .armed => [.trigFire t c.job]
  | .queued => [.cardSchedule t c.job]
  | .scheduled => [.engineAccept t c.job 0 (BitVec.ofNat 64 (time + 1320))]
  | .running => [.cardStop t c.job, .xcopymFollowOn t c.job, .cardCompletion t c.job ⟨2 ^ 32, 0⟩]
  | .follow | .stopped => []

/-- The steps of one tile. -/
def State.tileSteps (s : State) (t : TileNo) : List Instr :=
  let tl := s.tile t
  let reqs := allCtxs.flatMap fun c => ((tl.ctx c).reqs.zipIdx).flatMap fun p => p.1.steps t c s.time p.2
  let ctxs := allCtxs.flatMap fun c =>
    let k := tl.ctx c
    (match k.park with
     | some p => (match p.reason with | .cwait _ _ => [Instr.cwaitPoll t c] | _ => []) ++ [.parkWake t c]
     | none => []) ++ (if k.task = .ending then [.endingToFree t c] else [])
  (tl.inbox.zipIdx.map fun p => Instr.inboxLand t p.2) ++ (if tl.landing = [] then [] else [.inboxLand t tl.inbox.length]) ++ reqs ++ tl.cards.flatMap (·.steps t s.time)
    ++ (if tl.mats = [] then [] else [.matrixOpStart t, .matrixOpComplete t])
    ++ (if tl.recs = [] then [] else [.trapEntry t]) ++ (if tl.stop = 0 then [] else [.drainComplete t]) ++ ctxs

/-- The step of a packet of a collective that is at the head of those in flight. -/
def Chunk.step (c : Chunk) : Instr :=
  match c.kind with
  | .up | .down | .resend | .turn => .chunkArrival (.here 0)
  | .notice => .reduceCompletionNotice (.here 0)
  | .ackUp | .ackDown | .ackAlt => .chunkAck (.here 0)
  | .alt => .altRequest (.here 0)

/-- The steps of a command. -/
def Cmd.steps (q : QueueNo) (c : Cmd) : List Instr :=
  match c.phase with
  | .held => []
  | .ready => [.commandStart q]
  | .done => [.commandComplete q]
  | .waiting => match c.op with | 1 => [.launchPlacementRetry q] | 2 => [.waitEvaluate q] | 8 => [.copy q] | _ => []
  | .started =>
    match c.op with
    | 1 => if c.launch.isNone then [.launch q] else [.commandComplete q]
    | 2 => [.wait q] | 3 => [.signal q] | 4 => [.timed q] | 5 => [.flush q] | 6 => [.inv q]
    | 7 => [.fenceCommand q] | 8 => [.copy q] | _ => [.tlbinv q]

/-- The steps of the hub. -/
def State.hubSteps (s : State) : List Instr :=
  s.hub.notes.map .notifyWrite ++ (s.hub.pending.filter fun q => (s.qslot q).isNone).map .queueMapping
    ++ (s.hub.slots.flatMap fun m => match m.cmd with | none => [Instr.commandStart m.queue] | some c => c.steps m.queue)
    ++ ((s.hub.launches.filter fun l => l.async && l.live == []).map fun l => Instr.commandComplete l.queue)
    ++ (if s.hub.pstate = 2 ∧ s.hub.actual ≠ 2 then [.standbyEntry] else [])

/-- Every step some unit is ready for, in one fixed order. -/
def State.allSteps (s : State) : List Instr :=
  let walks := s.regions.flatMap fun p => (p.2.pending.filter (·.started)).map fun w =>
    Instr.tableWalk (BitVec.ofNat 12 (p.1 % 8 * 8 + p.1 / 8 * 8 * 64)) w.tag.queue (sext48 w.base)
  let shuttles := s.shuttles.zipIdx.reverse.map fun p => if p.1.refused then Instr.shuttleRefusal p.2 else .shuttle p.2
  walks ++ (s.picks.map fun _ => Instr.pickUpdate 0) ++ shuttles ++ s.chunks.map Chunk.step
    ++ (s.starts.map fun _ => Instr.startMessage 0) ++ s.hubSteps ++ s.tileNos.flatMap s.tileSteps

/-- With an empty agenda each listed tile issues in turn, after its contexts whose instructions wait have tried them again, then every unit takes what step it is ready for, and then
the clock ticks. Without power, and after a boot that failed, nothing runs (R323, R328). -/
def State.plan (s : State) : State :=
  if !s.loomRuns then { s with agenda := [.tick] }
  else
    match s.tileNos[s.turn]? with
    | some t => { s with turn := s.turn + 1, agenda := ((allCtxs.filter (s.tile t).mayRetry).map (Move.retry t)) ++ [.issue t] }
    | none => { s with turn := 0, agenda := s.allSteps.map .event ++ [.tick] }

end Sys2Proof.Machine
end

