-- ==== Sys2Proof/Machine/Step.lean ====
section
/-! DEFINITION. One step of the package: the next move of the agenda (log 1). -/

namespace Sys2Proof.Machine

/-- One step. A tile's issue port runs the instruction it fetched by `exec`, and so does a context that tries the instruction
which occupies it again; a unit's step runs by `exec` too, but not a
step of the loom dies while they have no power or are held in reset (R323, R328); the clock ticks. With an empty agenda the
next moves are planned. -/
def step (s : State) : Host.Outcome State Fault Refusal :=
  match s.agenda with
  | [] => .next s.plan
  | .tick :: r => .next ({ s with agenda := r } : State).tick
  | .issue t :: r =>
    match ({ s with agenda := r } : State).issue t with
    | .idle s' => .next s'
    | .instr i s' => exec i s'
  | .retry t c :: r =>
    match ({ s with agenda := r } : State).retry t c with
    | .idle s' => .next s'
    | .instr i s' => exec i s'
  | .event i :: r =>
    if !unitStep i then .fault .notAStep
    else if s.loomRuns || hubAnswers i then exec i { s with agenda := r }
    else .next { s with agenda := r }

/-- `s` with an instruction placed where context 0 of tile 0 fetches next, that context READY, the loom dies released, and the agenda
set to that tile's issue cycle (log 9). -/
def State.withFetchWord (s : State) (nbits w : Nat) : State :=
  let c := s.ctx 0 0
  let pc := if c.pcNow.toNat < 0x10000 ∧ c.pcNow.toNat % 4 = 0 then c.pcNow else 0
  let c := { c with
    state := .ready, park := none, busy := 0, held := false, fencing := false, late := [], stale := [], reqs := c.reqs.filter fun q => !q.ownStore 0 0
    pc := if c.sup then c.pc else pc, monPc := if c.sup then pc else c.monPc }
  let t := ((s.tile 0).placeWord pc.toNat nbits w).setCtx 0 c
  let h : Hub := s.hub
  let h := { h with powered := true, bootCode := 0, stage := if h.stage.toNat < 4 then 4 else h.stage }
  ({ s with agenda := [.issue 0], hub := h } : State).setTile 0 { t with slots := [], lastIssue := 0, qstat := 0, poison := [], entering := false }

end Sys2Proof.Machine
end

