-- ==== Sys2Proof/Safety.lean ====
section
/-! DEFINITION. The terms that claims are stated in: a safe run, the canonical form of memory, and what an instruction
leaves as it was. -/

namespace Sys2Proof.Machine

/-- A step that answers a next state. -/
def Advances (s : State) : Prop := ∃ t, step s = .next t

/-- Every entry of the agenda is a step that the machine's units take (log 1). -/
def State.agendaOk (s : State) : Bool :=
  s.agenda.all fun m => match m with
    | .event i => unitStep i
    | _ => true

/-! ### Memory -/

/-- The memories of a tile are in canonical form. -/
def Tile.MemoryOk (t : Tile) : Prop := t.ls.wf ∧ t.istore.wf ∧ t.hist.wf ∧ t.pickWin.wf

/-- Every memory of the package is in canonical form. -/
def State.MemoryOk (s : State) : Prop := s.backing.wf ∧ s.flag.wf ∧ ∀ p ∈ s.tiles, p.2.MemoryOk

/-- A line of a memory-side buffer holds 64 bytes (R159). -/
def State.LinesOk (s : State) : Prop := ∀ l n, s.line l = some n → n.bytes.length = 64

/-- The places that hold data. The words of a register window and of tile control are registers, and a heddle slot is
read through its image (R118, R223, R426). -/
def Place.data : Place → Bool
  | .window _ _ | .control _ _ => false
  | .acc _ off => decide (off % 0x4000 < 0x2800)
  | _ => true

/-- The places that a byte is stored to: data, and the v registers of a register window (R118). -/
def Place.stored : Place → Bool
  | .window _ off => decide (0x100 ≤ off % 0x1000) && decide (off % 0x1000 < 0x500)
  | .heddle _ _ => false
  | p => p.data

/-- A place needs no line of a buffer, its line is buffered, or the buffer has room for it: no other line leaves (R159). -/
def State.RoomAt (s : State) (p : Place) : Prop := ∀ l, p = .main l → (s.line l).isSome = true ∨ s.makeRoom l = s

/-- Every byte of memory reads as before. -/
def SameMemory (s t : State) : Prop := ∀ p : Place, p.data → t.readPlace p = s.readPlace p

/-- Nothing outside the executing context differs: no other context, no tile register, no memory, no unit. -/
structure OnlyMe (s t : State) : Prop where
  rest : t = s.setMe t.me
  memory : SameMemory s t

/-! ### The frame of an instruction -/

/-- The executing context ends its instruction after `n` cycles at `pc`: the channel registers among its sources `xs`
are empty, those among its destinations `xd` full, no x register but a destination has changed, and what else differs in
the context is what `k` says (R100, R113, R114). -/
structure Retires (s t : State) (xs xd : List (BitVec 5)) (n : Nat) (pc : Word) (k : Ctx) : Prop where
  next : t.me.pcNow = pc
  task : s.me.sup → t.me.pc = s.me.pc
  regs : ∀ r, r ∉ xd → t.me.getX r = s.me.getX r
  chans : ∀ r, t.me.isFull r =
    if s.me.isSync r ∧ r ∈ xd then true else if s.me.isSync r ∧ r ∈ xs then false else s.me.isFull r
  others : t.me = { k with
    x := t.me.x, full := t.me.full, pc := t.me.pc, monPc := if s.me.sup then pc else s.me.monPc
    instret := s.me.instret + 1, num := s.me.num + 1, busy := s.time + n, held := false, fencing := false, state := .ready, park := none, woken := false }

/-- A plain instruction: it retires, `xd` := `v`, and nothing but the context has changed. -/
structure Computes (s t : State) (xs : List (BitVec 5)) (xd : BitVec 5) (n : Nat) (pc v : Word) (k : Ctx) : Prop where
  value : t.me.getX xd = if xd = 0 then 0 else v
  retires : Retires s t xs [xd] n pc k
  only : OnlyMe s t

/-- An instruction that sends a request: the request joins those in flight, and its counter rises (R122, R301). -/
def Ctx.sent (k : Ctx) (q : Req) (ld st : Nat) : Ctx :=
  { k with reqs := k.reqs ++ [q], seq := k.seq + 1, ld := k.ld + ld, st := k.st + st }

/-- The counters and the log of a context have room for an instruction that raises the named ones (R123, R301). -/
def Ctx.RoomFor (k : Ctx) (ld st cp mx log : Bool) : Prop :=
  (ld → k.ld < 16) ∧ (st → k.st < 16) ∧ (cp → k.cp < 8) ∧ (mx → k.mx < 4) ∧
    (log → (k.reqs.filter (·.logged)).length < 16)

/-- An instruction that sends the request `q`: it retires, its registers are read, the request is in flight, and nothing
else has changed. -/
structure Sends (s t : State) (xs : List (BitVec 5)) (q : Req) (ld st : Nat) : Prop where
  retires : Retires s t xs [] 4 (s.me.pcNow + 4) (s.me.sent q ld st)
  only : OnlyMe s t

/-- A step of a request in flight leaves the other contexts, the agenda and what leaves the package as they were. -/
structure OnlyCtx (s u : State) (t : TileNo) (c : CtxNo) : Prop where
  contexts : ∀ t' c', (t', c') ≠ (t, c) → u.ctx t' c' = s.ctx t' c'
  agenda : u.agenda = s.agenda
  out : u.out = s.out

/-- An instruction answers a next state with a property, in every state that meets a condition. -/
def Completes (i : Instr) (pre : State → Prop) (post : State → State → Prop) : Prop :=
  ∀ s, pre s → ∃ t, exec i s = .next t ∧ post s t

/-- The registers an instruction reads and writes are free: its synchronised sources are full, its synchronised
destinations empty, and no request in flight holds one of them (R113, R114, R301). -/
def Free (xs xd : List (BitVec 5)) (s : State) : Prop := s.me.gate (Uses.x xs xd) = .go

/-- The same with v registers: sources `vs`, destinations `vd`. -/
def FreeV (xs xd : List (BitVec 5)) (vs vd : List (BitVec 4)) (s : State) : Prop := s.me.gate ⟨xs, xd, vs, vd, []⟩ = .go

/-- The same with k destinations. -/
def FreeK (xs : List (BitVec 5)) (vs : List (BitVec 4)) (kd : List (BitVec 3)) (s : State) : Prop :=
  s.me.gate ⟨xs, [], vs, [], kd⟩ = .go

/-- A lane-wise instruction: the active lanes of vd, `w` bits wide, are `f`'s, the others `old`'s; the flags of the active
lanes are added to `fstat`; no other register and nothing outside the context changes (R192, R75, R76). -/
structure Lanes (s t : State) (vd : BitVec 4) (w n : Nat) (g : Guard) (old : VecBits) (f : Nat → Nat × Flags) : Prop where
  lane : ∀ i, i < 512 / w → laneOf (t.me.getV vd) w i = if s.me.active g i then (f i).1 % 2 ^ w else laneOf old w i
  others : ∀ r, r ≠ vd → t.me.getV r = s.me.getV r
  flags : t.me.fstat = (List.range (512 / w)).foldl
    (fun a i => if s.me.active g i then a ||| (f i).2.bits.zeroExtend 12 else a) s.me.fstat
  retires : Retires s t [] [] n (s.me.pcNow + 4) { s.me with v := t.me.v, fstat := t.me.fstat }
  only : OnlyMe s t

end Sys2Proof.Machine
end

