-- ==== Sys2Proof/Certificates/Slice0/Obligations.lean ====
section
/-! DEFINITION. The statements for the provers: what the rules of the manual say of the machine. -/

open Sys2Proof Sys2Proof.Machine

/-- R330, R376, R344: the register group, the multiplications and the divisions complete, with the value each rule gives and no
other effect than that of a plain instruction. R331, R369, R335: the immediate group, LUI and AUIPC complete with the values the
rules give. It says where these complete: lui, auipc, addi, slti, sltiu, xori, ori, andi, slli, srli, srai, add, sub, sll, slt,
sltu, xor, srl, sra, or, and, mul, mulh, mulhsu, mulhu, div, divu, rem, remu. -/
def Obligations.IntegerGroups : Prop :=
  (∀ xd xs1 xs2 : BitVec 5,
   let gives (i : Instr) (n : Nat) (f : Word → Word → Word) : Prop :=
     Completes i (Free [xs1, xs2] [xd]) fun s t =>
       Computes s t [xs1, xs2] xd n (s.me.pcNow + 4) (f (s.me.getX xs1) (s.me.getX xs2)) s.me
   gives (.add xd xs1 xs2) 4 (fun a b => a + b) ∧
   gives (.sub xd xs1 xs2) 4 (fun a b => a - b) ∧
   gives (.sll xd xs1 xs2) 4 (fun a b => a <<< (b.toNat % 64)) ∧
   gives (.slt xd xs1 xs2) 4 (fun a b => if a.toInt < b.toInt then 1 else 0) ∧
   gives (.sltu xd xs1 xs2) 4 (fun a b => if a.toNat < b.toNat then 1 else 0) ∧
   gives (.xor xd xs1 xs2) 4 (fun a b => a ^^^ b) ∧
   gives (.srl xd xs1 xs2) 4 (fun a b => a >>> (b.toNat % 64)) ∧
   gives (.sra xd xs1 xs2) 4 (fun a b => a.sshiftRight (b.toNat % 64)) ∧
   gives (.or xd xs1 xs2) 4 (fun a b => a ||| b) ∧
   gives (.and xd xs1 xs2) 4 (fun a b => a &&& b) ∧
   gives (.mul xd xs1 xs2) 6 (fun a b => BitVec.ofInt 64 (a.toInt * b.toInt)) ∧
   gives (.mulh xd xs1 xs2) 6 (fun a b => BitVec.ofInt 64 (a.toInt * b.toInt / 2 ^ 64)) ∧
   gives (.mulhsu xd xs1 xs2) 6 (fun a b => BitVec.ofInt 64 (a.toInt * (b.toNat : Int) / 2 ^ 64)) ∧
   gives (.mulhu xd xs1 xs2) 6 (fun a b => BitVec.ofInt 64 ((a.toNat : Int) * (b.toNat : Int) / 2 ^ 64)) ∧
   gives (.div xd xs1 xs2) 20 (fun a b => if b = 0 then -1 else BitVec.ofInt 64 (a.toInt.tdiv b.toInt)) ∧
   gives (.divu xd xs1 xs2) 20 (fun a b => if b = 0 then -1 else BitVec.ofNat 64 (a.toNat / b.toNat)) ∧
   gives (.rem xd xs1 xs2) 20 (fun a b => if b = 0 then a else BitVec.ofInt 64 (a.toInt - b.toInt * a.toInt.tdiv b.toInt)) ∧
   gives (.remu xd xs1 xs2) 20 (fun a b => if b = 0 then a else BitVec.ofNat 64 (a.toNat % b.toNat))) ∧
  (∀ (xd xs1 : BitVec 5) (imm : BitVec 12) (sh : BitVec 6) (up : BitVec 20),
   let gives (i : Instr) (f : Word → Word) : Prop :=
     Completes i (Free [xs1] [xd]) fun s t => Computes s t [xs1] xd 4 (s.me.pcNow + 4) (f (s.me.getX xs1)) s.me
   let upper : Word := (up ++ (0 : BitVec 12)).signExtend 64
   gives (.addi xd xs1 imm) (fun a => a + imm.signExtend 64) ∧
   gives (.slti xd xs1 imm) (fun a => if a.toInt < imm.toInt then 1 else 0) ∧
   gives (.sltiu xd xs1 imm) (fun a => if a.toNat < (imm.signExtend 64).toNat then 1 else 0) ∧
   gives (.xori xd xs1 imm) (fun a => a ^^^ imm.signExtend 64) ∧
   gives (.ori xd xs1 imm) (fun a => a ||| imm.signExtend 64) ∧
   gives (.andi xd xs1 imm) (fun a => a &&& imm.signExtend 64) ∧
   gives (.slli xd xs1 sh) (fun a => a <<< sh.toNat) ∧
   gives (.srli xd xs1 sh) (fun a => a >>> sh.toNat) ∧
   gives (.srai xd xs1 sh) (fun a => a.sshiftRight sh.toNat) ∧
   Completes (.lui xd up) (Free [] [xd]) (fun s t => Computes s t [] xd 4 (s.me.pcNow + 4) upper s.me) ∧
   Completes (.auipc xd up) (Free [] [xd]) (fun s t => Computes s t [] xd 4 (s.me.pcNow + 4) (s.me.pcNow + upper) s.me))

/-- R344: DIV, DIVU, REM and REMU, with the results of the table for a divisor of 0 and for the one overflow, and otherwise the
truncated quotient and its remainder; each is occupied for 20 cycles, raises no cause and sets no flag (it issues, or waits for
its registers); and their words. It says where these complete: div, divu, rem, remu. -/
def Obligations.Divisions : Prop :=
  (∀ xd xs1 xs2 : BitVec 5,
    let gives (i : Instr) (f : Word → Word → Word) : Prop :=
      Completes i (Free [xs1, xs2] [xd]) (fun s t =>
        Computes s t [xs1, xs2] xd 20 (s.me.pcNow + 4) (f (s.me.getX xs1) (s.me.getX xs2)) s.me) ∧
      ∀ s, ¬Free [xs1, xs2] [xd] s → ∃ t, exec i s = .next t ∧ t.me.fstat = s.me.fstat ∧ t.here.recs = s.here.recs ∧
        t.here.monitor = s.here.monitor ∧ (t.me.state = s.me.state ∨ t.me.state = .parked) ∧ t.me.pcNow = s.me.pcNow ∧
        ∀ r, t.me.getX r = s.me.getX r
    let least : Word := 0x8000000000000000
    gives (.div xd xs1 xs2) (fun a b => if b = 0 then -1 else if a = least ∧ b = -1 then least
      else BitVec.ofInt 64 (a.toInt.tdiv b.toInt)) ∧
    gives (.divu xd xs1 xs2) (fun a b => if b = 0 then -1 else BitVec.ofNat 64 (a.toNat / b.toNat)) ∧
    gives (.rem xd xs1 xs2) (fun a b => if b = 0 then a else if a = least ∧ b = -1 then 0
      else BitVec.ofInt 64 (a.toInt - b.toInt * a.toInt.tdiv b.toInt)) ∧
    gives (.remu xd xs1 xs2) (fun a b => if b = 0 then a
      else BitVec.ofNat 64 (a.toNat - b.toNat * (a.toNat / b.toNat)))) ∧
  encode (.div 5 6 7) = some 0x027342B3 ∧ encode (.divu 5 6 7) = some 0x027352B3 ∧
  encode (.rem 5 6 7) = some 0x027362B3 ∧ encode (.remu 5 6 7) = some 0x027372B3

/-- R369: LUI writes the sign-extended upper immediate and does not trap (it issues, or waits for its register); and its words.
It says where these complete: lui. -/
def Obligations.UpperImmediate : Prop :=
  (∀ (xd : BitVec 5) (up : BitVec 20),
    Completes (.lui xd up) (Free [] [xd]) (fun s t =>
      Computes s t [] xd 4 (s.me.pcNow + 4) ((up ++ (0 : BitVec 12)).signExtend 64) s.me) ∧
    ∀ s, ¬Free [] [xd] s → ∃ t, exec (.lui xd up) s = .next t ∧ t.me.fstat = s.me.fstat ∧ t.here.recs = s.here.recs ∧
      t.here.monitor = s.here.monitor ∧ (t.me.state = s.me.state ∨ t.me.state = .parked) ∧ t.me.pcNow = s.me.pcNow ∧
      ∀ r, t.me.getX r = s.me.getX r) ∧
  encode (.lui 5 4) = some 0x000042B7 ∧ encode (.lui 3 0xFF000) = some 0xFF0001B7

/-- R339: a branch that is taken goes to its target, one that is not taken to the next instruction, and neither writes a
register; a taken branch to a target that is not a multiple of 4 raises cause 0x03 with the target instead (R40). R358, R359:
JAL and JALR write the address of the next instruction and go to their target; a target that is not a multiple of 4 raises cause
0x03 with the target and writes nothing (R40). It says where these complete: jal, jalr, beq, bne, blt, bge, bltu, bgeu. -/
def Obligations.ControlTransfers : Prop :=
  (∀ (xs1 xs2 : BitVec 5) (imm : BitVec 12),
   let off : Word := (imm ++ (0 : BitVec 1)).signExtend 64
   let gives (i : Instr) (taken : Word → Word → Prop) : Prop := ∀ s, Free [xs1, xs2] [] s →
     let a := s.me.getX xs1
     let b := s.me.getX xs2
     let target := s.me.pcNow + off
     (¬taken a b → ∃ t, exec i s = .next t ∧ Retires s t [xs1, xs2] [] 4 (s.me.pcNow + 4) s.me ∧ OnlyMe s t) ∧
     (taken a b → target.toNat % 4 = 0 →
       ∃ t, exec i s = .next t ∧ Retires s t [xs1, xs2] [] 4 target s.me ∧ OnlyMe s t) ∧
     (taken a b → target.toNat % 4 ≠ 0 → exec i s = .next (s.trap 0x03 target))
   gives (.beq xs1 xs2 imm) (fun a b => a = b) ∧
   gives (.bne xs1 xs2 imm) (fun a b => a ≠ b) ∧
   gives (.blt xs1 xs2 imm) (fun a b => a.toInt < b.toInt) ∧
   gives (.bge xs1 xs2 imm) (fun a b => b.toInt ≤ a.toInt) ∧
   gives (.bltu xs1 xs2 imm) (fun a b => a.toNat < b.toNat) ∧
   gives (.bgeu xs1 xs2 imm) (fun a b => b.toNat ≤ a.toNat)) ∧
  (∀ (xd xs1 : BitVec 5) (i20 : BitVec 20) (imm : BitVec 12),
   let gives (i : Instr) (xs : List (BitVec 5)) (target : State → Word) : Prop := ∀ s, Free xs [xd] s →
     ((target s).toNat % 4 = 0 →
       ∃ t, exec i s = .next t ∧ Computes s t xs xd 4 (target s) (s.me.pcNow + 4) s.me) ∧
     ((target s).toNat % 4 ≠ 0 → exec i s = .next (s.trap 0x03 (target s)))
   gives (.jal xd i20) [] (fun s => s.me.pcNow + (i20 ++ (0 : BitVec 1)).signExtend 64) ∧
   gives (.jalr xd xs1 imm) [xs1] (fun s => (s.me.getX xs1 + imm.signExtend 64) &&& ~~~1))

/-- R364, R365, R122, R123: a load whose address is aligned and allowed, with room in its counter and log, issues: its request
is in flight, ld has risen, its destination is not written yet, and nothing else has changed. A misaligned address raises cause
0x03 and one that is not allowed cause 0x04, with the address; without room the context parks. R385, R386, R122, R123: a store
whose address is aligned and allowed, with room in its counter and log, issues: its request, with the low bytes of its source in
little-endian order, is in flight, st has risen, and no byte of memory has changed yet. A misaligned address raises cause 0x03
and one that is not allowed cause 0x04; without room the context parks. It says where these complete: lb, lh, lw, ld, lbu, lhu,
lwu, sb, sh, sw, sd. -/
def Obligations.LoadStoreIssue : Prop :=
  (∀ (xd xs1 : BitVec 5) (imm : BitVec 12),
   let gives (i : Instr) (w : Nat) (signed : Bool) : Prop := ∀ s, Free [xs1] [xd] s →
     let a := s.me.getX xs1 + imm.signExtend 64
     let logged := s.translated s.cur.1 a
     (a.toNat % w ≠ 0 → exec i s = .next (s.trap 0x03 a)) ∧
     (a.toNat % w = 0 → s.checkAccess s.cur.1 s.cur.2 false .scalar w a = false → exec i s = .next (s.trap 0x04 a)) ∧
     (a.toNat % w = 0 → s.checkAccess s.cur.1 s.cur.2 false .scalar w a = true →
       (s.me.RoomFor true false false false logged →
         ∃ t, exec i s = .next t ∧
           Sends s t [xs1] (s.me.mkReq (.load signed) w 0 (s.me.dstX xd) [⟨a, w, 0, false, []⟩] logged) 1 0) ∧
       (¬s.me.RoomFor true false false false logged → ∃ r, exec i s = .next (s.parkMe r)))
   gives (.lb xd xs1 imm) 1 true ∧ gives (.lh xd xs1 imm) 2 true ∧ gives (.lw xd xs1 imm) 4 true ∧
   gives (.ld xd xs1 imm) 8 false ∧ gives (.lbu xd xs1 imm) 1 false ∧ gives (.lhu xd xs1 imm) 2 false ∧
   gives (.lwu xd xs1 imm) 4 false) ∧
  (∀ (xs2 xs1 : BitVec 5) (imm : BitVec 12),
   let gives (i : Instr) (w : Nat) : Prop := ∀ s, Free [xs1, xs2] [] s →
     let a := s.me.getX xs1 + imm.signExtend 64
     let v := s.me.getX xs2
     let logged := s.translated s.cur.1 a
     (a.toNat % w ≠ 0 → exec i s = .next (s.trap 0x03 a)) ∧
     (a.toNat % w = 0 → s.checkAccess s.cur.1 s.cur.2 true .scalar w a = false → exec i s = .next (s.trap 0x04 a)) ∧
     (a.toNat % w = 0 → s.checkAccess s.cur.1 s.cur.2 true .scalar w a = true →
       (s.me.RoomFor false true false false logged →
         ∃ t, exec i s = .next t ∧
           Sends s t [xs1, xs2]
             (s.me.mkReq (s.storeKind s.cur.1 a) w v .none
               [⟨a, w, 0, false, (List.range w).map fun i => v.extractLsb' (8 * i) 8⟩] logged) 0 1) ∧
       (¬s.me.RoomFor false true false false logged → ∃ r, exec i s = .next (s.parkMe r)))
   gives (.sb xs2 xs1 imm) 1 ∧ gives (.sh xs2 xs1 imm) 2 ∧ gives (.sw xs2 xs1 imm) 4 ∧ gives (.sd xs2 xs1 imm) 8)

/-- R193, R364, R366: a scalar load that may be performed reads the bytes at its place, sign-extends or zero-extends them into
its destination, and lowers ld. No byte of memory and no other register changes. The buffer has room for the line (R159), and no
grant of the context holds the load back (R171). R193, R407, R409: an element of a vector load that may be performed is read at
its place; with the last one every active lane is written in one step and ld falls. The lanes that no element loads, every other
register and memory stay, and before the last one no register changes. R193, R387, R171, R122: an element of a store that may be
performed, to a word whose FIFO is empty or has the element at its head, is written at its place: the bytes of the element and
no other byte of memory change; with the last element st falls and the request leaves. Where the FIFO of its word is not empty
and another entry is its head, no byte changes. R118, R151, R408: a vector store of one line to the v area of a register window
is written one aligned 8-byte word at a time: the step of any of its bytes writes all eight bytes of the word, and no other byte
of the line or of memory. It says where these complete: loadComplete, storePerformed. -/
def Obligations.LoadStorePerformed : Prop :=
  (∀ (t : TileNo) (c : CtxNo) (n k : Nat) (s : State) (q : Req) (e : Elem)
     (es : List Elem) (signed : Bool) (p : Place) (hv sysat : Bool) (r : BitVec 5) (sync : Bool),
   s.req t c n = some q → q.phase = .issued → q.kind = .load signed → q.elems = e :: es → q.dst = .x r sync →
   (∀ q' ∈ (s.ctx t c).reqs, q'.seq = q.seq → q' = q) →
   s.mayPerform t c q [e] = true → s.reach t (s.tag t c) true false e.addr = .place p hv sysat →
   s.poisoned p = false → s.holds t c p.word8 = false → s.RoomAt p →
   ∃ u, exec (.loadComplete t c n k) s = .next u ∧
     (let v := leNat (s.readPlaces p e.size)
      let k := s.ctx t c
      let k' := u.ctx t c
      (r ≠ 0 → k'.getX r =
         if signed ∧ 2 ^ (8 * e.size) ≤ 2 * v then BitVec.ofInt 64 ((v : Int) - 2 ^ (8 * e.size)) else BitVec.ofNat 64 v) ∧
      (∀ x, x ≠ r → k'.getX x = k.getX x) ∧
      k'.ld = k.ld - 1 ∧ k'.reqs = k.reqs.filter (fun q' => q'.seq != q.seq) ∧
      k'.pc = k.pc ∧ k'.v = k.v ∧ k'.k = k.k ∧ k'.fstat = k.fstat ∧ k'.state = k.state) ∧
     OnlyCtx s u t c ∧ SameMemory s u) ∧
  (∀ (t : TileNo) (c : CtxNo) (n k : Nat) (s : State) (q : Req) (e : Elem) (p : Place)
     (hv sysat : Bool) (r : BitVec 4),
   s.req t c n = some q → q.phase = .issued → q.kind = .vload → q.dst = .v r → q.elems[k]? = some e → e.done = false →
   (∀ q' ∈ (s.ctx t c).reqs, q'.seq = q.seq → q' = q) →
   s.mayPerform t c q [e] = true → s.reach t (s.tag t c) true false e.addr = .place p hv sysat →
   s.poisoned p = false → s.holds t c p.word8 = false → s.RoomAt p →
   let es := setNth k { e with done := true, bytes := s.readPlaces p e.size } q.elems
   let byte (v : VecBits) (b : Nat) : Byte := v.extractLsb' (8 * b) 8
   ∃ u, exec (.loadComplete t c n k) s = .next u ∧
     ((∃ e' ∈ es, e'.done = false) →
       (u.ctx t c).v = (s.ctx t c).v ∧ (u.ctx t c).ld = (s.ctx t c).ld ∧
       { q with elems := es } ∈ (u.ctx t c).reqs) ∧
     ((∀ e' ∈ es, e'.done = true) →
       (∀ e' ∈ es, e'.pos + e'.bytes.length ≤ 64) →
       es.Pairwise (fun a b => a.pos + a.bytes.length ≤ b.pos ∨ b.pos + b.bytes.length ≤ a.pos) →
       (∀ e' ∈ es, ∀ i < e'.bytes.length, byte ((u.ctx t c).getV r) (e'.pos + i) = e'.bytes.getD i 0) ∧
       (∀ b < 64, (∀ e' ∈ es, b < e'.pos ∨ e'.pos + e'.bytes.length ≤ b) →
         byte ((u.ctx t c).getV r) b = byte ((s.ctx t c).getV r) b) ∧
       (∀ r', r' ≠ r → (u.ctx t c).getV r' = (s.ctx t c).getV r') ∧
       (u.ctx t c).ld = (s.ctx t c).ld - 1 ∧ (u.ctx t c).reqs = (s.ctx t c).reqs.filter (fun q' => q'.seq != q.seq)) ∧
     (u.ctx t c).x = (s.ctx t c).x ∧ (u.ctx t c).k = (s.ctx t c).k ∧ (u.ctx t c).pc = (s.ctx t c).pc ∧
     (u.ctx t c).fstat = (s.ctx t c).fstat ∧ OnlyCtx s u t c ∧ SameMemory s u) ∧
  (∀ (t : TileNo) (c : CtxNo) (n k : Nat) (s : State) (q : Req) (e : Elem)
     (p : Place) (hv sysat : Bool),
   s.LinesOk → s.req t c n = some q → q.phase = .issued → (q.kind = .store ∨ q.kind = .vstore) →
   (∀ q' ∈ (s.ctx t c).reqs, q'.seq = q.seq → q' = q) →
   q.elems[k]? = some e → e.done = false → s.mayPerform t c q [e] = true →
   (∀ l ∈ q.elems.take k, l.done = true ∨ s.elemsMeet t (s.tag t c) l e = false) →
   s.reach t (s.tag t c) false true e.addr = .place p hv sysat → (s.poisoned p = false ∨ q.covers e.addr = true) →
   (∀ i < e.bytes.length, (p.add i).stored = true ∧ (p.add i).word8 = p.word8) → q.together s.part t k = [k] → s.RoomAt p →
   ∃ u, exec (.storePerformed t c n k) s = .next u ∧
     ((s.home p.word8).fifo = [] ∨ (s.home p.word8).fifo.head? = some (storeEntry t c q e) →
       (∀ i < e.bytes.length, u.readPlace (p.add i) = e.bytes.getD i 0) ∧
       (∀ p' : Place, p'.data → (∀ i < e.bytes.length, p' ≠ p.add i) → u.readPlace p' = s.readPlace p') ∧
       ((q.elems.take k ++ q.elems.drop (k + 1)).all (·.done) = true →
         (u.ctx t c).st = (s.ctx t c).st - 1 ∧ (u.ctx t c).reqs = (s.ctx t c).reqs.filter (fun q' => q'.seq != q.seq))) ∧
     ((s.home p.word8).fifo ≠ [] → (s.home p.word8).fifo.head? ≠ some (storeEntry t c q e) → SameMemory s u)) ∧
  (∀ (t o : TileNo) (c : CtxNo) (n k w : Nat) (s : State) (q : Req) (a : Word)
     (self : Bool) (f : Nat → Byte),
   s.req t c n = some q → q.phase = .issued → q.kind = .vstore → (∀ q' ∈ (s.ctx t c).reqs, q'.seq = q.seq → q' = q) →
   q.elems = (List.range 64).map (fun i => ⟨a + BitVec.ofNat 64 i, 1, i, false, [f i]⟩) → k < 64 → a.toNat % 64 = 0 →
   target s.part t a = .chip o (0x120000 + w) self → w < 0x10000 → 0x100 ≤ w % 0x1000 → w % 0x1000 < 0x500 →
   (∀ e ∈ q.elems, s.mayPerform t c q [e] = true) → (s.home (.window o (w + k / 8 * 8))).fifo = [] →
   ∃ u, exec (.storePerformed t c n k) s = .next u ∧
     (∀ i < 64, u.readPlace (.window o (w + i)) = if i / 8 = k / 8 then f i else s.readPlace (.window o (w + i))) ∧
     (u.ctx t c).st = (s.ctx t c).st ∧ SameMemory s u)

/-- R332, R333, R169, R122, R123, R383: an atomic operation and QSIG whose address passes the checks, with room in their counter
and log, issue: the request, with its operand and its aq and rl bits, is in flight, and nothing else has changed. An address
that fails a check raises that check's cause with the address. It says where these complete: amoswap, amoadd, amoxor, amoand,
amoor, amomin, amomax, amominu, amomaxu, qsig. -/
def Obligations.AtomicIssue : Prop := ∀ (xd xs1 xs2 : BitVec 5) (wide aq rl : BitVec 1),
  let gives (i : Instr) (xds : List (BitVec 5)) (kind : ReqKind) (w ld st : Nat) (dst : State → Dst) (a' r' : Bool) : Prop :=
    ∀ s, Free [xs1, xs2] xds s →
      let a := s.me.getX xs1
      let logged := s.translated s.cur.1 a
      (∀ cause, s.atomicCheck w a = some cause → exec i s = .next (s.trap cause a)) ∧
      (s.atomicCheck w a = none → s.me.RoomFor (ld == 1) (st == 1) false false logged →
        ∃ t, exec i s = .next t ∧
          Sends s t [xs1, xs2]
            { s.me.mkReq kind w (s.me.getX xs2) (dst s) [⟨a, w, 0, false, []⟩] logged with aq := a', rl := r' } ld st) ∧
      (s.atomicCheck w a = none → ¬s.me.RoomFor (ld == 1) (st == 1) false false logged → ∃ r, exec i s = .next (s.parkMe r))
  let amo (i : Instr) (op : AmoOp) : Prop :=
    gives i [xd] (.amo op) (if wide = 0 then 4 else 8) 1 0 (fun s => s.me.dstX xd) (aq == 1) (rl == 1)
  amo (.amoswap xd xs1 xs2 wide aq rl) .swap ∧ amo (.amoadd xd xs1 xs2 wide aq rl) .add ∧
  amo (.amoxor xd xs1 xs2 wide aq rl) .xor ∧ amo (.amoand xd xs1 xs2 wide aq rl) .and ∧
  amo (.amoor xd xs1 xs2 wide aq rl) .or ∧ amo (.amomin xd xs1 xs2 wide aq rl) .min ∧
  amo (.amomax xd xs1 xs2 wide aq rl) .max ∧ amo (.amominu xd xs1 xs2 wide aq rl) .minu ∧
  amo (.amomaxu xd xs1 xs2 wide aq rl) .maxu ∧
  gives (.qsig xs1 xs2) [] .qsig 8 0 1 (fun _ => .none) false true

/-- R367, R368, R170: LR sends its request and gives up the grant held before. SC with the grant on its word writes 0 and sends
the release; without it SC writes 1 and makes no access; with a grant whose translation has W = 0 it raises cause 0x06. That an
SC with a grant waits at issue for the accesses that come before its release, and for an own write that waits behind the grant,
is read from the manual by inference (log 12). It says where these complete: lr, sc. -/
def Obligations.ReservationIssue : Prop := ∀ (xd xs1 xs2 : BitVec 5) (wide aq rl : BitVec 1) (s : State),
  let a := s.me.getX xs1
  let w := if wide = 0 then 4 else 8
  let logged := s.translated s.cur.1 a
  let sc := exec (.sc xd xs1 xs2 wide aq rl) s
  let mine (g : Grant) : Prop := s.me.grant = some g ∧ s.wordAt s.cur.1 s.cur.2 a = some g.word
  let word : Elem := ⟨BitVec.ofNat 64 (a.toNat / 8 * 8), 8, 0, false, []⟩
  let behind := s.me.reqs.any fun q => q.kind.rights.2 && q.pending.any (s.elemsMeet s.cur.1 (s.tag s.cur.1 s.cur.2) word)
  let release (g : Grant) : Req :=
    { s.me.mkReq .sc w (s.me.getX xs2) .none [Elem.one a w (leBytes w (s.me.getX xs2).toNat)] logged with
      seq := g.seq, phase := .granted 0, aq := aq == 1, rl := rl == 1 }
  (Free [xs1] [xd] s → s.atomicCheck w a = none → s.me.RoomFor true false false false logged →
    ∃ t q, exec (.lr xd xs1 wide aq rl) s = .next t ∧ q.kind = .lr ∧ q.elems = [⟨a, w, 0, false, []⟩] ∧
      q.dst = s.me.dstX xd ∧ q.aq = (aq == 1) ∧ q.rl = (rl == 1) ∧ q.phase = .issued ∧
      t.me.grant = none ∧ t = ({ s with homes := t.homes } : State).setMe t.me ∧ SameMemory s t ∧
      Retires s t [xs1] [] 4 (s.me.pcNow + 4) { s.me.sent q 1 0 with grant := none } ∧
      ∀ g, s.me.grant = some g → ∀ h ∈ t.homes, h.word = g.word → ∀ e ∈ h.fifo,
        ¬((e.tile, e.ctx) = s.cur ∧ e.seq = g.seq ∧ e.granted = true)) ∧
  (Free [xs1, xs2] [xd] s → s.atomicCheck w a = none →
    (∀ g, mine g → g.writable = false → sc = .next (s.trap 0x06 a)) ∧
    (∀ g, mine g → g.writable = true → s.me.RoomFor false true false false logged →
      (behind = false → s.mayPerform s.cur.1 s.cur.2 (release g) (release g).elems = true →
        ∃ t q, sc = .next t ∧ q.kind = .sc ∧ q.seq = g.seq ∧ q.phase = .granted 0 ∧ q.data = s.me.getX xs2 ∧
          Computes s t [xs1, xs2] xd 4 (s.me.pcNow + 4) 0
            { s.me with reqs := s.me.reqs ++ [q], st := s.me.st + 1, grant := none }) ∧
      (behind = true ∨ s.mayPerform s.cur.1 s.cur.2 (release g) (release g).elems = false → sc = .next s.holdMe)) ∧
    ((∀ g, ¬mine g) → s.me.RoomFor false true false false false →
      ∃ t q, sc = .next t ∧ q.kind = .sc ∧ q.elems = [] ∧ q.phase = .applied 1 ∧ t.me.getX xd = (if xd = 0 then 0 else 1) ∧
        Retires s t [xs1, xs2] [xd] 4 (s.me.pcNow + 4) { s.me.sent q 0 1 with grant := none } ∧
        t = ({ s with homes := t.homes } : State).setMe t.me ∧ SameMemory s t)) ∧
  (∀ cause, s.atomicCheck w a = some cause →
    (Free [xs1] [xd] s → exec (.lr xd xs1 wide aq rl) s = .next (s.trap cause a)) ∧
    (Free [xs1, xs2] [xd] s → sc = .next (s.trap cause a)))

/-- R169 to R173, R332: an atomic request that may be performed joins the FIFO of its word's home and waits; the head of a FIFO
is granted the word's value, of which LR takes its element, sign-extended; the release of an AMO or AMODR, of a QSIG or a
barrier's increment, and of an SC (R146, R128, R367) writes the new element, leaves the FIFO and is kept against duplicates, and
a late cause that waited for it is delivered (R302); and the acknowledgement writes the old element, sign-extended, and an
AMODR's extended by its ETYPE (R230, R236), to xd and lowers ld. A request that the home still keeps as applied is dropped. No
other byte of memory changes. It says where these complete: amoRequest, amoGrant, amoRelease, amoAck. -/
def Obligations.AtomicSteps : Prop := ∀ (t : TileNo) (c : CtxNo) (n : Nat) (s : State) (q : Req) (e : Elem) (es : List Elem),
  s.req t c n = some q → (∀ q' ∈ (s.ctx t c).reqs, q'.seq = q.seq → q' = q) → q.elems = e :: es →
  (∀ p hv sysat, q.phase = .issued → q.kind.atomic = true → s.mayPerform t c q [e] = true →
    s.reach t (s.tag t c) q.kind.rights.1 q.kind.rights.2 e.addr = .place p hv sysat → s.poisoned p = false →
    s.fifoFull p.word8 = false → s.RoomAt p →
    ((s.home p.word8).recorded (t, c, q.seq) s.time = true → exec (.amoRequest t c n) s = .next s) ∧
    ((s.home p.word8).recorded (t, c, q.seq) s.time = false →
    ∃ u f, exec (.amoRequest t c n) s = .next u ∧ f.tile = t ∧ f.ctx = c ∧ f.seq = q.seq ∧ f.granted = false ∧
      (u.home p.word8).fifo = (s.home p.word8).fifo ++ [f] ∧ (∃ q' ∈ (u.ctx t c).reqs, q'.seq = q.seq ∧ q'.phase = .queued) ∧
      OnlyCtx s u t c ∧ SameMemory s u)) ∧
  (∀ h f rest, q.phase = .queued → s.homeOf t c q.seq = some h → h.fifo = f :: rest → f.tile = t → f.ctx = c →
    f.seq = q.seq → s.poisoned h.word = false → s.RoomAt h.word →
    let v := leWord (s.readPlaces h.word 8)
    (q.kind ≠ .lr → ∃ u, exec (.amoGrant t c n) s = .next u ∧
      (∃ q' ∈ (u.ctx t c).reqs, q'.seq = q.seq ∧ q'.phase = .granted v) ∧ OnlyCtx s u t c ∧ SameMemory s u) ∧
    (∀ r sync, q.kind = .lr → q.dst = .x r sync → (q.size = 8 ∨ q.size = 4) → e.addr.toNat % q.size = 0 →
      (s.ctx t c).state ≠ .ending →
      let old := v.toNat / 2 ^ (8 * (e.addr.toNat % 8)) % 2 ^ (8 * q.size)
      ∃ u, exec (.amoGrant t c n) s = .next u ∧ (r ≠ 0 → (u.ctx t c).getX r = (BitVec.ofNat (8 * q.size) old).signExtend 64) ∧
        (u.ctx t c).grant = some ⟨h.word, q.seq, f.writable, s.time⟩ ∧ (u.ctx t c).ld = (s.ctx t c).ld - 1 ∧
        OnlyCtx s u t c ∧ SameMemory s u)) ∧
  (∀ h v new, s.LinesOk → q.phase = .granted v → s.homeOf t c q.seq = some h → q.size ≤ 8 →
    (∀ i < q.size, (h.word.add (e.addr.toNat % 8 + i)).stored = true ∧
      (h.word.add (e.addr.toNat % 8 + i)).word8 = h.word) → s.RoomAt h.word →
    let p := h.word.add (e.addr.toNat % 8)
    let old := v.toNat / 2 ^ (8 * (e.addr.toNat % 8)) % 2 ^ (8 * q.size)
    let opd := q.data.toNat % 2 ^ (8 * q.size)
    ((∃ op, q.kind = .amo op ∧ new = op.apply q.size old opd) ∨ (∃ d, q.kind = .amodr d ∧ new = (s.amodrNew d q old).1) ∨
      ((q.kind = .qsig ∨ q.kind = .barrier) ∧ new = (old + opd) % 2 ^ 64) ∨
      (q.kind = .sc ∧ new = opd)) →
    ∃ u : State, exec (.amoRelease t c n) s = .next (u.deliverLate t c) ∧ (u.ctx t c).late = (s.ctx t c).late ∧
      ((s.ctx t c).late = [] → u.deliverLate t c = u) ∧
      (∀ i < q.size, u.readPlace (p.add i) = BitVec.ofNat 8 (new / 2 ^ (8 * i))) ∧
      (∀ p' : Place, p'.data → (∀ i < q.size, p' ≠ p.add i) → u.readPlace p' = s.readPlace p') ∧
      (∃ q' ∈ (u.ctx t c).reqs, q'.seq = q.seq ∧ q'.phase = .applied v) ∧
      (u.home h.word).fifo = h.fifo.filter (fun f => !(f.tile == t && f.ctx == c && f.seq == q.seq && f.granted)) ∧
      ((t, c, q.seq), s.time) ∈ (u.home h.word).applied) ∧
  (∀ v d r sync, q.phase = .applied v → q.kind = .amodr d → q.dst = .x r sync →
    let old := v.toNat / 2 ^ (8 * (e.addr.toNat % 8)) % 2 ^ (8 * q.size)
    ∃ u, exec (.amoAck t c n) s = .next u ∧ (r ≠ 0 → (u.ctx t c).getX r = laneWord d.ty old) ∧
      (∀ x, x ≠ r → (u.ctx t c).getX x = (s.ctx t c).getX x) ∧ (u.ctx t c).ld = (s.ctx t c).ld - 1 ∧
      OnlyCtx s u t c ∧ SameMemory s u) ∧
  (∀ v op r sync, q.phase = .applied v → q.kind = .amo op → q.dst = .x r sync → q.size = 4 ∨ q.size = 8 →
    let old := v.toNat / 2 ^ (8 * (e.addr.toNat % 8)) % 2 ^ (8 * q.size)
    ∃ u, exec (.amoAck t c n) s = .next u ∧ (r ≠ 0 → (u.ctx t c).getX r = (BitVec.ofNat (8 * q.size) old).signExtend 64) ∧
      (∀ x, x ≠ r → (u.ctx t c).getX x = (s.ctx t c).getX x) ∧ (u.ctx t c).ld = (s.ctx t c).ld - 1 ∧
      (u.ctx t c).reqs = (s.ctx t c).reqs.filter (fun q' => q'.seq != q.seq) ∧ OnlyCtx s u t c ∧ SameMemory s u)

/-- R181, R182, R346 to R348: a fence with an empty set, or whose earlier accesses in its domain are performed, ends; the others
park. FENCE orders loads and stores at PACKAGE scope by its sets, and FENCE.TSO by both. PAUSE has no effect. FENCE.I ends when
no store or card of the context to the I-store is outstanding, and then no context of the tile fetches an older byte any more,
whoever stored the newer one, where R127 and R347 speak of the context's own stores: the model's choice (log 3), as are the 4
cycles that FENCE.I then occupies its context (log 61); until then it occupies its context and takes no slot. R125, R217, R170,
R396, R417: WAITC ends when every counter it names is at most its field, where 31 is no constraint; TSLEEP when loom time has
reached its source; WRS at once without a grant, or when the home has no free watcher entry. Else the context parks, and a WRS
gives its grant up. The 4 cycles of a WAITC that does not park are the model's choice (log 61). It says where these complete:
fence, waitc, tsleep, fencex, fenceTso, pause, fenceI, wrsNto, wrsSto. -/
def Obligations.FencesAndWaits : Prop :=
  (∀ (sc : Scope) (pred succ : BitVec 4) (s : State),
   let gives (i : Instr) (sc : Scope) (p q : BitVec 4) : Prop :=
     let ends := p = 0 ∨ q = 0 ∨ s.fenceClear s.cur.1 s.cur.2 sc p = true
     (ends → ∃ t, exec i s = .next t ∧ Retires s t [] [] 4 (s.me.pcNow + 4) { s.me with fences := t.me.fences } ∧ OnlyMe s t) ∧
     (¬ends → exec i s = .next (s.parkMe (.fence sc p)))
   let set (x : BitVec 4) : BitVec 4 :=
     (0 : BitVec 2) ++ BitVec.ofBool (x.getLsbD 2 || x.getLsbD 0) ++ BitVec.ofBool (x.getLsbD 3 || x.getLsbD 1)
   gives (.fencex sc pred succ) sc pred succ ∧
   gives (.fence pred succ) .package (set pred) (set succ) ∧
   gives .fenceTso .package 3 3 ∧
   (∃ t, exec .pause s = .next t ∧ Retires s t [] [] 4 (s.me.pcNow + 4) s.me ∧ OnlyMe s t) ∧
   (s.istoreBusy s.cur.1 s.cur.2 = false →
     ∃ t, exec .fenceI s = .next t ∧ (∀ c, (t.ctx s.cur.1 c).stale = []) ∧ SameMemory s t ∧
       Retires s t [] [] 4 (s.me.pcNow + 4) { s.me with stale := [] }) ∧
   (s.istoreBusy s.cur.1 s.cur.2 = true → exec .fenceI s = .next (s.modMe fun k => { k with held := true, fencing := true }))) ∧
  (∀ (ld st cp mx xs1 : BitVec 5) (s : State),
   let ok (n : Nat) (f : BitVec 5) : Prop := f = 31 ∨ n ≤ f.toNat
   let met := ok s.me.ld ld ∧ ok s.me.st st ∧ ok s.me.cp cp ∧ ok s.me.mx mx
   let plain (i : Instr) (xs : List (BitVec 5)) : Prop :=
     ∃ t, exec i s = .next t ∧ Retires s t xs [] 4 (s.me.pcNow + 4) s.me ∧ OnlyMe s t
   let parks (i : Instr) (r : Reason) : Prop := exec i s = .next (s.parkMe r)
   (met → plain (.waitc ld st cp mx) []) ∧
   (¬met → parks (.waitc ld st cp mx) (.waitc ld st cp mx)) ∧
   (Free [xs1] [] s → (s.me.getX xs1).toNat ≤ s.time → plain (.tsleep xs1) [xs1]) ∧
   (Free [xs1] [] s → s.time < (s.me.getX xs1).toNat → s.me.woken = false → parks (.tsleep xs1) (.sleep (s.me.getX xs1))) ∧
   (∀ (i : Instr) (limit : Bool), (i = .wrsNto ∧ limit = false) ∨ (i = .wrsSto ∧ limit = true) →
     ((s.me.grant = none ∨ ∃ g, s.me.grant = some g ∧ 16 ≤ s.atUnit g.word (·.watchers.length)) → plain i []) ∧
     (∀ g, s.me.grant = some g → s.atUnit g.word (·.watchers.length) < 16 → s.me.woken = false →
       ∃ t, exec i s = .next t ∧ t.me.grant = none ∧ t.me.state = .parked ∧ t.me.pcNow = s.me.pcNow ∧
         (∃ p, t.me.park = some p ∧ p.reason = .wrs limit) ∧ s.cur ∈ (t.home g.word).watchers ∧ SameMemory s t)))

/-- R26, R298, R299, R294, R345: an undecodable word raises cause 0x01 with the word, a fetch outside the I-store cause 0x14
with the PC, ECALL cause 0x0E and EBREAK cause 0x0F. A cause of a task context takes no other effect: the context is HELD with
its PC at the instruction; where no record is served or pending and no FENCE.I occupies context 0 (whose boundary is its end:
read from the manual by inference, log 69), `tcause`, `tval` and `tctx` name it, context 0 runs the monitor at `tvec` with x4 =
MBASE in supervisor mode, and else the record waits. No register of the context (x4 of context 0 apart) and no byte of memory
changes. While the release of a granted AMO of the context is to be sent, the instruction waits (R169). It says where these
complete: illegalInstruction, ecall, ebreak, fetchOutsideTheIstore. -/
def Obligations.Traps : Prop := ∀ (s : State) (w : InstWord),
  exec (.illegalInstruction w) s = .next (s.trap 0x01 (w.zeroExtend 64)) ∧
  exec .fetchOutsideTheIstore s = .next (s.trap 0x14 s.me.pcNow) ∧
  exec .ecall s = .next (s.trap 0x0E 0) ∧
  exec .ebreak s = .next (s.trap 0x0F 0) ∧
  ∀ (cause : BitVec 8) (v : Word), s.me.sup = false → s.here.quarantined = false → s.me.posted = none →
    (s.me.amoHeld = true → s.trap cause v = s.holdMe) ∧ (s.me.amoHeld = false →
    let t := s.trap cause v
    let c := s.cur.2
    let enters := s.here.monitor = false ∧ s.here.recs = [] ∧ (c ≠ 0 → (s.here.ctx 0).fencing = false)
    SameMemory s t ∧
    (if c = 0 ∧ s.here.monitor = false ∧ s.here.recs = [] then t.me.under else t.me.state) = .held ∧
    t.me.pc = s.me.pc ∧ t.me.v = s.me.v ∧ t.me.k = s.me.k ∧ t.me.fstat = s.me.fstat ∧ t.me.full = s.me.full ∧
    (∀ r, r ≠ 4 ∨ c ≠ 0 → t.me.getX r = s.me.getX r) ∧
    (enters →
      t.here.monitor = true ∧ t.here.tcause = cause.zeroExtend 64 ∧ t.here.tval = v ∧ t.here.tctx = c.zeroExtend 64 ∧
      t.here.tseq = 0 ∧ (t.ctx s.cur.1 0).sup = true ∧ (t.ctx s.cur.1 0).state = .ready ∧
      (t.ctx s.cur.1 0).monPc = (s.here.tvec &&& 0xFFFC) ∧ (t.ctx s.cur.1 0).getX 4 = s.here.mbase) ∧
    (¬enters →
      t.here.recs = s.here.recs ++ [⟨false, cause, v, 0, s.me.pc, 1, c⟩] ∧ t.here.tcause = s.here.tcause))

/-- R46, R62, R130, R298, R341: a CSR instruction reads the CSR into xd and writes its new value, in one step. A number that
names no CSR, or a write to a read-only one, raises cause 0x01, and a supervisor CSR in task mode cause 0x02, each with the
instruction word; the model takes cause 0x02 before its register gate, and reads a synchronised source, and clears its full bit,
before the CSR; both are log 44. A field that a write does not reach keeps its value. It says where these complete: csrrw,
csrrs, csrrc, csrrwi, csrrsi, csrrci. -/
def Obligations.Csrs : Prop := ∀ (xd xs1 uimm : BitVec 5) (csr : BitVec 12) (s : State),
  let n := csr.toNat
  let gives (i : Instr) (xs : List (BitVec 5)) (reads writes : Bool) (new : Word → Word) : Prop :=
    let bad := csrExists n = false ∨ (writes = true ∧ 0xC00 ≤ n)
    let denied := 0x5C0 ≤ n ∧ n ≤ 0x5C8 ∧ s.me.sup = false
    let old := (s.setMe (s.me.consume xs)).csrRead n
    let v := new old
    (bad → exec i s = .next (s.trap 0x01 (wordOf i))) ∧
    (¬bad → denied → exec i s = .next (s.trap 0x02 (wordOf i))) ∧
    (¬bad → ¬denied → Free xs (if reads then [xd] else []) s →
      ∃ t, exec i s = .next t ∧ SameMemory s t ∧ t.me.pcNow = s.me.pcNow + 4 ∧
        (reads = true → t.me.getX xd = if xd = 0 then 0 else old) ∧
        (∀ r, (reads = true → r ≠ xd) → t.me.getX r = s.me.getX r) ∧
        (let put {α : Type} (k : Nat) (f : State → α) (new : α) : Prop :=
           (writes = true → n = k → f t = new) ∧ (writes = false ∨ n ≠ k → f t = f s)
         put 0x800 (·.me.qmode) (v.extractLsb' 0 8) ∧
         put 0x802 (·.me.frnd) (v.extractLsb' 0 4 &&& 0b1011) ∧
         put 0x803 (·.me.fstat) (v.extractLsb' 0 12 &&& 0xF1F) ∧
         put 0x804 (·.me.livemask) (v.extractLsb' 0 24 &&& 0xFFFFFE) ∧
         put 0x805 (·.me.pstat) (v.extractLsb' 0 16 &&& 0x0707) ∧
         put 0x806 (·.me.pwatch) (if 10 ≤ v.toNat % 64 ∧ v.toNat % 64 ≤ 40 then v.toNat % 64 else s.me.pwatch) ∧
         put 0x5C0 (·.me.macc) (v.extractLsb' 0 4) ∧
         put 0x5C1 (·.here.ocperm) (v.extractLsb' 0 12) ∧
         put 0x5C7 (·.here.tvec) (v &&& 0xFFFC) ∧
         put 0x5C8 (·.here.tctx) ((s.here.tctx &&& 0xF) ||| (v &&& 0x300)) ∧
         (n = 0x801 → writes = true → ∀ r, 24 ≤ r.toNat → (reads = true → r ≠ xd) →
           t.me.isFull r = v.getLsbD (r.toNat - 24)) ∧
         (n = 0x5C5 → writes = true → (t.ctx s.cur.1 (BitVec.ofNat 4 (s.here.tctx.toNat % 16))).pc = v) ∧
         t.me.v = s.me.v ∧ t.me.k = s.me.k ∧ t.me.reqs = s.me.reqs ∧ t.me.ld = s.me.ld ∧ t.me.st = s.me.st))
  gives (.csrrw xd csr xs1) [xs1] (xd != 0) true (fun _ => s.me.getX xs1) ∧
  gives (.csrrs xd csr xs1) [xs1] true (xs1 != 0) (fun o => o ||| s.me.getX xs1) ∧
  gives (.csrrc xd csr xs1) [xs1] true (xs1 != 0) (fun o => o &&& ~~~s.me.getX xs1) ∧
  gives (.csrrwi xd csr uimm) [] (xd != 0) true (fun _ => uimm.zeroExtend 64) ∧
  gives (.csrrsi xd csr uimm) [] true (uimm != 0) (fun o => o ||| uimm.zeroExtend 64) ∧
  gives (.csrrci xd csr uimm) [] true (uimm != 0) (fun o => o &&& ~~~(uimm.zeroExtend 64))

/-- R401, R402, R192, R75, R76: the lane-wise instructions of format V write the active lanes of vd alone, from the lanes of
their sources as read at issue, add the flags of the active lanes to `fstat`, and are occupied for 8 cycles, or 24 for the
divisions, square roots and functions. That VMIN, VMAX and VCLAMP of one signalling NaN give the other operand is R77 as the
model reads it beside R402, by inference (log 62), and that VEXP2, VLOG2 and VRSQRT of a narrow lane give the flags of both
roundings is its choice (log 72). It says where these complete: vadd, vsub, vmul, vfma, vmin, vmax, vabs, vneg, vclamp, vand,
vor, vxor, vshl, vshr, vdiv, vsqrt, vexp2, vlog2, vrsqrt. -/
def Obligations.LaneWise : Prop := ∀ (ty : Ty) (vd vs1 vs2 : BitVec 4) (g : Guard),
  let w := Ty.width ty
  let gives (i : Instr) (vs : List (BitVec 4)) (n : Nat) (f : Rm → Nat → Nat → Nat → Nat × Flags) : Prop :=
    Completes i (FreeV [] [] vs [vd]) fun s t =>
      Lanes s t vd w n g (s.me.getV vd) fun i =>
        f s.me.mode (laneOf (s.me.getV vs1) w i) (laneOf (s.me.getV vs2) w i) (laneOf (s.me.getV vd) w i)
  let bitwise (f : Nat → Nat → Nat) (_ : Rm) (a b _ : Nat) : Nat × Flags := (f a b, Flags.none)
  gives (.vadd ty vd vs1 vs2 g) [vs1, vs2] 8 (fun m a b _ => laneAdd ty m a b) ∧
  gives (.vsub ty vd vs1 vs2 g) [vs1, vs2] 8 (fun m a b _ => laneSub ty m a b) ∧
  gives (.vmul ty vd vs1 vs2 g) [vs1, vs2] 8 (fun m a b _ => laneMul ty m a b) ∧
  gives (.vfma ty vd vs1 vs2 g) [vs1, vs2] 8 (fun m a b c => laneFma ty m a b c) ∧
  gives (.vmin ty vd vs1 vs2 g) [vs1, vs2] 8 (fun _ a b _ => laneMin ty a b) ∧
  gives (.vmax ty vd vs1 vs2 g) [vs1, vs2] 8 (fun _ a b _ => laneMax ty a b) ∧
  gives (.vabs ty vd vs1 g) [vs1] 8 (fun _ a _ _ => laneAbs ty a) ∧
  gives (.vneg ty vd vs1 g) [vs1] 8 (fun _ a _ _ => laneNeg ty a) ∧
  gives (.vclamp ty vd vs1 vs2 g) [vs1, vs2] 8 (fun _ a b c => laneClamp ty a b c) ∧
  gives (.vand ty vd vs1 vs2 g) [vs1, vs2] 8 (bitwise fun a b => a &&& b) ∧
  gives (.vor ty vd vs1 vs2 g) [vs1, vs2] 8 (bitwise fun a b => a ||| b) ∧
  gives (.vxor ty vd vs1 vs2 g) [vs1, vs2] 8 (bitwise fun a b => a ^^^ b) ∧
  gives (.vshl ty vd vs1 vs2 g) [vs1, vs2] 8 (bitwise fun a b => a * 2 ^ (b % w)) ∧
  gives (.vshr ty vd vs1 vs2 g) [vs1, vs2] 8
    (bitwise fun a b => if Ty.signed ty then ofInt ty (toInt ty a / 2 ^ (b % w)) else a / 2 ^ (b % w)) ∧
  gives (.vdiv ty vd vs1 vs2 g) [vs1, vs2] 24 (fun m a b _ => fDiv ty m a b) ∧
  gives (.vsqrt ty vd vs1 g) [vs1] 24 (fun m a _ _ => fSqrt ty m a) ∧
  gives (.vexp2 ty vd vs1 g) [vs1] 24 (fun _ a _ _ => laneFun exp2 ty a) ∧
  gives (.vlog2 ty vd vs1 g) [vs1] 24 (fun _ a _ _ => laneFun log2F ty a) ∧
  gives (.vrsqrt ty vd vs1 g) [vs1] 24 (fun _ a _ _ => laneFun rsqrt ty a)

/-- R413, R414: VSEL writes every lane, of vs1 where the guard is active and of vs2 elsewhere; VSLIDE moves the lanes of vs1
down by n, with zero bits from beyond the top, into the active lanes; both move bits and set no flag, for every type; and their
words. It says where these complete: vslide, vsel. -/
def Obligations.LaneSelection : Prop :=
  (∀ (ty : Ty) (vd vs1 vs2 n : BitVec 4) (g : Guard),
    let w := Ty.width ty
    let m := Ty.lanes ty
    (.vsel ty vd vs1 vs2 g : Instr).WellFormed ∧ (.vslide ty vd vs1 n g : Instr).WellFormed ∧
    Completes (.vsel ty vd vs1 vs2 g) (FreeV [] [] [vs1, vs2] [vd]) (fun s t =>
      Lanes s t vd w 8 g (s.me.getV vs2) fun i => (laneOf (s.me.getV vs1) w i, Flags.none)) ∧
    Completes (.vslide ty vd vs1 n g) (FreeV [] [] [vs1] [vd]) (fun s t =>
      Lanes s t vd w 8 g (s.me.getV vd) fun i =>
        (if i + n.toNat < m then laneOf (s.me.getV vs1) w (i + n.toNat) else 0, Flags.none))) ∧
  (∀ s : State, ∀ i < 64, s.me.active ⟨0, 0⟩ i = true ∧ s.me.active ⟨0, 1⟩ i = false) ∧
  encode (.vsel .f16 9 2 1 ⟨2, 1⟩) = some 0x7B092C8B ∧ encode (.vslide .n32 2 1 8 Guard.none) = some 0x72C0810B

/-- R406, R411, R413, R414, R412: conversions, permutations, selections, slides and reductions write the lanes the rules name
and add the flags of the active lanes to `fstat`. R404: VBCAST writes the low bits of an x register to the active lanes, VEXT
reads and VINS writes one 64-bit chunk. It says where these complete: vslide, vsel, vcvt, vred, vperm, vbcast, vext, vins. -/
def Obligations.LaneAndScalarMoves : Prop :=
  (∀ (ty dt : Ty) (vd vs1 vs2 n : BitVec 4) (rop : RedOp) (g : Guard),
   let w := Ty.width ty
   let m := Ty.lanes ty
   Completes (.vcvt ty dt vd vs1 g) (FreeV [] [] [vs1] [vd]) (fun s t =>
     Lanes s t vd (Ty.width dt) 8 g (s.me.getV vd) fun i =>
       if i < m then convert ty dt s.me.mode s.me.np (laneOf (s.me.getV vs1) w i)
       else (laneOf (s.me.getV vd) (Ty.width dt) i, Flags.none)) ∧
   Completes (.vperm ty vd vs1 vs2 g) (FreeV [] [] [vs1, vs2] [vd]) (fun s t =>
     Lanes s t vd w 8 g (s.me.getV vd) fun i =>
       (laneOf (s.me.getV vs1) w (laneOf (s.me.getV vs2) w i % m), Flags.none)) ∧
   Completes (.vsel ty vd vs1 vs2 g) (FreeV [] [] [vs1, vs2] [vd]) (fun s t =>
     Lanes s t vd w 8 g (s.me.getV vs2) fun i => (laneOf (s.me.getV vs1) w i, Flags.none)) ∧
   Completes (.vslide ty vd vs1 n g) (FreeV [] [] [vs1] [vd]) (fun s t =>
     Lanes s t vd w 8 g (s.me.getV vd) fun i =>
       (if i + n.toNat < m then laneOf (s.me.getV vs1) w (i + n.toNat) else 0, Flags.none)) ∧
   Completes (.vred ty vd vs1 rop g) (FreeV [] [] [vs1] [vd]) (fun s t =>
     laneOf (t.me.getV vd) w 0 = (s.me.reduce ty rop vs1 g).1 % 2 ^ w ∧
     (∀ i, 0 < i → i < m → laneOf (t.me.getV vd) w i = laneOf (s.me.getV vd) w i) ∧
     (∀ r, r ≠ vd → t.me.getV r = s.me.getV r) ∧
     t.me.fstat = s.me.fstat ||| (s.me.reduce ty rop vs1 g).2.bits.zeroExtend 12 ∧
     Retires s t [] [] 8 (s.me.pcNow + 4) { s.me with v := t.me.v, fstat := t.me.fstat } ∧ OnlyMe s t)) ∧
  (∀ (wd : Width) (vd vs1 : BitVec 4) (xd xs1 xs2 : BitVec 5) (g : Guard),
   let w := Width.bits wd
   Completes (.vbcast wd vd xs1 g) (FreeV [xs1] [] [] [vd]) (fun s t =>
     (∀ i, i < 512 / w → laneOf (t.me.getV vd) w i =
       if s.me.active g i then (s.me.getX xs1).toNat % 2 ^ w else laneOf (s.me.getV vd) w i) ∧
     (∀ r, r ≠ vd → t.me.getV r = s.me.getV r) ∧
     Retires s t [xs1] [] 4 (s.me.pcNow + 4) { s.me with v := t.me.v } ∧ OnlyMe s t) ∧
   Completes (.vext xd vs1 xs1) (FreeV [xs1] [xd] [vs1] []) (fun s t =>
     Computes s t [xs1] xd 4 (s.me.pcNow + 4)
       (BitVec.ofNat 64 (laneOf (s.me.getV vs1) 64 ((s.me.getX xs1).toNat % 8))) s.me) ∧
   Completes (.vins vd xs1 xs2) (FreeV [xs1, xs2] [] [] [vd]) (fun s t =>
     (∀ i, i < 8 → laneOf (t.me.getV vd) 64 i =
       if i = (s.me.getX xs2).toNat % 8 then (s.me.getX xs1).toNat else laneOf (s.me.getV vd) 64 i) ∧
     (∀ r, r ≠ vd → t.me.getV r = s.me.getV r) ∧
     Retires s t [xs1, xs2] [] 4 (s.me.pcNow + 4) { s.me with v := t.me.v } ∧ OnlyMe s t))

/-- R362, R405, R50: the mask group and VCMP write the bits of a mask register that the guard makes active, and k0 discards what
is written to it; VCMP leaves the bits above its lanes, and in its dual form writes the inverse to the other mask. It says where
these complete: vcmp, kmovx, kmovk, kpop, kop. -/
def Obligations.Masks : Prop := ∀ (op : KOp) (pred : Pred) (ty : Ty) (kd ka kb : BitVec 3) (dual : BitVec 1)
    (vs1 vs2 : BitVec 4) (xd xs1 : BitVec 5) (g : Guard),
  let w := Ty.width ty
  let apply (a b : Bool) : Bool :=
    match op with | .and => a && b | .or => a || b | .xor => a != b | .andn => a && !b
  let bit (s t : State) (r : BitVec 3) (f : Nat → Bool) : Prop :=
    (r ≠ 0 → ∀ i, i < 64 → (t.me.getK r).getLsbD i = if s.me.active g i then f i else (s.me.getK r).getLsbD i)
  Completes (.kop op kd ka kb g) (FreeK [] [] [kd]) (fun s t =>
    bit s t kd (fun i => apply ((s.me.getK ka).getLsbD i) ((s.me.getK kb).getLsbD i)) ∧
    (∀ r, r ≠ kd → t.me.getK r = s.me.getK r) ∧ t.me.getK 0 = -1 ∧
    Retires s t [] [] 4 (s.me.pcNow + 4) { s.me with k := t.me.k } ∧ OnlyMe s t) ∧
  Completes (.kmovk kd xs1 g) (FreeK [xs1] [] [kd]) (fun s t =>
    bit s t kd (fun i => (s.me.getX xs1).getLsbD i) ∧ (∀ r, r ≠ kd → t.me.getK r = s.me.getK r) ∧ t.me.getK 0 = -1 ∧
    Retires s t [xs1] [] 4 (s.me.pcNow + 4) { s.me with k := t.me.k } ∧ OnlyMe s t) ∧
  Completes (.kmovx xd ka) (Free [] [xd]) (fun s t => Computes s t [] xd 4 (s.me.pcNow + 4) (s.me.getK ka) s.me) ∧
  Completes (.kpop xd ka g) (Free [] [xd]) (fun s t =>
    Computes s t [] xd 4 (s.me.pcNow + 4)
      (BitVec.ofNat 64 ((List.range 64).countP fun i => s.me.active g i && (s.me.getK ka).getLsbD i)) s.me) ∧
  Completes (.vcmp pred ty kd dual vs1 vs2 g) (FreeK [] [vs1, vs2] (if dual = 1 then [kd, kd ^^^ 1] else [kd])) (fun s t =>
    let r (i : Nat) := laneCmp ty pred (laneOf (s.me.getV vs1) w i) (laneOf (s.me.getV vs2) w i)
    bit s t kd (fun i => if i < Ty.lanes ty then (r i).1 else (s.me.getK kd).getLsbD i) ∧
    (dual = 1 → bit s t (kd ^^^ 1) fun i => if i < Ty.lanes ty then !(r i).1 else (s.me.getK (kd ^^^ 1)).getLsbD i) ∧
    (∀ q, q ≠ kd → ¬(dual = 1 ∧ q = kd ^^^ 1) → t.me.getK q = s.me.getK q) ∧ t.me.getK 0 = -1 ∧
    t.me.fstat = (List.range (Ty.lanes ty)).foldl
      (fun a i => if s.me.active g i then a ||| (r i).2.bits.zeroExtend 12 else a) s.me.fstat ∧
    Retires s t [] [] 8 (s.me.pcNow + 4) { s.me with k := t.me.k, fstat := t.me.fstat } ∧ OnlyMe s t)

/-- R193, R407, R123: a vector load or store whose active elements are aligned and allowed, with room in its counter and log,
issues one request of its active elements, lowest first, at the addresses of its form; no register of v and no byte of memory
has changed yet. The first element that is misaligned raises cause 0x03 and one that is not allowed cause 0x04; of a line whose
base is misaligned that is its lowest active byte (read from the manual by inference, log 13). It says where these complete:
vld, vldsB, vldsH, vldsW, vldxB, vldxH, vldxW, vst, vstsB, vstsH, vstsW, vstxB, vstxH, vstxW. -/
def Obligations.VectorMemory : Prop := ∀ (v : BitVec 4) (xs1 xs2 off : BitVec 5) (vs2 : BitVec 4) (g : Guard),
  let elems (s : State) (w : Nat) (addr : Nat → Word) (data : Nat → List Byte) : List Elem :=
    ((List.range (64 / w)).filter fun i => s.me.active g i).map fun i => ⟨addr i, w, i * w, false, data i⟩
  let gives (i : Instr) (load : Bool) (w align : Nat) (whole : Bool) (xs : List (BitVec 5)) (vs : List (BitVec 4))
      (base : State → Option Word) (addr : State → Nat → Word) : Prop := ∀ s,
    FreeV xs [] (if load then vs else v :: vs) (if load then [v] else []) s →
    let bytes (i : Nat) : List Byte :=
      if load then [] else (List.range w).map fun b => (s.me.getV v).extractLsb' (8 * (w * i + b)) 8
    let es := elems s w (addr s) bytes
    let logged := es.any fun e => s.translated s.cur.1 e.addr
    let aligned (e : Elem) : Prop := ((base s).getD e.addr).toNat % align = 0
    let allowed (e : Elem) : Prop := s.checkAccess s.cur.1 s.cur.2 (!load) (.vector whole) e.size e.addr = true
    ((∀ e ∈ es, aligned e ∧ allowed e) → s.me.RoomFor load (!load) false false logged →
      ∃ t q, exec i s = .next t ∧ q.kind = (if load then .vload else .vstore) ∧ q.elems = es ∧
        q.dst = (if load then .v v else .none) ∧ q.phase = .issued ∧ q.logged = logged ∧ q.seq = s.me.seq + 1 ∧
        q.num = s.me.num ∧ q.pc = s.me.pcNow ∧
        Retires s t xs [] 4 (s.me.pcNow + 4) (s.me.sent q (if load then 1 else 0) (if load then 0 else 1)) ∧ OnlyMe s t) ∧
    (∀ a e b, es = a ++ e :: b → (∀ x ∈ a, aligned x ∧ allowed x) →
      (¬aligned e → exec i s = .next (s.trap 0x03 e.addr)) ∧
      (aligned e → ¬allowed e → exec i s = .next (s.trap 0x04 e.addr)))
  let line (s : State) : Word := s.me.getX xs1 + off.signExtend 64 * 64
  let stride (s : State) (i : Nat) : Word := s.me.getX xs1 + BitVec.ofNat 64 i * s.me.getX xs2
  let index (w : Nat) (s : State) (i : Nat) : Word :=
    s.me.getX xs1 + BitVec.ofNat 64 (laneOf (s.me.getV vs2) (8 * w) i * w)
  let at1 (s : State) (i : Nat) : Word := line s + BitVec.ofNat 64 i
  let none' (_ : State) : Option Word := none
  gives (.vld v xs1 off g) true 1 64 true [xs1] [] (fun s => some (line s)) at1 ∧
  gives (.vst v xs1 off g) false 1 64 true [xs1] [] (fun s => some (line s)) at1 ∧
  gives (.vldsB v xs1 xs2 g) true 1 1 false [xs1, xs2] [] none' stride ∧
  gives (.vldsH v xs1 xs2 g) true 2 2 false [xs1, xs2] [] none' stride ∧
  gives (.vldsW v xs1 xs2 g) true 4 4 false [xs1, xs2] [] none' stride ∧
  gives (.vstsB v xs1 xs2 g) false 1 1 false [xs1, xs2] [] none' stride ∧
  gives (.vstsH v xs1 xs2 g) false 2 2 false [xs1, xs2] [] none' stride ∧
  gives (.vstsW v xs1 xs2 g) false 4 4 false [xs1, xs2] [] none' stride ∧
  gives (.vldxB v xs1 vs2 g) true 1 1 false [xs1] [vs2] none' (index 1) ∧
  gives (.vldxH v xs1 vs2 g) true 2 2 false [xs1] [vs2] none' (index 2) ∧
  gives (.vldxW v xs1 vs2 g) true 4 4 false [xs1] [vs2] none' (index 4) ∧
  gives (.vstxB v xs1 vs2 g) false 1 1 false [xs1] [vs2] none' (index 1) ∧
  gives (.vstxH v xs1 vs2 g) false 2 2 false [xs1] [vs2] none' (index 2) ∧
  gives (.vstxW v xs1 vs2 g) false 4 4 false [xs1] [vs2] none' (index 4)

/-- R194, R196, R390: TIDSET copies 32 bytes of the LS into an entry the context may name, and TIDGET reads one word of an
entry; an entry that it may not name raises cause 0x04 with the number, and a bad address cause 0x03 or 0x04. R102, R397: TSLOT
writes the four fields of a slot table entry (OWNER, V, PIN and LAUNCH), for the monitor alone; in task mode it raises cause
0x02, here before its register gate, which is the model's choice (log 44), as are the 4 cycles that TSLOT occupies its context
(log 61). It says where these complete: tidset, tidget, tslot. -/
def Obligations.TidAndSlotTables : Prop :=
  (∀ (xd xs1 xs2 : BitVec 5) (s : State),
   let n := (s.me.getX xs1).toNat % 256
   let a := s.me.getX xs2
   let off := a.toNat - 0xFFFFFFFFFF000000
   let word (i : Nat) : Word := leWord ((List.range 8).map fun b => s.readPlace (.ls s.cur.1 (off + 8 * i + b)))
   (Free [xs1, xs2] [] s →
     (s.tidAllowed s.cur.1 s.cur.2 n = false → exec (.tidset xs1 xs2) s = .next (s.trap 0x04 (BitVec.ofNat 64 n))) ∧
     (s.tidAllowed s.cur.1 s.cur.2 n = true →
       (a.toNat % 32 ≠ 0 → exec (.tidset xs1 xs2) s = .next (s.trap 0x03 a)) ∧
       (a.toNat % 32 = 0 → isLsAddr a = false → exec (.tidset xs1 xs2) s = .next (s.trap 0x04 a)) ∧
       (a.toNat % 32 = 0 → isLsAddr a = true → s.lsError a 32 = none →
         ∃ t, exec (.tidset xs1 xs2) s = .next t ∧ t.here.tid n = ⟨word 0, word 1, word 2, word 3⟩ ∧
           (∀ m, m ≠ n → t.here.tid m = s.here.tid m) ∧ SameMemory s t ∧
           t = (s.setMe t.me).modHere (fun tl => { tl with tids := t.here.tids, badTids := tl.badTids.filter (· != n) }) ∧
           Retires s t [xs1, xs2] [] 4 (s.me.pcNow + 4) s.me))) ∧
   (Free [xs1, xs2] [xd] s →
     (s.tidAllowed s.cur.1 s.cur.2 n = false → exec (.tidget xd xs1 xs2) s = .next (s.trap 0x04 (BitVec.ofNat 64 n))) ∧
     (s.tidAllowed s.cur.1 s.cur.2 n = true →
       ∃ t, exec (.tidget xd xs1 xs2) s = .next t ∧
         Computes s t [xs1, xs2] xd 4 (s.me.pcNow + 4)
           (match a.toNat % 4 with
            | 0 => (s.here.tid n).w0 | 1 => (s.here.tid n).w1 | 2 => (s.here.tid n).w2 | _ => (s.here.tid n).w3) s.me))) ∧
  (∀ (xs1 xs2 : BitVec 5) (s : State),
   let n := (s.me.getX xs1).toNat % 16
   (s.me.sup = false → exec (.tslot xs1 xs2) s = .next (s.trap 0x02 (wordOf (.tslot xs1 xs2)))) ∧
   (s.me.sup = true → Free [xs1, xs2] [] s → ∃ t, exec (.tslot xs1 xs2) s = .next t ∧
     Assoc.get 0 n t.here.slots = (s.me.getX xs2 &&& 0xF0F) ∧
     (∀ m, m ≠ n → Assoc.get 0 m t.here.slots = Assoc.get 0 m s.here.slots) ∧ SameMemory s t ∧
     t = (s.setMe t.me).modHere (fun tl => { tl with slots := t.here.slots }) ∧
     Retires s t [xs1, xs2] [] 4 (s.me.pcNow + 4) s.me))

/-- R371, R122, R123, R204: a matrix instruction on an accumulator that `macc` does not give raises cause 0x12 with its number;
one whose checks fail raises cause 0x0D with the first status; with room in mx the others take the next place in the unit's
order, with their operands as read at issue, and mx rises. Which of several failing checks is the first is the model's choice
(log 14), and so is TILEPITCH with DEPTH = 1 (log 70). No accumulator and no byte of memory has changed yet. It says where these
complete: mzero, mma, mmav, mmas, mread, mwrite. -/
def Obligations.MatrixIssue : Prop := ∀ (m : BitVec 2) (xs1 xs2 : BitVec 5) (s : State),
  let t := s.cur.1
  let c := s.cur.2
  let p (r : BitVec 5) : List (BitVec 5) := [r, r + 1]
  let a := s.pair xs1
  let b := s.pair xs2
  let mr := s.me.getX (xs1 + 2)
  let gives (i : Instr) (kind : MatKind) (xs : List (BitVec 5)) (vs : List (BitVec 4)) (b : Operand) (mr : Word)
      (status : Option Nat) : Prop :=
    FreeV xs [] vs [] s →
      (s.me.macc.getLsbD m.toNat = false → exec i s = .next (s.trap 0x12 (m.zeroExtend 64))) ∧
      (s.me.macc.getLsbD m.toNat = true →
        (∀ st, status = some st → exec i s = .next (s.trap 0x0D (jobVal (some m) st 0))) ∧
        (status = none → s.me.mx < 4 → ∃ u o, exec i s = .next u ∧
          o.ctx = c ∧ o.num = s.me.num ∧ o.kind = kind ∧ o.m = m ∧ o.a = a ∧ o.b = b ∧ o.mrec = mr ∧ o.started = none ∧
          o.job = none ∧ (kind = .mmav → o.vregs = (List.range 16).map fun r => s.me.getV (BitVec.ofNat 4 r)) ∧
          u = (s.setMe u.me).modHere (fun tl => { tl with mats := tl.mats ++ [o] }) ∧ SameMemory s u ∧
          Retires s u xs [] 4 (s.me.pcNow + 4) { s.me with mx := s.me.mx + 1 }) ∧
        (status = none → 4 ≤ s.me.mx → ∃ r, exec i s = .next (s.parkMe r)))
  gives (.mzero m xs1 xs2) .mzero (p xs1 ++ p xs2) [] b 0 (s.mzeroStatus t c a b) ∧
  gives (.mma m xs1 xs2) .mma (p xs1 ++ p xs2) [] b 0 (s.mmaStatus t c .mma a b 0) ∧
  gives (.mmav m xs1) .mmav (p xs1) ((List.range 16).map (BitVec.ofNat 4)) Operand.none 0
    (s.mmaStatus t c .mmav a Operand.none 0) ∧
  gives (.mmas m xs1 xs2) .mmas (p xs1 ++ [xs1 + 2] ++ p xs2) [] b mr (s.mmaStatus t c .mmas a b mr) ∧
  gives (.mread m xs1) .mread (p xs1) [] Operand.none 0 (s.mreadStatus t c a) ∧
  gives (.mwrite m xs1) .mwrite (p xs1) [] Operand.none 0 (s.mreadStatus t c a)

/-- R204, R205, R76, R86, R87: the matrix unit starts the first operation in its order, and ends it once its cycles have passed:
its accumulators are written, its flags are raised, mx falls, and it leaves the order. MZERO leaves every element of its
accumulator at significand 0 and exponent λ(A) + λ(B), and every other element as it was. An MREAD whose writes wait behind
others in the FIFOs of their words ends once they have been performed (R171). That an operation reads all its operands and
writes all its results in the one step at its end is the model's choice (log 49). It says where these complete: matrixOpStart,
matrixOpComplete. -/
def Obligations.MatrixSteps : Prop := ∀ (t : TileNo) (s : State) (o : MatOp) (rest : List MatOp),
  (s.tile t).mats = o :: rest →
  (o.started = none → o.kind ≠ .card → s.fenceHolds t o.ctx o.num 8 (o.reads ++ o.writes) = false →
    exec (.matrixOpStart t) s = .next (s.modTile t fun tl => { tl with mats := { o with started := some s.time } :: rest })) ∧
  (∀ b, o.started = some b → o.kind = .mzero → o.job = none → b + 8 ≤ s.time →
    o.posted = none → s.postedBy t (.matrix o.num) = false →
    ∃ u, exec (.matrixOpComplete t) s = .next u ∧ (u.tile t).mats = rest ∧
      (∀ i j, i < 32 → j < 32 →
        (u.tile t).accAt o.m i j = Acc.mk 0 (o.a.tid.lambda + o.b.tid.lambda)) ∧
      (∀ n, ¬(1024 * o.m.toNat ≤ n ∧ n < 1024 * (o.m.toNat + 1)) →
        Assoc.get 0#80 n (u.tile t).acc = Assoc.get 0#80 n (s.tile t).acc) ∧
      u.ctx t o.ctx = { s.ctx t o.ctx with mx := (s.ctx t o.ctx).mx - 1 }) ∧
  (∀ b s' fl inex, o.started = some b → o.kind ≠ .card → o.job = none → b + o.cycles (s.hub.actual == 1) ≤ s.time →
    o.posted = none → s.runMat t o = .done s' fl inex → s'.postedBy t (.matrix o.num) = false →
    exec (.matrixOpComplete t) s = .next
      (((s'.modTile t fun tl => { tl with mats := rest }).modCtx t o.ctx fun k => k.raiseMat o.m fl inex).modCtx t o.ctx
        fun k => { k with mx := k.mx - 1 })) ∧
  (∀ b fl inex, o.started = some b → o.kind ≠ .card → o.job = none → b + o.cycles (s.hub.actual == 1) ≤ s.time →
    o.posted = some (fl, inex) →
    (s.postedBy t (.matrix o.num) = true → exec (.matrixOpComplete t) s = .next s) ∧
    (s.postedBy t (.matrix o.num) = false → ∃ u, exec (.matrixOpComplete t) s = .next u ∧ (u.tile t).mats = rest ∧
      (u.ctx t o.ctx).mx = (s.ctx t o.ctx).mx - 1 ∧ SameMemory s u))

/-- R206, R210, R214 to R216, R239, R350, R418: an engine instruction whose checks pass, with room in cp (and mx, for XCOPYM),
queues one job card with its operands as read at issue, writes the new job number to xd, opens its record and raises its
counters; no byte of memory has changed yet. A TRIG card whose counter is at its threshold already fires at once (R395), and an
XCOPYM card also reads the destination as the operand that follows on (R206). A check that fails raises cause 0x0D with the
first status, and an address that is not allowed cause 0x04. The order of the checks, from which the first status follows, is
the model's choice (log 14), and so are cause 0x15 between two waits (log 44) and TILEPITCH with DEPTH = 1 (log 70). A
destination that is also a source named through a handle or a command word is tested when that source has been (R113, R114). It
says where these complete: fold, scan, zip, outer, xcopy, xfill, wenc, xcopym, trig. -/
def Obligations.CardIssue : Prop := ∀ (xd xs1 xs2 xs3 : BitVec 5) (s : State),
  let t := s.cur.1
  let c := s.cur.2
  let p (r : BitVec 5) : List (BitVec 5) := [r, r + 1]
  let a := s.pair xs1
  let d := s.pair xs2
  let w := s.me.getX xs3
  let before (extra : List (BitVec 5)) : List (BitVec 5) := if xd ∈ extra then [] else [xd]
  let gives (i : Instr) (kind : CardKind) (xs extra : List (BitVec 5)) (status : Option Nat) (reads writes : List (Nat × Nat))
      (what : Card → Prop) : Prop :=
    let all := xs ++ extra
    Free xs (before extra) s → Free all [xd] s →
      (∀ st, status = some st → exec i s = .next (s.trap 0x0D (jobVal none st 0))) ∧
      (status = none →
        (∀ x, s.cardRefusal t c reads writes = some x → exec i s = .next (s.trap 0x04 x)) ∧
        (s.cardRefusal t c reads writes = none → s.foreignDelivery t c writes = true →
          exec i s = .next (s.trap 0x0D (jobVal none 0x18 0))) ∧
        (s.cardRefusal t c reads writes = none → s.foreignDelivery t c writes = false →
          s.me.RoomFor false false true (kind == .xcopym) false → ∃ u k, exec i s = .next u ∧
            k.kind = kind ∧ k.ctx = c ∧ k.num = s.me.num ∧ k.dst = d ∧ k.reads = reads ∧ k.writes = writes ∧
            k.state = (if kind = .trig then (if s.trigMet t w then .armed else .unfired) else .queued) ∧ k.job = nextJob s.here.jobCtr ∧ what k ∧
            u.me.getX xd = (if xd = 0 then 0 else k.job.zeroExtend 64) ∧
            u = (s.setMe u.me).modHere (fun tl => { tl with jobCtr := k.job, cards := tl.cards ++ [k] }) ∧ SameMemory s u ∧
            Retires s u all [xd] 4 (s.me.pcNow + 4)
              { s.me.addJob k.job with
                  cp := s.me.cp + 1, mx := if kind = .xcopym then s.me.mx + 1 else s.me.mx }))
  let fp (o : Operand) : List (Nat × Nat) := o.footprint t a.tid.geo
  let hof (i : Instr) (kind : CardKind) : Prop :=
    let along := kind = .fold ∨ kind = .scan
    let b := if along then Operand.none else s.pair (xs1 + 2)
    let two := w.getLsbD 58 && xs3.toNat % 2 == 0
    let x := if two then s.me.getX (xs3 + 1) else 0
    let xs := (if along then p xs1 else p xs1 ++ p (xs1 + 2)) ++ p xs2 ++ [xs3]
    let extra := if two then [xs3 + 1] else []
    (Free xs (before extra) s → handleDraft w = true → s.part.heddle = false → exec i s = .next (s.trap 0x15 (wordOf i))) ∧
    ((handleDraft w = true → s.part.heddle = true) →
      gives i kind xs extra (s.hofStatus kind xs3 w (x.toNat / 2 ^ 32) a b d)
        (fp a ++ (if along then [] else b.footprint t b.tid.geo)) (d.footprint t d.tid.geo)
        (fun k => k.src = a ∧ k.src2 = b ∧ k.handle = w))
  gives (.xcopy xd xs1 xs2) .xcopy (p xs1 ++ p xs2) [] (s.copyStatus a d false) (fp a) (fp d)
    (fun k => k.src = a) ∧
  gives (.xfill xd xs1 xs2) .xfill (xs1 :: p xs2) []
    ((s.descStatus t c d d.tid.geo false false).orElse fun _ => if d.fmt = .weft8 ∨ d.fmt = .acc80 then some 0x11 else none)
    [] (d.footprint t d.tid.geo) (fun k => k.fill = s.me.getX xs1) ∧
  gives (.wenc xd xs1 xs2) .wenc (p xs1 ++ p xs2) []
    ((s.descStatus t c a a.tid.geo false).orElse fun _ => (s.descStatus t c d a.tid.geo false false).orElse fun _ =>
      if a.fmt ≠ .ty .e4 ∨ d.fmt ≠ .weft8 then some 0x11
      else if a.tid.geo.cols % 32 ≠ 0 then some 0x12
      else if anyMeet (fp a) (wencRanges t d a.tid.geo) then some 0x13 else none)
    (fp a) (wencRanges t d a.tid.geo) (fun k => k.src = a) ∧
  (cmdOk w = true → s.me.macc.getLsbD (w.toNat % 4) = true →
    let other := s.pair (w.extractLsb' 4 5)
    let x := if w.getLsbD 2 then other else d
    let y := if w.getLsbD 2 then d else other
    gives (.xcopym xd xs1 xs2 xs3) .xcopym (p xs1 ++ p xs2 ++ [xs3]) (p (w.extractLsb' 4 5))
      ((s.copyStatus a d true).orElse fun _ => (s.mmaStatus t c .mma x y 0).orElse fun _ =>
        if w.getLsbD 3 then s.mzeroStatus t c x y else none)
      (fp a ++ other.footprint t other.tid.geo ++ d.footprint t d.tid.geo) (fp d)
      (fun k => k.src = a ∧ k.cmd = w ∧ k.other = other)) ∧
  (Free (p xs1 ++ p xs2 ++ [xs3]) (before (p (w.extractLsb' 4 5))) s →
    (cmdOk w = false → exec (.xcopym xd xs1 xs2 xs3) s = .next (s.trap 0x0D (jobVal none 0x10 0))) ∧
    (cmdOk w = true → s.me.macc.getLsbD (w.toNat % 4) = false →
      exec (.xcopym xd xs1 xs2 xs3) s = .next (s.trap 0x12 (BitVec.ofNat 64 (w.toNat % 4))))) ∧
  gives (.trig xd xs1 xs2 xs3) .trig (p xs1 ++ p xs2 ++ [xs3]) []
    ((s.copyStatus a d false).orElse fun _ =>
      if w.toNat / 2 ^ 20 % 2 ^ 12 ≠ 0 ∨ w.toNat % 2 ^ 20 % 8 ≠ 0 then some 0x10 else none)
    (fp a) (fp d) (fun k => k.src = a ∧ k.cmd = w) ∧
  hof (.fold xd xs1 xs2 xs3) .fold ∧ hof (.scan xd xs1 xs2 xs3) .scan ∧ hof (.zip xd xs1 xs2 xs3) .zip ∧
  hof (.outer xd xs1 xs2 xs3) .outer

/-- R207, R208, R210, R216, R242: the scheduler releases a queued card that no older card overlaps and no fence holds, and one
for the matrix unit takes its place there, ahead of a later operation of its context that a fence holds (the model's choice, log
49); a TRIG card fires once its counter has reached its threshold, after the end of a card that wrote the counter (R184); an
engine whose turn it is accepts a scheduled card with a promise, which the record of the job shows. Which bytes the bound on a
promise counts is read from the manual by inference (log 29). It says where these complete: cardSchedule, engineAccept,
trigFire. -/
def Obligations.CardSteps : Prop := ∀ (t : TileNo) (j : BitVec 16) (e : BitVec 5) (p : Word) (s : State) (k : Card),
  (s.tile t).card j = some k →
  let put (k : Card) (l : List Card) : List Card := l.map fun x => if x.job == k.job then k else x
  let waits (k : Card) (o : MatOp) : Prop := o.started = none ∧ o.kind ≠ .card ∧ o.ctx = k.ctx ∧ k.num < o.num ∧
    (s.setCard t { k with state := .scheduled }).fenceHolds t o.ctx o.num 8 (o.reads ++ o.writes) = true
  (k.state = .queued → s.cardFree t k = true → ∃ u, exec (.cardSchedule t j) s = .next u ∧
    (u.tile t).cards = put { k with state := .scheduled } (s.tile t).cards ∧
    SameMemory s u ∧ (k.onMatrix = false → (u.tile t).mats = (s.tile t).mats) ∧
    (∀ a b, k.onMatrix = true → (s.tile t).mats = a ++ b → (∀ o ∈ a, ¬waits k o) → (∀ o ∈ b.head?, waits k o) →
      (u.tile t).mats = a ++ k.matOp :: b)) ∧
  (∀ v, v = leWord (Memory.readBytes (s.tile t).ls (k.cmd.toNat % 2 ^ 20) 8) →
    (k.state = .armed ∨ (k.state = .unfired ∧ k.cmd.toNat / 2 ^ 32 ≤ v.toNat)) →
    s.cardHolds (.ls t (k.cmd.toNat % 2 ^ 20)) = false → ∃ u, exec (.trigFire t j) s = .next u ∧
      (u.tile t).cards = put { k with state := .queued } (s.tile t).cards ∧ SameMemory s u) ∧
  (k.state = .scheduled → k.onMatrix = false → e.toNat < 24 → s.isNext t k = true → s.promiseOk t k p = true →
    ∃ u, exec (.engineAccept t j e p) s = .next u ∧
      (u.tile t).cards = put { k with state := .running, engine := e, promise := some p } (s.tile t).cards ∧
      (∀ r, r ∈ (u.ctx t k.ctx).jobs → r.job = j → r.promise = some p) ∧ SameMemory s u)

/-- R209, R211, R212, R213, R388, R420: an engine runs the units of a card; the last one ends it in one step: one word of the
completion log, the job's record done with its status and flags, cp lower. A refusal stops the card, which the monitor may
select, resume with a new promise or abort with status 0x2F; the copy of an XCOPYM, once it has landed, is followed by its
matrix operations. That the first completion takes entry 0 of the log is the model's choice (log 57), and that a stop for an
uncorrectable error in a table word sets the package error MEM (R327) is read from the manual by inference (log 23). R243, R244,
R212: a draft fault stops a card with status 0x28: no log entry, the job stays, and the context takes cause 0x08 with the
engine, the job, the element and the node in `tval`; DFAULT reads that value, DLINE the line and DPART the partial result that
the card had in hand. A line is t × ROWS + r, t × COLS + c or r × COLS + c for AXIS 0, 1 and 2, of a copy engine and of the
matrix unit alike. It says where these complete: cardCompletion, cardStop, xcopymFollowOn, jobctlSelect, jobctlResume,
jobctlAbort. -/
def Obligations.CardEnds : Prop :=
  (∀ (t : TileNo) (c : CtxNo) (j : BitVec 16) (n : Nat) (p : Word) (s : State) (k : Card),
   ((s.tile t).card j = some k → k.state = .running → k.onMatrix = false →
     (∀ i, exec (.cardCompletion t j ⟨n, i⟩) s = .next (s.runUnits t true i n k)) ∧
     (∀ i s' k' x, s.cardUnit t k i = (s', .finish k' x) → k'.kind ≠ .xcopym → k'.job = j →
       ∃ u, exec (.cardCompletion t j ⟨n + 1, i⟩) s = .next u ∧
         (u.tile t).ccount = (s'.tile t).ccount + 1 ∧
         Assoc.get 0 ((s'.tile t).ccount % 64) (u.tile t).clog =
           BitVec.ofNat 64 (k'.flags.toNat * 2 ^ 32 + x % 256 * 2 ^ 24 + k'.ctx.toNat * 2 ^ 16 + j.toNat) ∧
         (∀ d ∈ (u.tile t).cards, d.job ≠ j) ∧
         (∀ r ∈ (u.ctx t k'.ctx).jobs, r.job = j → r.done = true ∧ r.status = BitVec.ofNat 8 x ∧ r.flags = k'.flags) ∧
         (u.ctx t k'.ctx).cp = (s'.ctx t k'.ctx).cp - 1) ∧
     (∀ s' k' x a, s.cardUnit t k 0 = (s', .stop k' x a) → x ≠ 0x28 →
       let d := { k' with state := .stopped, status := BitVec.ofNat 8 x, refused := a }
       let u := (s'.setCard t d).modTile t fun tl => { tl with selected := some j, mats := tl.mats.filter (·.job != some j) }
       exec (.cardStop t j) s = .next ((u.walkFault t k'.queue (u.refusedWalk t d a)).late t k'.ctx
         ⟨0x0D, jobVal none x j.toNat, none, none, k'.sup⟩)) ∧
     (∀ s' k' x, k.kind = .xcopym → s.cardUnit t k 0 = (s', .finish k' x) →
       ∃ u os a b, exec (.xcopymFollowOn t j) s = .next u ∧ (s'.tile t).mats = a ++ b ∧ (u.tile t).mats = a ++ os ++ b ∧
         os.map (·.kind) = (if k'.cmd.getLsbD 3 then [.mzero, .mma] else [.mma]) ∧
         (∀ o ∈ os, o.job = some j ∧ o.m = k'.cmd.extractLsb' 0 2 ∧ o.ctx = k'.ctx))) ∧
   (∀ q o, s.jobctl t c n = some (q, o, 0, some k) →
     exec (.jobctlSelect t c n) s = .next ((s.modTile o fun tl => { tl with selected := some k.job }).endReq t c q id)) ∧
   (∀ q o, s.jobctl t c n = some (q, o, 1, some k) → s.promiseOk o k p = true → k.onMatrix = false →
     ∃ u, exec (.jobctlResume t c n p) s = .next u ∧
       (u.tile o).cards = (s.tile o).cards.map (fun x =>
         if x.job == k.job then
           { k with state := .running, promise := some p, status := 0, ahead := if k.kind = .scan then [] else k.ahead }
         else x) ∧ (u.tile o).selected = none ∧ SameMemory s u) ∧
   (∀ q o, s.jobctl t c n = some (q, o, 2, some k) →
     (s.postedBy o (.card k.job) = true → exec (.jobctlAbort t c n) s = .next s) ∧
     (s.postedBy o (.card k.job) = false → exec (.jobctlAbort t c n) s =
       .next (((s.endCard o k 0x2F).modTile o fun tl => { tl with selected := none }).endReq t c q id)))) ∧
  (∀ (t : TileNo) (j : BitVec 16) (s s' : State) (k d : Card) (a : Word),
   (s.tile t).card j = some k → k.state = .running → (k.onMatrix = true → (s.tile t).cardStarted j ≠ none) →
   s.cardUnit t k 0 = (s', .stop d 0x28 a) → d.job = j → ((s'.tile t).card j).isSome = true →
   let matrix := d.handle.toNat / 2 ^ 56 % 4 = 1
   let val : Word := BitVec.ofNat 64 ((if matrix then 0 else d.engine.toNat) * 2 ^ 58 + (if matrix then 1 else 0) * 2 ^ 56
     + j.toNat * 2 ^ 40 + d.elem % 2 ^ 32 * 2 ^ 8 + d.node.toNat)
   exec (.cardStop t j) s = .next
     ((((s'.setCard t { d with state := .stopped, status := 0x28, refused := a }).modTile t fun tl =>
       { tl with selected := some j, mats := tl.mats.filter (·.job != some j) }).walkFault t d.queue a).late t d.ctx
         ⟨0x08, val, none, none, d.sup⟩) ∧
   ∃ u, exec (.cardStop t j) s = .next u ∧ u.controlWord t 0x110 = val ∧
     u.controlWord t 0x118 = BitVec.ofNat 64 (d.line % 2 ^ 32) ∧ u.controlWord t 0x120 = BitVec.ofNat 64 (d.dpart % 2 ^ 32) ∧
     (u.tile t).ccount = (s'.tile t).ccount ∧ (u.tile t).clog = (s'.tile t).clog ∧
     (let g := d.src.tid.geo
      let axis := d.handle.toNat / 2 ^ 48 % 2 ^ 8
      ∀ l i, (axis = 0 → d.lineCoord l i = (l / g.rows, l % g.rows, i)) ∧ (axis = 1 → d.lineCoord l i = (l / g.cols, i, l % g.cols)) ∧
        (axis = 2 → d.lineCoord l i = (i, l / g.cols, l % g.cols))))

/-- R210, R360, R361: JTIME reads the record of a job as one word. JWAIT ends at a job that has no record or is done, waits for
the acceptance of one that has no promise, waits for the promise of one that is accepted, and raises cause 0x09 with the job
number when that promise has passed. It says where these complete: jtime, jwait. -/
def Obligations.JobWords : Prop := ∀ (xd xs1 : BitVec 5) (s : State),
  let j := (s.me.getX xs1).extractLsb' 0 16
  (Free [xs1] [xd] s → ∃ t, exec (.jtime xd xs1) s = .next t ∧
    Computes s t [xs1] xd 4 (s.me.pcNow + 4)
      (match s.me.job j with
       | none => 0x800000FF00000000
       | some r =>
         if r.done then BitVec.ofNat 64 (2 ^ 63 + r.flags.toNat * 2 ^ 40 + r.status.toNat * 2 ^ 32)
         else r.promise.getD 0x7FFFFFFFFFFFFFFF) s.me) ∧
  (Free [xs1] [] s →
    ((s.me.job j = none ∨ ∃ r, s.me.job j = some r ∧ r.done = true) →
      ∃ t, exec (.jwait xs1) s = .next t ∧ Retires s t [xs1] [] 4 (s.me.pcNow + 4) s.me ∧ OnlyMe s t) ∧
    (∀ r, s.me.job j = some r → r.done = false →
      (r.promise = none → exec (.jwait xs1) s = .next (s.parkMe (.accept j))) ∧
      (∀ q, r.promise = some q → s.time < q.toNat → exec (.jwait xs1) s = .next (s.parkMe (.promise j q))) ∧
      (∀ q, r.promise = some q → q.toNat ≤ s.time → exec (.jwait xs1) s = .next (s.trap 0x09 (j.zeroExtend 64)))))

/-- R279 to R282, R392, R399, R400: TTSET sets an idle entry from 64 bytes of the LS, TREADY fires its next generation, and
TSTAT reads its status word. An entry that the context may not name raises cause 0x04 with its number; at TTSET and at TREADY a
draft OPER on a part without heddle hardware raises cause 0x15, an image that fails a check cause 0x0D with the first status,
and an entry in a generation cause 0x0D with status 0x19. The first of several failing checks (log 14), status 0x22 for an entry
in error at TREADY, and that TTSET keeps FLAGS and ALTUSED and TREADY clears them (log 16) are the model's choice. It says where
these complete: ttset, tready, tstat. -/
def Obligations.TileTable : Prop := ∀ (xd xs1 xs2 : BitVec 5) (s : State),
  let n := (s.me.getX xs1).toNat % 64
  let a := s.me.getX xs2
  let image : List Word := (List.range 8).map fun i =>
    leWord ((List.range 8).map fun b => s.readPlace (.ls s.cur.1 (a.toNat - 0xFFFFFFFFFF000000 + 8 * i + b)))
  let heddle (e : List Word) : Prop := 16 ≤ ttOper e → s.part.heddle = true
  let st := s.here.ttSt n
  (Free [xs1, xs2] [] s → s.ttAllowed n = true → a.toNat % 64 = 0 → isLsAddr a = true → s.lsError a 64 = none →
    ¬heddle image → exec (.ttset xs1 xs2) s = .next (s.trap 0x15 (wordOf (.ttset xs1 xs2)))) ∧
  (Free [xs1, xs2] [] s → s.ttAllowed n = true → a.toNat % 64 = 0 → isLsAddr a = true → s.lsError a 64 = none →
    heddle image →
    (∀ x, s.ttStatus s.cur.1 s.cur.2 image false = some x → exec (.ttset xs1 xs2) s = .next (s.trap 0x0D (jobVal none x 0))) ∧
    (s.ttStatus s.cur.1 s.cur.2 image false = none →
      (st.phase.busy = true → exec (.ttset xs1 xs2) s = .next (s.trap 0x0D (jobVal none 0x19 0))) ∧
      (st.phase.busy = false → ∃ t, exec (.ttset xs1 xs2) s = .next t ∧ t.here.tt n = image ∧
        t.here.ttSt n = { st with phase := .idle } ∧ SameMemory s t ∧ Retires s t [xs1, xs2] [] 4 (s.me.pcNow + 4) s.me))) ∧
  (Free [xs1] [] s → s.ttAllowed n = true →
    (s.here.badTts.contains n = true → exec (.tready xs1) s = .next (s.trap 0x0D (jobVal none 0x22 0))) ∧
    (s.here.badTts.contains n = false →
      (¬heddle (s.here.tt n) → exec (.tready xs1) s = .next (s.trap 0x15 (wordOf (.tready xs1)))) ∧
      (heddle (s.here.tt n) →
        (∀ x, s.ttStatus s.cur.1 s.cur.2 (s.here.tt n) true = some x →
          exec (.tready xs1) s = .next (s.trap 0x0D (jobVal none x 0))) ∧
        (s.ttStatus s.cur.1 s.cur.2 (s.here.tt n) true = none → st.phase.busy = true →
          exec (.tready xs1) s = .next (s.trap 0x0D (jobVal none 0x19 0)))))) ∧
  (Free [xs1] [] s → s.ttAllowed n = true → s.here.badTts.contains n = false → heddle (s.here.tt n) →
    s.ttStatus s.cur.1 s.cur.2 (s.here.tt n) true = none → st.phase.busy = false →
    ∃ t, exec (.tready xs1) s = .next t ∧
      (t.here.ttSt n).phase = (if ttKind (s.here.tt n) = 2 ∧ ttRoot (s.here.tt n) = false then .down else .up) ∧
      (t.here.ttSt n).gen = st.gen + 1 ∧ (t.here.ttSt n).flags = 0 ∧ (t.here.ttSt n).sent = 0 ∧
      (t.here.ttSt n).written = 0 ∧ (t.here.ttSt n).ctx = s.cur.2 ∧ t.here.tt n = s.here.tt n ∧ SameMemory s t ∧
      Retires s t [xs1] [] 4 (s.me.pcNow + 4) s.me) ∧
  (Free [xs1] [xd] s → s.ttAllowed n = true → ∃ t, exec (.tstat xd xs1) s = .next t ∧
    Computes s t [xs1] xd 4 (s.me.pcNow + 4)
      (BitVec.ofNat 64 (st.gen.toNat * 2 ^ 32 + (if st.altUsed then 2 ^ 16 else 0) + st.flags.toNat * 2 ^ 8 +
        (match st.phase with | .idle => 0 | .up => 1 | .down => 2 | .done => 3 | .failed => 4))) s.me) ∧
  (s.ttAllowed n = false →
    (Free [xs1, xs2] [] s → exec (.ttset xs1 xs2) s = .next (s.trap 0x04 (BitVec.ofNat 64 n))) ∧
    (Free [xs1] [] s → exec (.tready xs1) s = .next (s.trap 0x04 (BitVec.ofNat 64 n))) ∧
    (Free [xs1] [xd] s → exec (.tstat xd xs1) s = .next (s.trap 0x04 (BitVec.ofNat 64 n))))

/-- R253, R282, R284, R285: a chunk of a generation past is acknowledged and dropped; one sent up is taken once for the child
slot that it carries, or that names its sender (log 55); packets of one way keep their order; an acknowledgement marks what it
answers; the notice of a REDUCE releases what the router retained. A hop that times out goes over the alternate placement, or,
where it already did, fails the generation (a chunk sent up is redone over that of the parent whoever made it go); four timeouts
without word fail it too. What the routers' lists hold and what an alternate placement does are the model's choice (log 16), and
so is the `tval` of an interrupt already pending (log 70). It says where these complete: chunkArrival, chunkAck,
reduceCompletionNotice, hopTimeout, altRequest, collectiveFailure. -/
def Obligations.Collectives : Prop := ∀ (n c : Nat) (t : TileNo) (e : BitVec 6) (s : State) (k : Chunk),
  let st := (s.tile k.node).ttSt k.entry.toNat
  let off : State := { s with chunks := s.chunks.eraseIdx n }
  let d := (st.gen - k.gen).toNat
  (s.chunks[n]? = some k → s.chunkFirst n k = true → k.acked = false → 0 < d → d < 2 ^ 15 →
    ((k.kind = .up ∨ k.kind = .down) → exec (.chunkArrival (.here n)) s = .next (off.acknowledge k)) ∧
    (k.kind = .notice → exec (.reduceCompletionNotice (.here n)) s = .next (off.acknowledge k)) ∧
    (k.kind = .alt → (k.moved = false ∨ k.port = none) → exec (.altRequest (.here n)) s = .next (off.acknowledge k))) ∧
  (∀ i, s.chunks[n]? = some k → s.chunkFirst n k = true → k.acked = false → k.kind = .up → st.gen = k.gen →
    st.phase = .up →
    (let kids := ttChildren ((s.tile k.node).tt k.entry.toNat)
     let named := ∃ ep, kids[k.slot]? = some ep ∧ epIs ep k.port k.fromTile = true
     (named ∧ i = k.slot) ∨ (¬named ∧ kids.findIdx? (fun ep => epIs ep k.port k.fromTile) = some i)) →
    st.sent ≤ k.num → k.num < ttChunks ((s.tile k.node).tt k.entry.toNat) →
    (∀ x ∈ (s.tile k.node).chunks, ¬(x.kind = .up ∧ x.entry = k.entry ∧ x.gen = k.gen ∧ x.num = k.num ∧ x.slot = i)) →
    ∃ u, exec (.chunkArrival (.here n)) s = .next u ∧ SameMemory s u ∧
      (u.tile k.node).chunks = (s.tile k.node).chunks ++ [{ k with slot := i }] ∧
      (k.port = none → u.chunks = s.chunks.eraseIdx n ++
        [{ k with kind := .ackUp, data := [], born := s.time, fromTile := k.node, node := k.fromTile, dest := k.fromTile }])) ∧
  (s.chunks[n]? = some k → s.chunkFirst n k = true → (k.kind = .ackUp ∨ k.kind = .ackDown ∨ k.kind = .ackAlt) →
    ∃ u, exec (.chunkAck (.here n)) s = .next u ∧ SameMemory s u ∧ u.chunks = s.chunks.eraseIdx n ∧
      (∀ x ∈ (u.tile k.dest).retained, k.answers x = true → x.acked = true ∧ x.kind ≠ .down ∧ x.kind ≠ .notice) ∧
      (∀ x ∈ (s.tile k.dest).retained, k.answers x = false → x.acked = false → x ∈ (u.tile k.dest).retained)) ∧
  (s.chunks[n]? = some k → s.chunkFirst n k = true → k.acked = false → k.kind = .notice → (k.moved = false ∨ k.port = none) → st.gen = k.gen → st.phase.busy = true →
    ttKind ((s.tile k.node).tt k.entry.toNat) = 1 → epIs (ttParent ((s.tile k.node).tt k.entry.toNat)) k.port k.fromTile = true →
    (∀ x ∈ (s.tile k.node).chunks, ¬(x.kind = .notice ∧ x.entry = k.entry ∧ x.gen = k.gen)) →
    ∃ u, exec (.reduceCompletionNotice (.here n)) s = .next u ∧ SameMemory s u ∧
      (u.tile k.node).chunks = (s.tile k.node).chunks ++ [k] ∧
      ∀ x ∈ (u.tile k.node).retained, ¬(x.kind = .up ∧ x.entry = k.entry ∧ x.gen = k.gen)) ∧
  (∀ x, s.chunks[n]? = some k → s.chunkFirst n k = true → k.acked = false → k.kind = .alt → (k.moved = false ∨ k.port = none) → st.gen = k.gen → st.phase.busy = true →
    (s.tile k.node).retained.find? (fun x => x.kind == .up && x.entry == k.entry && x.gen == k.gen && x.num == k.num) = some x →
    exec (.altRequest (.here n)) s = .next
      ((((off.acknowledge k).modTt k.node k.entry.toNat fun st => { st with altUsed := true }).sendRetained k.node ((s.tile k.node).tt k.entry.toNat)
        (ttParent ((s.tile k.node).tt k.entry.toNat)) { x with moved := true }))) ∧
  (let limit := ttTimeout ((s.tile t).tt e.toNat)
   ((s.tile t).retained.find? (fun x => x.late e c limit s.time) = some k →
      ((k.kind = .alt ∨ k.moved = true ∧ k.kind ≠ .up ∨ k.kind = .up ∧ k.gen ≠ ((s.tile t).ttSt e.toNat).gen) →
        (k.gen = ((s.tile t).ttSt e.toNat).gen → exec (.hopTimeout t e c) s = .next (s.failEntry t e)) ∧
        (k.gen ≠ ((s.tile t).ttSt e.toNat).gen → ∃ u, exec (.hopTimeout t e c) s = .next u ∧ SameMemory s u ∧
          (u.tile t).ttState = (s.tile t).ttState ∧ ∀ x, x ∈ (u.tile t).retained ↔ x ∈ (s.tile t).retained ∧ x ≠ k)) ∧
      (∀ o, k.gen = ((s.tile t).ttSt e.toNat).gen → k.kind = .up → epRemote (ttParent ((s.tile t).tt e.toNat)) = false →
        ttAlt ((s.tile (epTile (ttParent ((s.tile t).tt e.toNat)))).tt e.toNat) = some o →
        ∃ u r, exec (.hopTimeout t e c) s = .next u ∧ SameMemory s u ∧ ((u.tile t).ttSt e.toNat).altUsed = true ∧
          u.chunks = s.chunks ++ [{ r with dest := o }] ∧ r ∈ (u.tile t).retained ∧ r.kind = .alt ∧ r.num = c ∧
          r.node = epTile (ttParent ((s.tile t).tt e.toNat)) ∧ { k with acked := true } ∈ (u.tile t).retained) ∧
      (∀ o, k.moved = false → (k.kind = .down ∨ k.kind = .notice) → k.port = none →
        ttAlt ((s.tile k.node).tt e.toNat) = some o →
        ∃ u, exec (.hopTimeout t e c) s = .next u ∧ SameMemory s u ∧
          ((u.tile t).ttSt e.toNat).altUsed =
            (((s.tile t).ttSt e.toNat).altUsed || k.gen == ((s.tile t).ttSt e.toNat).gen) ∧
          u.chunks = s.chunks ++ [{ k with moved := true, since := s.time, born := s.time, dest := o }])) ∧
   (((s.tile t).ttSt e.toNat).phase.busy = true → ((s.tile t).ttSt e.toNat).heard + 4 * limit ≤ s.time →
      ∃ u v, exec (.collectiveFailure t e) s = .next u ∧ u = State.interrupt v t 3 (e.zeroExtend 64) ∧ SameMemory s v ∧
        ((v.tile t).ttSt e.toNat).phase = .failed ∧ ∀ x ∈ (v.tile t).retained, ¬(x.entry = e ∧ x.gen = ((s.tile t).ttSt e.toNat).gen)))

/-- R222, R223, R231 to R236, R334, R354 to R356, R422, R423: on a part with heddle hardware, a slot that the context's launch
owns and that is loaded runs its draft: XOP in every active lane, XOPX once on x registers, AMODR as an atomic operation; HLOAD
asks for a draft and HDROP empties the slot. Without the hardware each raises cause 0x15, on a slot that is not owned cause
0x04, on one that is not loaded cause 0x07, and for a draft that needs more inputs than the form has cause 0x08. XOPX and AMODR
take these causes before their register gate, which is the model's choice (log 44). It says where these complete: xop, amodr,
hload, hdrop, xopx. -/
def Obligations.HeddleIssue : Prop := ∀ (vi : BitVec 1) (slot : BitVec 3) (vd vs1 vs2 : BitVec 4) (g : Guard)
    (xd xs1 xs2 : BitVec 5) (s : State),
  let h := s.here.slot slot.toNat
  let d := h.draft
  let w := Ty.width d.ty
  let v2 := vd ^^^ 1
  let vs := [vs1, vs2] ++ (if vi = 1 then [vd, v2] else [])
  let run (i : Nat) := s.runTile d s.me ((vs.map fun r => laneOf (s.me.getV r) w i).take d.nin) i
  let slotOk := s.part.heddle = true ∧ s.ownsSlot slot.toNat = true ∧ h.loaded = true
  let xop := exec (.xop vi slot vd vs1 vs2 g) s
  let xs := [xs1, xs2].take d.nin
  let two := d.nout = 2 ∧ xd ≠ 0
  let x2 := xd ^^^ 1
  let o := s.runTile d s.me (xs.map fun r => (s.me.getX r).toNat % 2 ^ w) 0
  let n := (s.me.getX xs1).extractLsb' 0 3
  let a := s.me.getX xs2
  (∀ i, (i = .xop vi slot vd vs1 vs2 g ∨ i = .xopx xd xs1 xs2 slot ∨ i = .amodr xd xs1 xs2 slot ∨ i = .hload xs1 xs2 ∨
      i = .hdrop xs1) → s.part.heddle = false → exec i s = .next (s.trap 0x15 (wordOf i))) ∧
  (∀ i, (i = .xop vi slot vd vs1 vs2 g ∨ i = .xopx xd xs1 xs2 slot ∨ i = .amodr xd xs1 xs2 slot) → s.part.heddle = true →
    (s.ownsSlot slot.toNat = false → exec i s = .next (s.trap 0x04 (slot.zeroExtend 64))) ∧
    (s.ownsSlot slot.toNat = true → h.loaded = false → exec i s = .next (s.trap 0x07 (slot.zeroExtend 64)))) ∧
  (slotOk →
    ((if vi = 1 then 4 else 2) < d.nin → xop = .next (s.trap 0x08 0x02000000000000FF)) ∧
    (d.nin ≤ (if vi = 1 then 4 else 2) → FreeV [] [] vs (if d.nout = 2 then [vd, v2] else [vd]) s →
      ∃ t, xop = .next t ∧
        (∀ i, i < 512 / w →
          (laneOf (t.me.getV vd) w i = if s.me.active g i then (run i).1 % 2 ^ w else laneOf (s.me.getV vd) w i) ∧
          (d.nout = 2 → laneOf (t.me.getV v2) w i =
            if s.me.active g i then (run i).2.1 % 2 ^ w else laneOf (s.me.getV v2) w i)) ∧
        (∀ r, r ≠ vd → ¬(d.nout = 2 ∧ r = v2) → t.me.getV r = s.me.getV r) ∧
        t.me.fstat = (List.range (512 / w)).foldl
          (fun f i => if s.me.active g i then f ||| (run i).2.2.bits.zeroExtend 12 else f) s.me.fstat ∧
        Retires s t [] [] (d.lat + 4) (s.me.pcNow + 4) { s.me with v := t.me.v, fstat := t.me.fstat } ∧ OnlyMe s t) ∧
    (2 < d.nin → exec (.xopx xd xs1 xs2 slot) s = .next (s.trap 0x08 0x02000000000000FF)) ∧
    (d.nin ≤ 2 → Free xs (if two then [xd, x2] else [xd]) s →
      ∃ t, exec (.xopx xd xs1 xs2 slot) s = .next t ∧
        (xd ≠ 0 → t.me.getX xd = laneWord d.ty o.1) ∧ (two → x2 ≠ 0 → t.me.getX x2 = laneWord d.ty o.2.1) ∧
        t.me.fstat = (s.me.fstat ||| o.2.2.bits.zeroExtend 12) ∧
        Retires s t xs (if two then [xd, x2] else [xd]) (d.lat + 4) (s.me.pcNow + 4) { s.me with fstat := t.me.fstat } ∧
        OnlyMe s t) ∧
    ((2 < d.nin ∨ d.nout = 2) → exec (.amodr xd xs1 xs2 slot) s = .next (s.trap 0x08 0x02000000000000FF)) ∧
    (d.nin ≤ 2 → d.nout ≠ 2 → Free [xs1, xs2] [xd] s →
      let b := s.me.getX xs1
      let logged := s.translated s.cur.1 b
      (∀ cause, s.atomicCheck (w / 8) b = some cause → exec (.amodr xd xs1 xs2 slot) s = .next (s.trap cause b)) ∧
      (s.atomicCheck (w / 8) b = none → s.me.RoomFor true false false false logged →
        ∃ t, exec (.amodr xd xs1 xs2 slot) s = .next t ∧
          Sends s t [xs1, xs2]
            (s.me.mkReq (.amodr d) (w / 8) (s.me.getX xs2) (s.me.dstX xd) [⟨b, w / 8, 0, false, []⟩] logged) 1 0))) ∧
  (s.part.heddle = true → Free [xs1, xs2] [] s →
    (s.ownsSlot n.toNat = false → exec (.hload xs1 xs2) s = .next (s.trap 0x04 (n.zeroExtend 64))) ∧
    (s.ownsSlot n.toNat = true →
      (a.toNat % 8 ≠ 0 → exec (.hload xs1 xs2) s = .next (s.trap 0x03 a)) ∧
      (a.toNat % 8 = 0 → s.checkAccess s.cur.1 s.cur.2 false .scalar 8 a = false →
        exec (.hload xs1 xs2) s = .next (s.trap 0x04 a)) ∧
      (a.toNat % 8 = 0 → s.checkAccess s.cur.1 s.cur.2 false .scalar 8 a = true → s.me.ld < 16 →
        ∃ t, exec (.hload xs1 xs2) s = .next t ∧
          Sends s t [xs1, xs2] (s.me.mkReq (.hload n) 8 0 .none [⟨a, 8, 0, false, []⟩] false) 1 0))) ∧
  (s.part.heddle = true → Free [xs1] [] s →
    (s.ownsSlot n.toNat = false → exec (.hdrop xs1) s = .next (s.trap 0x04 (n.zeroExtend 64))) ∧
    (s.ownsSlot n.toNat = true → ∃ t, exec (.hdrop xs1) s = .next t ∧ (t.here.slot n.toNat).loaded = false ∧
      (t.here.slot n.toNat).owned = (s.here.slot n.toNat).owned ∧
      (∀ m, m ≠ n.toNat → t.here.slot m = s.here.slot m) ∧
      (∀ p : Place, p.data → (∀ off, p ≠ .heddle s.cur.1 off) → t.readPlace p = s.readPlace p) ∧ Retires s t [xs1] [] 4 (s.me.pcNow + 4) s.me))

/-- R117, R121, R352, R353: GIVE sends its second source to a channel register of a context of its own launch on its tile, with
room in st and in the inbox; to another context it raises cause 0x04 with its first source, and with the inbox full it parks.
Behind an earlier access to the register that is not performed it occupies its context and takes no slot (the model's choice,
logs 46 and 52). R111, R112, R116, R119 to R122, R312: a delivery that may be performed lands in an empty register that nothing
reserves and no earlier delivery waits for, or overwrites a plain one, which becomes full, and st falls; else it takes one of
the 16 inbox entries, and with all of them in use a store's value waits outside. An inbox entry lands when its register is empty
and no earlier entry is for the same one. R118, R295, R300: a write to a word of a register window that may be performed writes
that register and lowers st; the monitor's write of 1 to the state field of a HELD context resumes it, but where a record of it
waits (R295). It says where these complete: give, delivery, inboxLand, registerWindowWrite, heldResume. -/
def Obligations.GiveAndDelivery : Prop :=
  (∀ (xs1 xs2 : BitVec 5) (s : State), Free [xs1, xs2] [] s →
   let w := s.me.getX xs1
   let v := s.me.getX xs2
   let c := w.extractLsb' 0 4
   let r : BitVec 5 := (3 : BitVec 2) ++ w.extractLsb' 4 3
   let mine := ∃ l, s.launchOf s.cur.1 s.cur.2 = some l ∧ s.ctxOfLaunch s.cur.1 c l.id = true
   let a : Word := BitVec.ofNat 64 (0xFFFFF00000000000 + s.cur.1.toNat * 2 ^ 24 + 0x120000 + 0x1000 * c.toNat + 8 * r.toNat)
   let e : Elem := ⟨a, 8, 0, false, (List.range 8).map fun i => v.extractLsb' (8 * i) 8⟩
   let q := s.me.mkReq (.delivery s.cur.1 c r true) 8 v .none [e] false
   (¬mine → exec (.give xs1 xs2) s = .next (s.trap 0x04 w)) ∧
   (mine → s.me.st < 16 → s.here.inboxFull c r = true → exec (.give xs1 xs2) s = .next (s.parkMe (.inbox c r))) ∧
   (mine → s.me.st < 16 → s.here.inboxFull c r = false → s.mayPerform s.cur.1 s.cur.2 q [e] = true →
     ∃ t, exec (.give xs1 xs2) s = .next t ∧ Sends s t [xs1, xs2] q 0 1) ∧
   (mine → s.me.st < 16 → s.here.inboxFull c r = false → s.mayPerform s.cur.1 s.cur.2 q [e] = false →
     exec (.give xs1 xs2) s = .next s.holdMe)) ∧
  (∀ (t o : TileNo) (c c' : CtxNo) (r : BitVec 5) (give : Bool) (n : Nat) (s : State)
     (q : Req) (e : InboxEntry),
   let tl := s.tile o
   let k := tl.ctx c'
   (s.req t c n = some q → (∀ q' ∈ (s.ctx t c).reqs, q'.seq = q.seq → q' = q) → q.kind = .delivery o c' r give → 24 ≤ r.toNat →
     q.phase = .issued → s.mayPerform t c q q.elems = true → tl.landing = [] → tl.spills c' = false →
     (give = true ∨ tl.inboxUsed < 16) →
     (k.isSync r = false ∨ (k.canLand r = true ∧ tl.inboxHas c' r = false) →
       ∃ u, exec (.delivery t c n) s = .next u ∧ (u.ctx o c').getX r = q.data ∧ (u.ctx o c').isFull r = true ∧
         (∀ x, x ≠ r → (u.ctx o c').getX x = k.getX x ∧ (u.ctx o c').isFull x = k.isFull x) ∧
         (u.ctx t c).st = (s.ctx t c).st - 1 ∧ SameMemory s u) ∧
     (k.isSync r = true → (k.canLand r = false ∨ tl.inboxHas c' r = true) → tl.inbox.length < 16 →
       ∃ u, exec (.delivery t c n) s = .next u ∧
         (u.tile o).inbox = tl.inbox ++ [⟨c', r, q.data, t, c, some q.seq, none, true⟩] ∧ (u.ctx t c).st = (s.ctx t c).st ∧
         (∀ x, (u.ctx o c').getX x = k.getX x ∧ (u.ctx o c').isFull x = k.isFull x) ∧ SameMemory s u)) ∧
   (s.req t c n = some q → q.kind = .delivery o c' r false → q.phase = .issued → s.mayPerform t c q q.elems = true →
     tl.spills c' = false → 16 ≤ tl.inboxUsed → exec (.delivery t c n) s = .next s) ∧
   (tl.inbox[n]? = some e → 24 ≤ e.reg.toNat → tl.spills e.ctx = false → tl.landing = [] →
     (∀ f ∈ tl.inbox.take n, ¬(f.ctx = e.ctx ∧ f.reg = e.reg)) → (tl.ctx e.ctx).canLand e.reg = true →
     ∃ u, exec (.inboxLand o n) s = .next u ∧ (u.ctx o e.ctx).getX e.reg = e.value ∧
       (u.ctx o e.ctx).isFull e.reg = true ∧ (u.tile o).inbox = tl.inbox.eraseIdx n ∧
       (∀ x, x ≠ e.reg → (u.ctx o e.ctx).getX x = (tl.ctx e.ctx).getX x) ∧ SameMemory s u)) ∧
  (∀ (t o : TileNo) (c : CtxNo) (n : Nat) (s : State) (q : Req),
   let c' := BitVec.ofNat 4 (q.windowOff / 0x1000)
   let off := q.windowOff % 0x1000
   s.req t c n = some q → (∀ q' ∈ (s.ctx t c).reqs, q'.seq = q.seq → q' = q) → q.kind = .window o → q.phase = .issued →
   s.mayPerform t c q q.elems = true → q.windowOff % 8 = 0 →
   (s.resumes o q = false → ∃ u, exec (.registerWindowWrite t c n) s = .next u ∧
     (∀ r : BitVec 5, r ≠ 0 → off = 8 * r.toNat → (u.ctx o c').getX r = q.data) ∧
     (∀ r : BitVec 3, r ≠ 0 → off = 0x500 + 8 * r.toNat → (u.ctx o c').getK r = q.data) ∧
     (off = 0x540 → (u.ctx o c').qmode = q.data.extractLsb' 0 8) ∧
     (off = 0x548 → (u.ctx o c').full = q.data.extractLsb' 0 8) ∧
     (off = 0x558 → (u.ctx o c').pc = q.data) ∧
     (∀ r : BitVec 5, off ≠ 8 * r.toNat → (u.ctx o c').getX r = (s.ctx o c').getX r) ∧
     (u.ctx o c').state = (s.ctx o c').state ∧ SameMemory s u ∧
     ((t, c) ≠ (o, c') → (u.ctx t c).st = (s.ctx t c).st - 1)) ∧
   ((s.tile o).recorded c' = true → s.resumes o q = false) ∧
   (s.resumes o q = true → ∃ u, exec (.heldResume t c n) s = .next u ∧
     (u.ctx o c').state = (if (s.tile o).stopDue c' then .stopped else .ready) ∧
     (u.ctx o c').pc = (s.ctx o c').pc ∧ SameMemory s u))

/-- R145, R383: QPUT reads its 64-byte command from the LS and sends it, with room in ld; QPUTW sends it and waits for the reply
with its instruction not ended. A bad address raises cause 0x03 or 0x04. R161, R370: MFLUSH and MINV over a range with no bad
address, with room in st and in the log, send one request and raise st; no byte of memory has changed yet. The first bad address
raises cause 0x04. It says where these complete: qput, qputw, mflush, minv. -/
def Obligations.PostsAndFlushes : Prop :=
  (∀ (xd xs1 xs2 : BitVec 5) (s : State), Free [xs1, xs2] [xd] s →
   let a := s.me.getX xs2
   let q := (s.me.getX xs1).extractLsb' 0 12
   let cmd := (List.range 64).map fun i => s.readPlace (.ls s.cur.1 (a.toNat - 0xFFFFFFFFFF000000 + i))
   (∀ i, (i = .qput xd xs1 xs2 ∨ i = .qputw xd xs1 xs2) →
     (a.toNat % 64 ≠ 0 → exec i s = .next (s.trap 0x03 a)) ∧
     (a.toNat % 64 = 0 → isLsAddr a = false → exec i s = .next (s.trap 0x04 a))) ∧
   (a.toNat % 64 = 0 → isLsAddr a = true → s.lsError a 64 = none →
     (s.me.ld < 16 → ∃ t, exec (.qput xd xs1 xs2) s = .next t ∧
       Sends s t [xs1, xs2] (s.me.mkReq (.qput q cmd) 64 0 (s.me.dstX xd) [] false) 1 0) ∧
     (∃ t r, exec (.qputw xd xs1 xs2) s = .next t ∧ r.kind = .qputw q cmd ∧ r.phase = .issued ∧ r.dst = s.me.dstX xd ∧
       t.me.reqs = s.me.reqs ++ [r] ∧ t.me.state = .parked ∧ t.me.pcNow = s.me.pcNow ∧
       (∀ x, t.me.getX x = s.me.getX x) ∧ t.me.full = s.me.full ∧ OnlyMe s t))) ∧
  (∀ (xs1 xs2 : BitVec 5) (s : State), Free [xs1, xs2] [] s →
   let a := s.me.getX xs1
   let n := (s.me.getX xs2).toNat
   let logged := n != 0 && s.translated s.cur.1 a
   let gives (i : Instr) (kind : ReqKind) : Prop :=
     (∀ x, flushBad a.toNat n = some x → exec i s = .next (s.trap 0x04 (BitVec.ofNat 64 x))) ∧
     (flushBad a.toNat n = none → s.me.RoomFor false true false false logged →
       ∃ t, exec i s = .next t ∧ Sends s t [xs1, xs2] (s.me.mkReq kind 0 0 .none [⟨a, n, 0, false, []⟩] logged) 0 1)
   gives (.mflush xs1 xs2) .mflush ∧ gives (.minv xs1 xs2) .minv)

/-- R135, R145, R171, R231, R383: a post to a ring that is not full is made with status 0 once the FIFOs of its notify word, and
of a ring slot in the flag window, let it and no fence holds it (R181), one to a full ring answers 1 (QPUT) or waits (QPUTW, at
the end of the posts that wait), and one to a queue that takes no posts answers 2; a ring write that fails answers 2 and puts
the queue, past a command that is complete (R135), in error 0x04 (an uncorrectable error in the ring is the model's reading, log
50), and one to a queue that is not mapped and whose descriptor fails its checks answers 2 with error 0x0D (its choice too, log
50); the reply writes xd and lowers ld. HLOAD's reads fill the slot with a draft that passes its checks, and one that fails them
delivers cause 0x08. It says where these complete: hloadComplete, qputPost, qputReply. -/
def Obligations.PostsAndLoads : Prop := ∀ (t : TileNo) (c : CtxNo) (n : Nat) (s : State) (r : Req) (qn : QueueNo) (cmd : List Byte),
  s.req t c n = some r →
  let answer (s : State) (v : Nat) : State :=
    ({ s.noPost t c r.seq with hub := { s.hub with posts := s.hub.posts.filter (· != (t, c, r.seq)) } } : State).modReq t c r.seq
      fun r => { r with phase := .answered (BitVec.ofNat 64 v) 0 }
  let kinds := r.kind = .qput qn cmd ∨ r.kind = .qputw qn cmd
  (kinds → r.phase = .issued → s.posting qn = .refused → exec (.qputPost t c n) s = .next (answer s 2)) ∧
  (kinds → r.phase = .issued → s.posting qn = .invalid → exec (.qputPost t c n) s = .next ((answer s 2).descError qn)) ∧
  (r.kind = .qput qn cmd → r.phase = .issued → s.posting qn = .full → exec (.qputPost t c n) s = .next (answer s 1)) ∧
  (r.kind = .qputw qn cmd → s.posting qn = .full →
    (r.phase = .issued → exec (.qputPost t c n) s = .next
      (({ s.noPost t c r.seq with hub := { s.hub with posts := s.hub.posts ++ [(t, c, r.seq)] } } : State).modReq t c r.seq
        fun r => { r with phase := .waiting })) ∧
    (r.phase = .waiting → exec (.qputPost t c n) s = .next (s.noPost t c r.seq))) ∧
  (∀ pa w s' ok, s.posting qn = .go pa w → n = 0 →
    ((r.kind = .qputw qn cmd ∧ r.phase = .waiting ∧ s.hub.posts.head? = some (t, c, r.seq)) ∨
      (kinds ∧ r.phase = .issued ∧ s.hub.posts = [])) →
    s.fenceHoldsAt t c r.num 2 (s.postLocs qn) = false →
    s.turnsAt (.flag (descNotify (s.desc qn)) :: slotWords pa) (placeEntry t c r.seq .post false) = (s', ok) →
    exec (.qputPost t c n) s = .next (if ok then answer (s'.postCmd qn pa w cmd) 0 else s')) ∧
  (∀ b w, kinds → r.phase = .issued → s.posting qn = .error b w →
    let v := answer s 2
    let e := match v.settle qn with
      | none => v.queueError qn 0x04 w
      | some u => if (u.qslot qn).isSome then u.queueError qn 0x04 w else u
    exec (.qputPost t c n) s = .next (if b then e.memError else e)) ∧
  (∀ v f, r.kind = .qput qn cmd → r.phase = .answered v f →
    exec (.qputReply t c n) s = .next (s.endReq t c r fun k => k.writeDst r.dst v) ∧
    (∀ x sync, r.dst = .x x sync → (∀ q' ∈ (s.ctx t c).reqs, q'.seq = r.seq → q' = r) →
      ∃ u, exec (.qputReply t c n) s = .next u ∧ (x ≠ 0 → (u.ctx t c).getX x = v) ∧
        (∀ y, y ≠ x → (u.ctx t c).getX y = (s.ctx t c).getX y) ∧ (u.ctx t c).ld = (s.ctx t c).ld - 1 ∧
        (u.ctx t c).reqs = (s.ctx t c).reqs.filter (fun q' => q'.seq != r.seq) ∧ OnlyCtx s u t c ∧ SameMemory s u)) ∧
  (∀ v f, r.kind = .qputw qn cmd → r.phase = .answered v f →
    exec (.qputReply t c n) s = .next (s.modCtx t c fun k => k.finishPost s.time r v)) ∧
  (∀ slot e es h ns s1 s2, r.kind = .hload slot → r.elems = e :: es → r.phase = .issued →
    s.mayPerform t c r [{ e with size := 264 }] = true → s.refusal t c r = none →
    s.readWords t (s.tag t c) e.addr.toNat 1 = (s1, .ok [h]) →
    s1.readWords t (s.tag t c) (e.addr.toNat + 8) (h.toNat % 32 + 1) = (s2, .ok ns) →
    let d : Draft := ⟨h, ns⟩
    let s3 := s2.endReq t c r id
    (d.okTile = true → (r.sup = true ∨ (s3.tile t).stillOwns c slot.toNat = true) →
      exec (.hloadComplete t c n) s = .next (s3.modTile t fun tl =>
        tl.setHeddle slot.toNat { tl.slot slot.toNat with loaded := true, draft := d, src := e.addr }) ∧
      ∃ u, exec (.hloadComplete t c n) s = .next u ∧ ((u.tile t).slot slot.toNat).loaded = true ∧
        ((u.tile t).slot slot.toNat).draft = d ∧ ((u.tile t).slot slot.toNat).src = e.addr ∧
        (∀ m, m ≠ slot.toNat → (u.tile t).slot m = (s2.tile t).slot m)) ∧
    (d.okTile = false → exec (.hloadComplete t c n) s =
      .next (s3.late t c ⟨0x08, 0x02000000000000FF, none, some (r.num, r.pc), r.sup⟩)))

/-- R283, R343, R184: CWAIT ends when the word at its address, read in order, is at least its bound and no card that wrote the
word is still to end, when its bound is 0 whatever the word, or when a write of the word has met the bound; else it watches the
word and parks. Behind an earlier access to the word, or while a walk is made for it, it occupies its context and takes no slot
(the model's choice, logs 47 and 52); a bound of 0 never parks, also where the read would be refused. A misaligned address
raises cause 0x03 and one that is not allowed, or has no home, cause 0x04. The 4 cycles that CWAIT occupies its context when it
ends are the model's choice too (log 61). R283, R109, R184: a parked CWAIT whose word has reached its bound, with no card that
wrote the word still to end, is woken; one below it keeps its watch. It says where these complete: cwait, cwaitPoll. -/
def Obligations.CwaitStates : Prop :=
  (∀ (xs1 xs2 : BitVec 5) (s : State), Free [xs1, xs2] [] s →
   let t := s.cur.1
   let c := s.cur.2
   let a := s.me.getX xs1
   let lim := s.me.getX xs2
   let r := exec (.cwait xs1 xs2) s
   let ok := s.checkAccess t c false .scalar 8 a = true ∧ hasHome s.part t a = true
   let free := s.mayPerform t c (s.me.cwaitRead a) [⟨a, 8, 0, false, []⟩]
   (a.toNat % 8 ≠ 0 → r = .next (s.trap 0x03 a)) ∧
   (a.toNat % 8 = 0 → ¬ok → r = .next (s.trap 0x04 a)) ∧
   (a.toNat % 8 = 0 → ok → s.me.woken = true →
     ∃ u, r = .next u ∧ Retires s u [xs1, xs2] [] 4 (s.me.pcNow + 4) s.me ∧ OnlyMe s u) ∧
   (a.toNat % 8 = 0 → ok → s.me.woken = false → free = false → r = .next s.holdMe) ∧
   (a.toNat % 8 = 0 → ok → s.me.woken = false → free = true → s.reach t (s.tag t c) true false a = .miss →
     (s.walk (s.tag t c) a).isSome = true → r = .next (s.openWalk t (s.tag t c) a).holdMe) ∧
   (a.toNat % 8 = 0 → ok → s.me.woken = false → free = true → lim = 0 →
     (s.reach t (s.tag t c) true false a = .denied ∨
       (s.reach t (s.tag t c) true false a = .miss ∧ s.walk (s.tag t c) a = none)) →
     ∃ u, r = .next u ∧ Retires s u [xs1, xs2] [] 4 (s.me.pcNow + 4) s.me ∧ OnlyMe s u) ∧
   (∀ p hv sysat, a.toNat % 8 = 0 → ok → s.me.woken = false → s.reach t (s.tag t c) true false a = .place p hv sysat →
     (lim = 0 ∨ s.poisoned p = false) → free = true → s.RoomAt p →
     let met := lim = 0 ∨ (lim.toNat ≤ leNat (s.readPlaces p 8) ∧ s.cardHolds p.word8 = false)
     (met → ∃ u, r = .next u ∧ Retires s u [xs1, xs2] [] 4 (s.me.pcNow + 4) s.me ∧ SameMemory s u) ∧
     (¬met →
       ∃ u, r = .next u ∧ u.me.state = .parked ∧ u.me.pcNow = s.me.pcNow ∧
         (∃ k, u.me.park = some k ∧ k.reason = .cwait a lim) ∧
         (s.cur ∈ (u.home p).watches ∨ p.watchDepth ≤ s.atUnit p (·.watches.length)) ∧ SameMemory s u))) ∧
  (∀ (t : TileNo) (c : CtxNo) (s : State) (a lim : Word) (since : Nat) (p : Place)
     (hv sysat : Bool),
   let k := s.ctx t c
   k.park = some ⟨.cwait a lim, since⟩ → k.woken = false → k.amoHeld = false →
   s.mayPerform t c (k.cwaitRead a) [⟨a, 8, 0, false, []⟩] = true →
   s.reach t (s.tag t c) true false a = .place p hv sysat → s.poisoned p = false → s.RoomAt p →
   let met := lim = 0 ∨ (lim.toNat ≤ leNat (s.readPlaces p 8) ∧ s.cardHolds p.word8 = false)
   (met → ∃ u, exec (.cwaitPoll t c) s = .next u ∧
     u.ctx t c = { k with woken := true } ∧ OnlyCtx s u t c ∧ SameMemory s u) ∧
   (¬met → ∃ u, exec (.cwaitPoll t c) s = .next u ∧ u.ctx t c = k ∧
     (p.watchDepth ≤ s.atUnit p (·.watches.length) ∨ (t, c) ∈ (u.home p).watches) ∧ OnlyCtx s u t c ∧ SameMemory s u))

/-- R107, R389, R391, R393, R398: TSPAWN starts the lowest FREE context of the root's group with the state of a new thread and
gives its number, or −1 when none is FREE; TREAP gives the end status of a FREE context and waits for another; TKILL kills one,
which goes on to its end, and at its resume when it is stopped; TEXIT frees its context, whose counters are 0, with end status
0. All but TEXIT are for a group root in task mode, and else raise cause 0x02, here before the register gate, which is the
model's choice (log 44), as are the 4 cycles that TSPAWN, and TREAP of a FREE context, occupy their context (log 61). It says
where these complete: tspawn, treap, tkill, texit. -/
def Obligations.Threads : Prop := ∀ (xd xs1 xs2 : BitVec 5) (s : State) (l : Resident),
  let t := s.cur.1
  let o := s.me.getX xs1
  let c := o.extractLsb' 0 4
  let root := s.here.residentOf s.cur.2 = some l ∧ l.root = s.cur.2 ∧ s.me.sup = false
  let inside := l.ioff ≤ o.toNat ∧ o.toNat < l.ioff + l.isize ∧ o.toNat < 0x10000
  let free (m : CtxNo) : Prop := (s.here.ctx m).state = .free ∧ m ≠ l.root
  ((∀ r, s.here.residentOf s.cur.2 = some r → r.root = s.cur.2 → s.me.sup = true) →
    ∀ i, (i = .tspawn xd xs1 xs2 ∨ i = .treap xd xs1 ∨ i = .tkill xs1) → exec i s = .next (s.trap 0x02 (wordOf i))) ∧
  (root → Free [xs1, xs2] [xd] s →
    (o.toNat % 4 ≠ 0 → exec (.tspawn xd xs1 xs2) s = .next (s.trap 0x03 o)) ∧
    (o.toNat % 4 = 0 → ¬inside → exec (.tspawn xd xs1 xs2) s = .next (s.trap 0x04 o)) ∧
    (o.toNat % 4 = 0 → inside → s.me.st = 0 →
      ((∀ m ∈ l.members, ¬free m) → ∃ u, exec (.tspawn xd xs1 xs2) s = .next u ∧
        Computes s u [xs1, xs2] xd 4 (s.me.pcNow + 4) (-1) s.me) ∧
      (∀ a m b, l.members = a ++ m :: b → (∀ x ∈ a, ¬free x) → free m → m ≠ s.cur.2 →
        ∃ u, exec (.tspawn xd xs1 xs2) s = .next u ∧ u.me.getX xd = (if xd = 0 then 0 else m.zeroExtend 64) ∧
          Retires s u [xs1, xs2] [xd] 4 (s.me.pcNow + 4) s.me ∧ SameMemory s u ∧
          (let k := u.ctx t m
           k.state = .ready ∧ k.pc = o ∧ k.getX 10 = s.me.getX xs2 ∧ k.getX 3 = 0xFFFFFFFFFF000000 ∧
           (∀ r, r ≠ 3 → r ≠ 10 → r.toNat < 24 → k.getX r = 0) ∧
           (∀ r, 24 ≤ r.toNat → k.getX r = (s.ctx t m).getX r ∧ k.isFull r = (s.ctx t m).isFull r) ∧
           (∀ r, k.getV r = 0) ∧ (∀ r, r ≠ 0 → k.getK r = 0) ∧ k.qmode = s.me.qmode ∧ k.macc = s.me.macc ∧ k.frnd = 0 ∧
           k.fstat = 0 ∧ k.livemask = 0xFFFFFE ∧ k.pwatch = 20 ∧ k.instret = 0 ∧ k.quiet = true)))) ∧
  (root → Free [xs1] [xd] s →
    (l.other c = false → exec (.treap xd xs1) s = .next (s.trap 0x02 (wordOf (.treap xd xs1)))) ∧
    (l.other c = true →
      ((s.here.ctx c).isFree = true → ∃ u, exec (.treap xd xs1) s = .next u ∧
        Computes s u [xs1] xd 4 (s.me.pcNow + 4) (s.here.ctx c).endStatus s.me) ∧
      ((s.here.ctx c).isFree = false → exec (.treap xd xs1) s = .next (s.parkMe (.reap c))))) ∧
  (root → Free [xs1] [] s →
    (l.other c = false → exec (.tkill xs1) s = .next (s.trap 0x02 (wordOf (.tkill xs1)))) ∧
    (l.other c = true → s.here.residentOf c = some l →
      ((s.here.ctx c).isFree = true → ∃ u, exec (.tkill xs1) s = .next u ∧
        Retires s u [xs1] [] 4 (s.me.pcNow + 4) s.me ∧ OnlyMe s u) ∧
      (((s.here.ctx c).state = .ready ∨ (s.here.ctx c).state = .parked ∨ (s.here.ctx c).state = .held) → (s.here.ctx c).sup = false →
        (∀ k ∈ s.here.cards, k.ctx = c → k.state ≠ .stopped) →
        ∃ u, exec (.tkill xs1) s = .next u ∧ (u.ctx t c).state = .ending ∧ (u.ctx t c).park = none ∧
          (∀ r ∈ u.here.recs, r.intr = true ∨ r.ctx ≠ c) ∧
          (u.ctx t c).killStatus = 0x80000000000000FF ∧ SameMemory s u) ∧
      ((s.here.ctx c).state = .stopped → (s.here.ctx c).sup = false → (∀ k ∈ s.here.cards, k.ctx = c → k.state ≠ .stopped) →
        ∃ u, exec (.tkill xs1) s = .next u ∧ (u.ctx t c).state = .stopped ∧
          (u.ctx t c).killStatus = 0x80000000000000FF ∧ SameMemory s u))) ∧
  (s.me.sup = true → exec .texit s = .next (s.trap 0x02 (wordOf .texit))) ∧
  ((∀ r, s.here.residentOf s.cur.2 = some r → r.root ≠ s.cur.2) → s.me.sup = false →
    (s.me.quiet = false → exec .texit s = .next (s.parkMe .drained)) ∧
    (s.me.quiet = true → s.here.arrivals = [] →
      ∃ u, exec .texit s = .next u ∧ u.me.state = .free ∧ u.me.endStatus = 0 ∧ u.me.x = s.me.x ∧ u.me.v = s.me.v)) ∧
  (root → (∃ m ∈ l.members, m ≠ s.cur.2 ∧ (s.here.ctx m).state.live = true) → exec .texit s = .next (s.trap 0x13 0)) ∧
  (root → (∀ m ∈ l.members, m ≠ s.cur.2 → (s.here.ctx m).state.live = false) → s.me.quiet = true →
    s.inPicks t s.cur.2 = none → s.here.arrivals = [] →
    ∃ u, exec .texit s = .next u ∧ u.me.state = .free ∧ u.me.endStatus = 0 ∧ u.me.x = s.me.x ∧ u.me.v = s.me.v)

/-- R128, R129, R336 to R338: BARREG gives its group a barrier of the masked contexts of the group and a new generation; the
contexts parked in BARA by an arrival in the generation that ends are released, and count as arrived when the new mask names
them; every other arrival is discarded. When they are all of the mask the new generation completes at once; BARREG of no group
has no effect (the model's choice, log 72). BARA marks an arrival, and the last one starts the next generation and sends an
increment of the barrier word. BARA of a context outside the mask, or of no group, has no effect; a second arrival in one
generation waits for the next. That the two contexts that the cases of R338 count as arrived are parked in BARA is read from the
manual by inference (log 56); that the increment of BARREG itself is a request of its context (log 70), and the 4 cycles that
BARREG and BARA occupy their context (log 61), are the model's choice. It says where these complete: barreg, bara. -/
def Obligations.Barriers : Prop := ∀ (xs1 xs2 : BitVec 5) (s : State) (l : Resident),
  let a := s.me.getX xs2
  let home := s.here.residentOf s.cur.2 = some l
  let b := Assoc.get noBarrier l.group s.here.barriers
  let me : BitVec 16 := 1 <<< s.cur.2.toNat
  let mask := (s.me.getX xs1).extractLsb' 0 16 &&& l.groupMask
  let plain (i : Instr) (xs : List (BitVec 5)) : Prop :=
    ∃ t, exec i s = .next t ∧ Retires s t xs [] 4 (s.me.pcNow + 4) s.me ∧ OnlyMe s t
  let parked (m : CtxNo) : Prop := m ∈ l.members ∧ m ≠ s.cur.2 ∧ ∃ d, (s.here.ctx m).park = some ⟨.barrier b.gen, d⟩
  (Free [xs1, xs2] [] s → ∀ cause, s.atomicCheck 8 a = some cause → exec (.barreg xs1 xs2) s = .next (s.trap cause a)) ∧
  (Free [xs1, xs2] [] s → s.atomicCheck 8 a = none → s.here.residentOf s.cur.2 = none →
    plain (.barreg xs1 xs2) [xs1, xs2]) ∧
  (∀ arr : BitVec 16, Free [xs1, xs2] [] s → s.atomicCheck 8 a = none → home →
    (∀ m : CtxNo, arr.getLsbD m.toNat = true ↔ parked m ∧ mask.getLsbD m.toNat = true) →
    ∃ t, exec (.barreg xs1 xs2) s = .next t ∧ SameMemory s t ∧
      (∀ m, parked m → (t.here.ctx m).park = none ∧ (t.here.ctx m).state = .ready ∧ (t.here.ctx m).x = (s.here.ctx m).x ∧
        (l.members.Nodup → (t.here.ctx m).pcNow = (s.here.ctx m).pcNow + 4)) ∧
      (∀ m, ¬parked m → m ≠ s.cur.2 → t.here.ctx m = s.here.ctx m) ∧
      (¬(mask ≠ 0 ∧ arr = mask) → Assoc.get noBarrier l.group t.here.barriers = ⟨mask, a, arr, b.gen + 1⟩ ∧
        Retires s t [xs1, xs2] [] 4 (s.me.pcNow + 4) s.me) ∧
      (mask ≠ 0 → arr = mask → Assoc.get noBarrier l.group t.here.barriers = ⟨mask, a, 0, b.gen + 2⟩ ∧
        ∃ q, q.kind = .barrier ∧ q.elems = [⟨a, 8, 0, false, []⟩] ∧ q.data = 1 ∧
          Retires s t [xs1, xs2] [] 4 (s.me.pcNow + 4) (s.me.sent q 0 0))) ∧
  (¬(s.me.ld = 0 ∧ s.me.st = 0) → exec .bara s = .next (s.parkMe .ldst)) ∧
  (s.me.ld = 0 → s.me.st = 0 →
    (s.here.residentOf s.cur.2 = none → plain .bara []) ∧
    (home → b.mask.getLsbD s.cur.2.toNat = false → plain .bara []) ∧
    (home → b.mask.getLsbD s.cur.2.toNat = true → b.arrived.getLsbD s.cur.2.toNat = true →
      exec .bara s = .next (s.parkMe (.barrier b.gen))) ∧
    (home → b.mask.getLsbD s.cur.2.toNat = true → b.arrived.getLsbD s.cur.2.toNat = false →
      ((b.arrived ||| me) &&& b.mask ≠ b.mask → ∃ t, exec .bara s = .next t ∧
        Assoc.get noBarrier l.group t.here.barriers = { b with arrived := b.arrived ||| me } ∧ SameMemory s t ∧
        Retires s t [] [] 4 (s.me.pcNow + 4) s.me) ∧
      ((b.arrived ||| me) &&& b.mask = b.mask → ∃ t q, exec .bara s = .next t ∧
        Assoc.get noBarrier l.group t.here.barriers = { b with arrived := 0, gen := b.gen + 1 } ∧ SameMemory s t ∧
        q.kind = .barrier ∧ q.elems = [⟨b.word, 8, 0, false, []⟩] ∧ q.data = 1 ∧
        Retires s t [] [] 4 (s.me.pcNow + 4) (s.me.sent q 0 0))))

/-- R257 to R262, R309, R380, R381: PJOIN publishes the window as pick 0 and joins; PADV publishes it as the next pick once no
neighbour lags and no hold stands at its pick; PLEAVE publishes once more and is done. All wait for ld = st = 0, are for the
group root of a task (else, and for the monitor, cause 0x02), and raise cause 0x0C outside their order. The published slot reads
as the window did, and every other byte of memory as before. The 4 cycles that they occupy their context are the model's choice
(log 61). R263, R272, R382: PREAD names a tile by signed offsets; outside the die or the pick domain it raises cause 0x0C with
its kind; else, with room in ld, it sends a request for a word of the pick that is behind its own by the distance. It says where
these complete: pread, padv, pjoin, pleave. -/
def Obligations.Picks : Prop :=
  (∀ s : State,
   let t := s.cur.1
   let p := s.here.pick
   let root := s.isRoot t s.cur.2 = true ∧ s.me.sup = false
   let still := s.me.ld = 0 ∧ s.me.st = 0
   let publishes (i : Instr) (q : Nat) (joined pdone : Bool) : Prop := ∃ u, exec i s = .next u ∧
     u.here.pick = q ∧ u.here.joined = joined ∧ u.here.pdone = pdone ∧
     (∀ o < 64, u.readPlace (.history t (64 * (q % 256) + o)) = s.readPlace (.pick t o)) ∧
     (∀ x : Place, x.data → (∀ o < 64, x ≠ .history t (64 * (q % 256) + o)) → u.readPlace x = s.readPlace x) ∧
     (∀ d o, d < 4 → neighbour s.part t d = some o → ⟨t, o, ⟨joined, pdone, s.here.slack, q⟩⟩ ∈ u.picks) ∧
     Retires s u [] [] 4 (s.me.pcNow + 4) s.me
   (¬root → ∀ i, (i = .pjoin ∨ i = .padv ∨ i = .pleave) → exec i s = .next (s.trap 0x02 (wordOf i))) ∧
   (root → (s.pickLaunch t s.cur.2 = none ∨ s.here.joined = true) → exec .pjoin s = .next (s.trap 0x0C (2 <<< 62))) ∧
   (root → s.inPicks t s.cur.2 = none →
     exec .padv s = .next (s.trap 0x0C (2 <<< 62)) ∧ exec .pleave s = .next (s.trap 0x0C (2 <<< 62))) ∧
   (root → (s.pickLaunch t s.cur.2).isSome = true → s.here.joined = false →
     (still → publishes .pjoin 0 true s.here.pdone) ∧ (¬still → exec .pjoin s = .next (s.parkMe .ldst))) ∧
   (∀ l, root → s.inPicks t s.cur.2 = some l →
     (¬still → exec .padv s = .next (s.parkMe .ldst) ∧ exec .pleave s = .next (s.parkMe .ldst)) ∧
     (still → publishes .pleave (p + 1) true true) ∧
     (still →
       let held := s.here.phold.getLsbD 63 = true ∧ s.here.phold.toNat % 2 ^ 60 = p
       (held → exec .padv s = .next (s.parkMe .hold)) ∧
       (¬held → s.here.slack = false → (s.lagging t l p).isSome = true → exec .padv s = .next (s.parkMe .neighbours)) ∧
       (¬held → (s.here.slack = true ∨ s.lagging t l p = none) → publishes .padv (p + 1) true false)))) ∧
  (∀ (xd xs1 xs2 : BitVec 5) (s : State), Free [xs1, xs2] [xd] s →
   let t := s.cur.1
   let a := s.me.getX xs1
   let dx := (a.extractLsb' 0 8).toInt
   let dy := (a.extractLsb' 8 8).toInt
   let x := (t.toNat % 64 : Int) + dx
   let y := (t.toNat / 64 : Int) + dy
   let onDie := 0 ≤ x ∧ x < 64 ∧ 0 ≤ y ∧ y < s.part.rows
   let o := BitVec.ofNat 12 (y.toNat * 64 + x.toNat)
   let r := exec (.pread xd xs1 xs2) s
   let off := a.toNat % 2 ^ 16
   (s.inPicks t s.cur.2 = none → r = .next (s.trap 0x0C (BitVec.ofNat 64 (2 * 2 ^ 62 + off)))) ∧
   (∀ l, s.inPicks t s.cur.2 = some l →
     (¬onDie → r = .next (s.trap 0x0C (BitVec.ofNat 64 off))) ∧
     (onDie → inRect l.rect o = false → r = .next (s.trap 0x0C (BitVec.ofNat 64 (2 ^ 62 + off)))) ∧
     (onDie → inRect l.rect o = true → s.me.ld < 16 → ∃ u q, r = .next u ∧
       q.kind = .pread o ((s.me.getX xs2).extractLsb' 0 3) (a.extractLsb' 0 16) ((s.here.pick : Int) - (dx.natAbs + dy.natAbs)) ∧
       q.dst = s.me.dstX xd ∧ q.phase = .issued ∧
       Retires s u [xs1, xs2] [] 4 (s.me.pcNow + 4) (s.me.sent q 1 0) ∧ OnlyMe s u)))

/-- R261, R263, R265, R272, R382: a pick update reaches a neighbour, after earlier ones of its sender; the owner of a PREAD
answers, and the reply writes xd and `pstat` and lowers ld. A slack owner answers STALE with its last word, one that is done and
behind the pick DONE with its last word, a pick before 0 BEFORE with the word of pick 0; a pick not published yet waits, one
that is recycled fails with cause 0x0C and kind 3, and any other answers with the word of its slot. R269, R270, R306: a shuttle
starts on the lowest FREE context of its launch, with the registers it carries, and its source becomes FREE with end status 0;
no shuttle passes an earlier one of its way (R251, R253); where no context is FREE and four arrivals are queued it is refused
and returns behind the packets that its tile sent before, and its source waits 64 × 2^k cycles and sends it again. One for a
stopped launch is spilled, behind the shuttles of its launch that were queued before the stop, which are spilled ahead of it,
one a step (the model's choice, log 68), so that spills keep arrival order. It says where these complete: pickUpdate,
preadRequest, preadReply, shuttle, shuttleRefusal, shuttleResend. -/
def Obligations.MeshSteps : Prop :=
  (∀ (t : TileNo) (c : CtxNo) (n : Nat) (s : State),
   (∀ u d, s.picks[n]? = some u → (∀ v ∈ s.picks.take n, ¬(v.fromTile = u.fromTile ∧ v.dest = u.dest)) →
     (List.range 4).find? (fun d => neighbour s.part u.dest d == some u.fromTile) = some d →
     ∃ w, exec (.pickUpdate n) s = .next w ∧ (w.tile u.dest).nbr d = u.nbr ∧ w.picks = s.picks.eraseIdx n ∧ SameMemory s w) ∧
   (∀ q o w off slot, s.req t c n = some q → q.kind = .pread o w off slot → q.phase = .issued →
     s.mayPerform t c q q.elems = true →
     (∀ ph, (s.tile o).answer w slot = some ph →
       exec (.preadRequest t c n) s = .next (s.modReq t c q.seq fun q => { q with phase := ph })) ∧
     ((s.tile o).answer w slot = none → exec (.preadRequest t c n) s = .next s)) ∧
   (∀ q o w off slot v f r sync, s.req t c n = some q → (∀ q' ∈ (s.ctx t c).reqs, q'.seq = q.seq → q' = q) →
     q.kind = .pread o w off slot → q.phase = .answered v f → q.dst = .x r sync →
     ∃ u, exec (.preadReply t c n) s = .next u ∧ (r ≠ 0 → (u.ctx t c).getX r = v) ∧
       (u.ctx t c).pstat = (((s.ctx t c).pstat &&& 0xF8FF) ||| (f.zeroExtend 16 <<< 8) ||| f.zeroExtend 16) ∧
       (u.ctx t c).ld = (s.ctx t c).ld - 1 ∧ OnlyCtx s u t c ∧ SameMemory s u) ∧
   (∀ q o w off slot, s.req t c n = some q → (∀ q' ∈ (s.ctx t c).reqs, q'.seq = q.seq → q' = q) →
     q.kind = .pread o w off slot → q.phase = .recycled →
     exec (.preadReply t c n) s =
       .next ((s.endReq t c q id).late t c ⟨0x0C, 0xC000000000000000 ||| off.zeroExtend 64, none, some (q.num, q.pc), q.sup⟩)) ∧
   (∀ (tl : Tile) (w : BitVec 3) (q : Int),
     let hist (k : Nat) : Word := leWord (Memory.readBytes tl.hist (64 * (k % 256) + 8 * w.toNat) 8)
     let ans (v : Word) (f : BitVec 3) : Prop := tl.answer w q = some (.answered v f)
     (tl.slack = true → tl.joined = true → ans (hist tl.pick) 4) ∧
     (tl.slack = true → tl.joined = false → ans (leWord (Memory.readBytes tl.pickWin (8 * w.toNat) 8)) 4) ∧
     (tl.slack = false → tl.joined = false → tl.answer w q = none) ∧
     (tl.slack = false → tl.joined = true →
       (tl.pdone = true → tl.pick < q → ans (hist tl.pick) 2) ∧
       (tl.pdone = false → tl.pick < q → tl.answer w q = none) ∧
       (q < 0 → ans (hist 0) 1) ∧
       (0 ≤ q → q + 256 ≤ tl.pick → tl.answer w q = some .recycled) ∧
       (0 ≤ q → q ≤ tl.pick → tl.pick < q + 256 → ans (hist q.toNat) 0)))) ∧
  (∀ (n : Nat) (s : State) (sh : Shuttle),
   let t := sh.fromTile
   let c := sh.fromCtx
   (∀ d r, s.shuttles[n]? = some sh → sh.refused = false → (s.tile sh.dest).launchStopped sh.launch = false →
     s.shuttleFirst n sh = true → (∃ l, (s.tile sh.dest).residentId sh.launch = some l ∧ l.ended = false) →
     (s.tile sh.dest).freeCtx sh.launch = some (d, r) → (s.tile sh.dest).stop.getLsbD d.toNat = false → sh.dest ≠ t →
     (s.ctx t c).state = .parked → (s.tile t).arrivals = [] →
     ∃ u, exec (.shuttle n) s = .next u ∧ u.shuttles = s.shuttles.eraseIdx n ∧
       (u.ctx sh.dest d).state = .ready ∧ (u.ctx sh.dest d).pc = sh.pc ∧ (u.ctx sh.dest d).fstat = sh.fstat ∧
       (u.ctx sh.dest d).frnd = sh.frnd ∧ (u.ctx sh.dest d).qmode = sh.qmode ∧ (u.ctx sh.dest d).livemask = sh.livemask ∧
       (u.ctx sh.dest d).pwatch = sh.pwatch ∧ (u.ctx sh.dest d).getX 3 = 0xFFFFFFFFFF000000 ∧
       (∀ r : BitVec 5, r ≠ 0 → r ≠ 3 → r.toNat < 24 → (u.ctx sh.dest d).getX r = Assoc.get 0 r.toNat sh.regs) ∧
       (u.ctx t c).state = .free ∧ (u.ctx t c).endStatus = 0) ∧
   (s.shuttles[n]? = some sh → sh.refused = false → s.shuttleFirst n sh = true →
     (s.tile sh.dest).launchStopped sh.launch = false →
     (∃ l, (s.tile sh.dest).residentId sh.launch = some l ∧ l.ended = false) →
     (s.tile sh.dest).freeCtx sh.launch = none → 4 ≤ (s.tile sh.dest).arrivals.length →
     exec (.shuttle n) s = .next { s with shuttles := s.shuttles.eraseIdx n ++ [{ sh with refused := true }] }) ∧
   (s.shuttles[n]? = some sh → sh.refused = false → s.shuttleFirst n sh = true → (s.tile sh.dest).launchStopped sh.launch = true →
     (s.tile sh.dest).sspill < 8 →
     (∀ a v, (s.tile sh.dest).arrivals.find? (·.launch == sh.launch) = some a → s.spillShuttle sh.dest a = (v, true) →
       exec (.shuttle n) s = .next (v.modTile sh.dest fun tl => { tl with arrivals := tl.arrivals.erase a })) ∧
     (∀ v, (∀ a ∈ (s.tile sh.dest).arrivals, a.launch ≠ sh.launch) → s.spillShuttle sh.dest sh = (v, true) → sh.dest ≠ t →
       (v.tile t).arrivals = [] → (v.ctx t c).state = .parked →
       ∃ u, exec (.shuttle n) s = .next u ∧ u.shuttles = v.shuttles.eraseIdx n ∧ (u.ctx t c).state = .free ∧
         (u.ctx t c).endStatus = 0 ∧ (u.tile sh.dest).sspill = (v.tile sh.dest).sspill)) ∧
   (s.shuttles[n]? = some sh → sh.refused = true → s.shuttleFirst n sh = true → (s.tile t).stop.getLsbD c.toNat = false → (s.ctx t c).state = .parked →
     ∀ r, (s.ctx t c).hop = .sent r →
     let k := min 6 (r + 1)
     ∃ u, exec (.shuttleRefusal n) s = .next u ∧ u.shuttles = s.shuttles.eraseIdx n ∧
       (u.ctx t c).hop = .backoff { sh with refused := false } k (s.time + 64 * 2 ^ k) ∧ SameMemory s u) ∧
   (∀ r due, (s.ctx t c).hop = .backoff sh r due → due ≤ s.time → (s.ctx t c).state = .parked →
     ∃ u, exec (.shuttleResend t c) s = .next u ∧ u.shuttles = s.shuttles ++ [sh] ∧ (u.ctx t c).hop = .sent r ∧ SameMemory s u))

/-- R269 to R271, R357: HOP of a context that is no group root to another tile of its launch, with its counters 0, sends a
shuttle with the registers that `livemask` names and waits; to its own tile it ends at once; to a tile without a task of the
launch it raises cause 0x11, to no on-chip address 0x04, and for a group root 0x02. It says where these complete: hop. -/
def Obligations.HopIssue : Prop := ∀ (xs1 : BitVec 5) (s : State), Free [xs1] [] s →
  let t := s.cur.1
  let c := s.cur.2
  let a := s.me.getX xs1
  let r := exec (.hop xs1) s
  (s.isRoot t c = true → r = .next (s.trap 0x02 (wordOf (.hop xs1)))) ∧
  (s.isRoot t c = false →
    ((∀ o off self, target s.part t a ≠ .chip o off self) → r = .next (s.trap 0x04 a)) ∧
    (∀ o off self, target s.part t a = .chip o off self →
      (s.launchOf t c = none → r = .next (s.trap 0x11 a)) ∧
      (∀ l, s.launchOf t c = some l →
        (s.hasTask o l.id = false → r = .next (s.trap 0x11 a)) ∧
        (s.hasTask o l.id = true → o = t →
          ∃ u, r = .next u ∧ Retires s u [xs1] [] 4 (s.me.pcNow + 4) s.me ∧ OnlyMe s u) ∧
        (s.hasTask o l.id = true → o ≠ t → s.me.quiet = false → r = .next (s.parkMe .drained)) ∧
        (s.hasTask o l.id = true → o ≠ t → s.me.quiet = true →
          ∃ u sh, r = .next u ∧ u.shuttles = s.shuttles ++ [sh] ∧ sh.fromTile = t ∧ sh.fromCtx = c ∧ sh.dest = o ∧
            sh.launch = l.id ∧ sh.pc = s.me.pc + 4 ∧ sh.frnd = s.me.frnd ∧ sh.fstat = s.me.fstat ∧
            sh.livemask = s.me.livemask ∧ sh.pwatch = s.me.pwatch ∧ sh.qmode = s.me.qmode ∧ sh.refused = false ∧
            (∀ n v, (n, v) ∈ sh.regs ↔ (n, v) ∈ s.me.x ∧ 1 ≤ n ∧ n < 24 ∧ s.me.livemask.getLsbD n = true) ∧
            u.me.state = .parked ∧ u.me.hop = .sent 0 ∧ (∀ r, u.me.getX r = s.me.getX r) ∧ SameMemory s u))))

/-- R300, R311, R394: TRET raises cause 0x02 in task mode. In supervisor mode, with no record pending, the monitor ends: context
0 leaves supervisor mode and the context of the closed record, which is HELD, goes on at its PC when the action is 0, or is
killed when it is 1, also where the monitor has resumed it meanwhile; an interrupt's record holds no context. Context 0's own
task, when the closed record is its own, goes on with action 0 and is killed with any other. With a record pending the monitor
serves it at once, after an interrupt as after a synchronous cause. It says where these complete: tret. -/
def Obligations.TrapReturn : Prop := ∀ s : State,
  let t := s.cur.1
  let c := BitVec.ofNat 4 (s.here.tctx.toNat % 16)
  let act := s.here.tctx.toNat / 2 ^ 8 % 4
  let held := s.here.tcause.getLsbD 63 = false ∧ (s.here.ctx c).served = true ∧ c ≠ 0 ∧ (s.here.ctx c).state = .held ∧
    (s.here.ctx c).sup = false ∧ ∀ x ∈ s.here.recs, x.intr = true ∨ x.ctx ≠ c
  let sound := s.here.tstat.getLsbD 5 = false ∧ (s.here.ctx c).dead = false
  let status : Word := 0x8000000000000000 ||| (s.here.tcause &&& 0xFF)
  let own := s.here.tcause.getLsbD 63 = false ∧ c = 0 ∧ s.me.served = true ∧ s.me.under = .held ∧ s.here.recs = []
  (s.me.sup = false → exec .tret s = .next (s.trap 0x02 (wordOf .tret))) ∧
  (s.me.sup = true → s.cur.2 = 0 →
    (s.here.recs = [] → (s.here.tcause.getLsbD 63 = true ∨ act = 2 ∨ act = 3 ∨ held) → s.me.under = .ready →
      s.here.stop.getLsbD 0 = false → (held → act = 0 → sound) → (held → act ≠ 1) →
      (s.here.tcause.getLsbD 63 = true ∨ c ≠ 0) →
      ∃ u, exec .tret s = .next u ∧ u.here.monitor = false ∧ u.me.sup = false ∧ u.me.state = .ready ∧
        u.me.pc = s.me.pc ∧ SameMemory s u ∧
        (held → act = 0 → s.here.stop.getLsbD c.toNat = false → (u.ctx t c).state = .ready ∧ (u.ctx t c).pc = (s.ctx t c).pc)) ∧
    (held → act = 1 → (∀ l, s.here.residentOf c = some l → l.root ≠ c) → s.here.recs = [] →
      s.me.under = .ready → s.here.stop.getLsbD 0 = false →
      ∃ u, exec .tret s = .next u ∧ (u.ctx t c).state = .ending ∧
        (u.ctx t c).killStatus = status ∧ u.me.sup = false) ∧
    (s.here.tcause.getLsbD 63 = false → c ≠ 0 → (s.here.ctx c).served = true → (s.here.ctx c).sup = false →
      ((s.here.ctx c).state = .ready ∨ (s.here.ctx c).state = .parked) → act = 1 →
      (∀ l, s.here.residentOf c = some l → l.root ≠ c) → s.here.recs = [] →
      s.me.under = .ready → s.here.stop.getLsbD 0 = false →
      ∃ u, exec .tret s = .next u ∧ (u.ctx t c).state = .ending ∧ (u.ctx t c).killStatus = status ∧ u.me.sup = false) ∧
    (own → act = 0 → sound → ∃ u, exec .tret s = .next u ∧ u.here.monitor = false ∧ u.me.sup = false ∧
      u.me.state = (if s.here.stopDue 0 then .stopped else .ready) ∧ u.me.pc = s.me.pc ∧ SameMemory s u) ∧
    (own → act ≠ 0 → s.here.waitStart = none → s.here.arrivals = [] →
      ∃ u, exec .tret s = .next u ∧ u.here.monitor = false ∧ u.me.sup = false ∧
        ((u.me.state = .ending ∧ u.me.killStatus = status) ∨ (u.me.state = .free ∧ u.me.endStatus = status))) ∧
    (∀ r rest, s.here.recs = r :: rest → (s.here.tcause.getLsbD 63 = true ∨ (held ∧ act = 0 ∧ sound)) →
      s.here.quarantined = false → s.me.posted = none →
      ∃ u, exec .tret s = .next u ∧ u.here.monitor = true ∧ u.here.recs = rest ∧ u.here.tval = r.val ∧
        u.here.tcause = (if r.intr then 0x8000000000000000 else 0) ||| r.code.zeroExtend 64 ∧
        u.here.tctx = r.ctx.zeroExtend 64 ∧ u.me.sup = true ∧ u.me.monPc = (s.here.tvec &&& 0xFFFC) ∧ SameMemory s u ∧
        (held → s.here.stop.getLsbD c.toNat = false → (u.ctx t c).state = .ready)))

/-- R105, R108, R109, R415, R217, R270, R391, R417: what wakes or ends a context. A parked context whose condition holds, or
whose WRS.STO has lasted 512 cycles, becomes READY: after its WAITC, which retires and holds it for 4 cycles more (R415), and at
its instruction for any other reason, which is the model's choice (log 61); a killed one whose counters are 0 becomes FREE with
its kill status. No register of it and no byte of memory changes. R109, R210, R212, R261, R266: what ends a park with a trap,
exactly at the parked instruction: cause 0x0A when a watched park has lasted 2^PWLOG cycles, cause 0x09 with the job when the
promise of a JWAIT has passed, cause 0x0B with the lagging neighbour, its pick and the direction when a PADV has waited
2^`pwatch` cycles. None is raised while the release of a granted AMO of the context is to be sent (R169). It says where these
complete: parkWake, parkWatchdog, endingToFree, wrsStoTimeout, jobPromiseMissed, pickStall. -/
def Obligations.Parks : Prop :=
  (∀ (t : TileNo) (c : CtxNo) (s : State),
   let k := s.ctx t c
   let ready (i : Instr) (woken : Bool) : Prop := ∃ u, exec i s = .next u ∧
     u.ctx t c = { k with state := .ready, park := none, woken := woken } ∧ OnlyCtx s u t c ∧ SameMemory s u ∧
     ∀ h ∈ u.homes, (t, c) ∉ h.watchers ∧ (t, c) ∉ h.watches
   (∀ p, k.state = .parked → k.park = some p → s.wakes t c p.reason = true → (∀ a b d e, p.reason ≠ .waitc a b d e) →
     ready (.parkWake t c) p.reason.latches) ∧
   (∀ p a b d e, k.state = .parked → k.park = some p → p.reason = .waitc a b d e → s.wakes t c p.reason = true →
     ∃ u, exec (.parkWake t c) s = .next u ∧ OnlyCtx s u t c ∧ SameMemory s u ∧ (u.ctx t c).state = .ready ∧
       (u.ctx t c).park = none ∧ (u.ctx t c).pcNow = k.pcNow + 4 ∧ (u.ctx t c).instret = k.instret + 1 ∧
       (u.ctx t c).busy = s.time + 4 ∧ (u.ctx t c).x = k.x ∧ (u.ctx t c).v = k.v ∧ (u.ctx t c).k = k.k ∧ (u.ctx t c).full = k.full) ∧
   (∀ p, k.park = some p → p.reason = .wrs true → p.since + 512 ≤ s.time → ready (.wrsStoTimeout t c) true) ∧
   (k.sup = false → k.state = .ending → k.quiet = true → k.hop = .none → (s.tile t).arrivals = [] →
     ∃ u, exec (.endingToFree t c) s = .next u ∧
       u.ctx t c = { k with state := .free, under := .free, endStatus := k.killStatus, killStatus := 0 } ∧
       OnlyCtx s u t c ∧ ∀ p : Place, p.data → (∀ off, p ≠ .heddle t off) → u.readPlace p = s.readPlace p)) ∧
  (∀ (t : TileNo) (c : CtxNo) (s : State) (p : Park),
   let k := s.ctx t c
   k.park = some p →
   (k.amoHeld = true → exec (.parkWatchdog t c) s = .next s ∧ exec (.jobPromiseMissed t c) s = .next s ∧
     exec (.pickStall t c) s = .next s) ∧
   (k.amoHeld = false →
   (k.state = .parked → p.reason.watched = true → p.since + 2 ^ (s.tile t).pwlog ≤ s.time → k.posted = none →
     exec (.parkWatchdog t c) s = .next (s.trapCtx t c 0x0A 0 k.pcNow 0 5)) ∧
   (∀ j q, p.reason = .promise j q → q.toNat ≤ s.time → (∃ r, k.job j = some r ∧ r.done = false) →
     exec (.jobPromiseMissed t c) s = .next (s.trapCtx t c 0x09 (j.zeroExtend 64) k.pcNow 0 5)) ∧
   (p.reason = .neighbours → (s.tile t).slack = true → exec (.pickStall t c) s = .next s) ∧
   (∀ l o d, p.reason = .neighbours → (s.tile t).slack = false → p.since + 2 ^ k.pwatch ≤ s.time → s.pickLaunch t c = some l →
     s.lagging t l (s.tile t).pick = some (o, d) →
     let n := (s.tile t).nbr d
     exec (.pickStall t c) s = .next (s.trapCtx t c 0x0B
       (BitVec.ofNat 64 ((if n.joined then n.pick % 2 ^ 32 else 2 ^ 32 - 1) * 2 ^ 32 + d * 2 ^ 12 + o.toNat)) k.pcNow 0 5))))

/-- R101, R103, R305, R170: what loom time does to a tile. A rotation boundary gives the unpinned slots of the table to the
launches and leaves the pinned ones; TCMP, once reached, is cleared and raises interrupt 2 with its value; a grant held for 256
cycles is released and its word's FIFO goes on. That an interrupt already pending keeps its `tval` is the model's choice (log
70). R101 to R103: at a rotation boundary the unpinned slots go to the launches that have a live context. Without one their
entries become invalid. Each entry names a launch and a live context of it; where every launch has a whole slot by its weight,
it gets that whole number or one more, the one more by the largest remainders; and the contexts of a launch differ by at most
one slot. It says where these complete: rotationBoundary, leaseExpiry, loomTimeCompare. -/
def Obligations.TileTime : Prop :=
  (∀ (t : TileNo) (c : CtxNo) (s : State),
   (s.time % 16 = 0 → ∃ u, exec (.rotationBoundary t) s = .next u ∧
     (∀ n, (Assoc.get 0 n (s.tile t).slots).getLsbD 9 = true →
       Assoc.get 0 n (u.tile t).slots = Assoc.get 0 n (s.tile t).slots) ∧
     u = s.modTile t (fun tl => { tl with slots := (u.tile t).slots, lastSlot := (u.tile t).lastSlot }) ∧ SameMemory s u) ∧
   (let v := (s.tile t).tcmp
    v ≠ 0 → v.toNat ≤ s.time →
     exec (.loomTimeCompare t) s = .next ((s.modTile t fun tl => { tl with tcmp := 0 }).interrupt t 2 v)) ∧
   (∀ g, (s.ctx t c).grant = some g → g.since + 256 ≤ s.time → ∃ u, exec (.leaseExpiry t c) s = .next u ∧
     u.ctx t c = { s.ctx t c with grant := none } ∧ OnlyCtx s u t c ∧ SameMemory s u ∧
     ∀ h ∈ u.homes, h.word = g.word → ∀ e ∈ h.fifo, ¬(e.tile = t ∧ e.ctx = c ∧ e.seq = g.seq ∧ e.granted = true))) ∧
  (∀ (t : TileNo) (s : State), s.time % 16 = 0 →
   let tl := s.tile t
   let free := (List.range 16).filter fun n => !(Assoc.get 0 n tl.slots).getLsbD 9
   let live (r : Resident) : List CtxNo := r.members.filter fun c => (tl.ctx c).state.live
   let rs := tl.residents.filter fun r => !r.ended && live r != []
   let total := (rs.map (·.weight)).sum
   let whole (r : Resident) : Nat := free.length * r.weight / total
   let rest (r : Resident) : Nat := free.length * r.weight % total
   let word (r : Resident) (c : CtxNo) : Word := (r.index.zeroExtend 64 <<< 10) ||| 0x100 ||| c.zeroExtend 64
   ∃ u, exec (.rotationBoundary t) s = .next u ∧
     let entry (n : Nat) : Word := Assoc.get 0 n (u.tile t).slots
     let count (r : Resident) : Nat := free.countP fun n => (entry n).toNat / 2 ^ 10 % 4 == r.index.toNat
     let has (r : Resident) (c : CtxNo) : Nat := free.countP fun n => entry n == word r c
     (rs = [] → ∀ n ∈ free, entry n = (Assoc.get 0 n tl.slots &&& ~~~0x100)) ∧
     (rs ≠ [] → (∀ r ∈ rs, 0 < r.weight) →
       (∀ n ∈ free, ∃ r ∈ rs, ∃ c ∈ live r, entry n = word r c) ∧
       ((rs.map (·.index)).Nodup → (∀ r ∈ rs, total ≤ free.length * r.weight) → ∀ r ∈ rs,
         (count r = whole r ∨ count r = whole r + 1) ∧
         (∀ r' ∈ rs, count r = whole r + 1 → count r' = whole r' → rest r' ≤ rest r) ∧
         (r.members.Nodup → ∀ c ∈ live r, ∀ c' ∈ live r, has r c ≤ has r c' + 1))))

/-- R100, R101, R104, R408: where the owner of a cycle's slot cannot issue, the first context after it that can, in ascending
order and wrapping, takes the slot; a slot without an owner is searched from context 0; and no issue changes the slot table. A
context can issue that is READY and occupied neither by a cycle count nor by an instruction that waits for registers or room:
that such an instruction takes no slot is the model's reading (log 52). A context whose STOP bit is set is left out, since what
stops it is log 21; so is one with a store to its own v registers in flight (R408). -/
def Obligations.SlotLending : Prop := ∀ (tl : Tile) (t : TileNo) (s : State),
  let e := Assoc.get 0 (s.time % 16) tl.slots
  let owner : CtxNo := e.extractLsb' 0 4
  let first (from' : CtxNo) : Option CtxNo :=
    ((List.range 16).map fun i => from' + BitVec.ofNat 4 i).find? (tl.mayIssue s.time t)
  (∀ c : CtxNo, tl.stop.getLsbD c.toNat = false → (∀ q ∈ (tl.ctx c).reqs, q.ownStore t c = false) →
    (tl.mayIssue s.time t c = true ↔ (tl.ctx c).state = .ready ∧ (tl.ctx c).held = false ∧ (tl.ctx c).busy ≤ s.time)) ∧
  (tl.quarantined = false →
    (e.getLsbD 8 = true → tl.mayIssue s.time t owner = true → tl.choose s.time t = some owner) ∧
    (e.getLsbD 8 = true → tl.mayIssue s.time t owner = false → tl.choose s.time t = first (owner + 1)) ∧
    (e.getLsbD 8 = false → tl.choose s.time t = first 0)) ∧
  (∀ i u, s.issue t = .instr i u → ∀ o, (u.tile o).slots = (s.tile o).slots)

/-- R158, R159, R162, R174, R319, R326, R328: a BAR2 or flag window access that is served reads or writes the bytes it names and
is answered, of BAR2 while the stacks have power; a write to a flag word where an atomic waits joins its FIFO; one beyond the
memory, or without the T bit in an assigned package, is not served and changes nothing else. That an access not served, before
stage 5 or beyond the window, is answered Unsupported Request, that a write is answered done, and that a host flag write joins a
FIFO are the model's choice (log 32), as is that after TCRIT BAR2 is not served while the flag window still is (log 34). R174: a
host AtomicOp that is served, on an aligned operand, answers the old value and leaves the new one, at once where no entry of the
word holds it back. It says where these complete: hostAtomicop, hostBar2Access, hostFlagWindowAccess. -/
def Obligations.HostMemory : Prop :=
  (∀ (pa : BitVec 40) (off : BitVec 22) (n : Nat) (bs : List Byte) (tbit : Bool) (s : State),
   (s.mainServed tbit = true → s.part.inMemory pa.toNat n = true →
     exec (.hostBar2Access (.read n) pa tbit) s = .next (s.answer (.data (s.readPhys pa.toNat n)))) ∧
   (s.mainServed tbit = true → s.part.inMemory pa.toNat bs.length = true →
     ∃ u, exec (.hostBar2Access (.write bs) pa tbit) s = .next u ∧ u.out = s.out ++ [.done] ∧
       u.readPhys pa.toNat bs.length = bs ∧ u.flag = s.flag ∧ u.tiles = s.tiles) ∧
   ((s.mainServed tbit = false ∨ s.part.memEnd < pa.toNat + n) →
     exec (.hostBar2Access (.read n) pa tbit) s = .next (s.answer .unsupported)) ∧
   ((s.mainServed tbit = false ∨ s.part.memEnd < pa.toNat + bs.length) →
     exec (.hostBar2Access (.write bs) pa tbit) s = .next (s.answer .unsupported)) ∧
   (s.memServed tbit = true → off.toNat + n ≤ 0x400000 → (∀ h ∈ s.homes, ∀ e ∈ h.fifo, e.poster ≠ some .host) →
     exec (.hostFlagWindowAccess (.read n) off tbit) s = .next (s.answer (.data (Memory.readBytes s.flag off.toNat n)))) ∧
   (s.memServed tbit = true → off.toNat + bs.length ≤ 0x400000 → (∀ h ∈ s.homes, h.fifo = []) →
     ∃ u, exec (.hostFlagWindowAccess (.write bs) off tbit) s = .next u ∧ u.out = s.out ++ [.done] ∧
       Memory.readBytes u.flag off.toNat bs.length = bs ∧ u.backing = s.backing) ∧
   (s.memServed tbit = true → off.toNat % 8 = 0 → bs.length = 8 → s.fifoEmpty (.flag off.toNat) = false →
     s.fifoFull (.flag off.toNat) = false →
     ∃ u e, exec (.hostFlagWindowAccess (.write bs) off tbit) s = .next u ∧ u.out = s.out ++ [.done] ∧ u.flag = s.flag ∧
       (u.home (.flag off.toNat)).fifo = (s.home (.flag off.toNat)).fifo ++ [e] ∧
       e.store = some (bs.zipIdx.map fun b => (b.2, b.1)) ∧ e.poster = some .host) ∧
   ((s.memServed tbit = false ∨ 0x400000 < off.toNat + n) →
     exec (.hostFlagWindowAccess (.read n) off tbit) s = .next (s.answer .unsupported))) ∧
  (∀ (op : HostAtomic) (pa : BitVec 40) (tbit : Bool) (s : State),
   let a := pa.toNat
   let n := hostWidth op
   let p := if inFlag a n then Place.flag (a - flagBase) else .main (s.part.loc a false)
   let old := leNat (s.readPlaces p n)
   let new := match op with
     | .fetchAdd _ v => (old + v.toNat) % 2 ^ (8 * n)
     | .swap _ v => v.toNat % 2 ^ (8 * n)
     | .cas _ x y => if old = x.toNat % 2 ^ (8 * n) then y.toNat % 2 ^ (8 * n) else old
   let served := if inFlag a n then s.memServed tbit else s.mainServed tbit
   (served = false → exec (.hostAtomicop op pa tbit) s = .next { s with out := s.out ++ [.unsupported] }) ∧
   (served = true → a % n = 0 → (s.part.inMemory a n = true ∨ inFlag a n = true) → s.LinesOk →
     (s.home p.word8).fifo = [] →
     ∃ u, exec (.hostAtomicop op pa tbit) s = .next u ∧ u.out = s.out ++ [.value (BitVec.ofNat 64 old)] ∧
       leNat (u.readPlaces p n) = new ∧
       ∀ p' : Place, p'.data → (∀ i < n, p' ≠ p.add i) → u.readPlace p' = s.readPlace p'))

/-- R159, R165, R193, R301, R302, R327, R409: a request in flight that its address refuses, with room in the log, is refused
late: the log holds it with the cause and the address, it leaves its word's FIFO, and the cause reaches its context. Of a vector
load the lowest refused element is reported, once it is settled of every element before it that none is refused (R165, R179).
That an uncorrectable error in a table word refuses the request, and then sets the package error MEM, is read from the manual by
inference (log 23). A read that an uncorrectable error refuses has reached its line (R159). R303: REQCTL of the monitor replays
a refused request of the context it holds, under its number, or drops it, and its counter falls. It says where these complete:
lateRefusal, reqctlReplay, reqctlDrop. -/
def Obligations.RefusedRequests : Prop :=
  (∀ (t : TileNo) (c : CtxNo) (n : Nat) (s : State) (q : Req) (cause : BitVec 8) (a : Word),
   (∀ l e r, q.kind = .vload → q.elems = l ++ e :: r → e.done = false → s.elemRefusal t c q e = some cause →
     (∀ x ∈ l, x.done = true ∨ (s.elemRefusal t c q x = none ∧ s.refusalOpen t c q x = false)) →
     s.refusal t c q = some (cause, e.addr)) ∧
   (s.req t c n = some q → q.phase = .issued → (∀ h, q.kind ≠ .hload h) → q.kind ≠ .barrier → q.logged = true →
   s.refusal t c q = some (cause, a) →
   let drop (h : Home) : Home :=
     { h with fifo := h.fifo.filter fun e => !(e.tile == t && e.ctx == c && e.seq == q.seq && !e.granted) }
   let bad := target s.part t a == .mem && (s.translation t (s.tag t c) a).isNone && (s.walk (s.tag t c) a).isNone &&
     (s.walkReads (va48 a) (s.tag t c).root 3 0).any s.badPhys
   let f0 := if bad then s.memError else s
   let f := if cause = 0x10 then f0.touchAt t c q a else f0
   exec (.lateRefusal t c n) s = .next
     ((({ f with homes := f.homes.map drop } : State).modReq t c q.seq fun q' =>
         { q' with phase := .refused cause a, logged := true, slot := q.slot }).late t c
       ⟨cause, a, some (q.seq, q.slot), some (q.num, q.pc), q.sup⟩))) ∧
  (∀ (t o : TileNo) (c c' : CtxNo) (n : Nat) (s : State) (q r : Req),
   s.ctl t c n 0x170 = some (q, o) → s.reqctl o q.data = some (c', r) →
   (q.data.toNat / 2 ^ 16 % 4 = 1 →
     exec (.reqctlReplay t c n) s = .next
       (((s.modReq o c' r.seq Req.again).modCtx o c' fun k => k.forgive r.seq).endReq t c q id)) ∧
   (q.data.toNat / 2 ^ 16 % 4 = 2 →
     exec (.reqctlDrop t c n) s = .next ((s.endReq o c' r fun k => (k.forgive r.seq).drop r).endReq t c q id)) ∧
   (q.data.toNat / 2 ^ 16 % 4 ∉ [1, 2] → exec (.reqctlDrop t c n) s = .next (s.endReq t c q id)))

/-- R161, R189, R159: MFLUSH and MINV work through the pages of their range (one page of 64 KiB a step, the model's choice, log
36), those with attribute HV through the buffers; a line that leaves its buffer writes its dirty bytes to memory and no other
byte. R163 to R166, R327: a walk that a walker of the die works on ends: its entry leaves the region, a leaf enters the region's
and the tile's TLB, a refusal is not kept, and an uncorrectable error in a table word that it reads sets the package error MEM
(read from the manual by inference, log 23). R294, R295, R310, R311: a pending record is taken once the monitor does not run and
no FENCE.I occupies context 0 (read from the manual by inference, log 69). A corrected error is counted, saturating. An
uncorrectable error in data stays with its word until it is read; in a table entry or in registers it is counted, at the event
(read from the manual by inference, log 23), and handled by its row. It says where these complete: mflushDone, trapEntry,
uncorrectableError, correctedError, tableWalk, bufferEviction. -/
def Obligations.BuffersWalksErrors : Prop :=
  (∀ (t : TileNo) (c : CtxNo) (n line : Nat) (s : State) (q : Req) (e : Elem) (es : List Elem),
   (let l := Assoc.get Line.none line s.lines
    ∃ u, exec (.bufferEviction line) s = .next u ∧ (l.bytes ≠ [] → l.bytes.length ≤ 64 →
     Assoc.get Line.none line u.lines = Line.none ∧
     (∀ m, m ≠ line → Assoc.get Line.none m u.lines = Assoc.get Line.none m s.lines) ∧
     (∀ i, i < l.bytes.length → Memory.read u.backing (64 * line + i) =
       if l.dirty.getLsbD i then l.bytes.getD i 0 else Memory.read s.backing (64 * line + i)) ∧
     (∀ a, ¬(64 * line ≤ a ∧ a < 64 * line + l.bytes.length) → Memory.read u.backing a = Memory.read s.backing a))) ∧
   (s.req t c n = some q → (q.kind = .mflush ∨ q.kind = .minv) → q.phase = .issued → q.elems = e :: es →
     s.mayPerform t c q q.elems = true →
     let drop := q.kind == .minv
     let va := BitVec.ofNat 64 (e.addr.toNat + e.pos)
     let m := min (e.size - e.pos) (65536 - (e.addr.toNat + e.pos) % 65536)
     (e.size = 0 → (s.ctx t c).allBefore q.num = true →
       exec (.mflushDone t c n) s = .next ((s.flushAll drop).endReq t c q id)) ∧
     (e.size = 0 → (s.ctx t c).allBefore q.num = true → (∀ q' ∈ (s.ctx t c).reqs, q'.seq = q.seq → q' = q) → s.LinesOk →
       ∃ u, exec (.mflushDone t c n) s = .next u ∧ (u.ctx t c).st = (s.ctx t c).st - 1 ∧
         (u.ctx t c).reqs = (s.ctx t c).reqs.filter (fun q' => q'.seq != q.seq) ∧
         (∀ a, s.line a = none → Memory.read u.backing a = Memory.read s.backing a)) ∧
     (∀ x, e.size ≠ 0 → s.translated t va = true → s.translation t (s.tag t c) va = some x →
       exec (.mflushDone t c n) s = .next
         (if e.pos + m = e.size then (s.flushPage x va m drop).endReq t c q id
          else (s.flushPage x va m drop).modReq t c q.seq fun q => { q with elems := [{ e with pos := e.pos + m }] })))) ∧
  (∀ (t : TileNo) (q : QueueNo) (va : Word) (w : Walk) (s : State),
   let region (s : State) : Region := Assoc.get (⟨[], []⟩ : Region) (regionOf t) s.regions
   let bad := (s.walkReads (va48 va) w.tag.root 3 0).any s.badPhys
   (region s).pending.find? (fun w => w.started && w.tag.queue == q && w.base / 2 ^ 16 == va48 va / 2 ^ 16) = some w →
   (∀ x ∈ (region s).pending, x.serves w.tag w.base = true → x = w) →
   ∃ u, exec (.tableWalk t q va) s = .next u ∧ w ∉ (region u).pending ∧
     (s.walk w.tag va = none → (region u).tlb = (region s).tlb ∧ (u.tile t).tlb = (s.tile t).tlb) ∧
     (∀ e, s.walk w.tag va = some e → e ∈ (region u).tlb ∧ e ∈ (u.tile t).tlb) ∧
     u.hub = { s.hub with pkgMem := s.hub.pkgMem || bad } ∧ u.out = (if bad then s.out ++ [.msix 0] else s.out) ∧
     SameMemory s u) ∧
  (∀ (t : TileNo) (c : CtxNo) (s : State),
   (∀ r rest, (s.tile t).mayEnter = true → (s.tile t).quarantined = false → (s.tile t).recs = r :: rest →
     exec (.trapEntry t) s = .next ((s.modTile t fun tl => { tl with recs := rest }).takeRecord t r)) ∧
   exec (.correctedError t) s = .next (s.modTile t fun tl => { tl with corr := min 65535 (tl.corr + 1) }) ∧
   (∀ off, ∃ u, exec (.uncorrectableError (.ls t off)) s = .next u ∧ u.poisoned (.ls t off.toNat) = true ∧ SameMemory s u) ∧
   (∀ off, ∃ u, exec (.uncorrectableError (.istore t off)) s = .next u ∧ u.poisoned (.istore t off.toNat) = true ∧
     SameMemory s u) ∧
   (∀ n, ∃ u, exec (.uncorrectableError (.tidEntry t n)) s = .next u ∧ n.toNat ∈ (u.tile t).badTids ∧
     (u.tile t).uncorr = min 65535 ((s.tile t).uncorr + 1) ∧ SameMemory s u) ∧
   (∀ n, ∃ u, exec (.uncorrectableError (.regionTlbEntry t n)) s = .next u ∧
     (u.tile t).uncorr = min 65535 ((s.tile t).uncorr + 1) ∧
     (Assoc.get (⟨[], []⟩ : Region) (regionOf t) u.regions).tlb =
       (Assoc.get (⟨[], []⟩ : Region) (regionOf t) s.regions).tlb.eraseIdx n ∧ SameMemory s u) ∧
   (∃ u, exec (.uncorrectableError (.registers t c)) s = .next u ∧ (u.ctx t c).dead = true ∧
     (u.tile t).uncorr = min 65535 ((s.tile t).uncorr + 1) ∧ SameMemory s u ∧
     ((s.ctx t c).sup = false → c ≠ 0 → (u.ctx t c).state = .held)))

/-- R306 to R309, R257, R267, R268, R384, R391: a write of 1 to STOP bits sets them and stops each context at its instruction
boundary; a write of 0 clears them and lets each stopped context go on; one write that does both sets first and clears in a
second step (read from the manual by inference, log 21); DRAINED becomes 1 when nothing of the stopped contexts is left in
flight. A pick hold writes PHOLD on every tile of the domain, with EN = 1 and P one more than the highest pick, where a tile
that has not joined has pick 0, and 0 once every tile is restored; once a save is ordered it writes no hold until then (R23; in
one step: the model's choice, log 45); PEXCUSE makes the named neighbour slack. A context whose granted AMO has its release to
send stops after it (R169). It says where these complete: stopctlStop, stopctlRelease, drainComplete, phold, pexcuse. -/
def Obligations.StopAndHold : Prop := ∀ (t o : TileNo) (c : CtxNo) (n : Nat) (s : State) (q : Req),
  let v := q.data.extractLsb' 0 16
  let old := (s.tile o).stop
  (s.ctl t c n 0x180 = some (q, o) → v &&& ~~~old ≠ 0 →
    ∃ u, exec (.stopctlStop t c n) s = .next u ∧ (u.tile o).stop = (old ||| v) ∧ (u.tile o).drained = false ∧ SameMemory s u ∧
      ∀ m : CtxNo, (v &&& ~~~old).getLsbD m.toNat = true → (s.ctx o m).sup = false → (s.ctx o m).hop = .none →
        (s.ctx o m).posted = none → (s.ctx o m).amoHeld = false → (s.tile o).beforeBoundary m = false → ((s.ctx o m).state = .ready ∨ (s.ctx o m).state = .parked) →
        (u.ctx o m).state = .stopped ∧ (u.ctx o m).pc = (s.ctx o m).pc ∧ (u.ctx o m).x = (s.ctx o m).x) ∧
  (s.ctl t c n 0x180 = some (q, o) → v &&& ~~~old = 0 →
    ∃ u, exec (.stopctlRelease t c n) s = .next u ∧ (u.tile o).stop = v ∧
      ∀ m : CtxNo, (old &&& ~~~v).getLsbD m.toNat = true → (s.ctx o m).sup = false → (s.ctx o m).state = .stopped →
        (s.ctx o m).killStatus = 0 → (s.ctx o m).dead = false → (u.ctx o m).state = .ready ∧ (u.ctx o m).pc = (s.ctx o m).pc) ∧
  ((s.tile o).stop ≠ 0 → (s.tile o).drained = false → (s.tile o).arrivals = [] → (s.tile o).cards = [] →
    (∀ m : CtxNo, (s.tile o).stop.getLsbD m.toNat = true →
      (s.ctx o m).sup = false ∧ (s.ctx o m).state = .stopped ∧ (s.tile o).ctxDrained [] m = true) →
    (s.writeCounts o).2 = true →
    ∃ u, exec (.drainComplete o) s = .next u ∧ (u.tile o).drained = true ∧ (u.tile o).stop = (s.tile o).stop) ∧
  (let ts := s.domain t
   let writes (en : Bool) (p : Nat) (w : Word) : Prop := ∃ u, exec (.phold t en (BitVec.ofNat 60 p)) s = .next u ∧ SameMemory s u ∧
     (∀ b ∈ ts, u.tile b = { s.tile b with phold := w }) ∧ (∀ b, b ∉ ts → u.tile b = s.tile b)
   (∀ l, s.domainLaunch t = some l →
     (l.ordered = true → ∀ p, exec (.phold t true p) s = .next s) ∧
     (l.ordered = false →
       (∀ p, (∀ b ∈ ts, (s.tile b).pick < p) → (p = 1 ∨ ∃ b ∈ ts, p = (s.tile b).pick + 1) → p < 2 ^ 60 →
         writes true p (0x8000000000000000 ||| BitVec.ofNat 64 p)) ∧
       (∀ p : BitVec 60, (∀ b ∈ ts, (s.tile b).pick + 1 < 2 ^ 60) → (∃ b ∈ ts, p.toNat ≤ (s.tile b).pick) →
         exec (.phold t true p) s = .next s)) ∧
     (l.away = [] → (∀ b ∈ ts, (s.tile b).restored = true) → writes false 0 0) ∧
     (∀ p, (l.away ≠ [] ∨ ∃ b ∈ ts, (s.tile b).restored = false) → exec (.phold t false p) s = .next s))) ∧
  (∀ b : TileNo, s.ctl t c n 0x140 = some (q, o) → q.data.toNat / 2 ^ 9 = 0 → q.data.toNat / 4 % 2 ^ 6 = 0 → q.data.getLsbD 8 = true →
    neighbour s.part o (q.data.toNat % 4) = some b → (s.pnbr o (q.data.toNat % 4)).getLsbD 63 = true →
    (s.tile b).pdone = false → (s.tile b).slack = false →
    exec (.pexcuse t c n) s = .next ((((s.modTile b fun tl => { tl with slack := true }).sendPick b)).endReq t c q id))

/-- R23, R305, R308, R309, R312, R327: a pre-emption order raises interrupt 1 with the buffer, the launch and the direction, a
save of a launch with picks only at the boundary at which the hub holds it, and its resume only once every tile with a task is
saved (R23). PRES, once what the tile spilled is written, lands the spilled deliveries and shuttles of its buffer, in order, for
the stopped launch that the buffer's header names, and where the buffer is not mapped, or names none, lands nothing. The layout
of a spilled shuttle, which names its launch (log 18), that one whose launch has ended is dropped (log 59), the address space of
the buffer and one that is not mapped (log 19), what PRES leaves in `restoring`, `landing`, `dspill` and `sspill` and that a
shuttle of another stopped launch is spilled again (log 20), a save that waits for the hold (log 24) and the unload of the
launch's slots at PRES (log 51), the `tval` of an interrupt already pending (log 70), and a damaged word of the buffer read as
it stands (log 71) are the model's choice. A spilled shuttle starts on the lowest FREE context of the launch with the PC, the
registers and the CSRs of its image, and stays stopped with its context. It says where these complete: preemptOrder, pres. -/
def Obligations.Preemption : Prop := ∀ (t o : TileNo) (c : CtxNo) (n : Nat) (l : BitVec 2) (buf : Word) (resume : Bool)
    (s : State) (q : Req) (r : Resident),
  ((s.tile t).residents.find? (fun r => !r.ended && r.index == l) = some r →
    let r' := exec (.preemptOrder t l buf resume) s
    let gives (u : State) : Prop := r' = .next (u.interrupt t 1
      ((buf &&& 0xFFFFFFFFFFFF0000) ||| (l.zeroExtend 64 <<< 2) ||| (if resume then 1 else 0)))
    (r.picks = false → gives s) ∧
    (∀ k, r.picks = true → s.hub.launches.find? (·.id == r.id) = some k →
      let put (f : Launch → Launch) : State :=
        { s with hub := { s.hub with launches := s.hub.launches.map fun x => if x.id == r.id then f x else x } }
      let mayGo := t ∈ k.saved ∧ t ∈ k.live ∧ (k.resuming = true ∨ ∀ o ∈ k.live, o ∈ k.saved)
      (resume = false → (s.tile t).atBoundary r = true → k.resuming = false →
        gives (put fun x => { x with saved := x.saved.filter (· != t) ++ [t], ordered := true })) ∧
      (resume = false → ((s.tile t).atBoundary r = false ∨ k.resuming = true) → r' = .next s) ∧
      (resume = true → mayGo → gives (put fun x =>
        { x with saved := x.saved.filter (· != t), resuming := (x.saved.filter (· != t)).any x.live.contains })) ∧
      (resume = true → ¬mayGo → r' = .next s))) ∧
  (let a := q.data &&& 0xFFFFFFFFFFFF0000
   s.ctl t c n 0x1A8 = some (q, o) →
    (s.postedBy o .spill = true → exec (.pres t c n) s = .next s) ∧
    (∀ b, s.postedBy o .spill = false → s.bufWalk o a = some b → exec (.pres t c n) s = .next (s.openWalk o b.tag (a + 24))) ∧
    (s.postedBy o .spill = false → s.bufWalk o a = none → s.bufLaunch o a = none → exec (.pres t c n) s =
      .next (((s.tile o).stoppedLaunches.foldl (fun s b => s.walkFault o b.tag (a + 24)) s).endReq t c q id)) ∧
    (∀ b, s.postedBy o .spill = false → s.bufWalk o a = none → s.bufLaunch o a = some b →
    let tag := b.tag
    ([a, a + 0x20000].any (s.unreachable o tag) = true →
      exec (.pres t c n) s = .next (([a, a + 0x20000].foldl (fun s a => s.walkFault o tag a) s).endReq t c q id)) ∧
    (∀ s1 s2 nd ns ws, [a, a + 0x20000].any (s.unreachable o tag) = false →
      s.loadWords o tag [a + 8, a + 16] = (s1, some [nd, ns]) → nd.toNat ≤ 256 → ns.toNat ≤ 8 →
      s1.loadWords o tag ((List.range (2 * nd.toNat)).map (fun i => a + BitVec.ofNat 64 (0x28000 + 8 * i)) ++
        (List.range ns.toNat).flatMap fun j => (List.range 30).map fun i => a + BitVec.ofNat 64 (0x29000 + 256 * j + 8 * i)) =
          (s2, some ws) →
      let entry (i : Nat) : InboxEntry :=
        let d := ws.getD (2 * i + 1) 0
        ⟨d.extractLsb' 0 4, (3 : BitVec 2) ++ d.extractLsb' 4 3, ws.getD (2 * i) 0, o, 0, none, none, false⟩
      let image (j : Nat) : List Word := (ws.drop (2 * nd.toNat + 30 * j)).take 30
      let s3 := s2.modTile o fun tl =>
        let own : Bool := a == tl.pbuf &&& 0xFFFFFFFFFFFF0000
        { tl.unload b with
          restoring := tl.restoring ||| b.groupMask
          landing := (List.range nd.toNat).map entry ++ (tl.inbox.filter fun e => b.members.contains e.ctx) ++ tl.landing
          inbox := tl.inbox.filter fun e => !b.members.contains e.ctx
          dspill := if own then 0 else tl.dspill, sspill := if own then 0 else tl.sspill }
      let s4 := s3.refill o (s3.tile o).landing.length
      exec (.pres t c n) s = .next
        ((((List.range ns.toNat).filterMap fun j => ((s2.tile o).imageLaunch (image j)).map fun l => Shuttle.ofImage o l (image j)).foldl
          (fun s sh => s.restoreShuttle o sh) s4).endReq t c q fun k => k) ∧
      (nd = 0 → ns = 1 → (s2.tile o).landing = [] → (∀ x ∈ (s2.tile o).inbox, x.ctx ∉ b.members) → ∀ d r', (s2.tile o).freeCtx b.id = some (d, r') → ws.length = 30 →
        (s2.tile o).imageLaunch ws = some b.id → (s3.tile o).launchStopped b.id = false →
        ∃ u, exec (.pres t c n) s = .next u ∧ (u.ctx o d).pc = ws.getD 0 0 ∧
          (u.ctx o d).state = (if (s2.tile o).stop.getLsbD d.toNat then .stopped else .ready) ∧
          (∀ x : BitVec 5, x ≠ 0 → x ≠ 3 → x.toNat < 24 → (u.ctx o d).getX x = ws.getD x.toNat 0) ∧
          (u.ctx o d).frnd = (ws.getD 24 0).extractLsb' 0 4 &&& 0b1011 ∧ (u.ctx o d).fstat = (ws.getD 25 0).extractLsb' 0 12 &&& 0xF1F ∧
          (u.ctx o d).livemask = (ws.getD 26 0).extractLsb' 0 24 &&& 0xFFFFFE ∧ (u.ctx o d).pwatch = (ws.getD 27 0).toNat % 64 ∧
          (u.ctx o d).qmode = (ws.getD 28 0).extractLsb' 0 8))))

/-- R287, R288, R289, R327: a link that trains has fresh counts; a flit unanswered at 4096 cycles retrains the link, else the
flits in the buffer are sent again; after a bad flit the receiver sends its free slots, here as many as `Config.linkSlots` (the
model's choice, log 15); an audit that falls due while the link retrains is sent after; an audit flit carries the sender's
counts, counts that differ make the receiver send its free slots, three mismatches within 2^20 cycles retrain the link, and a
received count of free slots is adopted; a packet without credits waits; a parity error in a credit counter forces an audit; a
failed retrain sets PKGERR.LINK. It says where these complete: linkReplay, auditSend, linkTraining, linkRetrain, auditFlit,
creditCounterParityError. -/
def Obligations.Links : Prop := ∀ (p : BitVec 4) (sent recv : BitVec 32) (tm : Word) (delay : BitVec 16) (s : State),
  let l := s.link p
  (p.toNat < s.part.ports → s.loomRuns = true →
    (∃ u, exec (.linkTraining p true delay) s = .next u ∧ (u.link p).trained = true ∧ (u.link p).delay = delay.toNat ∧
      (u.link p).sent = 0 ∧ (u.link p).recv = 0 ∧ (u.link p).replay = [] ∧ (u.link p).retraining = false) ∧
    exec (.linkTraining p false delay) s = .next (s.setLink p Link.reset)) ∧
  (s.linkUp p = true →
    (l.retraining = false → (∃ f ∈ l.replay, f.2 + 4096 ≤ s.time) →
      exec (.linkReplay ⟨p, false⟩) s = .next (s.setLink p { l with retraining := true })) ∧
    (l.retraining = false → ∃ u, exec (.linkReplay ⟨p, true⟩) s = .next u ∧ (u.link p).replay = l.replay ∧
      Assoc.get 0 Vc.wave.key (u.link p).owed = 0 ∧ u.out = s.out ++ [.credit p .wave Config.linkSlots]) ∧
    (l.retraining = false → l.replay ≠ [] → (∀ f ∈ l.replay, s.time < f.2 + 4096) →
      exec (.linkReplay ⟨p, false⟩) s = .next (s.answer (.replayed p (l.replay.map (·.1))))) ∧
    (l.retraining = false → (s.time % 65536 = 0 ∨ l.auditDue = true) →
      exec (.auditSend p) s = .next ((s.setLink p { l with auditDue := false }).answer
        (.audit p l.sent l.credits (BitVec.ofNat 64 s.time)))) ∧
    (l.retraining = true → (s.time % 65536 = 0 ∨ l.auditDue = true) →
      exec (.auditSend p) s = .next (s.setLink p { l with auditDue := true })) ∧
    (l.retraining = false →
      exec (.creditCounterParityError p) s = .next ((s.setLink p { l with auditDue := false }).answer
        (.audit p l.sent l.credits (BitVec.ofNat 64 s.time)))) ∧
    (l.retraining = true → exec (.creditCounterParityError p) s = .next (s.setLink p { l with auditDue := true })) ∧
    (sent = l.recv → recv = l.returned → exec (.auditFlit p sent recv (.counts tm)) s = .next (s.correct p tm)) ∧
    (¬(sent = l.recv ∧ recv = l.returned) → ∃ v : State, exec (.auditFlit p sent recv (.counts tm)) s = .next (v.correct p tm) ∧
      v.out = s.out ++ [.credit p .wave Config.linkSlots] ∧
      ((v.link p).retraining = true ↔
        l.retraining = true ∨ 2 ≤ (l.mismatches.filter fun m => decide (s.time < m + 2 ^ 20)).length)) ∧
    (∀ free, l.held = [] → ∃ u, exec (.auditFlit p sent recv (.slots .wave free)) s = .next u ∧
      Assoc.get 0 Vc.wave.key (u.link p).used = Config.linkSlots - free ∧ u.out = s.out) ∧
    (∀ bytes k, l.retraining = false → l.room (flitsOf bytes) = false →
      s.linkSend p bytes k = s.setLink p { l with held := l.held ++ [(bytes, k)] }) ∧
    (l.retraining = true → exec (.linkRetrain p false) s = .next
      (({ s.setLink p Link.reset with hub := { s.hub with pkgLink := true } } : State).answer (.msix 0))) ∧
    (l.retraining = true → l.held = [] → l.replay ≠ [] →
      ∃ u, exec (.linkRetrain p true) s = .next u ∧ (u.link p).retraining = false ∧
        u.out = s.out ++ [.replayed p (l.replay.map (·.1))]))

/-- R131, R132, R135, R137, R138, R327: a notify write makes its queue pending, past a command that is complete; of a mapped
queue, and of one in error, a value out of range is an error, and of one in error a descriptor that fails its checks too (ERRIDX
of a value out of range, that such a value of any other queue is found later, and that a queue stays in error until its
descriptor is read again, are the model's choice, log 50; that a descriptor with an uncorrectable error fails with 0x0D and sets
PKGERR.MEM is its choice too, log 17); the first runnable queue by rank takes a free slot, or enters ERROR; a command in its
turn starts, is held by NOTBEFORE, or ends its queue with the error code of its fault; when it is done READIDX advances past it,
as past a LAUNCH whose tasks have ended, before the end of an ASYNC launch of the queue is looked at (R143). A queue that enters
ERROR leaves its slot, its pending bit falls, its descriptor holds the code, STATE = 2 and ERRIDX, and MSI-X vector 1 is sent.
It says where these complete: queueMapping, commandStart, commandComplete, notbeforeExpiry, notifyWrite, queueScheduleTick. -/
def Obligations.QueueSteps : Prop := ∀ (q : QueueNo) (s : State),
  let r := s.readIdx q
  let pend (x : State) : State :=
    if x.hub.pending.contains q then x else { x with hub := { x.hub with pending := x.hub.pending ++ [q] } }
  (s.hub.notes.contains q = true →
    let looked : State := { s with hub := { s.hub with notes := s.hub.notes.filter (· != q) } }
    let noted := (looked.settle q).getD looked
    let d := noted.desc q
    let r := noted.readIdx q
    let w := noted.posted d
    let outside := w < r ∨ r + descSize d < w
    let inError := noted.qslot q = none ∧ (descState d = 2 ∨ noted.hub.failed.contains q = true)
    (¬inError → (noted.qslot q = none ∨ ¬outside) → exec (.notifyWrite q) s = .next (pend noted)) ∧
    ((noted.qslot q).isSome = true → outside → exec (.notifyWrite q) s = .next (noted.queueError q 0x0C r)) ∧
    (inError → noted.descOk q d = true →
      (¬outside → exec (.notifyWrite q) s = .next
        (pend { noted with hub := { noted.hub with failed := noted.hub.failed.filter (· != q) } })) ∧
      (outside → exec (.notifyWrite q) s = .next (noted.queueError q 0x0C r))) ∧
    (inError → noted.descOk q d = false → noted.descBad q = false →
      exec (.notifyWrite q) s = .next (noted.queueError q 0x0D (descRead d)))) ∧
  (s.queuesRun = true → s.topRank s.unmapped = some q → s.roomFor q = some none →
    (s.descOk q (s.readDesc q) = true → ∃ u, exec (.queueMapping q) s = .next u ∧
      u.hub.slots = s.hub.slots ++ [⟨q, s.readDesc q, descRead (s.readDesc q), none⟩] ∧
      u.hub.failed.contains q = false) ∧
    (s.descOk q (s.readDesc q) = false →
      let e := s.queueError q 0x0D (descRead (s.readDesc q))
      exec (.queueMapping q) s = .next (if s.part.inMemory (s.descAddr q) 64 && s.descBad q then e.memError else e))) ∧
  (exec .queueScheduleTick s = .next
    (if s.queuesRun && s.time % 4096 == 0 then State.mapAll s.unmapped.length s else s)) ∧
  (∀ m, s.qslot q = some m → s.queuesRun = true → m.cmd = none →
    (descEnable (s.readDesc q) = false → exec (.commandStart q) s = .next (s.unmap q)) ∧
    (∀ bs, descEnable (s.readDesc q) = true → m.readIdx < s.posted m.desc → s.posted m.desc ≤ m.readIdx + descSize m.desc →
      s.qBytes q (descRing m.desc + BitVec.ofNat 64 (64 * (m.readIdx % descSize m.desc))) 64 = .ok bs →
      s.time < ((wordsOf bs).getD 7 0).toNat → s.canStart m = false ∧ ∃ u, exec (.commandStart q) s = .next u ∧ SameMemory s u ∧
        u.hub.budgets = s.hub.budgets ∧ (u.qslot q).bind (·.cmd) = some ⟨wordsOf bs, .held, none⟩) ∧
    (∀ s' bs, descEnable (s.readDesc q) = true → s.nextStart = some (q, s') → m.readIdx ≤ s.posted m.desc →
      s.posted m.desc ≤ m.readIdx + descSize m.desc →
      s.qBytes q (descRing m.desc + BitVec.ofNat 64 (64 * (m.readIdx % descSize m.desc))) 64 = .ok bs →
      let c := wordsOf bs
      ((c.getD 7 0).toNat ≤ s.time → cmdStatus c = none → ∃ u, exec (.commandStart q) s = .next u ∧ SameMemory s u ∧
        u.budget q = s'.budget q - 1 ∧ (u.qslot q).bind (·.cmd) = some ⟨c, .started, none⟩) ∧
      (∀ code, (c.getD 7 0).toNat ≤ s.time → cmdStatus c = some code →
        ∃ v : State, exec (.commandStart q) s = .next (v.queueError q code m.readIdx) ∧ SameMemory s v ∧ v.out = s.out ∧
          v.hub.slots = s.hub.slots ∧ v.budget q = s'.budget q - 1))) ∧
  (∀ code idx, let u := s.queueError q code idx
    let w0 := (dw (s.readDesc q) 0 &&& ~~~0xFF030000#64) ||| BitVec.ofNat 64 (code % 256 * 2 ^ 24 + 2 * 2 ^ 16)
    let v := ((s.leaveSlot q).writeDesc q 0 w0).writeDesc q 6 (BitVec.ofNat 64 idx)
    u.qslot q = none ∧ u.hub.failed.contains q = true ∧ u.hub.pending.contains q = false ∧ u.budget q = 0 ∧ u.out = s.out ++ [.msix 1] ∧
      u.backing = v.backing ∧ u.lines = v.lines ∧ u.flag = v.flag) ∧
  (∀ c, (s.qslot q).bind (·.cmd) = some c →
    (c.phase = .held → (c.w 7).toNat ≤ s.time → ∃ u, exec (.notbeforeExpiry q) s = .next u ∧
      (u.qslot q).bind (·.cmd) = some { c with phase := .ready } ∧ SameMemory s u) ∧
    (c.phase = .done → (∀ id, c.launch = some id → s.imagesPending id = false) →
      ∃ u, exec (.commandComplete q) s = .next u ∧ u.readIdx q = r + 1 ∧ (u.qslot q).bind (·.cmd) = none) ∧
    (∀ id l, c.phase ≠ .done → c.launch = some id → s.endedLaunch q false = some l →
      let past := (s.dropLaunch l).advance q
      exec (.commandComplete q) s = .next (if l.quarantined then past.queueError q 0x0B l.index else past)) ∧
    (∀ id, c.phase = .done → s.endedLaunch q true = none → c.launch = some id → s.imagesPending id = true →
      exec (.commandComplete q) s = .next s))

/-- R133, R134, R135, R136, R158, R159, R161, R171, R191: WAIT completes on a value that meets its comparison, waits otherwise,
and fails with 0x0A after its timeout, run out even while its queue was unmapped (that it errs then without a read of its word
is the model's choice, log 65); SIGNAL writes the word of its operation once its turn in the FIFO of its word has come; TIMED
writes loom time once its time has come, to main memory in the backing copy, and elsewhere once its turn in the FIFO of its word
has come too; FLUSH and INV act on a range as MFLUSH and MINV, with a length of 0 on every line with HV; FENCE waits for the
ASYNC launches; COPY reads its bytes, then writes them, those of main memory in the backing copy, in one step, and where an
atomic waits at a word of the flag window its write waits behind it (the model's choice, log 17); TLBINV leaves no entry of its
range. A semaphore that is refused ends the queue with code 0x04. It says where these complete: wait, waitEvaluate, waitTimeout,
signal, timed, timedExpiry, flush, inv, fenceCommand, copy, tlbinv. -/
def Obligations.QueueCommands : Prop := ∀ (q : QueueNo) (s : State) (c : Cmd),
  let waits (i : Instr) : Prop :=
    (s.waitLate q c = true → exec i s = .next (s.cmdError q 0x0A)) ∧
    (∀ p hv, s.waitLate q c = false → s.semaphore q true false (c.w 1) = .ok (p, hv) →
      let s' := s.touchPlace p hv
      (waitHolds (bits (c.w 3) 0 2) (leWord (s'.readPlaces p 8)) (c.w 2) = true → exec i s = .next (s'.cmdDone q)) ∧
      (waitHolds (bits (c.w 3) 0 2) (leWord (s'.readPlaces p 8)) (c.w 2) = false →
        exec i s = .next (s'.modCmd q fun c => { c with phase := .waiting }))) ∧
    (∀ u, s.waitLate q c = false → s.semaphore q true false (c.w 1) = .error u → exec i s = .next (s.cmdRefused q u))
  (s.cmdIn q 2 .started = some c → waits (.wait q)) ∧
  (s.cmdIn q 2 .waiting = some c → waits (.waitEvaluate q) ∧
    (s.waitLate q c = true → exec (.waitTimeout q) s = .next (s.cmdError q 0x0A))) ∧
  (s.cmdIn q 3 .started = some c →
    (∀ p hv u ok, s.semaphore q true true (c.w 1) = .ok (p, hv) → s.turnAt p.word8 (placeEntry 0 0 0 (.signal q) hv) = (u, ok) →
      let s' := u.touchPlace p hv
      exec (.signal q) s = .next (if ok then ((s'.store p (leBytes 8 (signalOp (bits (c.w 3) 0 2)
        (leWord (s'.readPlaces p 8)) (c.w 2)).toNat) none).noTurn q).cmdDone q else u)) ∧
    (∀ u, s.semaphore q true true (c.w 1) = .error u → exec (.signal q) s = .next (s.cmdRefused q u))) ∧
  (s.cmdIn q 4 .started = some c → exec (.timed q) s = .next (s.modCmd q fun c => { c with phase := .waiting })) ∧
  (s.cmdIn q 4 .waiting = some c →
    (s.time < (c.w 1).toNat → exec (.timedExpiry q) s = .next s) ∧
    ((c.w 1).toNat ≤ s.time → c.w 2 = 0 → exec (.timedExpiry q) s = .next (s.cmdDone q)) ∧
    (∀ l hv, (c.w 1).toNat ≤ s.time → c.w 2 ≠ 0 → s.qPlace q false true (sext48 (c.w 2).toNat) = some (.main l, hv) →
      exec (.timedExpiry q) s = .next ((s.postBacking (s.copier q) (.main l) hv (leBytes 8 s.time)).cmdDone q)) ∧
    (∀ p hv u ok, (c.w 1).toNat ≤ s.time → c.w 2 ≠ 0 → s.qPlace q false true (sext48 (c.w 2).toNat) = some (p, hv) →
      (∀ l, p ≠ .main l) → s.turnAt p.word8 (placeEntry 0 0 0 (.timed q) hv) = (u, ok) →
      exec (.timedExpiry q) s = .next
        (if ok then ((u.store p (leBytes 8 s.time) none).noTurn q).cmdDone q else u))) ∧
  (let a := (sext48 (c.w 1).toNat).toNat
   let n := (c.w 2).toNat
   let ranges (i : Instr) (drop : Bool) : Prop :=
     (n = 0 → exec i s = .next ((s.flushAll drop).cmdDone q)) ∧
     (∀ l, n ≠ 0 → flushBad a n = none → s.flushSpans q (flushPages a n) a (a + n) = some l →
       exec i s = .next ((l.foldl (fun s x => s.flushPage x.1 (BitVec.ofNat 64 x.2.1) x.2.2 drop) s).cmdDone q))
   (s.cmdIn q 5 .started = some c → ranges (.flush q) false) ∧
   (s.cmdIn q 6 .started = some c → ranges (.inv q) true)) ∧
  (s.cmdIn q 7 .started = some c →
    ((∀ l ∈ s.hub.launches, l.queue ≠ q) → exec (.fenceCommand q) s = .next (s.cmdDone q)) ∧
    ((∃ l ∈ s.hub.launches, l.queue = q) → exec (.fenceCommand q) s = .next s)) ∧
  (s.cmdIn q 8 .started = some c → ∀ src dst,
    s.copyPlaces q false (sext48 (c.w 1).toNat) (bits (c.w 3) 0 48) = .ok src →
    s.copyPlaces q true (sext48 (c.w 2).toNat) (bits (c.w 3) 0 48) = .ok dst →
    let waits (p : Place) : Bool := match p with | .main _ => false | _ => true
    let u := (copyPieces (dst.zip (src.map fun p => s.readBacking p.1))).foldl
      (fun s x => s.postBacking (s.copier q) x.1 x.2.1 x.2.2) s
    let room := s.fits (((copyPieces (dst.map (·, 0))).map (·.1.word8)).filter waits)
    ((∀ p ∈ dst, waits p.1 = true → s.fifoEmpty p.1.word8 = true) → s.postedBy 0 (.copy q) = false →
      exec (.copy q) s = .next (u.cmdDone q) ∧ u.postedBy 0 (.copy q) = false) ∧
    ((∃ p ∈ dst, waits p.1 = true ∧ s.fifoEmpty p.1.word8 = false ∧ s.fifoFull p.1.word8 = true) → exec (.copy q) s = .next s) ∧
    (room = false → exec (.copy q) s = .next s) ∧
    (room = true → u.postedBy 0 (.copy q) = true → exec (.copy q) s = .next (u.modCmd q fun c => { c with phase := .waiting }))) ∧
  (s.cmdIn q 8 .started = none → s.cmdIn q 8 .waiting = some c → s.postedBy 0 (.copy q) = false →
    exec (.copy q) s = .next (s.cmdDone q)) ∧
  (let all := (c.w 3).getLsbD 0
   let lo := bits (c.w 1) 0 48
   let n := (c.w 2).toNat
   s.cmdIn q 9 .started = some c → s.usesRange q all lo n = false →
    ∃ u, exec (.tlbinv q) s = .next u ∧ u.backing = s.backing ∧ u.flag = s.flag ∧
      (u.qslot q).bind (·.cmd) = some { c with phase := .done } ∧
      (∀ p ∈ u.tiles, (∀ e ∈ p.2.tlb, s.invalidates q all lo n e = false) ∧
        ∃ o ∈ s.tiles, o.1 = p.1 ∧ p.2 = { o.2 with tlb := p.2.tlb }) ∧
      (∀ p ∈ u.regions, ∀ e ∈ p.2.tlb, s.invalidates q all lo n e = false))

/-- R107, R137, R142, R143, R171: a LAUNCH whose record is sound and whose tasks find groups is placed on its tiles and sends a
start message to each, which waits for what of the images stands in a FIFO; one that finds no group waits, and tries again, with
its record read and checked anew (the model's choice, log 50); one whose images find no room in a FIFO tries again too; a record
in error ends the queue with its code, its checks made in the order of log 31. A start message starts its task on the group root
at the entry, with the argument in x10; one for a task that has ended starts nothing (R300, R326). It says where these complete:
launch, launchPlacementRetry, startMessage. -/
def Obligations.Launches : Prop := ∀ (q : QueueNo) (n : Nat) (s : State) (c : Cmd),
  let runs (i : Instr) : Prop := s.hub.actual ≠ 2 →
    (∀ ld gs im, s.loadRecord q (c.w 1) = .ok ld → s.placeAll ld.rec' (ld.tasks.map (·.tile)) = .ok (some gs) →
      s.readImages q ld.rec' = .ok im →
      (s.imagesBlocked ld.rec' im (gs.map (·.1)) = true → exec i s = .next (s.modCmd q fun c => { c with phase := .started })) ∧
      (s.imagesBlocked ld.rec' im (gs.map (·.1)) = false → ∃ u, exec i s = .next u ∧ u = s.runLaunch q c ld im gs ∧
        u.hub.nextLaunch = s.hub.nextLaunch + 1 ∧ u.starts = s.starts ++ (gs.zip ld.tasks).map fun p =>
          (⟨p.1.1, p.1.2, BitVec.ofNat 64 p.2.entry, p.2.arg, s.hub.nextLaunch + 1⟩ : StartMsg))) ∧
    (∀ ld, s.loadRecord q (c.w 1) = .ok ld → s.placeAll ld.rec' (ld.tasks.map (·.tile)) = .ok none →
      exec i s = .next (s.modCmd q fun c => { c with phase := .waiting })) ∧
    (∀ ld code, s.loadRecord q (c.w 1) = .ok ld → s.placeAll ld.rec' (ld.tasks.map (·.tile)) = .error code →
      exec i s = .next (s.cmdError q code)) ∧
    (∀ code, s.loadRecord q (c.w 1) = .error (code, false) → exec i s = .next (s.cmdError q code))
  (s.cmdIn q 1 .started = some c → c.launch = none → runs (.launch q)) ∧
  (s.cmdIn q 1 .waiting = some c → runs (.launchPlacementRetry q)) ∧
  (∀ m, s.starts[n]? = some m → s.imagesPending m.launch = true → exec (.startMessage n) s = .next s) ∧
  (∀ m r, s.starts[n]? = some m → s.imagesPending m.launch = false → (s.tile m.tile).residentId m.launch = some r → (s.tile m.tile).quarantined = false →
    (r.ended = true → exec (.startMessage n) s = .next { s with starts := s.starts.eraseIdx n }) ∧
    (r.ended = false → r.root = 0 → ((s.tile m.tile).ctx 0).sup = true → ∃ u, exec (.startMessage n) s = .next u ∧
      u.starts = s.starts.eraseIdx n ∧ (u.tile m.tile).waitStart = some m ∧ SameMemory s u) ∧
    (r.ended = false → ((s.tile m.tile).ctx r.root).sup = false → ∃ u, exec (.startMessage n) s = .next u ∧
      u.starts = s.starts.eraseIdx n ∧ SameMemory s u ∧
      (u.ctx m.tile r.root).state = .ready ∧ (u.ctx m.tile r.root).pc = m.entry ∧ (u.ctx m.tile r.root).instret = 0 ∧
      (u.ctx m.tile r.root).getX 10 = m.arg ∧ (u.ctx m.tile r.root).getX 3 = 0xFFFFFFFFFF000000 ∧
      (u.ctx m.tile r.root).fstat = 0 ∧ (u.ctx m.tile r.root).frnd = 0))

/-- R256, R320, R323, R324, R326, R327, R328: a write to a hub register sets the bits it names, or is dropped, or moves an
assigned package to ERROR; PKGERR bits clear by a 1, and while one is left vector 0 stays pending (that its message is sent
again is the model's choice, log 51); that a write dropped or refused is answered done, and that a locked register written in
RUN moves the package to ERROR, are its choice too (log 32), as is that memory keeps its contents at a heat of 105 degrees (log
34); an access of another width than 8 bytes, or at an unlisted offset, completes with Unsupported Request; MONLOAD starts the
monitor image once; PWRCTL sets the power state, a move into P2 waiting for the last launch; a measurement of the heat sets
TMAX, and at TLIM forces P1, until one is more than 5 below (that TLIM acts at a measurement alone is its choice, log 34, and so
is MONLOAD after TCRIT; that it loads words in error as they stand is log 71, and that TILE and CODE outlast QUAR log 72). A
store to a tile control register that has no step of its own writes it. It says where these complete: registerWrite,
pkgerrClear, monloadGo, pwrctlWrite, thermalMeasurement, standbyEntry. -/
def Obligations.HostRegisters : Prop := ∀ (v : Word) (tbit : Bool) (tm : BitVec 8) (t o : TileNo) (c : CtxNo) (n : Nat) (off : BitVec 16)
    (s : State),
  (s.barServed tbit = false → exec (.pkgerrClear v tbit) s = .next (s.answer .unsupported) ∧
    exec (.pwrctlWrite v tbit) s = .next (s.answer .unsupported) ∧ exec (.monloadGo v tbit) s = .next (s.answer .unsupported)) ∧
  (s.barServed tbit = true →
    (let u := ({ s with hub := { s.hub with
      pkgQuar := s.hub.pkgQuar && !v.getLsbD 19, pkgTherm := s.hub.pkgTherm && !v.getLsbD 18
      pkgLink := s.hub.pkgLink && !v.getLsbD 17, pkgMem := s.hub.pkgMem && !v.getLsbD 16 } } : State).answer .done
     (u.vector0 = false → exec (.pkgerrClear v tbit) s = .next u) ∧
     (u.vector0 = true → exec (.pkgerrClear v tbit) s = .next (u.answer (.msix 0)))) ∧
    (∀ a w, s.hubRead a = some w → a < 2 ^ 16 →
      exec (.registerWrite (.bar0 (.read 8) (BitVec.ofNat 16 a) tbit)) s = .next (s.answer (.data (wordBytes w))) ∧
      (∀ n, n ≠ 8 → exec (.registerWrite (.bar0 (.read n) (BitVec.ofNat 16 a) tbit)) s = .next (s.answer .unsupported))) ∧
    (∀ bs, bs.length ≠ 8 → exec (.registerWrite (.bar0 (.write bs) off tbit)) s = .next (s.answer .unsupported)) ∧
    (∀ bs, bs.length = 8 → s.hubRead off.toNat = none →
      exec (.registerWrite (.bar0 (.write bs) off tbit)) s = .next (s.answer .unsupported)) ∧
    (∀ bs, bs.length = 8 → leWord bs = v → off ≠ 0x18 → off ≠ 0x40 → off ≠ 0x48 →
      exec (.registerWrite (.bar0 (.write bs) off tbit)) s = exec (.registerWrite (.hub off v tbit)) s) ∧
    (v.extractLsb' 0 2 = 3 → exec (.pwrctlWrite v tbit) s = .next (s.answer .done)) ∧
    (v.extractLsb' 0 2 ≠ 3 → ∃ u, exec (.pwrctlWrite v tbit) s = .next u ∧ u.hub.pstate = v.extractLsb' 0 2 ∧
      u.out = s.out ++ [.done] ∧ SameMemory s u ∧
      (s.hub.thermForce = false → v.extractLsb' 0 2 ≠ 2 → u.hub.actual = v.extractLsb' 0 2) ∧
      (s.hub.pforce ≠ 2 → s.noResident = false → v.extractLsb' 0 2 = 2 → u.hub.pforce = s.hub.pforce ∧
        (s.hub.pforce = 0 → s.hub.thermForce = false → u.hub.actual = 0))) ∧
    (s.hub.tdi = .unlocked → s.hub.stage = 5 → s.hub.ready = false → s.hub.bootCode = 0 → s.hub.monload = 0 →
      v.getLsbD 0 = true → v &&& 0xFFFFFF000000003E = 0 →
      exec (.monloadGo v tbit) s = .next
        ((({ s with hub := { s.hub with monload := v } } : State).loadMonitor (bits v 6 34 * 64)).answer .done)) ∧
    (s.hub.ready = true → s.hub.tdi = .unlocked → exec (.monloadGo v tbit) s = .next (s.answer .done)) ∧
    (s.hub.tdi = .unlocked →
      (v &&& 0xFFFFFF0000000FFF = 0 → exec (.registerWrite (.hub 0x20 v tbit)) s = .next
        (({ s with hub := { s.hub with qtbase := v } } : State).answer .done)) ∧
      (v &&& 0xFFFFFF0000000FFF ≠ 0 → exec (.registerWrite (.hub 0x20 v tbit)) s = .next (s.answer .done)) ∧
      (v.toNat ≤ 4096 → exec (.registerWrite (.hub 0x28 v tbit)) s = .next
        (({ s with hub := { s.hub with qtcount := v.toNat } } : State).answer .done)) ∧
      exec (.registerWrite (.hub 0x30 v tbit)) s = .next
        (({ s with hub := { s.hub with framectl := v &&& 0xFFF0F } } : State).answer .done)) ∧
    ((s.hub.tdi = .locked ∨ s.hub.tdi = .run) →
      exec (.registerWrite (.hub 0x20 v tbit)) s = .next (s.tdiError.answer .done) ∧
      exec (.monloadGo v tbit) s = .next (s.tdiError.answer .done)) ∧
    (60 ≤ bits v 40 8 → bits v 40 8 ≤ 100 → exec (.registerWrite (.hub 0x50 v tbit)) s = .next
      (({ s with hub := { s.hub with tlim := BitVec.ofNat 8 (bits v 40 8) } } : State).answer .done)) ∧
    exec (.registerWrite (.hub 0 v tbit)) s = .next (s.answer .done)) ∧
  (∃ u, exec (.thermalMeasurement tm) s = .next u ∧ u.hub.tmax = tm ∧ SameMemory s u ∧
    (s.hub.tlim.toNat ≤ tm.toNat → u.hub.thermForce = true ∧ u.hub.pkgTherm = true ∧ u.hub.actual ≠ 0) ∧
    (tm.toNat + 5 < s.hub.tlim.toNat → u.hub.thermForce = false ∧
      (s.hub.pstate = 2 → s.hub.pforce = 0 → s.noResident = false → u.hub.actual = 0)) ∧
    (s.hub.tlim.toNat ≤ tm.toNat + 5 → tm.toNat < s.hub.tlim.toNat → u.hub.thermForce = s.hub.thermForce) ∧
    (105 ≤ tm.toNat → u.hub.powered = false)) ∧
  (s.hub.pstate = 2 → s.noResident = true → exec .standbyEntry s = .next { s with hub := { s.hub with pforce := 2, actual := 2 } }) ∧
  (∀ q e es, s.req t c n = some q → q.elems = e :: es → e.addr.toNat % 2 ^ 24 = 0x150000 + off.toNat → ctlOwn off.toNat = false →
    s.ctl t c n off.toNat = some (q, o) →
    exec (.registerWrite (.tile t c n)) s = .next ((s.modTile o fun tl => tl.writeControl off.toNat q.data).endReq t c q id))

/-- R321, R322, R323: a package reset runs stages 0 to 5: a bad signature stops it with code 2, a bad fuse with code 3, a bobbin
that does not train with code 4; else stage 5 is reached with loom time 0, the memory and the tiles as after reset, whatever the
heat (the model's choice, log 72). R325, R326: LOCK_INTERFACE is accepted only from CONFIG_UNLOCKED with IDE set up and nothing
resident or mapped, and scrubs the package; START_INTERFACE runs a locked one; STOP_INTERFACE scrubs and unlocks it; an IDE
failure of an assigned package moves it to ERROR; a session sets up IDE; a measurement is returned by its index, signed. That an
index above 5 is answered Unsupported Request (log 32), and that one key exchange sets up IDE and that LOCK is taken only from
CONFIG_UNLOCKED, with no launch that the hub lists, and START only from CONFIG_LOCKED (log 33), are the model's choice. It says
where these complete: packageReset, getMeasurements, lockInterface, startInterface, stopInterface, ideIntegrityFailure,
keyExchange. -/
def Obligations.BootAndAssignment : Prop :=
  (∀ (bs : List Byte) (tm : BitVec 8) (ok : Bool) (s : State),
   (∃ u, exec (.packageReset ⟨none, ok, tm⟩) s = .next u ∧ u.hub.stage = 0 ∧ u.hub.bootCode = 1) ∧
   ∃ u, exec (.packageReset ⟨some bs, ok, tm⟩) s = .next u ∧ u.part = s.part ∧ u.time = 0 ∧ u.tiles = [] ∧ u.backing = [] ∧
     u.flag = [] ∧ u.hub.ready = false ∧ u.hub.tdi = .unlocked ∧
     (let valid := Config.signatureValid (Config.sha256 bs)
      (u.hub.stage, u.hub.bootCode) =
       (if !valid then (0, 2) else if s.badFuses then (1, 3) else if !ok then (2, 4) else (5, 0) : BitVec 8 × BitVec 8) ∧
      (valid = true → u.hub.meas2 = Config.sha256 bs ∧ (s.badFuses = false → ok = true → u.hub.tmax = tm)))) ∧
  (∀ (i : BitVec 8) (s : State),
   ((s.hub.tdi ≠ .unlocked ∨ s.noResident = false ∨ s.hub.slots ≠ [] ∨ s.hub.ide = false) →
     exec .lockInterface s = .next (s.answer .tdispError)) ∧
   (s.hub.tdi = .unlocked → s.noResident = true → s.hub.slots = [] → s.hub.launches = [] → s.hub.ide = true →
     ∃ u, exec .lockInterface s = .next u ∧ u.hub.tdi = .locked ∧ u.backing = [] ∧ u.flag = [] ∧ u.hub.session = s.hub.session ∧
       u.out = s.out ++ [.done]) ∧
   (s.hub.tdi = .locked → exec .startInterface s = .next
     (({ s with hub := { s.hub with tdi := .run } } : State).answer .done)) ∧
   (s.hub.tdi ≠ .locked → exec .startInterface s = .next (s.answer .tdispError)) ∧
   (s.hub.tdi ≠ .unlocked → ∃ u, exec .stopInterface s = .next u ∧ u.hub.tdi = .unlocked ∧ u.backing = [] ∧ u.flag = [] ∧
     u.hub.session = none) ∧
   ((s.hub.tdi = .locked ∨ s.hub.tdi = .run) →
     ∃ u, exec .ideIntegrityFailure s = .next u ∧ u.hub.tdi = .error) ∧
   (∃ u, exec .keyExchange s = .next u ∧ u.hub.ide = true ∧ u.hub.session.isSome = true ∧ SameMemory s u ∧
     ∃ sig, u.out = s.out ++ [.session Config.slot0Chain sig]) ∧
   (∀ d, s.measurement i.toNat = some d → exec (.getMeasurements i) s = .next (({ s with freeCtr := s.freeCtr + 1 } : State).answer
     (.measurement i.toNat d (Config.signature (digestBytes d) s.freeCtr)))) ∧
   (5 < i.toNat → exec (.getMeasurements i) s = .next (s.answer .unsupported)))

/-- R317, R373, R403: the words that the manual gives for these lines decode to the instructions that the lines name. -/
def Obligations.DecodeWords : Prop :=
  decode 0x80029073 = .ok (.csrrw 0 0x800 5) ∧ decode 0x00C6907B = .ok (.barreg 13 12) ∧
  decode 0x00C707FB = .ok (.tspawn 15 14 12) ∧ decode 0x0745105B = .ok (.cwait 10 20) ∧
  decode 0x000C0593 = .ok (.addi 11 24 0) ∧ decode 0x00BAB023 = .ok (.sd 11 21 0) ∧ decode 0x02B4305B = .ok (.give 8 11) ∧
  decode 0x0706212B = .ok (.mma 2 12 16) ∧ decode 0x0806202B = .ok (.mmav 0 12) ∧ decode 0x0B0620AB = .ok (.mmas 1 12 16) ∧
  decode 0x0310818B = .ok (.vadd .f16 3 1 2 Guard.none) ∧ decode 0x1C10820B = .ok (.vfma .f32 4 1 2 Guard.none) ∧
  decode 0x5980000B = .ok (.vxor .n16 0 0 0 Guard.none) ∧ decode 0x6A3B028B = .ok (.vshr .i32 5 6 7 Guard.none) ∧
  decode 0xAC00810B = .ok (.vexp2 .f32 2 1 Guard.none) ∧ decode 0x9B18B08B = .ok (.vdiv .f16 1 1 3 ⟨3, 0⟩) ∧
  decode 0x2C00808B = .ok (.vmax .f32 1 1 0 Guard.none)

/-- One step (log 1): the issue port of a tile runs the instruction that the four bytes at the program counter of the chosen
context decode to, by exec, with that context as the executing one; a word that does not decode raises the illegal-instruction
step, a program counter beyond the I-store the fetch step (R39, R40, R64, R101); a context that its instruction occupies runs it
again without a slot (log 52); the step of a unit runs by exec, but no step of the loom dies while they have no power or are
held in reset; the clock ticks. The first fetch of a monitor entry must find code the tile holds (R304). -/
def Obligations.StepRunsDecoded : Prop := ∀ (s : State) (t : TileNo) (c : CtxNo) (r : List Move),
  let pc := (s.ctx t c).pcNow.toNat
  let byte (n : Nat) : Byte := Memory.read (s.tile t).istore (pc + n)
  let w := wordOfBytes (byte 0) (byte 1) (byte 2) (byte 3)
  let rest : State := { s with agenda := r }
  let runs (s' : State) : Prop :=
    let here : State := { s'.modTile t (fun tl => { tl with entering := tl.entering && c != 0 }) with cur := (t, c) }
    ((s.ctx t c).late = [] ∨ (s.ctx t c).takesLate = false) →
    ((s.ctx t c).sup = false ∨ (s.tile t).entering = false ∨ s.holdsCode t pc = true) →
    (0x10000 ≤ pc → step s = exec .fetchOutsideTheIstore here) ∧
    (pc < 0x10000 → (s.ctx t c).stale = [] → s.poisoned (.istore t pc) = false →
      (∀ i, decode w = .ok i → step s = exec i here) ∧
      (∀ x, decode w = .error x → step s = exec (.illegalInstruction w) here))
  (s.agenda = .issue t :: r → s.loomRuns = true → (s.tile t).lastIssue ≠ s.time + 1 → (s.tile t).choose s.time t = some c →
    runs (rest.modTile t fun tl => { tl with lastIssue := s.time + 1 })) ∧
  (s.agenda = .issue t :: r → (s.loomRuns = false ∨ (s.tile t).choose s.time t = none) → step s = .next rest) ∧
  (s.agenda = .retry t c :: r → s.loomRuns = true → (s.tile t).mayRetry c = true → runs rest) ∧
  (s.agenda = .retry t c :: r → (s.loomRuns = false ∨ (s.tile t).mayRetry c = false) → step s = .next rest) ∧
  (∀ i, s.agenda = .event i :: r → unitStep i = true →
    ((s.loomRuns = true ∨ hubAnswers i = true) → step s = exec i { s with agenda := r }) ∧
    (s.loomRuns = false → hubAnswers i = false → step s = .next { s with agenda := r })) ∧
  (s.agenda = .tick :: r → step s = .next ({ s with agenda := r } : State).tick) ∧
  (s.agenda = [] → step s = .next s.plan)

/-- What reset leaves (R20, R71, R75, R102, R110, R256, R297, R328): loom time 0, the registers at the values that their tables
give, and every memory in canonical form with nothing listed. Where the tables give no value the model chose one (log 6):
QTCOUNT 0, every context FREE and in task mode, and LS bytes that read 0. -/
def Obligations.ResetState : Prop :=
  State.reset.MemoryOk ∧ State.reset.LinesOk ∧ State.reset.time = 0 ∧ State.reset.backing = [] ∧ State.reset.flag = [] ∧
  State.reset.hub.framectl = 0x10000 ∧ State.reset.hub.tlim = 95 ∧ State.reset.hub.qtcount = 0 ∧ State.reset.hub.tdi = .unlocked ∧
  State.reset.hub.ready = false ∧ State.reset.hub.stage = 0 ∧
  ∀ t : TileNo, (State.reset.tile t).pwlog = 22 ∧ (State.reset.tile t).mbase = 0 ∧ (State.reset.tile t).stop = 0 ∧
    (∀ n, Assoc.get 0 n (State.reset.tile t).slots = 0) ∧ (∀ a, Memory.read (State.reset.tile t).ls a = 0) ∧
    ∀ c : CtxNo, (State.reset.ctx t c).state = .free ∧ (State.reset.ctx t c).sup = false ∧ (State.reset.ctx t c).frnd = 0 ∧
      (State.reset.ctx t c).fstat = 0 ∧ (State.reset.ctx t c).qmode = 0

/-- A byte written at a place of memory reads back, and no other byte of the device's data changes (R159, R176). -/
def Obligations.WriteThenRead : Prop := ∀ (s : State) (p : Place) (b : Byte), s.LinesOk →
  (match p with | .ls _ _ | .istore _ _ | .history _ _ | .pick _ _ | .main _ | .flag _ => True | _ => False) →
  (s.writePlace p b).readPlace p = b ∧
    ∀ q : Place, q.data = true → q ≠ p → (s.writePlace p b).readPlace q = s.readPlace q

/-- The word of a well-formed instruction decodes to that instruction: no bit of an encoding is dropped (R39 to R63). -/
def Obligations.EncodeDecode : Prop := ∀ (i : Instr) (w : InstWord), i.WellFormed → encode i = some w → decode w = .ok i

/-- A word that decodes is the word of the well-formed instruction that it decodes to: no two words stand for one instruction,
and every other word is illegal (R64). -/
def Obligations.DecodeEncode : Prop := ∀ (i : Instr) (w : InstWord), decode w = .ok i → i.WellFormed ∧ encode i = some w

/-- R213, R263, R268, R285, R294, R302, R303, R305, R308: where the steps of a tile that answer the monitor, the matrix unit,
the routers and the neighbours complete, and what they leave: a late refusal leaves its request refused in the log; a trap
record enters the monitor; TCMP is cleared; an order raises interrupt 1; an operation of the matrix unit starts; a stopped card
stays, selected; JOBCTL, REQCTL, PEXCUSE and PRES take their effect and the store that asked for it leaves (of PRES: what the
buffer counts lands, the spill counts of PBUF start again at 0 and the slots of its launch are unloaded; where it is not mapped
nothing lands: the model's choices of logs 19, 20 and 51); a PREAD request is answered; a request of a generation past is
acknowledged (log 16, the model's choice, as is a save only at the boundary that the hub holds, log 24). It says where these
complete: lateRefusal, trapEntry, loomTimeCompare, preemptOrder, matrixOpStart, cardStop, jobctlSelect, jobctlAbort,
reqctlReplay, reqctlDrop, pres, pexcuse, preadRequest, altRequest. -/
def Obligations.TileStepsComplete : Prop := ∀ (t o : TileNo) (c : CtxNo) (n : Nat) (s : State) (q : Req),
  let gone (u : State) : Prop := ∀ x ∈ (u.ctx t c).reqs, x.seq ≠ q.seq
  (∀ cause a, s.req t c n = some q → q.phase = .issued → (∀ h, q.kind ≠ .hload h) → q.kind ≠ .barrier → q.logged = true →
    s.refusal t c q = some (cause, a) → (s.ctx t c).sup = false → q.sup = false → (s.ctx t c).posted = none →
    (s.ctx t c).late = [] →
    (cause = 0x10 → ∀ p hv sysat, s.reach t (s.tag t c) q.kind.rights.1 q.kind.rights.2 a = .place p hv sysat → s.RoomAt p) →
    (q.num + 1 ≠ (s.ctx t c).num ∨ (s.ctx t c).takesLate = false) →
    ∃ u, exec (.lateRefusal t c n) s = .next u ∧ SameMemory s u ∧
      ∃ x ∈ (u.ctx t c).reqs, x.seq = q.seq ∧ x.phase = .refused cause a ∧ x.logged = true) ∧
  (∀ r rest, (s.tile t).mayEnter = true → (s.tile t).quarantined = false → (s.tile t).recs = r :: rest →
    ∃ u, exec (.trapEntry t) s = .next u ∧ (u.tile t).monitor = true ∧ (u.tile t).recs = rest ∧ (u.tile t).tval = r.val ∧
      (u.tile t).tcause = ((if r.intr then 0x8000000000000000 else 0) ||| r.code.zeroExtend 64) ∧
      (u.tile t).tctx = r.ctx.zeroExtend 64 ∧ (u.tile t).tseq = r.seq ∧ (u.ctx t 0).sup = true ∧ (u.ctx t 0).state = .ready ∧
      (u.ctx t 0).monPc = ((s.tile t).tvec &&& 0xFFFC) ∧ (u.ctx t 0).getX 4 = (s.tile t).mbase ∧ SameMemory s u) ∧
  (∀ v, (s.tile t).tcmp = v → v ≠ 0 → v.toNat ≤ s.time → (s.tile t).recs = [] → (s.tile t).mayEnter = true →
    (s.tile t).quarantined = false → ∃ u, exec (.loomTimeCompare t) s = .next u ∧ (u.tile t).tcmp = 0 ∧
      (u.tile t).monitor = true ∧ (u.tile t).tcause = 0x8000000000000002 ∧ (u.tile t).tval = v ∧ SameMemory s u) ∧
  (∀ l buf resume r, (s.tile t).residents.find? (fun r => !r.ended && r.index == l) = some r →
    (r.picks = false ∨ (resume = false ∧ (s.tile t).atBoundary r = true ∧
      ∃ k, s.hub.launches.find? (·.id == r.id) = some k ∧ k.resuming = false)) → (s.tile t).recs = [] → (s.tile t).mayEnter = true → (s.tile t).quarantined = false →
    ∃ u, exec (.preemptOrder t l buf resume) s = .next u ∧ (u.tile t).monitor = true ∧
      (u.tile t).tcause = 0x8000000000000001 ∧
      (u.tile t).tval = ((buf &&& 0xFFFFFFFFFFFF0000) ||| (l.zeroExtend 64 <<< 2) ||| (if resume then 1 else 0)) ∧
      SameMemory s u) ∧
  (∀ m rest, (s.tile t).mats = m :: rest → m.started = none → m.kind ≠ .card →
    s.fenceHolds t m.ctx m.num 8 (m.reads ++ m.writes) = false →
    ∃ u, exec (.matrixOpStart t) s = .next u ∧ (u.tile t).mats = { m with started := some s.time } :: rest ∧ SameMemory s u) ∧
  (∀ j k d s' x a, (s.tile t).card j = some k → k.state = .running → k.onMatrix = false → s.cardUnit t k 0 = (s', .stop d x a) →
    d.job = j → ((s'.tile t).card j).isSome = true →
    ∃ u, exec (.cardStop t j) s = .next u ∧ (u.tile t).selected = some j ∧
      ∃ y, (u.tile t).card j = some y ∧ y.state = .stopped ∧ y.status = BitVec.ofNat 8 x) ∧
  (∀ k, s.jobctl t c n = some (q, o, 0, some k) →
    ∃ u, exec (.jobctlSelect t c n) s = .next u ∧ (u.tile o).selected = some k.job ∧ gone u ∧ SameMemory s u) ∧
  (∀ k, s.jobctl t c n = some (q, o, 2, some k) → s.postedBy o (.card k.job) = false →
    ∃ u, exec (.jobctlAbort t c n) s = .next u ∧ (u.tile o).selected = none ∧ (u.tile o).ccount = (s.tile o).ccount + 1 ∧
      (∀ x ∈ (u.tile o).cards, x.job ≠ k.job) ∧ gone u) ∧
  (∀ c' r, s.ctl t c n 0x170 = some (q, o) → s.reqctl o q.data = some (c', r) → (o, c') ≠ (t, c) →
    (q.data.toNat / 2 ^ 16 % 4 = 1 → ∃ u, exec (.reqctlReplay t c n) s = .next u ∧
      (∃ z ∈ (u.ctx o c').reqs, z.seq = r.seq ∧ z.kind = r.kind ∧ z.dst = r.dst ∧ z.phase = .issued ∧
        (r.kind ≠ .mflush → r.kind ≠ .minv → z.elems = r.elems.map fun e => { e with done := false })) ∧
      gone u ∧ SameMemory s u) ∧
    (q.data.toNat / 2 ^ 16 % 4 = 2 → ∃ u, exec (.reqctlDrop t c n) s = .next u ∧ (∀ x ∈ (u.ctx o c').reqs, x.seq ≠ r.seq) ∧
      (∀ y sync, r.dst = .x y sync → y ≠ 0 → (∃ sg, r.kind = .load sg) → (u.ctx o c').getX y = 0) ∧ gone u ∧ SameMemory s u)) ∧
  (∀ b : TileNo, s.ctl t c n 0x140 = some (q, o) → q.data.toNat / 2 ^ 9 = 0 → q.data.toNat / 4 % 2 ^ 6 = 0 → q.data.getLsbD 8 = true →
    neighbour s.part o (q.data.toNat % 4) = some b → (s.pnbr o (q.data.toNat % 4)).getLsbD 63 = true →
    (s.tile b).pdone = false → (s.tile b).slack = false →
    ∃ u, exec (.pexcuse t c n) s = .next u ∧ (u.tile b).slack = true ∧ gone u ∧ SameMemory s u) ∧
  (s.ctl t c n 0x1A8 = some (q, o) →
    let a := q.data &&& 0xFFFFFFFFFFFF0000
    ∀ b, s.postedBy o .spill = false → s.bufWalk o a = none → s.bufLaunch o a = some b →
    let tag := b.tag
    ([a, a + 0x20000].any (s.unreachable o tag) = true → ∃ u, exec (.pres t c n) s = .next u ∧ gone u ∧ SameMemory s u) ∧
    ([a, a + 0x20000].any (s.unreachable o tag) = false →
      (∀ s1, s.loadWords o tag [a + 8, a + 16] = (s1, some [0, 0]) → ∃ u, exec (.pres t c n) s = .next u ∧ gone u ∧
        (u.tile o).restoring &&& b.groupMask = b.groupMask ∧
        ((s.tile o).pbuf = a → (u.tile o).dspill = 0 ∧ (u.tile o).sspill = 0) ∧
        ∀ i < 8, b.slotmask.getLsbD i = true → ((u.tile o).slot i).owned = true ∧ ((u.tile o).slot i).loaded = false) ∧
      (∀ s1 s2 v w, s.loadWords o tag [a + 8, a + 16] = (s1, some [1, 0]) →
        s1.loadWords o tag [a + 0x28000, a + 0x28008] = (s2, some [v, w]) → (s2.tile o).landing = [] →
        (∀ x ∈ (s2.tile o).inbox, x.ctx ∉ b.members) →
        let d : CtxNo := w.extractLsb' 0 4
        let x : BitVec 5 := (3 : BitVec 2) ++ w.extractLsb' 4 3
        ((s2.tile o).ctx d).isSync x = false → b.groupMask.getLsbD d.toNat = true →
        ∃ u, exec (.pres t c n) s = .next u ∧ gone u ∧ (u.tile o).restoring &&& b.groupMask = b.groupMask ∧ (u.tile o).landing = [] ∧
          (u.ctx o d).getX x = v ∧ (u.ctx o d).isFull x = true))) ∧
  (∀ w off slot ph, s.req t c n = some q → q.kind = .pread o w off slot → q.phase = .issued → s.mayPerform t c q q.elems = true →
    (s.tile o).answer w slot = some ph →
    ∃ u, exec (.preadRequest t c n) s = .next u ∧ { q with phase := ph } ∈ (u.ctx t c).reqs ∧ OnlyCtx s u t c ∧ SameMemory s u) ∧
  (∀ k : Chunk, s.chunks[n]? = some k → s.chunkFirst n k = true → k.acked = false → k.kind = .alt → k.port = none →
    0 < (((s.tile k.node).ttSt k.entry.toNat).gen - k.gen).toNat → (((s.tile k.node).ttSt k.entry.toNat).gen - k.gen).toNat < 2 ^ 15 →
    ∃ u, exec (.altRequest (.here n)) s = .next u ∧ SameMemory s u ∧ u.chunks = s.chunks.eraseIdx n ++
      [{ k with kind := .ackAlt, data := [], born := s.time, fromTile := k.node, node := k.fromTile, dest := k.fromTile }])

/-- R133 to R136, R145, R159, R161, R191, R231: where the queue commands, the posts, the flushes and the draft loads complete,
and what they leave: a WAIT whose word meets its comparison, a SIGNAL with its word written, a TIMED whose time has come with
its stamp, a FLUSH, an INV, a FENCE, a COPY and a TLBINV are done, so that READIDX advances next; a post leaves the notify word
one higher and its answer, the reply of a QPUTW lets its context go on; a flush of its last page leaves and st falls; a draft
load fills its slot and ld falls. That a flush goes by pages of 64 KiB (log 36) and that COPY is one step (log 17) are the
model's choice. It says where these complete: mflushDone, hloadComplete, qputPost, qputReply, wait, waitEvaluate, signal,
timedExpiry, flush, inv, fenceCommand, copy, tlbinv. -/
def Obligations.CommandStepsComplete : Prop := ∀ (q : QueueNo) (t : TileNo) (c : CtxNo) (n : Nat) (s : State) (m : Cmd) (r : Req)
    (p : Place) (hv : Bool),
  let ends (i : Instr) (post : State → Prop) : Prop :=
    ∃ u, exec i s = .next u ∧ (u.qslot q).bind (·.cmd) = some { m with phase := .done } ∧ u.out = s.out ∧ post u
  let word (v : Nat) (u : State) : Prop := u.readPlaces p 8 = leBytes 8 v
  let sound : Prop := s.LinesOk ∧ s.RoomAt p ∧ (∀ i < 8, (p.add i).stored = true ∧ (p.add i).word8 = p.word8)
  (∀ i, (s.cmdIn q 2 .started = some m ∧ i = .wait q) ∨ (s.cmdIn q 2 .waiting = some m ∧ i = .waitEvaluate q) →
    s.waitLate q m = false → s.semaphore q true false (m.w 1) = .ok (p, hv) → s.RoomAt p →
    waitHolds ((m.w 3).toNat % 4) (leWord (s.readPlaces p 8)) (m.w 2) = true → ends i fun _ => True) ∧
  (s.cmdIn q 3 .started = some m → s.semaphore q true true (m.w 1) = .ok (p, hv) → s.fifoEmpty p.word8 = true → sound →
    ends (.signal q) (word (signalOp ((m.w 3).toNat % 4) (leWord (s.readPlaces p 8)) (m.w 2)).toNat)) ∧
  (s.cmdIn q 4 .waiting = some m → (m.w 1).toNat ≤ s.time →
    (m.w 2 = 0 → ends (.timedExpiry q) fun u => u = s.cmdDone q) ∧
    (m.w 2 ≠ 0 → s.qPlace q false true (sext48 ((m.w 2).toNat)) = some (p, hv) → s.fifoEmpty p.word8 = true → sound →
      ends (.timedExpiry q) fun u => (List.range 8).map (fun i => u.readBacking (p.add i)) = leBytes 8 (s.time % 2 ^ 64))) ∧
  ((m.w 2).toNat = 0 →
    (s.cmdIn q 5 .started = some m → ends (.flush q) fun u => u.flag = s.flag) ∧
    (s.cmdIn q 6 .started = some m → ends (.inv q) fun u => u.flag = s.flag)) ∧
  (let a := (sext48 (m.w 1).toNat).toNat
   let k := (m.w 2).toNat
   ∀ l, k ≠ 0 → flushBad a k = none → s.flushSpans q (flushPages a k) a (a + k) = some l →
    (s.cmdIn q 5 .started = some m → ends (.flush q) fun u => u.flag = s.flag) ∧
    (s.cmdIn q 6 .started = some m → ends (.inv q) fun u => u.flag = s.flag)) ∧
  (s.cmdIn q 7 .started = some m → (∀ l ∈ s.hub.launches, l.queue ≠ q) → ends (.fenceCommand q) fun u => u = s.cmdDone q) ∧
  (s.cmdIn q 8 .started = some m → (m.w 3).toNat % 2 ^ 48 = 0 → s.postedBy 0 (.copy q) = false → ends (.copy q) (SameMemory s)) ∧
  (∀ src dst, s.cmdIn q 8 .started = some m → s.postedBy 0 (.copy q) = false →
    s.copyPlaces q false (sext48 (m.w 1).toNat) ((m.w 3).toNat % 2 ^ 48) = .ok src →
    s.copyPlaces q true (sext48 (m.w 2).toNat) ((m.w 3).toNat % 2 ^ 48) = .ok dst →
    (∀ x ∈ dst, s.fifoEmpty x.1.word8 = true) → ends (.copy q) fun _ => True) ∧
  (let all := (m.w 3).getLsbD 0
   let lo := (m.w 1).toNat % 2 ^ 48
   s.cmdIn q 9 .started = some m → s.usesRange q all lo (m.w 2).toNat = false → ends (.tlbinv q) fun u =>
    u.backing = s.backing ∧ u.flag = s.flag ∧ ∀ x ∈ u.tiles, ∀ e ∈ x.2.tlb, s.invalidates q all lo (m.w 2).toNat e = false) ∧
  (∀ cmd pa w, s.req t c n = some r → (r.kind = .qput q cmd ∨ r.kind = .qputw q cmd) → r.phase = .issued → n = 0 →
    s.posting q = .go pa w → s.hub.posts = [] → (s.qslot q).isSome = true →
    s.fifoEmpty (.flag (descNotify (s.desc q))) = true → (∀ x ∈ slotWords pa, s.fifoEmpty x = true) →
    s.fenceHoldsAt t c r.num 2 (s.postLocs q) = false →
    ∃ u, exec (.qputPost t c n) s = .next u ∧ u.posted (s.desc q) = (w + 1) % 2 ^ 64 ∧
      { r with phase := .answered 0 0 } ∈ (u.ctx t c).reqs) ∧
  (∀ cmd v f x sync, s.req t c n = some r → r.kind = .qputw q cmd → r.phase = .answered v f → r.dst = .x x sync →
    (s.ctx t c).state = .parked → ∃ u, exec (.qputReply t c n) s = .next u ∧ (u.ctx t c).state = .ready ∧
      (x ≠ 0 → (u.ctx t c).getX x = v) ∧ (∀ y ∈ (u.ctx t c).reqs, y.seq ≠ r.seq) ∧ OnlyCtx s u t c ∧ SameMemory s u) ∧
  (∀ e es x, s.req t c n = some r → (r.kind = .mflush ∨ r.kind = .minv) → r.phase = .issued → r.elems = e :: es →
    s.mayPerform t c r r.elems = true → e.size ≠ 0 →
    let va := BitVec.ofNat 64 (e.addr.toNat + e.pos)
    s.translated t va = true → s.translation t (s.tag t c) va = some x →
    e.pos + min (e.size - e.pos) (65536 - (e.addr.toNat + e.pos) % 65536) = e.size →
    ∃ u, exec (.mflushDone t c n) s = .next u ∧ (u.ctx t c).st = (s.ctx t c).st - 1 ∧
      (∀ y ∈ (u.ctx t c).reqs, y.seq ≠ r.seq) ∧ u.flag = s.flag) ∧
  (∀ slot e es h ns s1 s2, s.req t c n = some r → (∀ x ∈ (s.ctx t c).reqs, x.seq = r.seq → x = r) → r.kind = .hload slot →
    r.elems = e :: es → r.phase = .issued → r.sup = true → s.mayPerform t c r [{ e with size := 264 }] = true →
    s.refusal t c r = none → s.readWords t (s.tag t c) e.addr.toNat 1 = (s1, .ok [h]) →
    s1.readWords t (s.tag t c) (e.addr.toNat + 8) (h.toNat % 32 + 1) = (s2, .ok ns) → (⟨h, ns⟩ : Draft).okTile = true →
    ∃ u, exec (.hloadComplete t c n) s = .next u ∧ ((u.tile t).slot slot.toNat).loaded = true ∧
      ((u.tile t).slot slot.toNat).draft = ⟨h, ns⟩ ∧ (u.ctx t c).ld = (s.ctx t c).ld - 1 ∧
      (∀ x ∈ (u.ctx t c).reqs, x.seq ≠ r.seq))

/-- Every step keeps every memory of the package in canonical form, addresses rising and no entry that an unlisted address would
read as, and the buffered lines 64 bytes long (log 6, R159). -/
def Obligations.StepKeepsMemory : Prop := ∀ s t : State, s.MemoryOk → s.LinesOk → step s = .next t → t.MemoryOk ∧ t.LinesOk
end

