-- ==== Sys2Proof/Laws/Assoc.lean ====
section
/-! SUPPORT. Laws of sparse maps and of memory: a read after a write, and the canonical form. -/

namespace Sys2Proof.Machine

theorem Assoc.get_put_same {α : Type} (d : α) (k : Nat) (v : α) (l : Assoc α) : Assoc.get d k (Assoc.put k v l) = v := by
  induction l with
  | nil => simp [Assoc.put, Assoc.get]
  | cons p r ih =>
    obtain ⟨j, u⟩ := p
    simp only [Assoc.put]
    split
    · rename_i h; simp only [Assoc.get, ih]; split
      · omega
      · rfl
    · split <;> simp [Assoc.get]

theorem Assoc.get_put_other {α : Type} (d : α) {k n : Nat} (h : n ≠ k) (v : α) (l : Assoc α) :
    Assoc.get d n (Assoc.put k v l) = Assoc.get d n l := by
  induction l with
  | nil => simp [Assoc.put, Assoc.get]; omega
  | cons p r ih =>
    obtain ⟨j, u⟩ := p
    simp only [Assoc.put]
    split
    · simp only [Assoc.get, ih]
    · split
      · rename_i e; subst e; simp only [Assoc.get]; rw [if_neg (Ne.symm h), if_neg (Ne.symm h)]
      · simp only [Assoc.get]; rw [if_neg (Ne.symm h)]

theorem Assoc.get_erase_same {α : Type} (d : α) (k : Nat) (l : Assoc α) : Assoc.get d k (Assoc.erase k l) = d := by
  induction l with
  | nil => rfl
  | cons p r ih =>
    obtain ⟨j, u⟩ := p
    simp only [Assoc.erase]
    split
    · exact ih
    · simp only [Assoc.get, ih]; rw [if_neg (by assumption)]

theorem Assoc.get_erase_other {α : Type} (d : α) {k n : Nat} (h : n ≠ k) (l : Assoc α) :
    Assoc.get d n (Assoc.erase k l) = Assoc.get d n l := by
  induction l with
  | nil => rfl
  | cons p r ih =>
    obtain ⟨j, u⟩ := p
    simp only [Assoc.erase]
    split
    · rename_i e; subst e; simp only [Assoc.get, ih]; rw [if_neg (Ne.symm h)]
    · simp only [Assoc.get, ih]

/-- A read of the key just stored gives the value stored. -/
@[simp] theorem Assoc.get_set_same {α : Type} [DecidableEq α] (d : α) (k : Nat) (v : α) (l : Assoc α) :
    Assoc.get d k (Assoc.set d k v l) = v := by
  unfold Assoc.set
  split
  · rename_i h; rw [Assoc.get_erase_same, h]
  · exact Assoc.get_put_same d k v l

/-- A store leaves every other key alone. -/
theorem Assoc.get_set_other {α : Type} [DecidableEq α] (d : α) {k n : Nat} (h : n ≠ k) (v : α) (l : Assoc α) :
    Assoc.get d n (Assoc.set d k v l) = Assoc.get d n l := by
  unfold Assoc.set
  split
  · exact Assoc.get_erase_other d h l
  · exact Assoc.get_put_other d h v l

/-! ### The canonical form -/

theorem Assoc.okFrom_mono {α : Type} [DecidableEq α] {d : α} {a b : Nat} (h : a ≤ b) {l : Assoc α}
    (ok : Assoc.okFrom d b l = true) : Assoc.okFrom d a l = true := by
  cases l with
  | nil => rfl
  | cons p r =>
    obtain ⟨k, v⟩ := p
    simp only [Assoc.okFrom, Bool.and_eq_true, decide_eq_true_eq] at ok ⊢
    exact ⟨⟨by omega, ok.1.2⟩, ok.2⟩

theorem Assoc.okFrom_erase {α : Type} [DecidableEq α] {d : α} (k : Nat) {lo : Nat} {l : Assoc α}
    (ok : Assoc.okFrom d lo l = true) : Assoc.okFrom d lo (Assoc.erase k l) = true := by
  induction l generalizing lo with
  | nil => rfl
  | cons p r ih =>
    obtain ⟨j, u⟩ := p
    simp only [Assoc.okFrom, Bool.and_eq_true, decide_eq_true_eq] at ok
    simp only [Assoc.erase]
    split
    · exact Assoc.okFrom_mono (by omega) (ih ok.2)
    · simp only [Assoc.okFrom, Bool.and_eq_true, decide_eq_true_eq]
      exact ⟨ok.1, ih ok.2⟩

theorem Assoc.okFrom_put {α : Type} [DecidableEq α] {d v : α} (hv : v ≠ d) {k lo : Nat} (hk : lo ≤ k) {l : Assoc α}
    (ok : Assoc.okFrom d lo l = true) : Assoc.okFrom d lo (Assoc.put k v l) = true := by
  induction l generalizing lo with
  | nil => simp [Assoc.put, Assoc.okFrom, hk, hv]
  | cons p r ih =>
    obtain ⟨j, u⟩ := p
    have ok' := ok
    simp only [Assoc.okFrom, Bool.and_eq_true, decide_eq_true_eq] at ok
    simp only [Assoc.put]
    split
    · simp only [Assoc.okFrom, Bool.and_eq_true, decide_eq_true_eq]
      exact ⟨ok.1, ih (by omega) ok.2⟩
    · split
      · rename_i e; subst e
        simp only [Assoc.okFrom, Bool.and_eq_true, decide_eq_true_eq]
        exact ⟨⟨hk, hv⟩, ok.2⟩
      · simp only [Assoc.okFrom, Bool.and_eq_true, decide_eq_true_eq]
        exact ⟨⟨hk, hv⟩, ⟨by omega, ok.1.2⟩, ok.2⟩

/-- A store keeps the canonical form. -/
theorem Assoc.okFrom_set {α : Type} [DecidableEq α] (d : α) {k lo : Nat} (hk : lo ≤ k) (v : α) {l : Assoc α}
    (ok : Assoc.okFrom d lo l = true) : Assoc.okFrom d lo (Assoc.set d k v l) = true := by
  unfold Assoc.set
  split
  · exact Assoc.okFrom_erase k ok
  · exact Assoc.okFrom_put (by assumption) hk ok

/-- Keeping some of the entries keeps the canonical form. -/
theorem Assoc.okFrom_filter {α : Type} [DecidableEq α] {d : α} (p : Nat × α → Bool) {lo : Nat} {l : Assoc α}
    (ok : Assoc.okFrom d lo l = true) : Assoc.okFrom d lo (l.filter p) = true := by
  induction l generalizing lo with
  | nil => rfl
  | cons q r ih =>
    obtain ⟨j, u⟩ := q
    simp only [Assoc.okFrom, Bool.and_eq_true, decide_eq_true_eq] at ok
    simp only [List.filter_cons]
    split
    · simp only [Assoc.okFrom, Bool.and_eq_true, decide_eq_true_eq]
      exact ⟨ok.1, ih ok.2⟩
    · exact Assoc.okFrom_mono (by omega) (ih ok.2)

/-- A canonical map reads the default everywhere only when it is empty; so two canonical maps that read alike are equal. -/
theorem Assoc.get_of_lt {α : Type} [DecidableEq α] {d : α} {lo n : Nat} {l : Assoc α} (ok : Assoc.okFrom d lo l = true)
    (h : n < lo) : Assoc.get d n l = d := by
  induction l generalizing lo with
  | nil => rfl
  | cons p r ih =>
    obtain ⟨k, v⟩ := p
    simp only [Assoc.okFrom, Bool.and_eq_true, decide_eq_true_eq] at ok
    simp only [Assoc.get]
    rw [if_neg (by omega)]
    exact ih ok.2 (by omega)

theorem Assoc.ext {α : Type} [DecidableEq α] {d : α} {lo : Nat} {a b : Assoc α} (ha : Assoc.okFrom d lo a = true)
    (hb : Assoc.okFrom d lo b = true) (h : ∀ n, Assoc.get d n a = Assoc.get d n b) : a = b := by
  induction a generalizing lo b with
  | nil =>
    cases b with
    | nil => rfl
    | cons p r =>
      obtain ⟨k, v⟩ := p
      have := h k
      simp only [Assoc.okFrom, Bool.and_eq_true, decide_eq_true_eq] at hb
      simp [Assoc.get] at this
      exact absurd this.symm hb.1.2
  | cons p r ih =>
    obtain ⟨k, v⟩ := p
    cases b with
    | nil =>
      have := h k
      simp only [Assoc.okFrom, Bool.and_eq_true, decide_eq_true_eq] at ha
      simp [Assoc.get] at this
      exact absurd this ha.1.2
    | cons q t =>
      obtain ⟨j, u⟩ := q
      simp only [Assoc.okFrom, Bool.and_eq_true, decide_eq_true_eq] at ha hb
      have e : k = j := by
        rcases Nat.lt_trichotomy k j with hlt | he | hgt
        · have := h k
          simp only [Assoc.get, if_true] at this
          rw [if_neg (by omega), Assoc.get_of_lt hb.2 (by omega)] at this
          exact absurd this ha.1.2
        · exact he
        · have := h j
          simp only [Assoc.get, if_true] at this
          rw [if_neg (by omega), Assoc.get_of_lt ha.2 (by omega)] at this
          exact absurd this.symm hb.1.2
      subst e
      have hv : v = u := by have := h k; simpa [Assoc.get] using this
      subst hv
      rw [ih ha.2 hb.2 ?_]
      intro n
      by_cases hn : n < k + 1
      · rw [Assoc.get_of_lt ha.2 hn, Assoc.get_of_lt hb.2 hn]
      · have := h n
        simp only [Assoc.get] at this
        rwa [if_neg (by omega), if_neg (by omega)] at this

/-! ### Memory -/

@[simp] theorem Memory.read_write_same (m : Memory) (a : Nat) (b : Byte) : (m.write a b).read a = b :=
  Assoc.get_set_same Memory.unlisted a b m

theorem Memory.read_write_other (m : Memory) {a n : Nat} (h : n ≠ a) (b : Byte) : (m.write a b).read n = m.read n :=
  Assoc.get_set_other Memory.unlisted h b m

theorem Memory.wf_write {m : Memory} (h : m.wf = true) (a : Nat) (b : Byte) : (m.write a b).wf = true :=
  Assoc.okFrom_set Memory.unlisted (Nat.zero_le a) b h

theorem Memory.wf_nil : Memory.wf [] = true := rfl

theorem Memory.wf_filter {m : Memory} (h : m.wf = true) (p : Host.Cell → Bool) : Memory.wf (m.filter p) = true :=
  Assoc.okFrom_filter p h

theorem Memory.wf_writeBytes {m : Memory} (h : m.wf = true) (a : Nat) (bs : List Byte) : (m.writeBytes a bs).wf = true := by
  induction bs generalizing m a with
  | nil => exact h
  | cons b r ih => exact ih (Memory.wf_write h a b) (a + 1)

/-- A byte outside the bytes stored reads as before. -/
theorem Memory.read_writeBytes_other (m : Memory) (a : Nat) (bs : List Byte) {n : Nat} (h : n < a ∨ a + bs.length ≤ n) :
    (m.writeBytes a bs).read n = m.read n := by
  induction bs generalizing m a with
  | nil => rfl
  | cons b r ih =>
    simp only [List.length_cons] at h
    simp only [Memory.writeBytes]
    rw [ih (m.write a b) (a + 1) (by omega), Memory.read_write_other m (by omega)]

/-- The bytes stored read back. -/
theorem Memory.readBytes_writeBytes (m : Memory) (a : Nat) (bs : List Byte) :
    (m.writeBytes a bs).readBytes a bs.length = bs := by
  induction bs generalizing m a with
  | nil => rfl
  | cons b r ih =>
    simp only [Memory.writeBytes, List.length_cons, Memory.readBytes]
    rw [Memory.read_writeBytes_other (m.write a b) (a + 1) r (by omega), Memory.read_write_same, ih]

/-- Equal reads make equal memories. -/
theorem Memory.ext {m n : Memory} (hm : m.wf = true) (hn : n.wf = true) (h : ∀ a, m.read a = n.read a) : m = n :=
  Assoc.ext hm hn h

end Sys2Proof.Machine
end

