-- ==== Sys2Proof/Laws/Encoding.lean ====
section
/-! SUPPORT. The fields of an encoded word: what each layout puts where. -/

namespace Sys2Proof

theorem append_toNat {m n : Nat} (x : BitVec m) (y : BitVec n) : (x ++ y).toNat = x.toNat * 2 ^ n + y.toNat := by
  rw [BitVec.toNat_append, ← Nat.shiftLeft_add_eq_or_of_lt y.isLt, Nat.shiftLeft_eq]

theorem fld_toNat (w : InstWord) (lo len : Nat) : (fld w lo len).toNat = w.toNat / 2 ^ lo % 2 ^ len := by
  simp [fld, BitVec.extractLsb'_toNat, Nat.shiftRight_eq_div_pow]

theorem extract_toNat {n : Nat} (w : BitVec n) (lo len : Nat) : (w.extractLsb' lo len).toNat = w.toNat / 2 ^ lo % 2 ^ len := by
  rw [BitVec.extractLsb'_toNat, Nat.shiftRight_eq_div_pow]

/-! ### encR -/

theorem encR_toNat (f7 : BitVec 7) (b a : BitVec 5) (f3 : BitVec 3) (d : BitVec 5) (op : BitVec 7) : (encR f7 b a f3 d op).toNat =
    f7.toNat * 2 ^ 25 + b.toNat * 2 ^ 20 + a.toNat * 2 ^ 15 + f3.toNat * 2 ^ 12 + d.toNat * 2 ^ 7 + op.toNat := by
  unfold encR; simp only [append_toNat]; omega

@[simp] theorem encR_25_7 (f7 : BitVec 7) (b a : BitVec 5) (f3 : BitVec 3) (d : BitVec 5) (op : BitVec 7) : fld (encR f7 b a f3 d op) 25 7 = f7 := by
  apply BitVec.eq_of_toNat_eq; rw [fld_toNat, encR_toNat]; have := (f7).isLt; have := (b).isLt; have := (a).isLt; have := (f3).isLt; have := (d).isLt; have := (op).isLt; omega

@[simp] theorem encR_20_5 (f7 : BitVec 7) (b a : BitVec 5) (f3 : BitVec 3) (d : BitVec 5) (op : BitVec 7) : fld (encR f7 b a f3 d op) 20 5 = b := by
  apply BitVec.eq_of_toNat_eq; rw [fld_toNat, encR_toNat]; have := (f7).isLt; have := (b).isLt; have := (a).isLt; have := (f3).isLt; have := (d).isLt; have := (op).isLt; omega

@[simp] theorem encR_15_5 (f7 : BitVec 7) (b a : BitVec 5) (f3 : BitVec 3) (d : BitVec 5) (op : BitVec 7) : fld (encR f7 b a f3 d op) 15 5 = a := by
  apply BitVec.eq_of_toNat_eq; rw [fld_toNat, encR_toNat]; have := (f7).isLt; have := (b).isLt; have := (a).isLt; have := (f3).isLt; have := (d).isLt; have := (op).isLt; omega

@[simp] theorem encR_12_3 (f7 : BitVec 7) (b a : BitVec 5) (f3 : BitVec 3) (d : BitVec 5) (op : BitVec 7) : fld (encR f7 b a f3 d op) 12 3 = f3 := by
  apply BitVec.eq_of_toNat_eq; rw [fld_toNat, encR_toNat]; have := (f7).isLt; have := (b).isLt; have := (a).isLt; have := (f3).isLt; have := (d).isLt; have := (op).isLt; omega

@[simp] theorem encR_7_5 (f7 : BitVec 7) (b a : BitVec 5) (f3 : BitVec 3) (d : BitVec 5) (op : BitVec 7) : fld (encR f7 b a f3 d op) 7 5 = d := by
  apply BitVec.eq_of_toNat_eq; rw [fld_toNat, encR_toNat]; have := (f7).isLt; have := (b).isLt; have := (a).isLt; have := (f3).isLt; have := (d).isLt; have := (op).isLt; omega

@[simp] theorem encR_0_7 (f7 : BitVec 7) (b a : BitVec 5) (f3 : BitVec 3) (d : BitVec 5) (op : BitVec 7) : fld (encR f7 b a f3 d op) 0 7 = op := by
  apply BitVec.eq_of_toNat_eq; rw [fld_toNat, encR_toNat]; have := (f7).isLt; have := (b).isLt; have := (a).isLt; have := (f3).isLt; have := (d).isLt; have := (op).isLt; omega

/-! ### encI -/

theorem encI_toNat (imm : BitVec 12) (a : BitVec 5) (f3 : BitVec 3) (d : BitVec 5) (op : BitVec 7) : (encI imm a f3 d op).toNat =
    imm.toNat * 2 ^ 20 + a.toNat * 2 ^ 15 + f3.toNat * 2 ^ 12 + d.toNat * 2 ^ 7 + op.toNat := by
  unfold encI; simp only [append_toNat]; omega

@[simp] theorem encI_20_12 (imm : BitVec 12) (a : BitVec 5) (f3 : BitVec 3) (d : BitVec 5) (op : BitVec 7) : fld (encI imm a f3 d op) 20 12 = imm := by
  apply BitVec.eq_of_toNat_eq; rw [fld_toNat, encI_toNat]; have := (imm).isLt; have := (a).isLt; have := (f3).isLt; have := (d).isLt; have := (op).isLt; omega

@[simp] theorem encI_15_5 (imm : BitVec 12) (a : BitVec 5) (f3 : BitVec 3) (d : BitVec 5) (op : BitVec 7) : fld (encI imm a f3 d op) 15 5 = a := by
  apply BitVec.eq_of_toNat_eq; rw [fld_toNat, encI_toNat]; have := (imm).isLt; have := (a).isLt; have := (f3).isLt; have := (d).isLt; have := (op).isLt; omega

@[simp] theorem encI_12_3 (imm : BitVec 12) (a : BitVec 5) (f3 : BitVec 3) (d : BitVec 5) (op : BitVec 7) : fld (encI imm a f3 d op) 12 3 = f3 := by
  apply BitVec.eq_of_toNat_eq; rw [fld_toNat, encI_toNat]; have := (imm).isLt; have := (a).isLt; have := (f3).isLt; have := (d).isLt; have := (op).isLt; omega

@[simp] theorem encI_7_5 (imm : BitVec 12) (a : BitVec 5) (f3 : BitVec 3) (d : BitVec 5) (op : BitVec 7) : fld (encI imm a f3 d op) 7 5 = d := by
  apply BitVec.eq_of_toNat_eq; rw [fld_toNat, encI_toNat]; have := (imm).isLt; have := (a).isLt; have := (f3).isLt; have := (d).isLt; have := (op).isLt; omega

@[simp] theorem encI_0_7 (imm : BitVec 12) (a : BitVec 5) (f3 : BitVec 3) (d : BitVec 5) (op : BitVec 7) : fld (encI imm a f3 d op) 0 7 = op := by
  apply BitVec.eq_of_toNat_eq; rw [fld_toNat, encI_toNat]; have := (imm).isLt; have := (a).isLt; have := (f3).isLt; have := (d).isLt; have := (op).isLt; omega

/-! ### encS -/

theorem encS_toNat (imm : BitVec 12) (b a : BitVec 5) (f3 : BitVec 3) : (encS imm b a f3).toNat =
    (imm.extractLsb' 5 7).toNat * 2 ^ 25 + b.toNat * 2 ^ 20 + a.toNat * 2 ^ 15 + f3.toNat * 2 ^ 12 + (imm.extractLsb' 0 5).toNat * 2 ^ 7 + (0x23#7).toNat := by
  unfold encS; simp only [append_toNat]; omega

@[simp] theorem encS_25_7 (imm : BitVec 12) (b a : BitVec 5) (f3 : BitVec 3) : fld (encS imm b a f3) 25 7 = imm.extractLsb' 5 7 := by
  apply BitVec.eq_of_toNat_eq; rw [fld_toNat, encS_toNat]; have := (imm.extractLsb' 5 7).isLt; have := (b).isLt; have := (a).isLt; have := (f3).isLt; have := (imm.extractLsb' 0 5).isLt; have := (0x23#7).isLt; omega

@[simp] theorem encS_20_5 (imm : BitVec 12) (b a : BitVec 5) (f3 : BitVec 3) : fld (encS imm b a f3) 20 5 = b := by
  apply BitVec.eq_of_toNat_eq; rw [fld_toNat, encS_toNat]; have := (imm.extractLsb' 5 7).isLt; have := (b).isLt; have := (a).isLt; have := (f3).isLt; have := (imm.extractLsb' 0 5).isLt; have := (0x23#7).isLt; omega

@[simp] theorem encS_15_5 (imm : BitVec 12) (b a : BitVec 5) (f3 : BitVec 3) : fld (encS imm b a f3) 15 5 = a := by
  apply BitVec.eq_of_toNat_eq; rw [fld_toNat, encS_toNat]; have := (imm.extractLsb' 5 7).isLt; have := (b).isLt; have := (a).isLt; have := (f3).isLt; have := (imm.extractLsb' 0 5).isLt; have := (0x23#7).isLt; omega

@[simp] theorem encS_12_3 (imm : BitVec 12) (b a : BitVec 5) (f3 : BitVec 3) : fld (encS imm b a f3) 12 3 = f3 := by
  apply BitVec.eq_of_toNat_eq; rw [fld_toNat, encS_toNat]; have := (imm.extractLsb' 5 7).isLt; have := (b).isLt; have := (a).isLt; have := (f3).isLt; have := (imm.extractLsb' 0 5).isLt; have := (0x23#7).isLt; omega

@[simp] theorem encS_7_5 (imm : BitVec 12) (b a : BitVec 5) (f3 : BitVec 3) : fld (encS imm b a f3) 7 5 = imm.extractLsb' 0 5 := by
  apply BitVec.eq_of_toNat_eq; rw [fld_toNat, encS_toNat]; have := (imm.extractLsb' 5 7).isLt; have := (b).isLt; have := (a).isLt; have := (f3).isLt; have := (imm.extractLsb' 0 5).isLt; have := (0x23#7).isLt; omega

@[simp] theorem encS_0_7 (imm : BitVec 12) (b a : BitVec 5) (f3 : BitVec 3) : fld (encS imm b a f3) 0 7 = 0x23#7 := by
  apply BitVec.eq_of_toNat_eq; rw [fld_toNat, encS_toNat]; have := (imm.extractLsb' 5 7).isLt; have := (b).isLt; have := (a).isLt; have := (f3).isLt; have := (imm.extractLsb' 0 5).isLt; have := (0x23#7).isLt; omega

/-! ### encB -/

theorem encB_toNat (imm : BitVec 12) (b a : BitVec 5) (f3 : BitVec 3) : (encB imm b a f3).toNat =
    (imm.extractLsb' 11 1).toNat * 2 ^ 31 + (imm.extractLsb' 4 6).toNat * 2 ^ 25 + b.toNat * 2 ^ 20 + a.toNat * 2 ^ 15 + f3.toNat * 2 ^ 12 + (imm.extractLsb' 0 4).toNat * 2 ^ 8 + (imm.extractLsb' 10 1).toNat * 2 ^ 7 + (0x63#7).toNat := by
  unfold encB; simp only [append_toNat]; omega

@[simp] theorem encB_31_1 (imm : BitVec 12) (b a : BitVec 5) (f3 : BitVec 3) : fld (encB imm b a f3) 31 1 = imm.extractLsb' 11 1 := by
  apply BitVec.eq_of_toNat_eq; rw [fld_toNat, encB_toNat]; have := (imm.extractLsb' 11 1).isLt; have := (imm.extractLsb' 4 6).isLt; have := (b).isLt; have := (a).isLt; have := (f3).isLt; have := (imm.extractLsb' 0 4).isLt; have := (imm.extractLsb' 10 1).isLt; have := (0x63#7).isLt; omega

@[simp] theorem encB_25_6 (imm : BitVec 12) (b a : BitVec 5) (f3 : BitVec 3) : fld (encB imm b a f3) 25 6 = imm.extractLsb' 4 6 := by
  apply BitVec.eq_of_toNat_eq; rw [fld_toNat, encB_toNat]; have := (imm.extractLsb' 11 1).isLt; have := (imm.extractLsb' 4 6).isLt; have := (b).isLt; have := (a).isLt; have := (f3).isLt; have := (imm.extractLsb' 0 4).isLt; have := (imm.extractLsb' 10 1).isLt; have := (0x63#7).isLt; omega

@[simp] theorem encB_20_5 (imm : BitVec 12) (b a : BitVec 5) (f3 : BitVec 3) : fld (encB imm b a f3) 20 5 = b := by
  apply BitVec.eq_of_toNat_eq; rw [fld_toNat, encB_toNat]; have := (imm.extractLsb' 11 1).isLt; have := (imm.extractLsb' 4 6).isLt; have := (b).isLt; have := (a).isLt; have := (f3).isLt; have := (imm.extractLsb' 0 4).isLt; have := (imm.extractLsb' 10 1).isLt; have := (0x63#7).isLt; omega

@[simp] theorem encB_15_5 (imm : BitVec 12) (b a : BitVec 5) (f3 : BitVec 3) : fld (encB imm b a f3) 15 5 = a := by
  apply BitVec.eq_of_toNat_eq; rw [fld_toNat, encB_toNat]; have := (imm.extractLsb' 11 1).isLt; have := (imm.extractLsb' 4 6).isLt; have := (b).isLt; have := (a).isLt; have := (f3).isLt; have := (imm.extractLsb' 0 4).isLt; have := (imm.extractLsb' 10 1).isLt; have := (0x63#7).isLt; omega

@[simp] theorem encB_12_3 (imm : BitVec 12) (b a : BitVec 5) (f3 : BitVec 3) : fld (encB imm b a f3) 12 3 = f3 := by
  apply BitVec.eq_of_toNat_eq; rw [fld_toNat, encB_toNat]; have := (imm.extractLsb' 11 1).isLt; have := (imm.extractLsb' 4 6).isLt; have := (b).isLt; have := (a).isLt; have := (f3).isLt; have := (imm.extractLsb' 0 4).isLt; have := (imm.extractLsb' 10 1).isLt; have := (0x63#7).isLt; omega

@[simp] theorem encB_8_4 (imm : BitVec 12) (b a : BitVec 5) (f3 : BitVec 3) : fld (encB imm b a f3) 8 4 = imm.extractLsb' 0 4 := by
  apply BitVec.eq_of_toNat_eq; rw [fld_toNat, encB_toNat]; have := (imm.extractLsb' 11 1).isLt; have := (imm.extractLsb' 4 6).isLt; have := (b).isLt; have := (a).isLt; have := (f3).isLt; have := (imm.extractLsb' 0 4).isLt; have := (imm.extractLsb' 10 1).isLt; have := (0x63#7).isLt; omega

@[simp] theorem encB_7_1 (imm : BitVec 12) (b a : BitVec 5) (f3 : BitVec 3) : fld (encB imm b a f3) 7 1 = imm.extractLsb' 10 1 := by
  apply BitVec.eq_of_toNat_eq; rw [fld_toNat, encB_toNat]; have := (imm.extractLsb' 11 1).isLt; have := (imm.extractLsb' 4 6).isLt; have := (b).isLt; have := (a).isLt; have := (f3).isLt; have := (imm.extractLsb' 0 4).isLt; have := (imm.extractLsb' 10 1).isLt; have := (0x63#7).isLt; omega

@[simp] theorem encB_0_7 (imm : BitVec 12) (b a : BitVec 5) (f3 : BitVec 3) : fld (encB imm b a f3) 0 7 = 0x63#7 := by
  apply BitVec.eq_of_toNat_eq; rw [fld_toNat, encB_toNat]; have := (imm.extractLsb' 11 1).isLt; have := (imm.extractLsb' 4 6).isLt; have := (b).isLt; have := (a).isLt; have := (f3).isLt; have := (imm.extractLsb' 0 4).isLt; have := (imm.extractLsb' 10 1).isLt; have := (0x63#7).isLt; omega

/-! ### encU -/

theorem encU_toNat (imm : BitVec 20) (d : BitVec 5) (op : BitVec 7) : (encU imm d op).toNat =
    imm.toNat * 2 ^ 12 + d.toNat * 2 ^ 7 + op.toNat := by
  unfold encU; simp only [append_toNat]; omega

@[simp] theorem encU_12_20 (imm : BitVec 20) (d : BitVec 5) (op : BitVec 7) : fld (encU imm d op) 12 20 = imm := by
  apply BitVec.eq_of_toNat_eq; rw [fld_toNat, encU_toNat]; have := (imm).isLt; have := (d).isLt; have := (op).isLt; omega

@[simp] theorem encU_7_5 (imm : BitVec 20) (d : BitVec 5) (op : BitVec 7) : fld (encU imm d op) 7 5 = d := by
  apply BitVec.eq_of_toNat_eq; rw [fld_toNat, encU_toNat]; have := (imm).isLt; have := (d).isLt; have := (op).isLt; omega

@[simp] theorem encU_0_7 (imm : BitVec 20) (d : BitVec 5) (op : BitVec 7) : fld (encU imm d op) 0 7 = op := by
  apply BitVec.eq_of_toNat_eq; rw [fld_toNat, encU_toNat]; have := (imm).isLt; have := (d).isLt; have := (op).isLt; omega

/-! ### encJ -/

theorem encJ_toNat (imm : BitVec 20) (d : BitVec 5) : (encJ imm d).toNat =
    (imm.extractLsb' 19 1).toNat * 2 ^ 31 + (imm.extractLsb' 0 10).toNat * 2 ^ 21 + (imm.extractLsb' 10 1).toNat * 2 ^ 20 + (imm.extractLsb' 11 8).toNat * 2 ^ 12 + d.toNat * 2 ^ 7 + (0x6F#7).toNat := by
  unfold encJ; simp only [append_toNat]; omega

@[simp] theorem encJ_31_1 (imm : BitVec 20) (d : BitVec 5) : fld (encJ imm d) 31 1 = imm.extractLsb' 19 1 := by
  apply BitVec.eq_of_toNat_eq; rw [fld_toNat, encJ_toNat]; have := (imm.extractLsb' 19 1).isLt; have := (imm.extractLsb' 0 10).isLt; have := (imm.extractLsb' 10 1).isLt; have := (imm.extractLsb' 11 8).isLt; have := (d).isLt; have := (0x6F#7).isLt; omega

@[simp] theorem encJ_21_10 (imm : BitVec 20) (d : BitVec 5) : fld (encJ imm d) 21 10 = imm.extractLsb' 0 10 := by
  apply BitVec.eq_of_toNat_eq; rw [fld_toNat, encJ_toNat]; have := (imm.extractLsb' 19 1).isLt; have := (imm.extractLsb' 0 10).isLt; have := (imm.extractLsb' 10 1).isLt; have := (imm.extractLsb' 11 8).isLt; have := (d).isLt; have := (0x6F#7).isLt; omega

@[simp] theorem encJ_20_1 (imm : BitVec 20) (d : BitVec 5) : fld (encJ imm d) 20 1 = imm.extractLsb' 10 1 := by
  apply BitVec.eq_of_toNat_eq; rw [fld_toNat, encJ_toNat]; have := (imm.extractLsb' 19 1).isLt; have := (imm.extractLsb' 0 10).isLt; have := (imm.extractLsb' 10 1).isLt; have := (imm.extractLsb' 11 8).isLt; have := (d).isLt; have := (0x6F#7).isLt; omega

@[simp] theorem encJ_12_8 (imm : BitVec 20) (d : BitVec 5) : fld (encJ imm d) 12 8 = imm.extractLsb' 11 8 := by
  apply BitVec.eq_of_toNat_eq; rw [fld_toNat, encJ_toNat]; have := (imm.extractLsb' 19 1).isLt; have := (imm.extractLsb' 0 10).isLt; have := (imm.extractLsb' 10 1).isLt; have := (imm.extractLsb' 11 8).isLt; have := (d).isLt; have := (0x6F#7).isLt; omega

@[simp] theorem encJ_7_5 (imm : BitVec 20) (d : BitVec 5) : fld (encJ imm d) 7 5 = d := by
  apply BitVec.eq_of_toNat_eq; rw [fld_toNat, encJ_toNat]; have := (imm.extractLsb' 19 1).isLt; have := (imm.extractLsb' 0 10).isLt; have := (imm.extractLsb' 10 1).isLt; have := (imm.extractLsb' 11 8).isLt; have := (d).isLt; have := (0x6F#7).isLt; omega

@[simp] theorem encJ_0_7 (imm : BitVec 20) (d : BitVec 5) : fld (encJ imm d) 0 7 = 0x6F#7 := by
  apply BitVec.eq_of_toNat_eq; rw [fld_toNat, encJ_toNat]; have := (imm.extractLsb' 19 1).isLt; have := (imm.extractLsb' 0 10).isLt; have := (imm.extractLsb' 10 1).isLt; have := (imm.extractLsb' 11 8).isLt; have := (d).isLt; have := (0x6F#7).isLt; omega

/-! ### encA -/

theorem encA_toNat (f5 : BitVec 5) (aq rl : BitVec 1) (b a : BitVec 5) (w : BitVec 1) (d : BitVec 5) : (encA f5 aq rl b a w d).toNat =
    f5.toNat * 2 ^ 27 + aq.toNat * 2 ^ 26 + rl.toNat * 2 ^ 25 + b.toNat * 2 ^ 20 + a.toNat * 2 ^ 15 + (0b01#2).toNat * 2 ^ 13 + w.toNat * 2 ^ 12 + d.toNat * 2 ^ 7 + (0x2F#7).toNat := by
  unfold encA; simp only [append_toNat]; omega

@[simp] theorem encA_27_5 (f5 : BitVec 5) (aq rl : BitVec 1) (b a : BitVec 5) (w : BitVec 1) (d : BitVec 5) : fld (encA f5 aq rl b a w d) 27 5 = f5 := by
  apply BitVec.eq_of_toNat_eq; rw [fld_toNat, encA_toNat]; have := (f5).isLt; have := (aq).isLt; have := (rl).isLt; have := (b).isLt; have := (a).isLt; have := (0b01#2).isLt; have := (w).isLt; have := (d).isLt; have := (0x2F#7).isLt; omega

@[simp] theorem encA_26_1 (f5 : BitVec 5) (aq rl : BitVec 1) (b a : BitVec 5) (w : BitVec 1) (d : BitVec 5) : fld (encA f5 aq rl b a w d) 26 1 = aq := by
  apply BitVec.eq_of_toNat_eq; rw [fld_toNat, encA_toNat]; have := (f5).isLt; have := (aq).isLt; have := (rl).isLt; have := (b).isLt; have := (a).isLt; have := (0b01#2).isLt; have := (w).isLt; have := (d).isLt; have := (0x2F#7).isLt; omega

@[simp] theorem encA_25_1 (f5 : BitVec 5) (aq rl : BitVec 1) (b a : BitVec 5) (w : BitVec 1) (d : BitVec 5) : fld (encA f5 aq rl b a w d) 25 1 = rl := by
  apply BitVec.eq_of_toNat_eq; rw [fld_toNat, encA_toNat]; have := (f5).isLt; have := (aq).isLt; have := (rl).isLt; have := (b).isLt; have := (a).isLt; have := (0b01#2).isLt; have := (w).isLt; have := (d).isLt; have := (0x2F#7).isLt; omega

@[simp] theorem encA_20_5 (f5 : BitVec 5) (aq rl : BitVec 1) (b a : BitVec 5) (w : BitVec 1) (d : BitVec 5) : fld (encA f5 aq rl b a w d) 20 5 = b := by
  apply BitVec.eq_of_toNat_eq; rw [fld_toNat, encA_toNat]; have := (f5).isLt; have := (aq).isLt; have := (rl).isLt; have := (b).isLt; have := (a).isLt; have := (0b01#2).isLt; have := (w).isLt; have := (d).isLt; have := (0x2F#7).isLt; omega

@[simp] theorem encA_15_5 (f5 : BitVec 5) (aq rl : BitVec 1) (b a : BitVec 5) (w : BitVec 1) (d : BitVec 5) : fld (encA f5 aq rl b a w d) 15 5 = a := by
  apply BitVec.eq_of_toNat_eq; rw [fld_toNat, encA_toNat]; have := (f5).isLt; have := (aq).isLt; have := (rl).isLt; have := (b).isLt; have := (a).isLt; have := (0b01#2).isLt; have := (w).isLt; have := (d).isLt; have := (0x2F#7).isLt; omega

@[simp] theorem encA_13_2 (f5 : BitVec 5) (aq rl : BitVec 1) (b a : BitVec 5) (w : BitVec 1) (d : BitVec 5) : fld (encA f5 aq rl b a w d) 13 2 = 0b01#2 := by
  apply BitVec.eq_of_toNat_eq; rw [fld_toNat, encA_toNat]; have := (f5).isLt; have := (aq).isLt; have := (rl).isLt; have := (b).isLt; have := (a).isLt; have := (0b01#2).isLt; have := (w).isLt; have := (d).isLt; have := (0x2F#7).isLt; omega

@[simp] theorem encA_12_1 (f5 : BitVec 5) (aq rl : BitVec 1) (b a : BitVec 5) (w : BitVec 1) (d : BitVec 5) : fld (encA f5 aq rl b a w d) 12 1 = w := by
  apply BitVec.eq_of_toNat_eq; rw [fld_toNat, encA_toNat]; have := (f5).isLt; have := (aq).isLt; have := (rl).isLt; have := (b).isLt; have := (a).isLt; have := (0b01#2).isLt; have := (w).isLt; have := (d).isLt; have := (0x2F#7).isLt; omega

@[simp] theorem encA_7_5 (f5 : BitVec 5) (aq rl : BitVec 1) (b a : BitVec 5) (w : BitVec 1) (d : BitVec 5) : fld (encA f5 aq rl b a w d) 7 5 = d := by
  apply BitVec.eq_of_toNat_eq; rw [fld_toNat, encA_toNat]; have := (f5).isLt; have := (aq).isLt; have := (rl).isLt; have := (b).isLt; have := (a).isLt; have := (0b01#2).isLt; have := (w).isLt; have := (d).isLt; have := (0x2F#7).isLt; omega

@[simp] theorem encA_0_7 (f5 : BitVec 5) (aq rl : BitVec 1) (b a : BitVec 5) (w : BitVec 1) (d : BitVec 5) : fld (encA f5 aq rl b a w d) 0 7 = 0x2F#7 := by
  apply BitVec.eq_of_toNat_eq; rw [fld_toNat, encA_toNat]; have := (f5).isLt; have := (aq).isLt; have := (rl).isLt; have := (b).isLt; have := (a).isLt; have := (0b01#2).isLt; have := (w).isLt; have := (d).isLt; have := (0x2F#7).isLt; omega

/-! ### encV -/

theorem encV_toNat (fn : BitVec 5) (ty b a : BitVec 4) (g : Guard) (d : BitVec 4) : (encV fn ty b a g d).toNat =
    fn.toNat * 2 ^ 27 + ty.toNat * 2 ^ 23 + b.toNat * 2 ^ 19 + a.toNat * 2 ^ 15 + g.kg.toNat * 2 ^ 12 + g.gn.toNat * 2 ^ 11 + d.toNat * 2 ^ 7 + (0x0B#7).toNat := by
  unfold encV; simp only [append_toNat]; omega

@[simp] theorem encV_27_5 (fn : BitVec 5) (ty b a : BitVec 4) (g : Guard) (d : BitVec 4) : fld (encV fn ty b a g d) 27 5 = fn := by
  apply BitVec.eq_of_toNat_eq; rw [fld_toNat, encV_toNat]; have := (fn).isLt; have := (ty).isLt; have := (b).isLt; have := (a).isLt; have := (g.kg).isLt; have := (g.gn).isLt; have := (d).isLt; have := (0x0B#7).isLt; omega

@[simp] theorem encV_23_4 (fn : BitVec 5) (ty b a : BitVec 4) (g : Guard) (d : BitVec 4) : fld (encV fn ty b a g d) 23 4 = ty := by
  apply BitVec.eq_of_toNat_eq; rw [fld_toNat, encV_toNat]; have := (fn).isLt; have := (ty).isLt; have := (b).isLt; have := (a).isLt; have := (g.kg).isLt; have := (g.gn).isLt; have := (d).isLt; have := (0x0B#7).isLt; omega

@[simp] theorem encV_19_4 (fn : BitVec 5) (ty b a : BitVec 4) (g : Guard) (d : BitVec 4) : fld (encV fn ty b a g d) 19 4 = b := by
  apply BitVec.eq_of_toNat_eq; rw [fld_toNat, encV_toNat]; have := (fn).isLt; have := (ty).isLt; have := (b).isLt; have := (a).isLt; have := (g.kg).isLt; have := (g.gn).isLt; have := (d).isLt; have := (0x0B#7).isLt; omega

@[simp] theorem encV_15_4 (fn : BitVec 5) (ty b a : BitVec 4) (g : Guard) (d : BitVec 4) : fld (encV fn ty b a g d) 15 4 = a := by
  apply BitVec.eq_of_toNat_eq; rw [fld_toNat, encV_toNat]; have := (fn).isLt; have := (ty).isLt; have := (b).isLt; have := (a).isLt; have := (g.kg).isLt; have := (g.gn).isLt; have := (d).isLt; have := (0x0B#7).isLt; omega

@[simp] theorem encV_12_3 (fn : BitVec 5) (ty b a : BitVec 4) (g : Guard) (d : BitVec 4) : fld (encV fn ty b a g d) 12 3 = g.kg := by
  apply BitVec.eq_of_toNat_eq; rw [fld_toNat, encV_toNat]; have := (fn).isLt; have := (ty).isLt; have := (b).isLt; have := (a).isLt; have := (g.kg).isLt; have := (g.gn).isLt; have := (d).isLt; have := (0x0B#7).isLt; omega

@[simp] theorem encV_11_1 (fn : BitVec 5) (ty b a : BitVec 4) (g : Guard) (d : BitVec 4) : fld (encV fn ty b a g d) 11 1 = g.gn := by
  apply BitVec.eq_of_toNat_eq; rw [fld_toNat, encV_toNat]; have := (fn).isLt; have := (ty).isLt; have := (b).isLt; have := (a).isLt; have := (g.kg).isLt; have := (g.gn).isLt; have := (d).isLt; have := (0x0B#7).isLt; omega

@[simp] theorem encV_7_4 (fn : BitVec 5) (ty b a : BitVec 4) (g : Guard) (d : BitVec 4) : fld (encV fn ty b a g d) 7 4 = d := by
  apply BitVec.eq_of_toNat_eq; rw [fld_toNat, encV_toNat]; have := (fn).isLt; have := (ty).isLt; have := (b).isLt; have := (a).isLt; have := (g.kg).isLt; have := (g.gn).isLt; have := (d).isLt; have := (0x0B#7).isLt; omega

@[simp] theorem encV_0_7 (fn : BitVec 5) (ty b a : BitVec 4) (g : Guard) (d : BitVec 4) : fld (encV fn ty b a g d) 0 7 = 0x0B#7 := by
  apply BitVec.eq_of_toNat_eq; rw [fld_toNat, encV_toNat]; have := (fn).isLt; have := (ty).isLt; have := (b).isLt; have := (a).isLt; have := (g.kg).isLt; have := (g.gn).isLt; have := (d).isLt; have := (0x0B#7).isLt; omega

/-! ### encVX -/

theorem encVX_toNat (fn : BitVec 4) (g : Guard) (f5 a : BitVec 5) (f3 : BitVec 3) (v : BitVec 4) : (encVX fn g f5 a f3 v).toNat =
    fn.toNat * 2 ^ 28 + g.kg.toNat * 2 ^ 25 + f5.toNat * 2 ^ 20 + a.toNat * 2 ^ 15 + f3.toNat * 2 ^ 12 + g.gn.toNat * 2 ^ 11 + v.toNat * 2 ^ 7 + (0x2B#7).toNat := by
  unfold encVX; simp only [append_toNat]; omega

@[simp] theorem encVX_28_4 (fn : BitVec 4) (g : Guard) (f5 a : BitVec 5) (f3 : BitVec 3) (v : BitVec 4) : fld (encVX fn g f5 a f3 v) 28 4 = fn := by
  apply BitVec.eq_of_toNat_eq; rw [fld_toNat, encVX_toNat]; have := (fn).isLt; have := (g.kg).isLt; have := (f5).isLt; have := (a).isLt; have := (f3).isLt; have := (g.gn).isLt; have := (v).isLt; have := (0x2B#7).isLt; omega

@[simp] theorem encVX_25_3 (fn : BitVec 4) (g : Guard) (f5 a : BitVec 5) (f3 : BitVec 3) (v : BitVec 4) : fld (encVX fn g f5 a f3 v) 25 3 = g.kg := by
  apply BitVec.eq_of_toNat_eq; rw [fld_toNat, encVX_toNat]; have := (fn).isLt; have := (g.kg).isLt; have := (f5).isLt; have := (a).isLt; have := (f3).isLt; have := (g.gn).isLt; have := (v).isLt; have := (0x2B#7).isLt; omega

@[simp] theorem encVX_20_5 (fn : BitVec 4) (g : Guard) (f5 a : BitVec 5) (f3 : BitVec 3) (v : BitVec 4) : fld (encVX fn g f5 a f3 v) 20 5 = f5 := by
  apply BitVec.eq_of_toNat_eq; rw [fld_toNat, encVX_toNat]; have := (fn).isLt; have := (g.kg).isLt; have := (f5).isLt; have := (a).isLt; have := (f3).isLt; have := (g.gn).isLt; have := (v).isLt; have := (0x2B#7).isLt; omega

@[simp] theorem encVX_15_5 (fn : BitVec 4) (g : Guard) (f5 a : BitVec 5) (f3 : BitVec 3) (v : BitVec 4) : fld (encVX fn g f5 a f3 v) 15 5 = a := by
  apply BitVec.eq_of_toNat_eq; rw [fld_toNat, encVX_toNat]; have := (fn).isLt; have := (g.kg).isLt; have := (f5).isLt; have := (a).isLt; have := (f3).isLt; have := (g.gn).isLt; have := (v).isLt; have := (0x2B#7).isLt; omega

@[simp] theorem encVX_12_3 (fn : BitVec 4) (g : Guard) (f5 a : BitVec 5) (f3 : BitVec 3) (v : BitVec 4) : fld (encVX fn g f5 a f3 v) 12 3 = f3 := by
  apply BitVec.eq_of_toNat_eq; rw [fld_toNat, encVX_toNat]; have := (fn).isLt; have := (g.kg).isLt; have := (f5).isLt; have := (a).isLt; have := (f3).isLt; have := (g.gn).isLt; have := (v).isLt; have := (0x2B#7).isLt; omega

@[simp] theorem encVX_11_1 (fn : BitVec 4) (g : Guard) (f5 a : BitVec 5) (f3 : BitVec 3) (v : BitVec 4) : fld (encVX fn g f5 a f3 v) 11 1 = g.gn := by
  apply BitVec.eq_of_toNat_eq; rw [fld_toNat, encVX_toNat]; have := (fn).isLt; have := (g.kg).isLt; have := (f5).isLt; have := (a).isLt; have := (f3).isLt; have := (g.gn).isLt; have := (v).isLt; have := (0x2B#7).isLt; omega

@[simp] theorem encVX_7_4 (fn : BitVec 4) (g : Guard) (f5 a : BitVec 5) (f3 : BitVec 3) (v : BitVec 4) : fld (encVX fn g f5 a f3 v) 7 4 = v := by
  apply BitVec.eq_of_toNat_eq; rw [fld_toNat, encVX_toNat]; have := (fn).isLt; have := (g.kg).isLt; have := (f5).isLt; have := (a).isLt; have := (f3).isLt; have := (g.gn).isLt; have := (v).isLt; have := (0x2B#7).isLt; omega

@[simp] theorem encVX_0_7 (fn : BitVec 4) (g : Guard) (f5 a : BitVec 5) (f3 : BitVec 3) (v : BitVec 4) : fld (encVX fn g f5 a f3 v) 0 7 = 0x2B#7 := by
  apply BitVec.eq_of_toNat_eq; rw [fld_toNat, encVX_toNat]; have := (fn).isLt; have := (g.kg).isLt; have := (f5).isLt; have := (a).isLt; have := (f3).isLt; have := (g.gn).isLt; have := (v).isLt; have := (0x2B#7).isLt; omega

/-! ### encQ -/

theorem encQ_toNat (c : BitVec 5) (f2 : BitVec 2) (b a : BitVec 5) (f3 : BitVec 3) (d : BitVec 5) (op : BitVec 7) : (encQ c f2 b a f3 d op).toNat =
    c.toNat * 2 ^ 27 + f2.toNat * 2 ^ 25 + b.toNat * 2 ^ 20 + a.toNat * 2 ^ 15 + f3.toNat * 2 ^ 12 + d.toNat * 2 ^ 7 + op.toNat := by
  unfold encQ; simp only [append_toNat]; omega

@[simp] theorem encQ_27_5 (c : BitVec 5) (f2 : BitVec 2) (b a : BitVec 5) (f3 : BitVec 3) (d : BitVec 5) (op : BitVec 7) : fld (encQ c f2 b a f3 d op) 27 5 = c := by
  apply BitVec.eq_of_toNat_eq; rw [fld_toNat, encQ_toNat]; have := (c).isLt; have := (f2).isLt; have := (b).isLt; have := (a).isLt; have := (f3).isLt; have := (d).isLt; have := (op).isLt; omega

@[simp] theorem encQ_25_2 (c : BitVec 5) (f2 : BitVec 2) (b a : BitVec 5) (f3 : BitVec 3) (d : BitVec 5) (op : BitVec 7) : fld (encQ c f2 b a f3 d op) 25 2 = f2 := by
  apply BitVec.eq_of_toNat_eq; rw [fld_toNat, encQ_toNat]; have := (c).isLt; have := (f2).isLt; have := (b).isLt; have := (a).isLt; have := (f3).isLt; have := (d).isLt; have := (op).isLt; omega

@[simp] theorem encQ_20_5 (c : BitVec 5) (f2 : BitVec 2) (b a : BitVec 5) (f3 : BitVec 3) (d : BitVec 5) (op : BitVec 7) : fld (encQ c f2 b a f3 d op) 20 5 = b := by
  apply BitVec.eq_of_toNat_eq; rw [fld_toNat, encQ_toNat]; have := (c).isLt; have := (f2).isLt; have := (b).isLt; have := (a).isLt; have := (f3).isLt; have := (d).isLt; have := (op).isLt; omega

@[simp] theorem encQ_15_5 (c : BitVec 5) (f2 : BitVec 2) (b a : BitVec 5) (f3 : BitVec 3) (d : BitVec 5) (op : BitVec 7) : fld (encQ c f2 b a f3 d op) 15 5 = a := by
  apply BitVec.eq_of_toNat_eq; rw [fld_toNat, encQ_toNat]; have := (c).isLt; have := (f2).isLt; have := (b).isLt; have := (a).isLt; have := (f3).isLt; have := (d).isLt; have := (op).isLt; omega

@[simp] theorem encQ_12_3 (c : BitVec 5) (f2 : BitVec 2) (b a : BitVec 5) (f3 : BitVec 3) (d : BitVec 5) (op : BitVec 7) : fld (encQ c f2 b a f3 d op) 12 3 = f3 := by
  apply BitVec.eq_of_toNat_eq; rw [fld_toNat, encQ_toNat]; have := (c).isLt; have := (f2).isLt; have := (b).isLt; have := (a).isLt; have := (f3).isLt; have := (d).isLt; have := (op).isLt; omega

@[simp] theorem encQ_7_5 (c : BitVec 5) (f2 : BitVec 2) (b a : BitVec 5) (f3 : BitVec 3) (d : BitVec 5) (op : BitVec 7) : fld (encQ c f2 b a f3 d op) 7 5 = d := by
  apply BitVec.eq_of_toNat_eq; rw [fld_toNat, encQ_toNat]; have := (c).isLt; have := (f2).isLt; have := (b).isLt; have := (a).isLt; have := (f3).isLt; have := (d).isLt; have := (op).isLt; omega

@[simp] theorem encQ_0_7 (c : BitVec 5) (f2 : BitVec 2) (b a : BitVec 5) (f3 : BitVec 3) (d : BitVec 5) (op : BitVec 7) : fld (encQ c f2 b a f3 d op) 0 7 = op := by
  apply BitVec.eq_of_toNat_eq; rw [fld_toNat, encQ_toNat]; have := (c).isLt; have := (f2).isLt; have := (b).isLt; have := (a).isLt; have := (f3).isLt; have := (d).isLt; have := (op).isLt; omega

/-! ### encVH -/

theorem encVH_toNat (vi : BitVec 1) (slot : BitVec 3) (g : Guard) (b a d : BitVec 4) : (encVH vi slot g b a d).toNat =
    (0#2).toNat * 2 ^ 30 + vi.toNat * 2 ^ 29 + slot.toNat * 2 ^ 26 + g.kg.toNat * 2 ^ 23 + b.toNat * 2 ^ 19 + a.toNat * 2 ^ 15 + (0b100#3).toNat * 2 ^ 12 + g.gn.toNat * 2 ^ 11 + d.toNat * 2 ^ 7 + (0x2B#7).toNat := by
  unfold encVH; simp only [append_toNat]; omega

@[simp] theorem encVH_30_2 (vi : BitVec 1) (slot : BitVec 3) (g : Guard) (b a d : BitVec 4) : fld (encVH vi slot g b a d) 30 2 = 0#2 := by
  apply BitVec.eq_of_toNat_eq; rw [fld_toNat, encVH_toNat]; have := (0#2).isLt; have := (vi).isLt; have := (slot).isLt; have := (g.kg).isLt; have := (b).isLt; have := (a).isLt; have := (0b100#3).isLt; have := (g.gn).isLt; have := (d).isLt; have := (0x2B#7).isLt; omega

@[simp] theorem encVH_29_1 (vi : BitVec 1) (slot : BitVec 3) (g : Guard) (b a d : BitVec 4) : fld (encVH vi slot g b a d) 29 1 = vi := by
  apply BitVec.eq_of_toNat_eq; rw [fld_toNat, encVH_toNat]; have := (0#2).isLt; have := (vi).isLt; have := (slot).isLt; have := (g.kg).isLt; have := (b).isLt; have := (a).isLt; have := (0b100#3).isLt; have := (g.gn).isLt; have := (d).isLt; have := (0x2B#7).isLt; omega

@[simp] theorem encVH_26_3 (vi : BitVec 1) (slot : BitVec 3) (g : Guard) (b a d : BitVec 4) : fld (encVH vi slot g b a d) 26 3 = slot := by
  apply BitVec.eq_of_toNat_eq; rw [fld_toNat, encVH_toNat]; have := (0#2).isLt; have := (vi).isLt; have := (slot).isLt; have := (g.kg).isLt; have := (b).isLt; have := (a).isLt; have := (0b100#3).isLt; have := (g.gn).isLt; have := (d).isLt; have := (0x2B#7).isLt; omega

@[simp] theorem encVH_23_3 (vi : BitVec 1) (slot : BitVec 3) (g : Guard) (b a d : BitVec 4) : fld (encVH vi slot g b a d) 23 3 = g.kg := by
  apply BitVec.eq_of_toNat_eq; rw [fld_toNat, encVH_toNat]; have := (0#2).isLt; have := (vi).isLt; have := (slot).isLt; have := (g.kg).isLt; have := (b).isLt; have := (a).isLt; have := (0b100#3).isLt; have := (g.gn).isLt; have := (d).isLt; have := (0x2B#7).isLt; omega

@[simp] theorem encVH_19_4 (vi : BitVec 1) (slot : BitVec 3) (g : Guard) (b a d : BitVec 4) : fld (encVH vi slot g b a d) 19 4 = b := by
  apply BitVec.eq_of_toNat_eq; rw [fld_toNat, encVH_toNat]; have := (0#2).isLt; have := (vi).isLt; have := (slot).isLt; have := (g.kg).isLt; have := (b).isLt; have := (a).isLt; have := (0b100#3).isLt; have := (g.gn).isLt; have := (d).isLt; have := (0x2B#7).isLt; omega

@[simp] theorem encVH_15_4 (vi : BitVec 1) (slot : BitVec 3) (g : Guard) (b a d : BitVec 4) : fld (encVH vi slot g b a d) 15 4 = a := by
  apply BitVec.eq_of_toNat_eq; rw [fld_toNat, encVH_toNat]; have := (0#2).isLt; have := (vi).isLt; have := (slot).isLt; have := (g.kg).isLt; have := (b).isLt; have := (a).isLt; have := (0b100#3).isLt; have := (g.gn).isLt; have := (d).isLt; have := (0x2B#7).isLt; omega

@[simp] theorem encVH_12_3 (vi : BitVec 1) (slot : BitVec 3) (g : Guard) (b a d : BitVec 4) : fld (encVH vi slot g b a d) 12 3 = 0b100#3 := by
  apply BitVec.eq_of_toNat_eq; rw [fld_toNat, encVH_toNat]; have := (0#2).isLt; have := (vi).isLt; have := (slot).isLt; have := (g.kg).isLt; have := (b).isLt; have := (a).isLt; have := (0b100#3).isLt; have := (g.gn).isLt; have := (d).isLt; have := (0x2B#7).isLt; omega

@[simp] theorem encVH_11_1 (vi : BitVec 1) (slot : BitVec 3) (g : Guard) (b a d : BitVec 4) : fld (encVH vi slot g b a d) 11 1 = g.gn := by
  apply BitVec.eq_of_toNat_eq; rw [fld_toNat, encVH_toNat]; have := (0#2).isLt; have := (vi).isLt; have := (slot).isLt; have := (g.kg).isLt; have := (b).isLt; have := (a).isLt; have := (0b100#3).isLt; have := (g.gn).isLt; have := (d).isLt; have := (0x2B#7).isLt; omega

@[simp] theorem encVH_7_4 (vi : BitVec 1) (slot : BitVec 3) (g : Guard) (b a d : BitVec 4) : fld (encVH vi slot g b a d) 7 4 = d := by
  apply BitVec.eq_of_toNat_eq; rw [fld_toNat, encVH_toNat]; have := (0#2).isLt; have := (vi).isLt; have := (slot).isLt; have := (g.kg).isLt; have := (b).isLt; have := (a).isLt; have := (0b100#3).isLt; have := (g.gn).isLt; have := (d).isLt; have := (0x2B#7).isLt; omega

@[simp] theorem encVH_0_7 (vi : BitVec 1) (slot : BitVec 3) (g : Guard) (b a d : BitVec 4) : fld (encVH vi slot g b a d) 0 7 = 0x2B#7 := by
  apply BitVec.eq_of_toNat_eq; rw [fld_toNat, encVH_toNat]; have := (0#2).isLt; have := (vi).isLt; have := (slot).isLt; have := (g.kg).isLt; have := (b).isLt; have := (a).isLt; have := (0b100#3).isLt; have := (g.gn).isLt; have := (d).isLt; have := (0x2B#7).isLt; omega

/-! ### encW -/

theorem encW_toNat (mx cp st ld : BitVec 5) : (encW mx cp st ld).toNat =
    (0#2).toNat * 2 ^ 30 + mx.toNat * 2 ^ 25 + cp.toNat * 2 ^ 20 + st.toNat * 2 ^ 15 + (0b111#3).toNat * 2 ^ 12 + ld.toNat * 2 ^ 7 + (0x5B#7).toNat := by
  unfold encW; simp only [append_toNat]; omega

@[simp] theorem encW_30_2 (mx cp st ld : BitVec 5) : fld (encW mx cp st ld) 30 2 = 0#2 := by
  apply BitVec.eq_of_toNat_eq; rw [fld_toNat, encW_toNat]; have := (0#2).isLt; have := (mx).isLt; have := (cp).isLt; have := (st).isLt; have := (0b111#3).isLt; have := (ld).isLt; have := (0x5B#7).isLt; omega

@[simp] theorem encW_25_5 (mx cp st ld : BitVec 5) : fld (encW mx cp st ld) 25 5 = mx := by
  apply BitVec.eq_of_toNat_eq; rw [fld_toNat, encW_toNat]; have := (0#2).isLt; have := (mx).isLt; have := (cp).isLt; have := (st).isLt; have := (0b111#3).isLt; have := (ld).isLt; have := (0x5B#7).isLt; omega

@[simp] theorem encW_20_5 (mx cp st ld : BitVec 5) : fld (encW mx cp st ld) 20 5 = cp := by
  apply BitVec.eq_of_toNat_eq; rw [fld_toNat, encW_toNat]; have := (0#2).isLt; have := (mx).isLt; have := (cp).isLt; have := (st).isLt; have := (0b111#3).isLt; have := (ld).isLt; have := (0x5B#7).isLt; omega

@[simp] theorem encW_15_5 (mx cp st ld : BitVec 5) : fld (encW mx cp st ld) 15 5 = st := by
  apply BitVec.eq_of_toNat_eq; rw [fld_toNat, encW_toNat]; have := (0#2).isLt; have := (mx).isLt; have := (cp).isLt; have := (st).isLt; have := (0b111#3).isLt; have := (ld).isLt; have := (0x5B#7).isLt; omega

@[simp] theorem encW_12_3 (mx cp st ld : BitVec 5) : fld (encW mx cp st ld) 12 3 = 0b111#3 := by
  apply BitVec.eq_of_toNat_eq; rw [fld_toNat, encW_toNat]; have := (0#2).isLt; have := (mx).isLt; have := (cp).isLt; have := (st).isLt; have := (0b111#3).isLt; have := (ld).isLt; have := (0x5B#7).isLt; omega

@[simp] theorem encW_7_5 (mx cp st ld : BitVec 5) : fld (encW mx cp st ld) 7 5 = ld := by
  apply BitVec.eq_of_toNat_eq; rw [fld_toNat, encW_toNat]; have := (0#2).isLt; have := (mx).isLt; have := (cp).isLt; have := (st).isLt; have := (0b111#3).isLt; have := (ld).isLt; have := (0x5B#7).isLt; omega

@[simp] theorem encW_0_7 (mx cp st ld : BitVec 5) : fld (encW mx cp st ld) 0 7 = 0x5B#7 := by
  apply BitVec.eq_of_toNat_eq; rw [fld_toNat, encW_toNat]; have := (0#2).isLt; have := (mx).isLt; have := (cp).isLt; have := (st).isLt; have := (0b111#3).isLt; have := (ld).isLt; have := (0x5B#7).isLt; omega

/-! ### Parts of a field -/

@[simp] theorem encR_part_7_2 (f7 : BitVec 7) (b a : BitVec 5) (f3 : BitVec 3) (d : BitVec 5) (op : BitVec 7) : fld (encR f7 b a f3 d op) 7 2 = d.extractLsb' 0 2 := by
  apply BitVec.eq_of_toNat_eq; rw [fld_toNat, encR_toNat, extract_toNat]; have := (f7).isLt; have := (b).isLt; have := (a).isLt; have := (f3).isLt; have := (d).isLt; have := (op).isLt; omega

@[simp] theorem encR_part_9_3 (f7 : BitVec 7) (b a : BitVec 5) (f3 : BitVec 3) (d : BitVec 5) (op : BitVec 7) : fld (encR f7 b a f3 d op) 9 3 = d.extractLsb' 2 3 := by
  apply BitVec.eq_of_toNat_eq; rw [fld_toNat, encR_toNat, extract_toNat]; have := (f7).isLt; have := (b).isLt; have := (a).isLt; have := (f3).isLt; have := (d).isLt; have := (op).isLt; omega

@[simp] theorem encR_part_25_2 (f7 : BitVec 7) (b a : BitVec 5) (f3 : BitVec 3) (d : BitVec 5) (op : BitVec 7) : fld (encR f7 b a f3 d op) 25 2 = f7.extractLsb' 0 2 := by
  apply BitVec.eq_of_toNat_eq; rw [fld_toNat, encR_toNat, extract_toNat]; have := (f7).isLt; have := (b).isLt; have := (a).isLt; have := (f3).isLt; have := (d).isLt; have := (op).isLt; omega

@[simp] theorem encR_part_27_5 (f7 : BitVec 7) (b a : BitVec 5) (f3 : BitVec 3) (d : BitVec 5) (op : BitVec 7) : fld (encR f7 b a f3 d op) 27 5 = f7.extractLsb' 2 5 := by
  apply BitVec.eq_of_toNat_eq; rw [fld_toNat, encR_toNat, extract_toNat]; have := (f7).isLt; have := (b).isLt; have := (a).isLt; have := (f3).isLt; have := (d).isLt; have := (op).isLt; omega

@[simp] theorem encR_part_25_3 (f7 : BitVec 7) (b a : BitVec 5) (f3 : BitVec 3) (d : BitVec 5) (op : BitVec 7) : fld (encR f7 b a f3 d op) 25 3 = f7.extractLsb' 0 3 := by
  apply BitVec.eq_of_toNat_eq; rw [fld_toNat, encR_toNat, extract_toNat]; have := (f7).isLt; have := (b).isLt; have := (a).isLt; have := (f3).isLt; have := (d).isLt; have := (op).isLt; omega

@[simp] theorem encR_part_28_4 (f7 : BitVec 7) (b a : BitVec 5) (f3 : BitVec 3) (d : BitVec 5) (op : BitVec 7) : fld (encR f7 b a f3 d op) 28 4 = f7.extractLsb' 3 4 := by
  apply BitVec.eq_of_toNat_eq; rw [fld_toNat, encR_toNat, extract_toNat]; have := (f7).isLt; have := (b).isLt; have := (a).isLt; have := (f3).isLt; have := (d).isLt; have := (op).isLt; omega

@[simp] theorem encI_part_26_6 (imm : BitVec 12) (a : BitVec 5) (f3 : BitVec 3) (d : BitVec 5) (op : BitVec 7) : fld (encI imm a f3 d op) 26 6 = imm.extractLsb' 6 6 := by
  apply BitVec.eq_of_toNat_eq; rw [fld_toNat, encI_toNat, extract_toNat]; have := (imm).isLt; have := (a).isLt; have := (f3).isLt; have := (d).isLt; have := (op).isLt; omega

@[simp] theorem encI_part_20_6 (imm : BitVec 12) (a : BitVec 5) (f3 : BitVec 3) (d : BitVec 5) (op : BitVec 7) : fld (encI imm a f3 d op) 20 6 = imm.extractLsb' 0 6 := by
  apply BitVec.eq_of_toNat_eq; rw [fld_toNat, encI_toNat, extract_toNat]; have := (imm).isLt; have := (a).isLt; have := (f3).isLt; have := (d).isLt; have := (op).isLt; omega

@[simp] theorem encI_part_28_4 (imm : BitVec 12) (a : BitVec 5) (f3 : BitVec 3) (d : BitVec 5) (op : BitVec 7) : fld (encI imm a f3 d op) 28 4 = imm.extractLsb' 8 4 := by
  apply BitVec.eq_of_toNat_eq; rw [fld_toNat, encI_toNat, extract_toNat]; have := (imm).isLt; have := (a).isLt; have := (f3).isLt; have := (d).isLt; have := (op).isLt; omega

@[simp] theorem encI_part_24_4 (imm : BitVec 12) (a : BitVec 5) (f3 : BitVec 3) (d : BitVec 5) (op : BitVec 7) : fld (encI imm a f3 d op) 24 4 = imm.extractLsb' 4 4 := by
  apply BitVec.eq_of_toNat_eq; rw [fld_toNat, encI_toNat, extract_toNat]; have := (imm).isLt; have := (a).isLt; have := (f3).isLt; have := (d).isLt; have := (op).isLt; omega

@[simp] theorem encI_part_20_4 (imm : BitVec 12) (a : BitVec 5) (f3 : BitVec 3) (d : BitVec 5) (op : BitVec 7) : fld (encI imm a f3 d op) 20 4 = imm.extractLsb' 0 4 := by
  apply BitVec.eq_of_toNat_eq; rw [fld_toNat, encI_toNat, extract_toNat]; have := (imm).isLt; have := (a).isLt; have := (f3).isLt; have := (d).isLt; have := (op).isLt; omega

@[simp] theorem encV_part_27_3 (fn : BitVec 5) (ty b a : BitVec 4) (g : Guard) (d : BitVec 4) : fld (encV fn ty b a g d) 27 3 = fn.extractLsb' 0 3 := by
  apply BitVec.eq_of_toNat_eq; rw [fld_toNat, encV_toNat, extract_toNat]; have := (fn).isLt; have := (ty).isLt; have := (b).isLt; have := (a).isLt; have := (g.kg).isLt; have := (g.gn).isLt; have := (d).isLt; have := (0x0B#7).isLt; omega

@[simp] theorem encV_part_7_3 (fn : BitVec 5) (ty b a : BitVec 4) (g : Guard) (d : BitVec 4) : fld (encV fn ty b a g d) 7 3 = d.extractLsb' 0 3 := by
  apply BitVec.eq_of_toNat_eq; rw [fld_toNat, encV_toNat, extract_toNat]; have := (fn).isLt; have := (ty).isLt; have := (b).isLt; have := (a).isLt; have := (g.kg).isLt; have := (g.gn).isLt; have := (d).isLt; have := (0x0B#7).isLt; omega

@[simp] theorem encV_part_10_1 (fn : BitVec 5) (ty b a : BitVec 4) (g : Guard) (d : BitVec 4) : fld (encV fn ty b a g d) 10 1 = d.extractLsb' 3 1 := by
  apply BitVec.eq_of_toNat_eq; rw [fld_toNat, encV_toNat, extract_toNat]; have := (fn).isLt; have := (ty).isLt; have := (b).isLt; have := (a).isLt; have := (g.kg).isLt; have := (g.gn).isLt; have := (d).isLt; have := (0x0B#7).isLt; omega

@[simp] theorem encVX_part_20_2 (fn : BitVec 4) (g : Guard) (f5 a : BitVec 5) (f3 : BitVec 3) (v : BitVec 4) : fld (encVX fn g f5 a f3 v) 20 2 = f5.extractLsb' 0 2 := by
  apply BitVec.eq_of_toNat_eq; rw [fld_toNat, encVX_toNat, extract_toNat]; have := (fn).isLt; have := (g.kg).isLt; have := (f5).isLt; have := (a).isLt; have := (f3).isLt; have := (g.gn).isLt; have := (v).isLt; have := (0x2B#7).isLt; omega

@[simp] theorem encVX_part_22_3 (fn : BitVec 4) (g : Guard) (f5 a : BitVec 5) (f3 : BitVec 3) (v : BitVec 4) : fld (encVX fn g f5 a f3 v) 22 3 = f5.extractLsb' 2 3 := by
  apply BitVec.eq_of_toNat_eq; rw [fld_toNat, encVX_toNat, extract_toNat]; have := (fn).isLt; have := (g.kg).isLt; have := (f5).isLt; have := (a).isLt; have := (f3).isLt; have := (g.gn).isLt; have := (v).isLt; have := (0x2B#7).isLt; omega

@[simp] theorem encVX_part_23_2 (fn : BitVec 4) (g : Guard) (f5 a : BitVec 5) (f3 : BitVec 3) (v : BitVec 4) : fld (encVX fn g f5 a f3 v) 23 2 = f5.extractLsb' 3 2 := by
  apply BitVec.eq_of_toNat_eq; rw [fld_toNat, encVX_toNat, extract_toNat]; have := (fn).isLt; have := (g.kg).isLt; have := (f5).isLt; have := (a).isLt; have := (f3).isLt; have := (g.gn).isLt; have := (v).isLt; have := (0x2B#7).isLt; omega

@[simp] theorem encVX_part_24_1 (fn : BitVec 4) (g : Guard) (f5 a : BitVec 5) (f3 : BitVec 3) (v : BitVec 4) : fld (encVX fn g f5 a f3 v) 24 1 = f5.extractLsb' 4 1 := by
  apply BitVec.eq_of_toNat_eq; rw [fld_toNat, encVX_toNat, extract_toNat]; have := (fn).isLt; have := (g.kg).isLt; have := (f5).isLt; have := (a).isLt; have := (f3).isLt; have := (g.gn).isLt; have := (v).isLt; have := (0x2B#7).isLt; omega

@[simp] theorem encVX_part_20_4 (fn : BitVec 4) (g : Guard) (f5 a : BitVec 5) (f3 : BitVec 3) (v : BitVec 4) : fld (encVX fn g f5 a f3 v) 20 4 = f5.extractLsb' 0 4 := by
  apply BitVec.eq_of_toNat_eq; rw [fld_toNat, encVX_toNat, extract_toNat]; have := (fn).isLt; have := (g.kg).isLt; have := (f5).isLt; have := (a).isLt; have := (f3).isLt; have := (g.gn).isLt; have := (v).isLt; have := (0x2B#7).isLt; omega

@[simp] theorem encVX_part_20_3 (fn : BitVec 4) (g : Guard) (f5 a : BitVec 5) (f3 : BitVec 3) (v : BitVec 4) : fld (encVX fn g f5 a f3 v) 20 3 = f5.extractLsb' 0 3 := by
  apply BitVec.eq_of_toNat_eq; rw [fld_toNat, encVX_toNat, extract_toNat]; have := (fn).isLt; have := (g.kg).isLt; have := (f5).isLt; have := (a).isLt; have := (f3).isLt; have := (g.gn).isLt; have := (v).isLt; have := (0x2B#7).isLt; omega

@[simp] theorem encVX_part_18_2 (fn : BitVec 4) (g : Guard) (f5 a : BitVec 5) (f3 : BitVec 3) (v : BitVec 4) : fld (encVX fn g f5 a f3 v) 18 2 = a.extractLsb' 3 2 := by
  apply BitVec.eq_of_toNat_eq; rw [fld_toNat, encVX_toNat, extract_toNat]; have := (fn).isLt; have := (g.kg).isLt; have := (f5).isLt; have := (a).isLt; have := (f3).isLt; have := (g.gn).isLt; have := (v).isLt; have := (0x2B#7).isLt; omega

@[simp] theorem encVX_part_15_3 (fn : BitVec 4) (g : Guard) (f5 a : BitVec 5) (f3 : BitVec 3) (v : BitVec 4) : fld (encVX fn g f5 a f3 v) 15 3 = a.extractLsb' 0 3 := by
  apply BitVec.eq_of_toNat_eq; rw [fld_toNat, encVX_toNat, extract_toNat]; have := (fn).isLt; have := (g.kg).isLt; have := (f5).isLt; have := (a).isLt; have := (f3).isLt; have := (g.gn).isLt; have := (v).isLt; have := (0x2B#7).isLt; omega

@[simp] theorem encVX_part_7_3 (fn : BitVec 4) (g : Guard) (f5 a : BitVec 5) (f3 : BitVec 3) (v : BitVec 4) : fld (encVX fn g f5 a f3 v) 7 3 = v.extractLsb' 0 3 := by
  apply BitVec.eq_of_toNat_eq; rw [fld_toNat, encVX_toNat, extract_toNat]; have := (fn).isLt; have := (g.kg).isLt; have := (f5).isLt; have := (a).isLt; have := (f3).isLt; have := (g.gn).isLt; have := (v).isLt; have := (0x2B#7).isLt; omega

@[simp] theorem encVX_part_10_1 (fn : BitVec 4) (g : Guard) (f5 a : BitVec 5) (f3 : BitVec 3) (v : BitVec 4) : fld (encVX fn g f5 a f3 v) 10 1 = v.extractLsb' 3 1 := by
  apply BitVec.eq_of_toNat_eq; rw [fld_toNat, encVX_toNat, extract_toNat]; have := (fn).isLt; have := (g.kg).isLt; have := (f5).isLt; have := (a).isLt; have := (f3).isLt; have := (g.gn).isLt; have := (v).isLt; have := (0x2B#7).isLt; omega

/-! ### Parts of two joined fields -/

@[simp] theorem join_1_3_low (x : BitVec 1) (y : BitVec 3) : BitVec.extractLsb' 0 3 (x ++ y : BitVec 4) = y := by
  apply BitVec.eq_of_toNat_eq; rw [extract_toNat, append_toNat]; have := x.isLt; have := y.isLt; omega

@[simp] theorem join_1_3_high (x : BitVec 1) (y : BitVec 3) : BitVec.extractLsb' 3 1 (x ++ y : BitVec 4) = x := by
  apply BitVec.eq_of_toNat_eq; rw [extract_toNat, append_toNat]; have := x.isLt; have := y.isLt; omega

@[simp] theorem join_3_2_low (x : BitVec 3) (y : BitVec 2) : BitVec.extractLsb' 0 2 (x ++ y : BitVec 5) = y := by
  apply BitVec.eq_of_toNat_eq; rw [extract_toNat, append_toNat]; have := x.isLt; have := y.isLt; omega

@[simp] theorem join_3_2_high (x : BitVec 3) (y : BitVec 2) : BitVec.extractLsb' 2 3 (x ++ y : BitVec 5) = x := by
  apply BitVec.eq_of_toNat_eq; rw [extract_toNat, append_toNat]; have := x.isLt; have := y.isLt; omega

@[simp] theorem join_2_3_low (x : BitVec 2) (y : BitVec 3) : BitVec.extractLsb' 0 3 (x ++ y : BitVec 5) = y := by
  apply BitVec.eq_of_toNat_eq; rw [extract_toNat, append_toNat]; have := x.isLt; have := y.isLt; omega

@[simp] theorem join_2_3_high (x : BitVec 2) (y : BitVec 3) : BitVec.extractLsb' 3 2 (x ++ y : BitVec 5) = x := by
  apply BitVec.eq_of_toNat_eq; rw [extract_toNat, append_toNat]; have := x.isLt; have := y.isLt; omega

@[simp] theorem join_6_6_low (x : BitVec 6) (y : BitVec 6) : BitVec.extractLsb' 0 6 (x ++ y : BitVec 12) = y := by
  apply BitVec.eq_of_toNat_eq; rw [extract_toNat, append_toNat]; have := x.isLt; have := y.isLt; omega

@[simp] theorem join_6_6_high (x : BitVec 6) (y : BitVec 6) : BitVec.extractLsb' 6 6 (x ++ y : BitVec 12) = x := by
  apply BitVec.eq_of_toNat_eq; rw [extract_toNat, append_toNat]; have := x.isLt; have := y.isLt; omega

@[simp] theorem join_4_3_low (x : BitVec 4) (y : BitVec 3) : BitVec.extractLsb' 0 3 (x ++ y : BitVec 7) = y := by
  apply BitVec.eq_of_toNat_eq; rw [extract_toNat, append_toNat]; have := x.isLt; have := y.isLt; omega

@[simp] theorem join_4_3_high (x : BitVec 4) (y : BitVec 3) : BitVec.extractLsb' 3 4 (x ++ y : BitVec 7) = x := by
  apply BitVec.eq_of_toNat_eq; rw [extract_toNat, append_toNat]; have := x.isLt; have := y.isLt; omega

@[simp] theorem join_1_4_low (x : BitVec 1) (y : BitVec 4) : BitVec.extractLsb' 0 4 (x ++ y : BitVec 5) = y := by
  apply BitVec.eq_of_toNat_eq; rw [extract_toNat, append_toNat]; have := x.isLt; have := y.isLt; omega

@[simp] theorem join_1_4_high (x : BitVec 1) (y : BitVec 4) : BitVec.extractLsb' 4 1 (x ++ y : BitVec 5) = x := by
  apply BitVec.eq_of_toNat_eq; rw [extract_toNat, append_toNat]; have := x.isLt; have := y.isLt; omega

@[simp] theorem join_2_2_low (x : BitVec 2) (y : BitVec 2) : BitVec.extractLsb' 0 2 (x ++ y : BitVec 4) = y := by
  apply BitVec.eq_of_toNat_eq; rw [extract_toNat, append_toNat]; have := x.isLt; have := y.isLt; omega

@[simp] theorem join_2_2_high (x : BitVec 2) (y : BitVec 2) : BitVec.extractLsb' 2 2 (x ++ y : BitVec 4) = x := by
  apply BitVec.eq_of_toNat_eq; rw [extract_toNat, append_toNat]; have := x.isLt; have := y.isLt; omega

@[simp] theorem join_3_3_low (x : BitVec 3) (y : BitVec 3) : BitVec.extractLsb' 0 3 (x ++ y : BitVec 6) = y := by
  apply BitVec.eq_of_toNat_eq; rw [extract_toNat, append_toNat]; have := x.isLt; have := y.isLt; omega

@[simp] theorem join_3_3_high (x : BitVec 3) (y : BitVec 3) : BitVec.extractLsb' 3 3 (x ++ y : BitVec 6) = x := by
  apply BitVec.eq_of_toNat_eq; rw [extract_toNat, append_toNat]; have := x.isLt; have := y.isLt; omega

@[simp] theorem join_4_4_4_at_8 (x y z : BitVec 4) : BitVec.extractLsb' 8 4 (x ++ y ++ z : BitVec 12) = x := by
  apply BitVec.eq_of_toNat_eq; rw [extract_toNat, append_toNat, append_toNat]; have := x.isLt; have := y.isLt; have := z.isLt; omega

@[simp] theorem join_4_4_4_at_4 (x y z : BitVec 4) : BitVec.extractLsb' 4 4 (x ++ y ++ z : BitVec 12) = y := by
  apply BitVec.eq_of_toNat_eq; rw [extract_toNat, append_toNat, append_toNat]; have := x.isLt; have := y.isLt; have := z.isLt; omega

@[simp] theorem join_4_4_4_at_0 (x y z : BitVec 4) : BitVec.extractLsb' 0 4 (x ++ y ++ z : BitVec 12) = z := by
  apply BitVec.eq_of_toNat_eq; rw [extract_toNat, append_toNat, append_toNat]; have := x.isLt; have := y.isLt; have := z.isLt; omega

/-! ### The immediates put together again -/

theorem immS_encS (imm : BitVec 12) (b a : BitVec 5) (f3 : BitVec 3) : fImmS (encS imm b a f3) = imm := by
  unfold fImmS; rw [encS_25_7, encS_7_5]
  apply BitVec.eq_of_toNat_eq; rw [append_toNat, extract_toNat, extract_toNat]; have := imm.isLt; omega

theorem immB_encB (imm : BitVec 12) (b a : BitVec 5) (f3 : BitVec 3) : fImmB (encB imm b a f3) = imm := by
  unfold fImmB; rw [encB_31_1, encB_7_1, encB_25_6, encB_8_4]
  apply BitVec.eq_of_toNat_eq; simp only [append_toNat, extract_toNat]; have := imm.isLt; omega

theorem immJ_encJ (imm : BitVec 20) (d : BitVec 5) : fImmJ (encJ imm d) = imm := by
  unfold fImmJ; rw [encJ_31_1, encJ_12_8, encJ_20_1, encJ_21_10]
  apply BitVec.eq_of_toNat_eq; simp only [append_toNat, extract_toNat]; have := imm.isLt; omega

/-! ### The codes read back -/

@[simp] theorem Ty.ofCode_code (t : Ty) : Ty.ofCode t.code = some t := by cases t <;> rfl
@[simp] theorem Pred.ofCode_code (p : Pred) : Pred.ofCode p.code = p := by cases p <;> rfl
@[simp] theorem RedOp.ofCode_code (r : RedOp) : RedOp.ofCode r.code = some r := by cases r <;> rfl
@[simp] theorem KOp.ofCode_code (k : KOp) : KOp.ofCode k.code = k := by cases k <;> rfl
@[simp] theorem Width.ofCode_code (w : Width) : Width.ofCode w.code = w := by cases w <;> rfl
@[simp] theorem Scope.ofCode_code (s : Scope) : Scope.ofCode s.code = some s := by cases s <;> rfl

end Sys2Proof
end

