-- ==== Sys2Proof/Laws/State.lean ====
section
/-! SUPPORT. One lemma for each field and each named update of the state, a tile and a context, and the reads after them. -/

namespace Sys2Proof.Machine

/-! ### Tiles of a state, contexts of a tile -/

@[simp] theorem State.tile_setTile (s : State) (t : TileNo) (v : Tile) : (s.setTile t v).tile t = v :=
  Assoc.get_set_same Tile.reset t.toNat v s.tiles

theorem State.tile_setTile_other (s : State) {t u : TileNo} (h : u ≠ t) (v : Tile) : (s.setTile t v).tile u = s.tile u :=
  Assoc.get_set_other Tile.reset (fun e => h (BitVec.eq_of_toNat_eq e)) v s.tiles

@[simp] theorem Tile.ctx_setCtx (t : Tile) (c : CtxNo) (v : Ctx) : (t.setCtx c v).ctx c = v :=
  Assoc.get_set_same Ctx.reset c.toNat v t.ctxs

theorem Tile.ctx_setCtx_other (t : Tile) {c n : CtxNo} (h : n ≠ c) (v : Ctx) : (t.setCtx c v).ctx n = t.ctx n :=
  Assoc.get_set_other Ctx.reset (fun e => h (BitVec.eq_of_toNat_eq e)) v t.ctxs

@[simp] theorem State.ctx_setCtx (s : State) (t : TileNo) (c : CtxNo) (v : Ctx) : (s.setCtx t c v).ctx t c = v := by
  simp [State.ctx, State.setCtx]

@[simp] theorem State.tile_setCtx (s : State) (t : TileNo) (c : CtxNo) (v : Ctx) : (s.setCtx t c v).tile t = (s.tile t).setCtx c v := by
  simp [State.setCtx]

theorem State.tile_setCtx_other (s : State) {t u : TileNo} (h : u ≠ t) (c : CtxNo) (v : Ctx) : (s.setCtx t c v).tile u = s.tile u :=
  State.tile_setTile_other s h _

theorem State.ctx_setCtx_other (s : State) {t u : TileNo} {c n : CtxNo} (h : ¬(u = t ∧ n = c)) (v : Ctx) :
    (s.setCtx t c v).ctx u n = s.ctx u n := by
  unfold State.ctx
  by_cases e : u = t
  · subst e
    rw [State.tile_setCtx, Tile.ctx_setCtx_other _ (fun e => h ⟨rfl, e⟩)]
  · rw [State.tile_setCtx_other s e]

@[simp] theorem State.modCtx_eq (s : State) (t : TileNo) (c : CtxNo) (f : Ctx → Ctx) : (s.modCtx t c f).ctx t c = f (s.ctx t c) := by
  simp [State.modCtx]

@[simp] theorem State.tile_modTile (s : State) (t : TileNo) (f : Tile → Tile) : (s.modTile t f).tile t = f (s.tile t) := by
  simp [State.modTile]

theorem State.tile_modTile_other (s : State) {t u : TileNo} (h : u ≠ t) (f : Tile → Tile) : (s.modTile t f).tile u = s.tile u :=
  State.tile_setTile_other s h _

/-- The executing context after it has been replaced. -/
@[simp] theorem State.me_setMe (s : State) (c : Ctx) : (s.setMe c).me = c :=
  State.ctx_setCtx s s.cur.1 s.cur.2 c

theorem State.ctx_setMe_other (s : State) {t : TileNo} {n : CtxNo} (h : (t, n) ≠ s.cur) (c : Ctx) :
    (s.setMe c).ctx t n = s.ctx t n :=
  State.ctx_setCtx_other s (fun e => h (by rw [e.1, e.2])) c

@[simp] theorem State.me_done (s : State) (n : Nat) (c : Ctx) : (s.done n c).me = c.retire s.time n := by
  simp [State.done]

@[simp] theorem State.me_parkMe (s : State) (r : Reason) : (s.parkMe r).me = s.me.parkFor s.time r := by
  simp [State.parkMe, State.modMe]
@[simp] theorem State.me_holdMe (s : State) : s.holdMe.me = { s.me with held := true } := by
  simp [State.holdMe, State.modMe]

/-! ### What an update of tiles leaves of the state -/

@[simp] theorem State.setTile_agenda (s : State) (t : TileNo) (v : Tile) : (s.setTile t v).agenda = s.agenda := rfl
@[simp] theorem State.setTile_turn (s : State) (t : TileNo) (v : Tile) : (s.setTile t v).turn = s.turn := rfl
@[simp] theorem State.setTile_cur (s : State) (t : TileNo) (v : Tile) : (s.setTile t v).cur = s.cur := rfl
@[simp] theorem State.setTile_freeCtr (s : State) (t : TileNo) (v : Tile) : (s.setTile t v).freeCtr = s.freeCtr := rfl
@[simp] theorem State.setTile_time (s : State) (t : TileNo) (v : Tile) : (s.setTile t v).time = s.time := rfl
@[simp] theorem State.setTile_part (s : State) (t : TileNo) (v : Tile) : (s.setTile t v).part = s.part := rfl
@[simp] theorem State.setTile_silrev (s : State) (t : TileNo) (v : Tile) : (s.setTile t v).silrev = s.silrev := rfl
@[simp] theorem State.setTile_backing (s : State) (t : TileNo) (v : Tile) : (s.setTile t v).backing = s.backing := rfl
@[simp] theorem State.setTile_lines (s : State) (t : TileNo) (v : Tile) : (s.setTile t v).lines = s.lines := rfl
@[simp] theorem State.setTile_badMain (s : State) (t : TileNo) (v : Tile) : (s.setTile t v).badMain = s.badMain := rfl
@[simp] theorem State.setTile_flag (s : State) (t : TileNo) (v : Tile) : (s.setTile t v).flag = s.flag := rfl
@[simp] theorem State.setTile_regions (s : State) (t : TileNo) (v : Tile) : (s.setTile t v).regions = s.regions := rfl
@[simp] theorem State.setTile_homes (s : State) (t : TileNo) (v : Tile) : (s.setTile t v).homes = s.homes := rfl
@[simp] theorem State.setTile_picks (s : State) (t : TileNo) (v : Tile) : (s.setTile t v).picks = s.picks := rfl
@[simp] theorem State.setTile_shuttles (s : State) (t : TileNo) (v : Tile) : (s.setTile t v).shuttles = s.shuttles := rfl
@[simp] theorem State.setTile_chunks (s : State) (t : TileNo) (v : Tile) : (s.setTile t v).chunks = s.chunks := rfl
@[simp] theorem State.setTile_starts (s : State) (t : TileNo) (v : Tile) : (s.setTile t v).starts = s.starts := rfl
@[simp] theorem State.setTile_hub (s : State) (t : TileNo) (v : Tile) : (s.setTile t v).hub = s.hub := rfl
@[simp] theorem State.setTile_links (s : State) (t : TileNo) (v : Tile) : (s.setTile t v).links = s.links := rfl
@[simp] theorem State.setTile_out (s : State) (t : TileNo) (v : Tile) : (s.setTile t v).out = s.out := rfl

@[simp] theorem State.modTile_agenda (s : State) (t : TileNo) (f : Tile → Tile) : (s.modTile t f).agenda = s.agenda := rfl
@[simp] theorem State.modTile_turn (s : State) (t : TileNo) (f : Tile → Tile) : (s.modTile t f).turn = s.turn := rfl
@[simp] theorem State.modTile_cur (s : State) (t : TileNo) (f : Tile → Tile) : (s.modTile t f).cur = s.cur := rfl
@[simp] theorem State.modTile_freeCtr (s : State) (t : TileNo) (f : Tile → Tile) : (s.modTile t f).freeCtr = s.freeCtr := rfl
@[simp] theorem State.modTile_time (s : State) (t : TileNo) (f : Tile → Tile) : (s.modTile t f).time = s.time := rfl
@[simp] theorem State.modTile_part (s : State) (t : TileNo) (f : Tile → Tile) : (s.modTile t f).part = s.part := rfl
@[simp] theorem State.modTile_silrev (s : State) (t : TileNo) (f : Tile → Tile) : (s.modTile t f).silrev = s.silrev := rfl
@[simp] theorem State.modTile_backing (s : State) (t : TileNo) (f : Tile → Tile) : (s.modTile t f).backing = s.backing := rfl
@[simp] theorem State.modTile_lines (s : State) (t : TileNo) (f : Tile → Tile) : (s.modTile t f).lines = s.lines := rfl
@[simp] theorem State.modTile_badMain (s : State) (t : TileNo) (f : Tile → Tile) : (s.modTile t f).badMain = s.badMain := rfl
@[simp] theorem State.modTile_flag (s : State) (t : TileNo) (f : Tile → Tile) : (s.modTile t f).flag = s.flag := rfl
@[simp] theorem State.modTile_regions (s : State) (t : TileNo) (f : Tile → Tile) : (s.modTile t f).regions = s.regions := rfl
@[simp] theorem State.modTile_homes (s : State) (t : TileNo) (f : Tile → Tile) : (s.modTile t f).homes = s.homes := rfl
@[simp] theorem State.modTile_picks (s : State) (t : TileNo) (f : Tile → Tile) : (s.modTile t f).picks = s.picks := rfl
@[simp] theorem State.modTile_shuttles (s : State) (t : TileNo) (f : Tile → Tile) : (s.modTile t f).shuttles = s.shuttles := rfl
@[simp] theorem State.modTile_chunks (s : State) (t : TileNo) (f : Tile → Tile) : (s.modTile t f).chunks = s.chunks := rfl
@[simp] theorem State.modTile_starts (s : State) (t : TileNo) (f : Tile → Tile) : (s.modTile t f).starts = s.starts := rfl
@[simp] theorem State.modTile_hub (s : State) (t : TileNo) (f : Tile → Tile) : (s.modTile t f).hub = s.hub := rfl
@[simp] theorem State.modTile_links (s : State) (t : TileNo) (f : Tile → Tile) : (s.modTile t f).links = s.links := rfl
@[simp] theorem State.modTile_out (s : State) (t : TileNo) (f : Tile → Tile) : (s.modTile t f).out = s.out := rfl

@[simp] theorem State.setCtx_agenda (s : State) (t : TileNo) (c : CtxNo) (v : Ctx) : (s.setCtx t c v).agenda = s.agenda := rfl
@[simp] theorem State.setCtx_turn (s : State) (t : TileNo) (c : CtxNo) (v : Ctx) : (s.setCtx t c v).turn = s.turn := rfl
@[simp] theorem State.setCtx_cur (s : State) (t : TileNo) (c : CtxNo) (v : Ctx) : (s.setCtx t c v).cur = s.cur := rfl
@[simp] theorem State.setCtx_freeCtr (s : State) (t : TileNo) (c : CtxNo) (v : Ctx) : (s.setCtx t c v).freeCtr = s.freeCtr := rfl
@[simp] theorem State.setCtx_time (s : State) (t : TileNo) (c : CtxNo) (v : Ctx) : (s.setCtx t c v).time = s.time := rfl
@[simp] theorem State.setCtx_part (s : State) (t : TileNo) (c : CtxNo) (v : Ctx) : (s.setCtx t c v).part = s.part := rfl
@[simp] theorem State.setCtx_silrev (s : State) (t : TileNo) (c : CtxNo) (v : Ctx) : (s.setCtx t c v).silrev = s.silrev := rfl
@[simp] theorem State.setCtx_backing (s : State) (t : TileNo) (c : CtxNo) (v : Ctx) : (s.setCtx t c v).backing = s.backing := rfl
@[simp] theorem State.setCtx_lines (s : State) (t : TileNo) (c : CtxNo) (v : Ctx) : (s.setCtx t c v).lines = s.lines := rfl
@[simp] theorem State.setCtx_badMain (s : State) (t : TileNo) (c : CtxNo) (v : Ctx) : (s.setCtx t c v).badMain = s.badMain := rfl
@[simp] theorem State.setCtx_flag (s : State) (t : TileNo) (c : CtxNo) (v : Ctx) : (s.setCtx t c v).flag = s.flag := rfl
@[simp] theorem State.setCtx_regions (s : State) (t : TileNo) (c : CtxNo) (v : Ctx) : (s.setCtx t c v).regions = s.regions := rfl
@[simp] theorem State.setCtx_homes (s : State) (t : TileNo) (c : CtxNo) (v : Ctx) : (s.setCtx t c v).homes = s.homes := rfl
@[simp] theorem State.setCtx_picks (s : State) (t : TileNo) (c : CtxNo) (v : Ctx) : (s.setCtx t c v).picks = s.picks := rfl
@[simp] theorem State.setCtx_shuttles (s : State) (t : TileNo) (c : CtxNo) (v : Ctx) : (s.setCtx t c v).shuttles = s.shuttles := rfl
@[simp] theorem State.setCtx_chunks (s : State) (t : TileNo) (c : CtxNo) (v : Ctx) : (s.setCtx t c v).chunks = s.chunks := rfl
@[simp] theorem State.setCtx_starts (s : State) (t : TileNo) (c : CtxNo) (v : Ctx) : (s.setCtx t c v).starts = s.starts := rfl
@[simp] theorem State.setCtx_hub (s : State) (t : TileNo) (c : CtxNo) (v : Ctx) : (s.setCtx t c v).hub = s.hub := rfl
@[simp] theorem State.setCtx_links (s : State) (t : TileNo) (c : CtxNo) (v : Ctx) : (s.setCtx t c v).links = s.links := rfl
@[simp] theorem State.setCtx_out (s : State) (t : TileNo) (c : CtxNo) (v : Ctx) : (s.setCtx t c v).out = s.out := rfl

@[simp] theorem State.modCtx_agenda (s : State) (t : TileNo) (c : CtxNo) (f : Ctx → Ctx) : (s.modCtx t c f).agenda = s.agenda := rfl
@[simp] theorem State.modCtx_turn (s : State) (t : TileNo) (c : CtxNo) (f : Ctx → Ctx) : (s.modCtx t c f).turn = s.turn := rfl
@[simp] theorem State.modCtx_cur (s : State) (t : TileNo) (c : CtxNo) (f : Ctx → Ctx) : (s.modCtx t c f).cur = s.cur := rfl
@[simp] theorem State.modCtx_freeCtr (s : State) (t : TileNo) (c : CtxNo) (f : Ctx → Ctx) : (s.modCtx t c f).freeCtr = s.freeCtr := rfl
@[simp] theorem State.modCtx_time (s : State) (t : TileNo) (c : CtxNo) (f : Ctx → Ctx) : (s.modCtx t c f).time = s.time := rfl
@[simp] theorem State.modCtx_part (s : State) (t : TileNo) (c : CtxNo) (f : Ctx → Ctx) : (s.modCtx t c f).part = s.part := rfl
@[simp] theorem State.modCtx_silrev (s : State) (t : TileNo) (c : CtxNo) (f : Ctx → Ctx) : (s.modCtx t c f).silrev = s.silrev := rfl
@[simp] theorem State.modCtx_backing (s : State) (t : TileNo) (c : CtxNo) (f : Ctx → Ctx) : (s.modCtx t c f).backing = s.backing := rfl
@[simp] theorem State.modCtx_lines (s : State) (t : TileNo) (c : CtxNo) (f : Ctx → Ctx) : (s.modCtx t c f).lines = s.lines := rfl
@[simp] theorem State.modCtx_badMain (s : State) (t : TileNo) (c : CtxNo) (f : Ctx → Ctx) : (s.modCtx t c f).badMain = s.badMain := rfl
@[simp] theorem State.modCtx_flag (s : State) (t : TileNo) (c : CtxNo) (f : Ctx → Ctx) : (s.modCtx t c f).flag = s.flag := rfl
@[simp] theorem State.modCtx_regions (s : State) (t : TileNo) (c : CtxNo) (f : Ctx → Ctx) : (s.modCtx t c f).regions = s.regions := rfl
@[simp] theorem State.modCtx_homes (s : State) (t : TileNo) (c : CtxNo) (f : Ctx → Ctx) : (s.modCtx t c f).homes = s.homes := rfl
@[simp] theorem State.modCtx_picks (s : State) (t : TileNo) (c : CtxNo) (f : Ctx → Ctx) : (s.modCtx t c f).picks = s.picks := rfl
@[simp] theorem State.modCtx_shuttles (s : State) (t : TileNo) (c : CtxNo) (f : Ctx → Ctx) : (s.modCtx t c f).shuttles = s.shuttles := rfl
@[simp] theorem State.modCtx_chunks (s : State) (t : TileNo) (c : CtxNo) (f : Ctx → Ctx) : (s.modCtx t c f).chunks = s.chunks := rfl
@[simp] theorem State.modCtx_starts (s : State) (t : TileNo) (c : CtxNo) (f : Ctx → Ctx) : (s.modCtx t c f).starts = s.starts := rfl
@[simp] theorem State.modCtx_hub (s : State) (t : TileNo) (c : CtxNo) (f : Ctx → Ctx) : (s.modCtx t c f).hub = s.hub := rfl
@[simp] theorem State.modCtx_links (s : State) (t : TileNo) (c : CtxNo) (f : Ctx → Ctx) : (s.modCtx t c f).links = s.links := rfl
@[simp] theorem State.modCtx_out (s : State) (t : TileNo) (c : CtxNo) (f : Ctx → Ctx) : (s.modCtx t c f).out = s.out := rfl

@[simp] theorem State.setMe_agenda (s : State) (c : Ctx) : (s.setMe c).agenda = s.agenda := rfl
@[simp] theorem State.setMe_turn (s : State) (c : Ctx) : (s.setMe c).turn = s.turn := rfl
@[simp] theorem State.setMe_cur (s : State) (c : Ctx) : (s.setMe c).cur = s.cur := rfl
@[simp] theorem State.setMe_freeCtr (s : State) (c : Ctx) : (s.setMe c).freeCtr = s.freeCtr := rfl
@[simp] theorem State.setMe_time (s : State) (c : Ctx) : (s.setMe c).time = s.time := rfl
@[simp] theorem State.setMe_part (s : State) (c : Ctx) : (s.setMe c).part = s.part := rfl
@[simp] theorem State.setMe_silrev (s : State) (c : Ctx) : (s.setMe c).silrev = s.silrev := rfl
@[simp] theorem State.setMe_backing (s : State) (c : Ctx) : (s.setMe c).backing = s.backing := rfl
@[simp] theorem State.setMe_lines (s : State) (c : Ctx) : (s.setMe c).lines = s.lines := rfl
@[simp] theorem State.setMe_badMain (s : State) (c : Ctx) : (s.setMe c).badMain = s.badMain := rfl
@[simp] theorem State.setMe_flag (s : State) (c : Ctx) : (s.setMe c).flag = s.flag := rfl
@[simp] theorem State.setMe_regions (s : State) (c : Ctx) : (s.setMe c).regions = s.regions := rfl
@[simp] theorem State.setMe_homes (s : State) (c : Ctx) : (s.setMe c).homes = s.homes := rfl
@[simp] theorem State.setMe_picks (s : State) (c : Ctx) : (s.setMe c).picks = s.picks := rfl
@[simp] theorem State.setMe_shuttles (s : State) (c : Ctx) : (s.setMe c).shuttles = s.shuttles := rfl
@[simp] theorem State.setMe_chunks (s : State) (c : Ctx) : (s.setMe c).chunks = s.chunks := rfl
@[simp] theorem State.setMe_starts (s : State) (c : Ctx) : (s.setMe c).starts = s.starts := rfl
@[simp] theorem State.setMe_hub (s : State) (c : Ctx) : (s.setMe c).hub = s.hub := rfl
@[simp] theorem State.setMe_links (s : State) (c : Ctx) : (s.setMe c).links = s.links := rfl
@[simp] theorem State.setMe_out (s : State) (c : Ctx) : (s.setMe c).out = s.out := rfl

@[simp] theorem State.modMe_agenda (s : State) (f : Ctx → Ctx) : (s.modMe f).agenda = s.agenda := rfl
@[simp] theorem State.modMe_turn (s : State) (f : Ctx → Ctx) : (s.modMe f).turn = s.turn := rfl
@[simp] theorem State.modMe_cur (s : State) (f : Ctx → Ctx) : (s.modMe f).cur = s.cur := rfl
@[simp] theorem State.modMe_freeCtr (s : State) (f : Ctx → Ctx) : (s.modMe f).freeCtr = s.freeCtr := rfl
@[simp] theorem State.modMe_time (s : State) (f : Ctx → Ctx) : (s.modMe f).time = s.time := rfl
@[simp] theorem State.modMe_part (s : State) (f : Ctx → Ctx) : (s.modMe f).part = s.part := rfl
@[simp] theorem State.modMe_silrev (s : State) (f : Ctx → Ctx) : (s.modMe f).silrev = s.silrev := rfl
@[simp] theorem State.modMe_backing (s : State) (f : Ctx → Ctx) : (s.modMe f).backing = s.backing := rfl
@[simp] theorem State.modMe_lines (s : State) (f : Ctx → Ctx) : (s.modMe f).lines = s.lines := rfl
@[simp] theorem State.modMe_badMain (s : State) (f : Ctx → Ctx) : (s.modMe f).badMain = s.badMain := rfl
@[simp] theorem State.modMe_flag (s : State) (f : Ctx → Ctx) : (s.modMe f).flag = s.flag := rfl
@[simp] theorem State.modMe_regions (s : State) (f : Ctx → Ctx) : (s.modMe f).regions = s.regions := rfl
@[simp] theorem State.modMe_homes (s : State) (f : Ctx → Ctx) : (s.modMe f).homes = s.homes := rfl
@[simp] theorem State.modMe_picks (s : State) (f : Ctx → Ctx) : (s.modMe f).picks = s.picks := rfl
@[simp] theorem State.modMe_shuttles (s : State) (f : Ctx → Ctx) : (s.modMe f).shuttles = s.shuttles := rfl
@[simp] theorem State.modMe_chunks (s : State) (f : Ctx → Ctx) : (s.modMe f).chunks = s.chunks := rfl
@[simp] theorem State.modMe_starts (s : State) (f : Ctx → Ctx) : (s.modMe f).starts = s.starts := rfl
@[simp] theorem State.modMe_hub (s : State) (f : Ctx → Ctx) : (s.modMe f).hub = s.hub := rfl
@[simp] theorem State.modMe_links (s : State) (f : Ctx → Ctx) : (s.modMe f).links = s.links := rfl
@[simp] theorem State.modMe_out (s : State) (f : Ctx → Ctx) : (s.modMe f).out = s.out := rfl

@[simp] theorem State.modHere_agenda (s : State) (f : Tile → Tile) : (s.modHere f).agenda = s.agenda := rfl
@[simp] theorem State.modHere_turn (s : State) (f : Tile → Tile) : (s.modHere f).turn = s.turn := rfl
@[simp] theorem State.modHere_cur (s : State) (f : Tile → Tile) : (s.modHere f).cur = s.cur := rfl
@[simp] theorem State.modHere_freeCtr (s : State) (f : Tile → Tile) : (s.modHere f).freeCtr = s.freeCtr := rfl
@[simp] theorem State.modHere_time (s : State) (f : Tile → Tile) : (s.modHere f).time = s.time := rfl
@[simp] theorem State.modHere_part (s : State) (f : Tile → Tile) : (s.modHere f).part = s.part := rfl
@[simp] theorem State.modHere_silrev (s : State) (f : Tile → Tile) : (s.modHere f).silrev = s.silrev := rfl
@[simp] theorem State.modHere_backing (s : State) (f : Tile → Tile) : (s.modHere f).backing = s.backing := rfl
@[simp] theorem State.modHere_lines (s : State) (f : Tile → Tile) : (s.modHere f).lines = s.lines := rfl
@[simp] theorem State.modHere_badMain (s : State) (f : Tile → Tile) : (s.modHere f).badMain = s.badMain := rfl
@[simp] theorem State.modHere_flag (s : State) (f : Tile → Tile) : (s.modHere f).flag = s.flag := rfl
@[simp] theorem State.modHere_regions (s : State) (f : Tile → Tile) : (s.modHere f).regions = s.regions := rfl
@[simp] theorem State.modHere_homes (s : State) (f : Tile → Tile) : (s.modHere f).homes = s.homes := rfl
@[simp] theorem State.modHere_picks (s : State) (f : Tile → Tile) : (s.modHere f).picks = s.picks := rfl
@[simp] theorem State.modHere_shuttles (s : State) (f : Tile → Tile) : (s.modHere f).shuttles = s.shuttles := rfl
@[simp] theorem State.modHere_chunks (s : State) (f : Tile → Tile) : (s.modHere f).chunks = s.chunks := rfl
@[simp] theorem State.modHere_starts (s : State) (f : Tile → Tile) : (s.modHere f).starts = s.starts := rfl
@[simp] theorem State.modHere_hub (s : State) (f : Tile → Tile) : (s.modHere f).hub = s.hub := rfl
@[simp] theorem State.modHere_links (s : State) (f : Tile → Tile) : (s.modHere f).links = s.links := rfl
@[simp] theorem State.modHere_out (s : State) (f : Tile → Tile) : (s.modHere f).out = s.out := rfl

@[simp] theorem State.done_agenda (s : State) (n : Nat) (c : Ctx) : (s.done n c).agenda = s.agenda := rfl
@[simp] theorem State.done_turn (s : State) (n : Nat) (c : Ctx) : (s.done n c).turn = s.turn := rfl
@[simp] theorem State.done_cur (s : State) (n : Nat) (c : Ctx) : (s.done n c).cur = s.cur := rfl
@[simp] theorem State.done_freeCtr (s : State) (n : Nat) (c : Ctx) : (s.done n c).freeCtr = s.freeCtr := rfl
@[simp] theorem State.done_time (s : State) (n : Nat) (c : Ctx) : (s.done n c).time = s.time := rfl
@[simp] theorem State.done_part (s : State) (n : Nat) (c : Ctx) : (s.done n c).part = s.part := rfl
@[simp] theorem State.done_silrev (s : State) (n : Nat) (c : Ctx) : (s.done n c).silrev = s.silrev := rfl
@[simp] theorem State.done_backing (s : State) (n : Nat) (c : Ctx) : (s.done n c).backing = s.backing := rfl
@[simp] theorem State.done_lines (s : State) (n : Nat) (c : Ctx) : (s.done n c).lines = s.lines := rfl
@[simp] theorem State.done_badMain (s : State) (n : Nat) (c : Ctx) : (s.done n c).badMain = s.badMain := rfl
@[simp] theorem State.done_flag (s : State) (n : Nat) (c : Ctx) : (s.done n c).flag = s.flag := rfl
@[simp] theorem State.done_regions (s : State) (n : Nat) (c : Ctx) : (s.done n c).regions = s.regions := rfl
@[simp] theorem State.done_homes (s : State) (n : Nat) (c : Ctx) : (s.done n c).homes = s.homes := rfl
@[simp] theorem State.done_picks (s : State) (n : Nat) (c : Ctx) : (s.done n c).picks = s.picks := rfl
@[simp] theorem State.done_shuttles (s : State) (n : Nat) (c : Ctx) : (s.done n c).shuttles = s.shuttles := rfl
@[simp] theorem State.done_chunks (s : State) (n : Nat) (c : Ctx) : (s.done n c).chunks = s.chunks := rfl
@[simp] theorem State.done_starts (s : State) (n : Nat) (c : Ctx) : (s.done n c).starts = s.starts := rfl
@[simp] theorem State.done_hub (s : State) (n : Nat) (c : Ctx) : (s.done n c).hub = s.hub := rfl
@[simp] theorem State.done_links (s : State) (n : Nat) (c : Ctx) : (s.done n c).links = s.links := rfl
@[simp] theorem State.done_out (s : State) (n : Nat) (c : Ctx) : (s.done n c).out = s.out := rfl

@[simp] theorem State.parkMe_agenda (s : State) (r : Reason) : (s.parkMe r).agenda = s.agenda := rfl
@[simp] theorem State.parkMe_turn (s : State) (r : Reason) : (s.parkMe r).turn = s.turn := rfl
@[simp] theorem State.parkMe_cur (s : State) (r : Reason) : (s.parkMe r).cur = s.cur := rfl
@[simp] theorem State.parkMe_freeCtr (s : State) (r : Reason) : (s.parkMe r).freeCtr = s.freeCtr := rfl
@[simp] theorem State.parkMe_time (s : State) (r : Reason) : (s.parkMe r).time = s.time := rfl
@[simp] theorem State.parkMe_part (s : State) (r : Reason) : (s.parkMe r).part = s.part := rfl
@[simp] theorem State.parkMe_silrev (s : State) (r : Reason) : (s.parkMe r).silrev = s.silrev := rfl
@[simp] theorem State.parkMe_backing (s : State) (r : Reason) : (s.parkMe r).backing = s.backing := rfl
@[simp] theorem State.parkMe_lines (s : State) (r : Reason) : (s.parkMe r).lines = s.lines := rfl
@[simp] theorem State.parkMe_badMain (s : State) (r : Reason) : (s.parkMe r).badMain = s.badMain := rfl
@[simp] theorem State.parkMe_flag (s : State) (r : Reason) : (s.parkMe r).flag = s.flag := rfl
@[simp] theorem State.parkMe_regions (s : State) (r : Reason) : (s.parkMe r).regions = s.regions := rfl
@[simp] theorem State.parkMe_homes (s : State) (r : Reason) : (s.parkMe r).homes = s.homes := rfl
@[simp] theorem State.parkMe_picks (s : State) (r : Reason) : (s.parkMe r).picks = s.picks := rfl
@[simp] theorem State.parkMe_shuttles (s : State) (r : Reason) : (s.parkMe r).shuttles = s.shuttles := rfl
@[simp] theorem State.parkMe_chunks (s : State) (r : Reason) : (s.parkMe r).chunks = s.chunks := rfl
@[simp] theorem State.parkMe_starts (s : State) (r : Reason) : (s.parkMe r).starts = s.starts := rfl
@[simp] theorem State.parkMe_hub (s : State) (r : Reason) : (s.parkMe r).hub = s.hub := rfl
@[simp] theorem State.parkMe_links (s : State) (r : Reason) : (s.parkMe r).links = s.links := rfl
@[simp] theorem State.parkMe_out (s : State) (r : Reason) : (s.parkMe r).out = s.out := rfl

@[simp] theorem State.holdMe_agenda (s : State) : s.holdMe.agenda = s.agenda := rfl
@[simp] theorem State.holdMe_turn (s : State) : s.holdMe.turn = s.turn := rfl
@[simp] theorem State.holdMe_cur (s : State) : s.holdMe.cur = s.cur := rfl
@[simp] theorem State.holdMe_freeCtr (s : State) : s.holdMe.freeCtr = s.freeCtr := rfl
@[simp] theorem State.holdMe_time (s : State) : s.holdMe.time = s.time := rfl
@[simp] theorem State.holdMe_part (s : State) : s.holdMe.part = s.part := rfl
@[simp] theorem State.holdMe_silrev (s : State) : s.holdMe.silrev = s.silrev := rfl
@[simp] theorem State.holdMe_backing (s : State) : s.holdMe.backing = s.backing := rfl
@[simp] theorem State.holdMe_lines (s : State) : s.holdMe.lines = s.lines := rfl
@[simp] theorem State.holdMe_badMain (s : State) : s.holdMe.badMain = s.badMain := rfl
@[simp] theorem State.holdMe_flag (s : State) : s.holdMe.flag = s.flag := rfl
@[simp] theorem State.holdMe_regions (s : State) : s.holdMe.regions = s.regions := rfl
@[simp] theorem State.holdMe_homes (s : State) : s.holdMe.homes = s.homes := rfl
@[simp] theorem State.holdMe_picks (s : State) : s.holdMe.picks = s.picks := rfl
@[simp] theorem State.holdMe_shuttles (s : State) : s.holdMe.shuttles = s.shuttles := rfl
@[simp] theorem State.holdMe_chunks (s : State) : s.holdMe.chunks = s.chunks := rfl
@[simp] theorem State.holdMe_starts (s : State) : s.holdMe.starts = s.starts := rfl
@[simp] theorem State.holdMe_hub (s : State) : s.holdMe.hub = s.hub := rfl
@[simp] theorem State.holdMe_links (s : State) : s.holdMe.links = s.links := rfl
@[simp] theorem State.holdMe_out (s : State) : s.holdMe.out = s.out := rfl

/-! ### What an update of a context leaves of the tile -/

@[simp] theorem Tile.setCtx_ls (t : Tile) (c : CtxNo) (v : Ctx) : (t.setCtx c v).ls = t.ls := rfl
@[simp] theorem Tile.setCtx_istore (t : Tile) (c : CtxNo) (v : Ctx) : (t.setCtx c v).istore = t.istore := rfl
@[simp] theorem Tile.setCtx_hist (t : Tile) (c : CtxNo) (v : Ctx) : (t.setCtx c v).hist = t.hist := rfl
@[simp] theorem Tile.setCtx_pickWin (t : Tile) (c : CtxNo) (v : Ctx) : (t.setCtx c v).pickWin = t.pickWin := rfl
@[simp] theorem Tile.setCtx_acc (t : Tile) (c : CtxNo) (v : Ctx) : (t.setCtx c v).acc = t.acc := rfl
@[simp] theorem Tile.setCtx_heddle (t : Tile) (c : CtxNo) (v : Ctx) : (t.setCtx c v).heddle = t.heddle := rfl
@[simp] theorem Tile.setCtx_slots (t : Tile) (c : CtxNo) (v : Ctx) : (t.setCtx c v).slots = t.slots := rfl
@[simp] theorem Tile.setCtx_lastSlot (t : Tile) (c : CtxNo) (v : Ctx) : (t.setCtx c v).lastSlot = t.lastSlot := rfl
@[simp] theorem Tile.setCtx_pwlog (t : Tile) (c : CtxNo) (v : Ctx) : (t.setCtx c v).pwlog = t.pwlog := rfl
@[simp] theorem Tile.setCtx_inbox (t : Tile) (c : CtxNo) (v : Ctx) : (t.setCtx c v).inbox = t.inbox := rfl
@[simp] theorem Tile.setCtx_ocperm (t : Tile) (c : CtxNo) (v : Ctx) : (t.setCtx c v).ocperm = t.ocperm := rfl
@[simp] theorem Tile.setCtx_tcause (t : Tile) (c : CtxNo) (v : Ctx) : (t.setCtx c v).tcause = t.tcause := rfl
@[simp] theorem Tile.setCtx_tval (t : Tile) (c : CtxNo) (v : Ctx) : (t.setCtx c v).tval = t.tval := rfl
@[simp] theorem Tile.setCtx_tseq (t : Tile) (c : CtxNo) (v : Ctx) : (t.setCtx c v).tseq = t.tseq := rfl
@[simp] theorem Tile.setCtx_tstat (t : Tile) (c : CtxNo) (v : Ctx) : (t.setCtx c v).tstat = t.tstat := rfl
@[simp] theorem Tile.setCtx_tvec (t : Tile) (c : CtxNo) (v : Ctx) : (t.setCtx c v).tvec = t.tvec := rfl
@[simp] theorem Tile.setCtx_tctx (t : Tile) (c : CtxNo) (v : Ctx) : (t.setCtx c v).tctx = t.tctx := rfl
@[simp] theorem Tile.setCtx_mbase (t : Tile) (c : CtxNo) (v : Ctx) : (t.setCtx c v).mbase = t.mbase := rfl
@[simp] theorem Tile.setCtx_monitor (t : Tile) (c : CtxNo) (v : Ctx) : (t.setCtx c v).monitor = t.monitor := rfl
@[simp] theorem Tile.setCtx_entering (t : Tile) (c : CtxNo) (v : Ctx) : (t.setCtx c v).entering = t.entering := rfl
@[simp] theorem Tile.setCtx_recs (t : Tile) (c : CtxNo) (v : Ctx) : (t.setCtx c v).recs = t.recs := rfl
@[simp] theorem Tile.setCtx_tcmp (t : Tile) (c : CtxNo) (v : Ctx) : (t.setCtx c v).tcmp = t.tcmp := rfl
@[simp] theorem Tile.setCtx_stop (t : Tile) (c : CtxNo) (v : Ctx) : (t.setCtx c v).stop = t.stop := rfl
@[simp] theorem Tile.setCtx_drained (t : Tile) (c : CtxNo) (v : Ctx) : (t.setCtx c v).drained = t.drained := rfl
@[simp] theorem Tile.setCtx_pbuf (t : Tile) (c : CtxNo) (v : Ctx) : (t.setCtx c v).pbuf = t.pbuf := rfl
@[simp] theorem Tile.setCtx_saving (t : Tile) (c : CtxNo) (v : Ctx) : (t.setCtx c v).saving = t.saving := rfl
@[simp] theorem Tile.setCtx_dspill (t : Tile) (c : CtxNo) (v : Ctx) : (t.setCtx c v).dspill = t.dspill := rfl
@[simp] theorem Tile.setCtx_sspill (t : Tile) (c : CtxNo) (v : Ctx) : (t.setCtx c v).sspill = t.sspill := rfl
@[simp] theorem Tile.setCtx_phold (t : Tile) (c : CtxNo) (v : Ctx) : (t.setCtx c v).phold = t.phold := rfl
@[simp] theorem Tile.setCtx_qstat (t : Tile) (c : CtxNo) (v : Ctx) : (t.setCtx c v).qstat = t.qstat := rfl
@[simp] theorem Tile.setCtx_uncorr (t : Tile) (c : CtxNo) (v : Ctx) : (t.setCtx c v).uncorr = t.uncorr := rfl
@[simp] theorem Tile.setCtx_corr (t : Tile) (c : CtxNo) (v : Ctx) : (t.setCtx c v).corr = t.corr := rfl
@[simp] theorem Tile.setCtx_poison (t : Tile) (c : CtxNo) (v : Ctx) : (t.setCtx c v).poison = t.poison := rfl
@[simp] theorem Tile.setCtx_badTids (t : Tile) (c : CtxNo) (v : Ctx) : (t.setCtx c v).badTids = t.badTids := rfl
@[simp] theorem Tile.setCtx_badTts (t : Tile) (c : CtxNo) (v : Ctx) : (t.setCtx c v).badTts = t.badTts := rfl
@[simp] theorem Tile.setCtx_tids (t : Tile) (c : CtxNo) (v : Ctx) : (t.setCtx c v).tids = t.tids := rfl
@[simp] theorem Tile.setCtx_tts (t : Tile) (c : CtxNo) (v : Ctx) : (t.setCtx c v).tts = t.tts := rfl
@[simp] theorem Tile.setCtx_ttState (t : Tile) (c : CtxNo) (v : Ctx) : (t.setCtx c v).ttState = t.ttState := rfl
@[simp] theorem Tile.setCtx_chunks (t : Tile) (c : CtxNo) (v : Ctx) : (t.setCtx c v).chunks = t.chunks := rfl
@[simp] theorem Tile.setCtx_retained (t : Tile) (c : CtxNo) (v : Ctx) : (t.setCtx c v).retained = t.retained := rfl
@[simp] theorem Tile.setCtx_split (t : Tile) (c : CtxNo) (v : Ctx) : (t.setCtx c v).split = t.split := rfl
@[simp] theorem Tile.setCtx_residents (t : Tile) (c : CtxNo) (v : Ctx) : (t.setCtx c v).residents = t.residents := rfl
@[simp] theorem Tile.setCtx_barriers (t : Tile) (c : CtxNo) (v : Ctx) : (t.setCtx c v).barriers = t.barriers := rfl
@[simp] theorem Tile.setCtx_jobCtr (t : Tile) (c : CtxNo) (v : Ctx) : (t.setCtx c v).jobCtr = t.jobCtr := rfl
@[simp] theorem Tile.setCtx_cards (t : Tile) (c : CtxNo) (v : Ctx) : (t.setCtx c v).cards = t.cards := rfl
@[simp] theorem Tile.setCtx_clog (t : Tile) (c : CtxNo) (v : Ctx) : (t.setCtx c v).clog = t.clog := rfl
@[simp] theorem Tile.setCtx_ccount (t : Tile) (c : CtxNo) (v : Ctx) : (t.setCtx c v).ccount = t.ccount := rfl
@[simp] theorem Tile.setCtx_selected (t : Tile) (c : CtxNo) (v : Ctx) : (t.setCtx c v).selected = t.selected := rfl
@[simp] theorem Tile.setCtx_mats (t : Tile) (c : CtxNo) (v : Ctx) : (t.setCtx c v).mats = t.mats := rfl
@[simp] theorem Tile.setCtx_pick (t : Tile) (c : CtxNo) (v : Ctx) : (t.setCtx c v).pick = t.pick := rfl
@[simp] theorem Tile.setCtx_joined (t : Tile) (c : CtxNo) (v : Ctx) : (t.setCtx c v).joined = t.joined := rfl
@[simp] theorem Tile.setCtx_pdone (t : Tile) (c : CtxNo) (v : Ctx) : (t.setCtx c v).pdone = t.pdone := rfl
@[simp] theorem Tile.setCtx_slack (t : Tile) (c : CtxNo) (v : Ctx) : (t.setCtx c v).slack = t.slack := rfl
@[simp] theorem Tile.setCtx_nbrs (t : Tile) (c : CtxNo) (v : Ctx) : (t.setCtx c v).nbrs = t.nbrs := rfl
@[simp] theorem Tile.setCtx_arrivals (t : Tile) (c : CtxNo) (v : Ctx) : (t.setCtx c v).arrivals = t.arrivals := rfl
@[simp] theorem Tile.setCtx_withdrawn (t : Tile) (c : CtxNo) (v : Ctx) : (t.setCtx c v).withdrawn = t.withdrawn := rfl
@[simp] theorem Tile.setCtx_restoring (t : Tile) (c : CtxNo) (v : Ctx) : (t.setCtx c v).restoring = t.restoring := rfl
@[simp] theorem Tile.setCtx_landing (t : Tile) (c : CtxNo) (v : Ctx) : (t.setCtx c v).landing = t.landing := rfl
@[simp] theorem Tile.setCtx_waitStart (t : Tile) (c : CtxNo) (v : Ctx) : (t.setCtx c v).waitStart = t.waitStart := rfl
@[simp] theorem Tile.setCtx_tlb (t : Tile) (c : CtxNo) (v : Ctx) : (t.setCtx c v).tlb = t.tlb := rfl
@[simp] theorem Tile.setCtx_lastIssue (t : Tile) (c : CtxNo) (v : Ctx) : (t.setCtx c v).lastIssue = t.lastIssue := rfl

/-! ### What an update of a register leaves of the context -/

@[simp] theorem Ctx.putX_pc (c : Ctx) (r : BitVec 5) (v : Word) : (c.putX r v).pc = c.pc := by unfold Ctx.putX; split <;> rfl
@[simp] theorem Ctx.putX_monPc (c : Ctx) (r : BitVec 5) (v : Word) : (c.putX r v).monPc = c.monPc := by unfold Ctx.putX; split <;> rfl
@[simp] theorem Ctx.putX_sup (c : Ctx) (r : BitVec 5) (v : Word) : (c.putX r v).sup = c.sup := by unfold Ctx.putX; split <;> rfl
@[simp] theorem Ctx.putX_v (c : Ctx) (r : BitVec 5) (v : Word) : (c.putX r v).v = c.v := by unfold Ctx.putX; split <;> rfl
@[simp] theorem Ctx.putX_k (c : Ctx) (r : BitVec 5) (v : Word) : (c.putX r v).k = c.k := by unfold Ctx.putX; split <;> rfl
@[simp] theorem Ctx.putX_full (c : Ctx) (r : BitVec 5) (v : Word) : (c.putX r v).full = c.full := by unfold Ctx.putX; split <;> rfl
@[simp] theorem Ctx.putX_qmode (c : Ctx) (r : BitVec 5) (v : Word) : (c.putX r v).qmode = c.qmode := by unfold Ctx.putX; split <;> rfl
@[simp] theorem Ctx.putX_frnd (c : Ctx) (r : BitVec 5) (v : Word) : (c.putX r v).frnd = c.frnd := by unfold Ctx.putX; split <;> rfl
@[simp] theorem Ctx.putX_fstat (c : Ctx) (r : BitVec 5) (v : Word) : (c.putX r v).fstat = c.fstat := by unfold Ctx.putX; split <;> rfl
@[simp] theorem Ctx.putX_livemask (c : Ctx) (r : BitVec 5) (v : Word) : (c.putX r v).livemask = c.livemask := by unfold Ctx.putX; split <;> rfl
@[simp] theorem Ctx.putX_pstat (c : Ctx) (r : BitVec 5) (v : Word) : (c.putX r v).pstat = c.pstat := by unfold Ctx.putX; split <;> rfl
@[simp] theorem Ctx.putX_pwatch (c : Ctx) (r : BitVec 5) (v : Word) : (c.putX r v).pwatch = c.pwatch := by unfold Ctx.putX; split <;> rfl
@[simp] theorem Ctx.putX_macc (c : Ctx) (r : BitVec 5) (v : Word) : (c.putX r v).macc = c.macc := by unfold Ctx.putX; split <;> rfl
@[simp] theorem Ctx.putX_instret (c : Ctx) (r : BitVec 5) (v : Word) : (c.putX r v).instret = c.instret := by unfold Ctx.putX; split <;> rfl
@[simp] theorem Ctx.putX_ld (c : Ctx) (r : BitVec 5) (v : Word) : (c.putX r v).ld = c.ld := by unfold Ctx.putX; split <;> rfl
@[simp] theorem Ctx.putX_st (c : Ctx) (r : BitVec 5) (v : Word) : (c.putX r v).st = c.st := by unfold Ctx.putX; split <;> rfl
@[simp] theorem Ctx.putX_cp (c : Ctx) (r : BitVec 5) (v : Word) : (c.putX r v).cp = c.cp := by unfold Ctx.putX; split <;> rfl
@[simp] theorem Ctx.putX_mx (c : Ctx) (r : BitVec 5) (v : Word) : (c.putX r v).mx = c.mx := by unfold Ctx.putX; split <;> rfl
@[simp] theorem Ctx.putX_state (c : Ctx) (r : BitVec 5) (v : Word) : (c.putX r v).state = c.state := by unfold Ctx.putX; split <;> rfl
@[simp] theorem Ctx.putX_park (c : Ctx) (r : BitVec 5) (v : Word) : (c.putX r v).park = c.park := by unfold Ctx.putX; split <;> rfl
@[simp] theorem Ctx.putX_woken (c : Ctx) (r : BitVec 5) (v : Word) : (c.putX r v).woken = c.woken := by unfold Ctx.putX; split <;> rfl
@[simp] theorem Ctx.putX_busy (c : Ctx) (r : BitVec 5) (v : Word) : (c.putX r v).busy = c.busy := by unfold Ctx.putX; split <;> rfl
@[simp] theorem Ctx.putX_held (c : Ctx) (r : BitVec 5) (v : Word) : (c.putX r v).held = c.held := by unfold Ctx.putX; split <;> rfl
@[simp] theorem Ctx.putX_fencing (c : Ctx) (r : BitVec 5) (v : Word) : (c.putX r v).fencing = c.fencing := by unfold Ctx.putX; split <;> rfl
@[simp] theorem Ctx.putX_reqs (c : Ctx) (r : BitVec 5) (v : Word) : (c.putX r v).reqs = c.reqs := by unfold Ctx.putX; split <;> rfl
@[simp] theorem Ctx.putX_seq (c : Ctx) (r : BitVec 5) (v : Word) : (c.putX r v).seq = c.seq := by unfold Ctx.putX; split <;> rfl
@[simp] theorem Ctx.putX_num (c : Ctx) (r : BitVec 5) (v : Word) : (c.putX r v).num = c.num := by unfold Ctx.putX; split <;> rfl
@[simp] theorem Ctx.putX_jobs (c : Ctx) (r : BitVec 5) (v : Word) : (c.putX r v).jobs = c.jobs := by unfold Ctx.putX; split <;> rfl
@[simp] theorem Ctx.putX_late (c : Ctx) (r : BitVec 5) (v : Word) : (c.putX r v).late = c.late := by unfold Ctx.putX; split <;> rfl
@[simp] theorem Ctx.putX_grant (c : Ctx) (r : BitVec 5) (v : Word) : (c.putX r v).grant = c.grant := by unfold Ctx.putX; split <;> rfl
@[simp] theorem Ctx.putX_fences (c : Ctx) (r : BitVec 5) (v : Word) : (c.putX r v).fences = c.fences := by unfold Ctx.putX; split <;> rfl
@[simp] theorem Ctx.putX_endStatus (c : Ctx) (r : BitVec 5) (v : Word) : (c.putX r v).endStatus = c.endStatus := by unfold Ctx.putX; split <;> rfl
@[simp] theorem Ctx.putX_stale (c : Ctx) (r : BitVec 5) (v : Word) : (c.putX r v).stale = c.stale := by unfold Ctx.putX; split <;> rfl
@[simp] theorem Ctx.putX_hop (c : Ctx) (r : BitVec 5) (v : Word) : (c.putX r v).hop = c.hop := by unfold Ctx.putX; split <;> rfl
@[simp] theorem Ctx.putX_killStatus (c : Ctx) (r : BitVec 5) (v : Word) : (c.putX r v).killStatus = c.killStatus := by unfold Ctx.putX; split <;> rfl
@[simp] theorem Ctx.putX_served (c : Ctx) (r : BitVec 5) (v : Word) : (c.putX r v).served = c.served := by unfold Ctx.putX; split <;> rfl
@[simp] theorem Ctx.putX_under (c : Ctx) (r : BitVec 5) (v : Word) : (c.putX r v).under = c.under := by unfold Ctx.putX; split <;> rfl
@[simp] theorem Ctx.putX_dead (c : Ctx) (r : BitVec 5) (v : Word) : (c.putX r v).dead = c.dead := by unfold Ctx.putX; split <;> rfl

@[simp] theorem Ctx.setFull_pc (c : Ctx) (r : BitVec 5) (b : Bool) : (c.setFull r b).pc = c.pc := by unfold Ctx.setFull; split <;> rfl
@[simp] theorem Ctx.setFull_monPc (c : Ctx) (r : BitVec 5) (b : Bool) : (c.setFull r b).monPc = c.monPc := by unfold Ctx.setFull; split <;> rfl
@[simp] theorem Ctx.setFull_sup (c : Ctx) (r : BitVec 5) (b : Bool) : (c.setFull r b).sup = c.sup := by unfold Ctx.setFull; split <;> rfl
@[simp] theorem Ctx.setFull_x (c : Ctx) (r : BitVec 5) (b : Bool) : (c.setFull r b).x = c.x := by unfold Ctx.setFull; split <;> rfl
@[simp] theorem Ctx.setFull_v (c : Ctx) (r : BitVec 5) (b : Bool) : (c.setFull r b).v = c.v := by unfold Ctx.setFull; split <;> rfl
@[simp] theorem Ctx.setFull_k (c : Ctx) (r : BitVec 5) (b : Bool) : (c.setFull r b).k = c.k := by unfold Ctx.setFull; split <;> rfl
@[simp] theorem Ctx.setFull_qmode (c : Ctx) (r : BitVec 5) (b : Bool) : (c.setFull r b).qmode = c.qmode := by unfold Ctx.setFull; split <;> rfl
@[simp] theorem Ctx.setFull_frnd (c : Ctx) (r : BitVec 5) (b : Bool) : (c.setFull r b).frnd = c.frnd := by unfold Ctx.setFull; split <;> rfl
@[simp] theorem Ctx.setFull_fstat (c : Ctx) (r : BitVec 5) (b : Bool) : (c.setFull r b).fstat = c.fstat := by unfold Ctx.setFull; split <;> rfl
@[simp] theorem Ctx.setFull_livemask (c : Ctx) (r : BitVec 5) (b : Bool) : (c.setFull r b).livemask = c.livemask := by unfold Ctx.setFull; split <;> rfl
@[simp] theorem Ctx.setFull_pstat (c : Ctx) (r : BitVec 5) (b : Bool) : (c.setFull r b).pstat = c.pstat := by unfold Ctx.setFull; split <;> rfl
@[simp] theorem Ctx.setFull_pwatch (c : Ctx) (r : BitVec 5) (b : Bool) : (c.setFull r b).pwatch = c.pwatch := by unfold Ctx.setFull; split <;> rfl
@[simp] theorem Ctx.setFull_macc (c : Ctx) (r : BitVec 5) (b : Bool) : (c.setFull r b).macc = c.macc := by unfold Ctx.setFull; split <;> rfl
@[simp] theorem Ctx.setFull_instret (c : Ctx) (r : BitVec 5) (b : Bool) : (c.setFull r b).instret = c.instret := by unfold Ctx.setFull; split <;> rfl
@[simp] theorem Ctx.setFull_ld (c : Ctx) (r : BitVec 5) (b : Bool) : (c.setFull r b).ld = c.ld := by unfold Ctx.setFull; split <;> rfl
@[simp] theorem Ctx.setFull_st (c : Ctx) (r : BitVec 5) (b : Bool) : (c.setFull r b).st = c.st := by unfold Ctx.setFull; split <;> rfl
@[simp] theorem Ctx.setFull_cp (c : Ctx) (r : BitVec 5) (b : Bool) : (c.setFull r b).cp = c.cp := by unfold Ctx.setFull; split <;> rfl
@[simp] theorem Ctx.setFull_mx (c : Ctx) (r : BitVec 5) (b : Bool) : (c.setFull r b).mx = c.mx := by unfold Ctx.setFull; split <;> rfl
@[simp] theorem Ctx.setFull_state (c : Ctx) (r : BitVec 5) (b : Bool) : (c.setFull r b).state = c.state := by unfold Ctx.setFull; split <;> rfl
@[simp] theorem Ctx.setFull_park (c : Ctx) (r : BitVec 5) (b : Bool) : (c.setFull r b).park = c.park := by unfold Ctx.setFull; split <;> rfl
@[simp] theorem Ctx.setFull_woken (c : Ctx) (r : BitVec 5) (b : Bool) : (c.setFull r b).woken = c.woken := by unfold Ctx.setFull; split <;> rfl
@[simp] theorem Ctx.setFull_busy (c : Ctx) (r : BitVec 5) (b : Bool) : (c.setFull r b).busy = c.busy := by unfold Ctx.setFull; split <;> rfl
@[simp] theorem Ctx.setFull_held (c : Ctx) (r : BitVec 5) (b : Bool) : (c.setFull r b).held = c.held := by unfold Ctx.setFull; split <;> rfl
@[simp] theorem Ctx.setFull_fencing (c : Ctx) (r : BitVec 5) (b : Bool) : (c.setFull r b).fencing = c.fencing := by unfold Ctx.setFull; split <;> rfl
@[simp] theorem Ctx.setFull_reqs (c : Ctx) (r : BitVec 5) (b : Bool) : (c.setFull r b).reqs = c.reqs := by unfold Ctx.setFull; split <;> rfl
@[simp] theorem Ctx.setFull_seq (c : Ctx) (r : BitVec 5) (b : Bool) : (c.setFull r b).seq = c.seq := by unfold Ctx.setFull; split <;> rfl
@[simp] theorem Ctx.setFull_num (c : Ctx) (r : BitVec 5) (b : Bool) : (c.setFull r b).num = c.num := by unfold Ctx.setFull; split <;> rfl
@[simp] theorem Ctx.setFull_jobs (c : Ctx) (r : BitVec 5) (b : Bool) : (c.setFull r b).jobs = c.jobs := by unfold Ctx.setFull; split <;> rfl
@[simp] theorem Ctx.setFull_late (c : Ctx) (r : BitVec 5) (b : Bool) : (c.setFull r b).late = c.late := by unfold Ctx.setFull; split <;> rfl
@[simp] theorem Ctx.setFull_grant (c : Ctx) (r : BitVec 5) (b : Bool) : (c.setFull r b).grant = c.grant := by unfold Ctx.setFull; split <;> rfl
@[simp] theorem Ctx.setFull_fences (c : Ctx) (r : BitVec 5) (b : Bool) : (c.setFull r b).fences = c.fences := by unfold Ctx.setFull; split <;> rfl
@[simp] theorem Ctx.setFull_endStatus (c : Ctx) (r : BitVec 5) (b : Bool) : (c.setFull r b).endStatus = c.endStatus := by unfold Ctx.setFull; split <;> rfl
@[simp] theorem Ctx.setFull_stale (c : Ctx) (r : BitVec 5) (b : Bool) : (c.setFull r b).stale = c.stale := by unfold Ctx.setFull; split <;> rfl
@[simp] theorem Ctx.setFull_hop (c : Ctx) (r : BitVec 5) (b : Bool) : (c.setFull r b).hop = c.hop := by unfold Ctx.setFull; split <;> rfl
@[simp] theorem Ctx.setFull_killStatus (c : Ctx) (r : BitVec 5) (b : Bool) : (c.setFull r b).killStatus = c.killStatus := by unfold Ctx.setFull; split <;> rfl
@[simp] theorem Ctx.setFull_served (c : Ctx) (r : BitVec 5) (b : Bool) : (c.setFull r b).served = c.served := by unfold Ctx.setFull; split <;> rfl
@[simp] theorem Ctx.setFull_under (c : Ctx) (r : BitVec 5) (b : Bool) : (c.setFull r b).under = c.under := by unfold Ctx.setFull; split <;> rfl
@[simp] theorem Ctx.setFull_dead (c : Ctx) (r : BitVec 5) (b : Bool) : (c.setFull r b).dead = c.dead := by unfold Ctx.setFull; split <;> rfl

@[simp] theorem Ctx.setX_pc (c : Ctx) (r : BitVec 5) (v : Word) : (c.setX r v).pc = c.pc := by unfold Ctx.setX; split <;> simp
@[simp] theorem Ctx.setX_monPc (c : Ctx) (r : BitVec 5) (v : Word) : (c.setX r v).monPc = c.monPc := by unfold Ctx.setX; split <;> simp
@[simp] theorem Ctx.setX_sup (c : Ctx) (r : BitVec 5) (v : Word) : (c.setX r v).sup = c.sup := by unfold Ctx.setX; split <;> simp
@[simp] theorem Ctx.setX_v (c : Ctx) (r : BitVec 5) (v : Word) : (c.setX r v).v = c.v := by unfold Ctx.setX; split <;> simp
@[simp] theorem Ctx.setX_k (c : Ctx) (r : BitVec 5) (v : Word) : (c.setX r v).k = c.k := by unfold Ctx.setX; split <;> simp
@[simp] theorem Ctx.setX_qmode (c : Ctx) (r : BitVec 5) (v : Word) : (c.setX r v).qmode = c.qmode := by unfold Ctx.setX; split <;> simp
@[simp] theorem Ctx.setX_frnd (c : Ctx) (r : BitVec 5) (v : Word) : (c.setX r v).frnd = c.frnd := by unfold Ctx.setX; split <;> simp
@[simp] theorem Ctx.setX_fstat (c : Ctx) (r : BitVec 5) (v : Word) : (c.setX r v).fstat = c.fstat := by unfold Ctx.setX; split <;> simp
@[simp] theorem Ctx.setX_livemask (c : Ctx) (r : BitVec 5) (v : Word) : (c.setX r v).livemask = c.livemask := by unfold Ctx.setX; split <;> simp
@[simp] theorem Ctx.setX_pstat (c : Ctx) (r : BitVec 5) (v : Word) : (c.setX r v).pstat = c.pstat := by unfold Ctx.setX; split <;> simp
@[simp] theorem Ctx.setX_pwatch (c : Ctx) (r : BitVec 5) (v : Word) : (c.setX r v).pwatch = c.pwatch := by unfold Ctx.setX; split <;> simp
@[simp] theorem Ctx.setX_macc (c : Ctx) (r : BitVec 5) (v : Word) : (c.setX r v).macc = c.macc := by unfold Ctx.setX; split <;> simp
@[simp] theorem Ctx.setX_instret (c : Ctx) (r : BitVec 5) (v : Word) : (c.setX r v).instret = c.instret := by unfold Ctx.setX; split <;> simp
@[simp] theorem Ctx.setX_ld (c : Ctx) (r : BitVec 5) (v : Word) : (c.setX r v).ld = c.ld := by unfold Ctx.setX; split <;> simp
@[simp] theorem Ctx.setX_st (c : Ctx) (r : BitVec 5) (v : Word) : (c.setX r v).st = c.st := by unfold Ctx.setX; split <;> simp
@[simp] theorem Ctx.setX_cp (c : Ctx) (r : BitVec 5) (v : Word) : (c.setX r v).cp = c.cp := by unfold Ctx.setX; split <;> simp
@[simp] theorem Ctx.setX_mx (c : Ctx) (r : BitVec 5) (v : Word) : (c.setX r v).mx = c.mx := by unfold Ctx.setX; split <;> simp
@[simp] theorem Ctx.setX_state (c : Ctx) (r : BitVec 5) (v : Word) : (c.setX r v).state = c.state := by unfold Ctx.setX; split <;> simp
@[simp] theorem Ctx.setX_park (c : Ctx) (r : BitVec 5) (v : Word) : (c.setX r v).park = c.park := by unfold Ctx.setX; split <;> simp
@[simp] theorem Ctx.setX_woken (c : Ctx) (r : BitVec 5) (v : Word) : (c.setX r v).woken = c.woken := by unfold Ctx.setX; split <;> simp
@[simp] theorem Ctx.setX_busy (c : Ctx) (r : BitVec 5) (v : Word) : (c.setX r v).busy = c.busy := by unfold Ctx.setX; split <;> simp
@[simp] theorem Ctx.setX_held (c : Ctx) (r : BitVec 5) (v : Word) : (c.setX r v).held = c.held := by unfold Ctx.setX; split <;> simp
@[simp] theorem Ctx.setX_fencing (c : Ctx) (r : BitVec 5) (v : Word) : (c.setX r v).fencing = c.fencing := by unfold Ctx.setX; split <;> simp
@[simp] theorem Ctx.setX_reqs (c : Ctx) (r : BitVec 5) (v : Word) : (c.setX r v).reqs = c.reqs := by unfold Ctx.setX; split <;> simp
@[simp] theorem Ctx.setX_seq (c : Ctx) (r : BitVec 5) (v : Word) : (c.setX r v).seq = c.seq := by unfold Ctx.setX; split <;> simp
@[simp] theorem Ctx.setX_num (c : Ctx) (r : BitVec 5) (v : Word) : (c.setX r v).num = c.num := by unfold Ctx.setX; split <;> simp
@[simp] theorem Ctx.setX_jobs (c : Ctx) (r : BitVec 5) (v : Word) : (c.setX r v).jobs = c.jobs := by unfold Ctx.setX; split <;> simp
@[simp] theorem Ctx.setX_late (c : Ctx) (r : BitVec 5) (v : Word) : (c.setX r v).late = c.late := by unfold Ctx.setX; split <;> simp
@[simp] theorem Ctx.setX_grant (c : Ctx) (r : BitVec 5) (v : Word) : (c.setX r v).grant = c.grant := by unfold Ctx.setX; split <;> simp
@[simp] theorem Ctx.setX_fences (c : Ctx) (r : BitVec 5) (v : Word) : (c.setX r v).fences = c.fences := by unfold Ctx.setX; split <;> simp
@[simp] theorem Ctx.setX_endStatus (c : Ctx) (r : BitVec 5) (v : Word) : (c.setX r v).endStatus = c.endStatus := by unfold Ctx.setX; split <;> simp
@[simp] theorem Ctx.setX_stale (c : Ctx) (r : BitVec 5) (v : Word) : (c.setX r v).stale = c.stale := by unfold Ctx.setX; split <;> simp
@[simp] theorem Ctx.setX_hop (c : Ctx) (r : BitVec 5) (v : Word) : (c.setX r v).hop = c.hop := by unfold Ctx.setX; split <;> simp
@[simp] theorem Ctx.setX_killStatus (c : Ctx) (r : BitVec 5) (v : Word) : (c.setX r v).killStatus = c.killStatus := by unfold Ctx.setX; split <;> simp
@[simp] theorem Ctx.setX_served (c : Ctx) (r : BitVec 5) (v : Word) : (c.setX r v).served = c.served := by unfold Ctx.setX; split <;> simp
@[simp] theorem Ctx.setX_under (c : Ctx) (r : BitVec 5) (v : Word) : (c.setX r v).under = c.under := by unfold Ctx.setX; split <;> simp
@[simp] theorem Ctx.setX_dead (c : Ctx) (r : BitVec 5) (v : Word) : (c.setX r v).dead = c.dead := by unfold Ctx.setX; split <;> simp

@[simp] theorem Ctx.setV_pc (c : Ctx) (r : BitVec 4) (v : VecBits) : (c.setV r v).pc = c.pc := rfl
@[simp] theorem Ctx.setV_monPc (c : Ctx) (r : BitVec 4) (v : VecBits) : (c.setV r v).monPc = c.monPc := rfl
@[simp] theorem Ctx.setV_sup (c : Ctx) (r : BitVec 4) (v : VecBits) : (c.setV r v).sup = c.sup := rfl
@[simp] theorem Ctx.setV_x (c : Ctx) (r : BitVec 4) (v : VecBits) : (c.setV r v).x = c.x := rfl
@[simp] theorem Ctx.setV_k (c : Ctx) (r : BitVec 4) (v : VecBits) : (c.setV r v).k = c.k := rfl
@[simp] theorem Ctx.setV_full (c : Ctx) (r : BitVec 4) (v : VecBits) : (c.setV r v).full = c.full := rfl
@[simp] theorem Ctx.setV_qmode (c : Ctx) (r : BitVec 4) (v : VecBits) : (c.setV r v).qmode = c.qmode := rfl
@[simp] theorem Ctx.setV_frnd (c : Ctx) (r : BitVec 4) (v : VecBits) : (c.setV r v).frnd = c.frnd := rfl
@[simp] theorem Ctx.setV_fstat (c : Ctx) (r : BitVec 4) (v : VecBits) : (c.setV r v).fstat = c.fstat := rfl
@[simp] theorem Ctx.setV_livemask (c : Ctx) (r : BitVec 4) (v : VecBits) : (c.setV r v).livemask = c.livemask := rfl
@[simp] theorem Ctx.setV_pstat (c : Ctx) (r : BitVec 4) (v : VecBits) : (c.setV r v).pstat = c.pstat := rfl
@[simp] theorem Ctx.setV_pwatch (c : Ctx) (r : BitVec 4) (v : VecBits) : (c.setV r v).pwatch = c.pwatch := rfl
@[simp] theorem Ctx.setV_macc (c : Ctx) (r : BitVec 4) (v : VecBits) : (c.setV r v).macc = c.macc := rfl
@[simp] theorem Ctx.setV_instret (c : Ctx) (r : BitVec 4) (v : VecBits) : (c.setV r v).instret = c.instret := rfl
@[simp] theorem Ctx.setV_ld (c : Ctx) (r : BitVec 4) (v : VecBits) : (c.setV r v).ld = c.ld := rfl
@[simp] theorem Ctx.setV_st (c : Ctx) (r : BitVec 4) (v : VecBits) : (c.setV r v).st = c.st := rfl
@[simp] theorem Ctx.setV_cp (c : Ctx) (r : BitVec 4) (v : VecBits) : (c.setV r v).cp = c.cp := rfl
@[simp] theorem Ctx.setV_mx (c : Ctx) (r : BitVec 4) (v : VecBits) : (c.setV r v).mx = c.mx := rfl
@[simp] theorem Ctx.setV_state (c : Ctx) (r : BitVec 4) (v : VecBits) : (c.setV r v).state = c.state := rfl
@[simp] theorem Ctx.setV_park (c : Ctx) (r : BitVec 4) (v : VecBits) : (c.setV r v).park = c.park := rfl
@[simp] theorem Ctx.setV_woken (c : Ctx) (r : BitVec 4) (v : VecBits) : (c.setV r v).woken = c.woken := rfl
@[simp] theorem Ctx.setV_busy (c : Ctx) (r : BitVec 4) (v : VecBits) : (c.setV r v).busy = c.busy := rfl
@[simp] theorem Ctx.setV_held (c : Ctx) (r : BitVec 4) (v : VecBits) : (c.setV r v).held = c.held := rfl
@[simp] theorem Ctx.setV_fencing (c : Ctx) (r : BitVec 4) (v : VecBits) : (c.setV r v).fencing = c.fencing := rfl
@[simp] theorem Ctx.setV_reqs (c : Ctx) (r : BitVec 4) (v : VecBits) : (c.setV r v).reqs = c.reqs := rfl
@[simp] theorem Ctx.setV_seq (c : Ctx) (r : BitVec 4) (v : VecBits) : (c.setV r v).seq = c.seq := rfl
@[simp] theorem Ctx.setV_num (c : Ctx) (r : BitVec 4) (v : VecBits) : (c.setV r v).num = c.num := rfl
@[simp] theorem Ctx.setV_jobs (c : Ctx) (r : BitVec 4) (v : VecBits) : (c.setV r v).jobs = c.jobs := rfl
@[simp] theorem Ctx.setV_late (c : Ctx) (r : BitVec 4) (v : VecBits) : (c.setV r v).late = c.late := rfl
@[simp] theorem Ctx.setV_grant (c : Ctx) (r : BitVec 4) (v : VecBits) : (c.setV r v).grant = c.grant := rfl
@[simp] theorem Ctx.setV_fences (c : Ctx) (r : BitVec 4) (v : VecBits) : (c.setV r v).fences = c.fences := rfl
@[simp] theorem Ctx.setV_endStatus (c : Ctx) (r : BitVec 4) (v : VecBits) : (c.setV r v).endStatus = c.endStatus := rfl
@[simp] theorem Ctx.setV_stale (c : Ctx) (r : BitVec 4) (v : VecBits) : (c.setV r v).stale = c.stale := rfl
@[simp] theorem Ctx.setV_hop (c : Ctx) (r : BitVec 4) (v : VecBits) : (c.setV r v).hop = c.hop := rfl
@[simp] theorem Ctx.setV_killStatus (c : Ctx) (r : BitVec 4) (v : VecBits) : (c.setV r v).killStatus = c.killStatus := rfl
@[simp] theorem Ctx.setV_served (c : Ctx) (r : BitVec 4) (v : VecBits) : (c.setV r v).served = c.served := rfl
@[simp] theorem Ctx.setV_under (c : Ctx) (r : BitVec 4) (v : VecBits) : (c.setV r v).under = c.under := rfl
@[simp] theorem Ctx.setV_dead (c : Ctx) (r : BitVec 4) (v : VecBits) : (c.setV r v).dead = c.dead := rfl

@[simp] theorem Ctx.setK_pc (c : Ctx) (r : BitVec 3) (v : Word) : (c.setK r v).pc = c.pc := by unfold Ctx.setK; split <;> rfl
@[simp] theorem Ctx.setK_monPc (c : Ctx) (r : BitVec 3) (v : Word) : (c.setK r v).monPc = c.monPc := by unfold Ctx.setK; split <;> rfl
@[simp] theorem Ctx.setK_sup (c : Ctx) (r : BitVec 3) (v : Word) : (c.setK r v).sup = c.sup := by unfold Ctx.setK; split <;> rfl
@[simp] theorem Ctx.setK_x (c : Ctx) (r : BitVec 3) (v : Word) : (c.setK r v).x = c.x := by unfold Ctx.setK; split <;> rfl
@[simp] theorem Ctx.setK_v (c : Ctx) (r : BitVec 3) (v : Word) : (c.setK r v).v = c.v := by unfold Ctx.setK; split <;> rfl
@[simp] theorem Ctx.setK_full (c : Ctx) (r : BitVec 3) (v : Word) : (c.setK r v).full = c.full := by unfold Ctx.setK; split <;> rfl
@[simp] theorem Ctx.setK_qmode (c : Ctx) (r : BitVec 3) (v : Word) : (c.setK r v).qmode = c.qmode := by unfold Ctx.setK; split <;> rfl
@[simp] theorem Ctx.setK_frnd (c : Ctx) (r : BitVec 3) (v : Word) : (c.setK r v).frnd = c.frnd := by unfold Ctx.setK; split <;> rfl
@[simp] theorem Ctx.setK_fstat (c : Ctx) (r : BitVec 3) (v : Word) : (c.setK r v).fstat = c.fstat := by unfold Ctx.setK; split <;> rfl
@[simp] theorem Ctx.setK_livemask (c : Ctx) (r : BitVec 3) (v : Word) : (c.setK r v).livemask = c.livemask := by unfold Ctx.setK; split <;> rfl
@[simp] theorem Ctx.setK_pstat (c : Ctx) (r : BitVec 3) (v : Word) : (c.setK r v).pstat = c.pstat := by unfold Ctx.setK; split <;> rfl
@[simp] theorem Ctx.setK_pwatch (c : Ctx) (r : BitVec 3) (v : Word) : (c.setK r v).pwatch = c.pwatch := by unfold Ctx.setK; split <;> rfl
@[simp] theorem Ctx.setK_macc (c : Ctx) (r : BitVec 3) (v : Word) : (c.setK r v).macc = c.macc := by unfold Ctx.setK; split <;> rfl
@[simp] theorem Ctx.setK_instret (c : Ctx) (r : BitVec 3) (v : Word) : (c.setK r v).instret = c.instret := by unfold Ctx.setK; split <;> rfl
@[simp] theorem Ctx.setK_ld (c : Ctx) (r : BitVec 3) (v : Word) : (c.setK r v).ld = c.ld := by unfold Ctx.setK; split <;> rfl
@[simp] theorem Ctx.setK_st (c : Ctx) (r : BitVec 3) (v : Word) : (c.setK r v).st = c.st := by unfold Ctx.setK; split <;> rfl
@[simp] theorem Ctx.setK_cp (c : Ctx) (r : BitVec 3) (v : Word) : (c.setK r v).cp = c.cp := by unfold Ctx.setK; split <;> rfl
@[simp] theorem Ctx.setK_mx (c : Ctx) (r : BitVec 3) (v : Word) : (c.setK r v).mx = c.mx := by unfold Ctx.setK; split <;> rfl
@[simp] theorem Ctx.setK_state (c : Ctx) (r : BitVec 3) (v : Word) : (c.setK r v).state = c.state := by unfold Ctx.setK; split <;> rfl
@[simp] theorem Ctx.setK_park (c : Ctx) (r : BitVec 3) (v : Word) : (c.setK r v).park = c.park := by unfold Ctx.setK; split <;> rfl
@[simp] theorem Ctx.setK_woken (c : Ctx) (r : BitVec 3) (v : Word) : (c.setK r v).woken = c.woken := by unfold Ctx.setK; split <;> rfl
@[simp] theorem Ctx.setK_busy (c : Ctx) (r : BitVec 3) (v : Word) : (c.setK r v).busy = c.busy := by unfold Ctx.setK; split <;> rfl
@[simp] theorem Ctx.setK_held (c : Ctx) (r : BitVec 3) (v : Word) : (c.setK r v).held = c.held := by unfold Ctx.setK; split <;> rfl
@[simp] theorem Ctx.setK_fencing (c : Ctx) (r : BitVec 3) (v : Word) : (c.setK r v).fencing = c.fencing := by unfold Ctx.setK; split <;> rfl
@[simp] theorem Ctx.setK_reqs (c : Ctx) (r : BitVec 3) (v : Word) : (c.setK r v).reqs = c.reqs := by unfold Ctx.setK; split <;> rfl
@[simp] theorem Ctx.setK_seq (c : Ctx) (r : BitVec 3) (v : Word) : (c.setK r v).seq = c.seq := by unfold Ctx.setK; split <;> rfl
@[simp] theorem Ctx.setK_num (c : Ctx) (r : BitVec 3) (v : Word) : (c.setK r v).num = c.num := by unfold Ctx.setK; split <;> rfl
@[simp] theorem Ctx.setK_jobs (c : Ctx) (r : BitVec 3) (v : Word) : (c.setK r v).jobs = c.jobs := by unfold Ctx.setK; split <;> rfl
@[simp] theorem Ctx.setK_late (c : Ctx) (r : BitVec 3) (v : Word) : (c.setK r v).late = c.late := by unfold Ctx.setK; split <;> rfl
@[simp] theorem Ctx.setK_grant (c : Ctx) (r : BitVec 3) (v : Word) : (c.setK r v).grant = c.grant := by unfold Ctx.setK; split <;> rfl
@[simp] theorem Ctx.setK_fences (c : Ctx) (r : BitVec 3) (v : Word) : (c.setK r v).fences = c.fences := by unfold Ctx.setK; split <;> rfl
@[simp] theorem Ctx.setK_endStatus (c : Ctx) (r : BitVec 3) (v : Word) : (c.setK r v).endStatus = c.endStatus := by unfold Ctx.setK; split <;> rfl
@[simp] theorem Ctx.setK_stale (c : Ctx) (r : BitVec 3) (v : Word) : (c.setK r v).stale = c.stale := by unfold Ctx.setK; split <;> rfl
@[simp] theorem Ctx.setK_hop (c : Ctx) (r : BitVec 3) (v : Word) : (c.setK r v).hop = c.hop := by unfold Ctx.setK; split <;> rfl
@[simp] theorem Ctx.setK_killStatus (c : Ctx) (r : BitVec 3) (v : Word) : (c.setK r v).killStatus = c.killStatus := by unfold Ctx.setK; split <;> rfl
@[simp] theorem Ctx.setK_served (c : Ctx) (r : BitVec 3) (v : Word) : (c.setK r v).served = c.served := by unfold Ctx.setK; split <;> rfl
@[simp] theorem Ctx.setK_under (c : Ctx) (r : BitVec 3) (v : Word) : (c.setK r v).under = c.under := by unfold Ctx.setK; split <;> rfl
@[simp] theorem Ctx.setK_dead (c : Ctx) (r : BitVec 3) (v : Word) : (c.setK r v).dead = c.dead := by unfold Ctx.setK; split <;> rfl

@[simp] theorem Ctx.retireTo_sup (c : Ctx) (time n : Nat) (p : Word) : (c.retireTo time n p).sup = c.sup := rfl
@[simp] theorem Ctx.retireTo_x (c : Ctx) (time n : Nat) (p : Word) : (c.retireTo time n p).x = c.x := rfl
@[simp] theorem Ctx.retireTo_v (c : Ctx) (time n : Nat) (p : Word) : (c.retireTo time n p).v = c.v := rfl
@[simp] theorem Ctx.retireTo_k (c : Ctx) (time n : Nat) (p : Word) : (c.retireTo time n p).k = c.k := rfl
@[simp] theorem Ctx.retireTo_full (c : Ctx) (time n : Nat) (p : Word) : (c.retireTo time n p).full = c.full := rfl
@[simp] theorem Ctx.retireTo_qmode (c : Ctx) (time n : Nat) (p : Word) : (c.retireTo time n p).qmode = c.qmode := rfl
@[simp] theorem Ctx.retireTo_frnd (c : Ctx) (time n : Nat) (p : Word) : (c.retireTo time n p).frnd = c.frnd := rfl
@[simp] theorem Ctx.retireTo_fstat (c : Ctx) (time n : Nat) (p : Word) : (c.retireTo time n p).fstat = c.fstat := rfl
@[simp] theorem Ctx.retireTo_livemask (c : Ctx) (time n : Nat) (p : Word) : (c.retireTo time n p).livemask = c.livemask := rfl
@[simp] theorem Ctx.retireTo_pstat (c : Ctx) (time n : Nat) (p : Word) : (c.retireTo time n p).pstat = c.pstat := rfl
@[simp] theorem Ctx.retireTo_pwatch (c : Ctx) (time n : Nat) (p : Word) : (c.retireTo time n p).pwatch = c.pwatch := rfl
@[simp] theorem Ctx.retireTo_macc (c : Ctx) (time n : Nat) (p : Word) : (c.retireTo time n p).macc = c.macc := rfl
@[simp] theorem Ctx.retireTo_ld (c : Ctx) (time n : Nat) (p : Word) : (c.retireTo time n p).ld = c.ld := rfl
@[simp] theorem Ctx.retireTo_st (c : Ctx) (time n : Nat) (p : Word) : (c.retireTo time n p).st = c.st := rfl
@[simp] theorem Ctx.retireTo_cp (c : Ctx) (time n : Nat) (p : Word) : (c.retireTo time n p).cp = c.cp := rfl
@[simp] theorem Ctx.retireTo_mx (c : Ctx) (time n : Nat) (p : Word) : (c.retireTo time n p).mx = c.mx := rfl
@[simp] theorem Ctx.retireTo_reqs (c : Ctx) (time n : Nat) (p : Word) : (c.retireTo time n p).reqs = c.reqs := rfl
@[simp] theorem Ctx.retireTo_seq (c : Ctx) (time n : Nat) (p : Word) : (c.retireTo time n p).seq = c.seq := rfl
@[simp] theorem Ctx.retireTo_jobs (c : Ctx) (time n : Nat) (p : Word) : (c.retireTo time n p).jobs = c.jobs := rfl
@[simp] theorem Ctx.retireTo_late (c : Ctx) (time n : Nat) (p : Word) : (c.retireTo time n p).late = c.late := rfl
@[simp] theorem Ctx.retireTo_grant (c : Ctx) (time n : Nat) (p : Word) : (c.retireTo time n p).grant = c.grant := rfl
@[simp] theorem Ctx.retireTo_fences (c : Ctx) (time n : Nat) (p : Word) : (c.retireTo time n p).fences = c.fences := rfl
@[simp] theorem Ctx.retireTo_endStatus (c : Ctx) (time n : Nat) (p : Word) : (c.retireTo time n p).endStatus = c.endStatus := rfl
@[simp] theorem Ctx.retireTo_stale (c : Ctx) (time n : Nat) (p : Word) : (c.retireTo time n p).stale = c.stale := rfl
@[simp] theorem Ctx.retireTo_hop (c : Ctx) (time n : Nat) (p : Word) : (c.retireTo time n p).hop = c.hop := rfl
@[simp] theorem Ctx.retireTo_killStatus (c : Ctx) (time n : Nat) (p : Word) : (c.retireTo time n p).killStatus = c.killStatus := rfl
@[simp] theorem Ctx.retireTo_served (c : Ctx) (time n : Nat) (p : Word) : (c.retireTo time n p).served = c.served := rfl
@[simp] theorem Ctx.retireTo_under (c : Ctx) (time n : Nat) (p : Word) : (c.retireTo time n p).under = c.under := rfl
@[simp] theorem Ctx.retireTo_dead (c : Ctx) (time n : Nat) (p : Word) : (c.retireTo time n p).dead = c.dead := rfl
@[simp] theorem Ctx.retireTo_held (c : Ctx) (time n : Nat) (p : Word) : (c.retireTo time n p).held = false := rfl
@[simp] theorem Ctx.retireTo_fencing (c : Ctx) (time n : Nat) (p : Word) : (c.retireTo time n p).fencing = false := rfl

@[simp] theorem Ctx.retire_sup (c : Ctx) (time n : Nat) : (c.retire time n).sup = c.sup := rfl
@[simp] theorem Ctx.retire_x (c : Ctx) (time n : Nat) : (c.retire time n).x = c.x := rfl
@[simp] theorem Ctx.retire_v (c : Ctx) (time n : Nat) : (c.retire time n).v = c.v := rfl
@[simp] theorem Ctx.retire_k (c : Ctx) (time n : Nat) : (c.retire time n).k = c.k := rfl
@[simp] theorem Ctx.retire_full (c : Ctx) (time n : Nat) : (c.retire time n).full = c.full := rfl
@[simp] theorem Ctx.retire_qmode (c : Ctx) (time n : Nat) : (c.retire time n).qmode = c.qmode := rfl
@[simp] theorem Ctx.retire_frnd (c : Ctx) (time n : Nat) : (c.retire time n).frnd = c.frnd := rfl
@[simp] theorem Ctx.retire_fstat (c : Ctx) (time n : Nat) : (c.retire time n).fstat = c.fstat := rfl
@[simp] theorem Ctx.retire_livemask (c : Ctx) (time n : Nat) : (c.retire time n).livemask = c.livemask := rfl
@[simp] theorem Ctx.retire_pstat (c : Ctx) (time n : Nat) : (c.retire time n).pstat = c.pstat := rfl
@[simp] theorem Ctx.retire_pwatch (c : Ctx) (time n : Nat) : (c.retire time n).pwatch = c.pwatch := rfl
@[simp] theorem Ctx.retire_macc (c : Ctx) (time n : Nat) : (c.retire time n).macc = c.macc := rfl
@[simp] theorem Ctx.retire_ld (c : Ctx) (time n : Nat) : (c.retire time n).ld = c.ld := rfl
@[simp] theorem Ctx.retire_st (c : Ctx) (time n : Nat) : (c.retire time n).st = c.st := rfl
@[simp] theorem Ctx.retire_cp (c : Ctx) (time n : Nat) : (c.retire time n).cp = c.cp := rfl
@[simp] theorem Ctx.retire_mx (c : Ctx) (time n : Nat) : (c.retire time n).mx = c.mx := rfl
@[simp] theorem Ctx.retire_reqs (c : Ctx) (time n : Nat) : (c.retire time n).reqs = c.reqs := rfl
@[simp] theorem Ctx.retire_seq (c : Ctx) (time n : Nat) : (c.retire time n).seq = c.seq := rfl
@[simp] theorem Ctx.retire_jobs (c : Ctx) (time n : Nat) : (c.retire time n).jobs = c.jobs := rfl
@[simp] theorem Ctx.retire_late (c : Ctx) (time n : Nat) : (c.retire time n).late = c.late := rfl
@[simp] theorem Ctx.retire_grant (c : Ctx) (time n : Nat) : (c.retire time n).grant = c.grant := rfl
@[simp] theorem Ctx.retire_fences (c : Ctx) (time n : Nat) : (c.retire time n).fences = c.fences := rfl
@[simp] theorem Ctx.retire_endStatus (c : Ctx) (time n : Nat) : (c.retire time n).endStatus = c.endStatus := rfl
@[simp] theorem Ctx.retire_stale (c : Ctx) (time n : Nat) : (c.retire time n).stale = c.stale := rfl
@[simp] theorem Ctx.retire_hop (c : Ctx) (time n : Nat) : (c.retire time n).hop = c.hop := rfl
@[simp] theorem Ctx.retire_killStatus (c : Ctx) (time n : Nat) : (c.retire time n).killStatus = c.killStatus := rfl
@[simp] theorem Ctx.retire_served (c : Ctx) (time n : Nat) : (c.retire time n).served = c.served := rfl
@[simp] theorem Ctx.retire_under (c : Ctx) (time n : Nat) : (c.retire time n).under = c.under := rfl
@[simp] theorem Ctx.retire_dead (c : Ctx) (time n : Nat) : (c.retire time n).dead = c.dead := rfl
@[simp] theorem Ctx.retire_held (c : Ctx) (time n : Nat) : (c.retire time n).held = false := rfl
@[simp] theorem Ctx.retire_fencing (c : Ctx) (time n : Nat) : (c.retire time n).fencing = false := rfl

@[simp] theorem Ctx.parkFor_pc (c : Ctx) (time : Nat) (r : Reason) : (c.parkFor time r).pc = c.pc := rfl
@[simp] theorem Ctx.parkFor_monPc (c : Ctx) (time : Nat) (r : Reason) : (c.parkFor time r).monPc = c.monPc := rfl
@[simp] theorem Ctx.parkFor_sup (c : Ctx) (time : Nat) (r : Reason) : (c.parkFor time r).sup = c.sup := rfl
@[simp] theorem Ctx.parkFor_x (c : Ctx) (time : Nat) (r : Reason) : (c.parkFor time r).x = c.x := rfl
@[simp] theorem Ctx.parkFor_v (c : Ctx) (time : Nat) (r : Reason) : (c.parkFor time r).v = c.v := rfl
@[simp] theorem Ctx.parkFor_k (c : Ctx) (time : Nat) (r : Reason) : (c.parkFor time r).k = c.k := rfl
@[simp] theorem Ctx.parkFor_full (c : Ctx) (time : Nat) (r : Reason) : (c.parkFor time r).full = c.full := rfl
@[simp] theorem Ctx.parkFor_qmode (c : Ctx) (time : Nat) (r : Reason) : (c.parkFor time r).qmode = c.qmode := rfl
@[simp] theorem Ctx.parkFor_frnd (c : Ctx) (time : Nat) (r : Reason) : (c.parkFor time r).frnd = c.frnd := rfl
@[simp] theorem Ctx.parkFor_fstat (c : Ctx) (time : Nat) (r : Reason) : (c.parkFor time r).fstat = c.fstat := rfl
@[simp] theorem Ctx.parkFor_livemask (c : Ctx) (time : Nat) (r : Reason) : (c.parkFor time r).livemask = c.livemask := rfl
@[simp] theorem Ctx.parkFor_pstat (c : Ctx) (time : Nat) (r : Reason) : (c.parkFor time r).pstat = c.pstat := rfl
@[simp] theorem Ctx.parkFor_pwatch (c : Ctx) (time : Nat) (r : Reason) : (c.parkFor time r).pwatch = c.pwatch := rfl
@[simp] theorem Ctx.parkFor_macc (c : Ctx) (time : Nat) (r : Reason) : (c.parkFor time r).macc = c.macc := rfl
@[simp] theorem Ctx.parkFor_instret (c : Ctx) (time : Nat) (r : Reason) : (c.parkFor time r).instret = c.instret := rfl
@[simp] theorem Ctx.parkFor_ld (c : Ctx) (time : Nat) (r : Reason) : (c.parkFor time r).ld = c.ld := rfl
@[simp] theorem Ctx.parkFor_st (c : Ctx) (time : Nat) (r : Reason) : (c.parkFor time r).st = c.st := rfl
@[simp] theorem Ctx.parkFor_cp (c : Ctx) (time : Nat) (r : Reason) : (c.parkFor time r).cp = c.cp := rfl
@[simp] theorem Ctx.parkFor_mx (c : Ctx) (time : Nat) (r : Reason) : (c.parkFor time r).mx = c.mx := rfl
@[simp] theorem Ctx.parkFor_busy (c : Ctx) (time : Nat) (r : Reason) : (c.parkFor time r).busy = c.busy := rfl
@[simp] theorem Ctx.parkFor_held (c : Ctx) (time : Nat) (r : Reason) : (c.parkFor time r).held = false := rfl
@[simp] theorem Ctx.parkFor_fencing (c : Ctx) (time : Nat) (r : Reason) : (c.parkFor time r).fencing = false := rfl
@[simp] theorem Ctx.parkFor_reqs (c : Ctx) (time : Nat) (r : Reason) : (c.parkFor time r).reqs = c.reqs := rfl
@[simp] theorem Ctx.parkFor_seq (c : Ctx) (time : Nat) (r : Reason) : (c.parkFor time r).seq = c.seq := rfl
@[simp] theorem Ctx.parkFor_num (c : Ctx) (time : Nat) (r : Reason) : (c.parkFor time r).num = c.num := rfl
@[simp] theorem Ctx.parkFor_jobs (c : Ctx) (time : Nat) (r : Reason) : (c.parkFor time r).jobs = c.jobs := rfl
@[simp] theorem Ctx.parkFor_late (c : Ctx) (time : Nat) (r : Reason) : (c.parkFor time r).late = c.late := rfl
@[simp] theorem Ctx.parkFor_grant (c : Ctx) (time : Nat) (r : Reason) : (c.parkFor time r).grant = c.grant := rfl
@[simp] theorem Ctx.parkFor_fences (c : Ctx) (time : Nat) (r : Reason) : (c.parkFor time r).fences = c.fences := rfl
@[simp] theorem Ctx.parkFor_endStatus (c : Ctx) (time : Nat) (r : Reason) : (c.parkFor time r).endStatus = c.endStatus := rfl
@[simp] theorem Ctx.parkFor_stale (c : Ctx) (time : Nat) (r : Reason) : (c.parkFor time r).stale = c.stale := rfl
@[simp] theorem Ctx.parkFor_hop (c : Ctx) (time : Nat) (r : Reason) : (c.parkFor time r).hop = c.hop := rfl
@[simp] theorem Ctx.parkFor_killStatus (c : Ctx) (time : Nat) (r : Reason) : (c.parkFor time r).killStatus = c.killStatus := rfl
@[simp] theorem Ctx.parkFor_served (c : Ctx) (time : Nat) (r : Reason) : (c.parkFor time r).served = c.served := rfl
@[simp] theorem Ctx.parkFor_under (c : Ctx) (time : Nat) (r : Reason) : (c.parkFor time r).under = c.under := rfl
@[simp] theorem Ctx.parkFor_dead (c : Ctx) (time : Nat) (r : Reason) : (c.parkFor time r).dead = c.dead := rfl

@[simp] theorem Ctx.writeDst_pc (c : Ctx) (d : Dst) (v : Word) : (c.writeDst d v).pc = c.pc := by unfold Ctx.writeDst; split <;> (try split) <;> simp
@[simp] theorem Ctx.writeDst_monPc (c : Ctx) (d : Dst) (v : Word) : (c.writeDst d v).monPc = c.monPc := by unfold Ctx.writeDst; split <;> (try split) <;> simp
@[simp] theorem Ctx.writeDst_sup (c : Ctx) (d : Dst) (v : Word) : (c.writeDst d v).sup = c.sup := by unfold Ctx.writeDst; split <;> (try split) <;> simp
@[simp] theorem Ctx.writeDst_v (c : Ctx) (d : Dst) (v : Word) : (c.writeDst d v).v = c.v := by unfold Ctx.writeDst; split <;> (try split) <;> simp
@[simp] theorem Ctx.writeDst_k (c : Ctx) (d : Dst) (v : Word) : (c.writeDst d v).k = c.k := by unfold Ctx.writeDst; split <;> (try split) <;> simp
@[simp] theorem Ctx.writeDst_qmode (c : Ctx) (d : Dst) (v : Word) : (c.writeDst d v).qmode = c.qmode := by unfold Ctx.writeDst; split <;> (try split) <;> simp
@[simp] theorem Ctx.writeDst_frnd (c : Ctx) (d : Dst) (v : Word) : (c.writeDst d v).frnd = c.frnd := by unfold Ctx.writeDst; split <;> (try split) <;> simp
@[simp] theorem Ctx.writeDst_fstat (c : Ctx) (d : Dst) (v : Word) : (c.writeDst d v).fstat = c.fstat := by unfold Ctx.writeDst; split <;> (try split) <;> simp
@[simp] theorem Ctx.writeDst_livemask (c : Ctx) (d : Dst) (v : Word) : (c.writeDst d v).livemask = c.livemask := by unfold Ctx.writeDst; split <;> (try split) <;> simp
@[simp] theorem Ctx.writeDst_pstat (c : Ctx) (d : Dst) (v : Word) : (c.writeDst d v).pstat = c.pstat := by unfold Ctx.writeDst; split <;> (try split) <;> simp
@[simp] theorem Ctx.writeDst_pwatch (c : Ctx) (d : Dst) (v : Word) : (c.writeDst d v).pwatch = c.pwatch := by unfold Ctx.writeDst; split <;> (try split) <;> simp
@[simp] theorem Ctx.writeDst_macc (c : Ctx) (d : Dst) (v : Word) : (c.writeDst d v).macc = c.macc := by unfold Ctx.writeDst; split <;> (try split) <;> simp
@[simp] theorem Ctx.writeDst_instret (c : Ctx) (d : Dst) (v : Word) : (c.writeDst d v).instret = c.instret := by unfold Ctx.writeDst; split <;> (try split) <;> simp
@[simp] theorem Ctx.writeDst_ld (c : Ctx) (d : Dst) (v : Word) : (c.writeDst d v).ld = c.ld := by unfold Ctx.writeDst; split <;> (try split) <;> simp
@[simp] theorem Ctx.writeDst_st (c : Ctx) (d : Dst) (v : Word) : (c.writeDst d v).st = c.st := by unfold Ctx.writeDst; split <;> (try split) <;> simp
@[simp] theorem Ctx.writeDst_cp (c : Ctx) (d : Dst) (v : Word) : (c.writeDst d v).cp = c.cp := by unfold Ctx.writeDst; split <;> (try split) <;> simp
@[simp] theorem Ctx.writeDst_mx (c : Ctx) (d : Dst) (v : Word) : (c.writeDst d v).mx = c.mx := by unfold Ctx.writeDst; split <;> (try split) <;> simp
@[simp] theorem Ctx.writeDst_state (c : Ctx) (d : Dst) (v : Word) : (c.writeDst d v).state = c.state := by unfold Ctx.writeDst; split <;> (try split) <;> simp
@[simp] theorem Ctx.writeDst_park (c : Ctx) (d : Dst) (v : Word) : (c.writeDst d v).park = c.park := by unfold Ctx.writeDst; split <;> (try split) <;> simp
@[simp] theorem Ctx.writeDst_woken (c : Ctx) (d : Dst) (v : Word) : (c.writeDst d v).woken = c.woken := by unfold Ctx.writeDst; split <;> (try split) <;> simp
@[simp] theorem Ctx.writeDst_busy (c : Ctx) (d : Dst) (v : Word) : (c.writeDst d v).busy = c.busy := by unfold Ctx.writeDst; split <;> (try split) <;> simp
@[simp] theorem Ctx.writeDst_held (c : Ctx) (d : Dst) (v : Word) : (c.writeDst d v).held = c.held := by unfold Ctx.writeDst; split <;> (try split) <;> simp
@[simp] theorem Ctx.writeDst_fencing (c : Ctx) (d : Dst) (v : Word) : (c.writeDst d v).fencing = c.fencing := by unfold Ctx.writeDst; split <;> (try split) <;> simp
@[simp] theorem Ctx.writeDst_reqs (c : Ctx) (d : Dst) (v : Word) : (c.writeDst d v).reqs = c.reqs := by unfold Ctx.writeDst; split <;> (try split) <;> simp
@[simp] theorem Ctx.writeDst_seq (c : Ctx) (d : Dst) (v : Word) : (c.writeDst d v).seq = c.seq := by unfold Ctx.writeDst; split <;> (try split) <;> simp
@[simp] theorem Ctx.writeDst_num (c : Ctx) (d : Dst) (v : Word) : (c.writeDst d v).num = c.num := by unfold Ctx.writeDst; split <;> (try split) <;> simp
@[simp] theorem Ctx.writeDst_jobs (c : Ctx) (d : Dst) (v : Word) : (c.writeDst d v).jobs = c.jobs := by unfold Ctx.writeDst; split <;> (try split) <;> simp
@[simp] theorem Ctx.writeDst_late (c : Ctx) (d : Dst) (v : Word) : (c.writeDst d v).late = c.late := by unfold Ctx.writeDst; split <;> (try split) <;> simp
@[simp] theorem Ctx.writeDst_grant (c : Ctx) (d : Dst) (v : Word) : (c.writeDst d v).grant = c.grant := by unfold Ctx.writeDst; split <;> (try split) <;> simp
@[simp] theorem Ctx.writeDst_fences (c : Ctx) (d : Dst) (v : Word) : (c.writeDst d v).fences = c.fences := by unfold Ctx.writeDst; split <;> (try split) <;> simp
@[simp] theorem Ctx.writeDst_endStatus (c : Ctx) (d : Dst) (v : Word) : (c.writeDst d v).endStatus = c.endStatus := by unfold Ctx.writeDst; split <;> (try split) <;> simp
@[simp] theorem Ctx.writeDst_stale (c : Ctx) (d : Dst) (v : Word) : (c.writeDst d v).stale = c.stale := by unfold Ctx.writeDst; split <;> (try split) <;> simp
@[simp] theorem Ctx.writeDst_hop (c : Ctx) (d : Dst) (v : Word) : (c.writeDst d v).hop = c.hop := by unfold Ctx.writeDst; split <;> (try split) <;> simp
@[simp] theorem Ctx.writeDst_killStatus (c : Ctx) (d : Dst) (v : Word) : (c.writeDst d v).killStatus = c.killStatus := by unfold Ctx.writeDst; split <;> (try split) <;> simp
@[simp] theorem Ctx.writeDst_served (c : Ctx) (d : Dst) (v : Word) : (c.writeDst d v).served = c.served := by unfold Ctx.writeDst; split <;> (try split) <;> simp
@[simp] theorem Ctx.writeDst_under (c : Ctx) (d : Dst) (v : Word) : (c.writeDst d v).under = c.under := by unfold Ctx.writeDst; split <;> (try split) <;> simp
@[simp] theorem Ctx.writeDst_dead (c : Ctx) (d : Dst) (v : Word) : (c.writeDst d v).dead = c.dead := by unfold Ctx.writeDst; split <;> (try split) <;> simp

theorem Ctx.consume_cons (c : Ctx) (r : BitVec 5) (rs : List (BitVec 5)) :
    c.consume (r :: rs) = (if c.isSync r then c.setFull r false else c).consume rs := rfl

@[simp] theorem Ctx.consume_nil (c : Ctx) : c.consume [] = c := rfl

@[simp] theorem Ctx.consume_pc (c : Ctx) (rs : List (BitVec 5)) : (c.consume rs).pc = c.pc := by
  induction rs generalizing c with
  | nil => rfl
  | cons r rs ih => rw [Ctx.consume_cons, ih]; split <;> simp
@[simp] theorem Ctx.consume_monPc (c : Ctx) (rs : List (BitVec 5)) : (c.consume rs).monPc = c.monPc := by
  induction rs generalizing c with
  | nil => rfl
  | cons r rs ih => rw [Ctx.consume_cons, ih]; split <;> simp
@[simp] theorem Ctx.consume_sup (c : Ctx) (rs : List (BitVec 5)) : (c.consume rs).sup = c.sup := by
  induction rs generalizing c with
  | nil => rfl
  | cons r rs ih => rw [Ctx.consume_cons, ih]; split <;> simp
@[simp] theorem Ctx.consume_x (c : Ctx) (rs : List (BitVec 5)) : (c.consume rs).x = c.x := by
  induction rs generalizing c with
  | nil => rfl
  | cons r rs ih => rw [Ctx.consume_cons, ih]; split <;> simp
@[simp] theorem Ctx.consume_v (c : Ctx) (rs : List (BitVec 5)) : (c.consume rs).v = c.v := by
  induction rs generalizing c with
  | nil => rfl
  | cons r rs ih => rw [Ctx.consume_cons, ih]; split <;> simp
@[simp] theorem Ctx.consume_k (c : Ctx) (rs : List (BitVec 5)) : (c.consume rs).k = c.k := by
  induction rs generalizing c with
  | nil => rfl
  | cons r rs ih => rw [Ctx.consume_cons, ih]; split <;> simp
@[simp] theorem Ctx.consume_qmode (c : Ctx) (rs : List (BitVec 5)) : (c.consume rs).qmode = c.qmode := by
  induction rs generalizing c with
  | nil => rfl
  | cons r rs ih => rw [Ctx.consume_cons, ih]; split <;> simp
@[simp] theorem Ctx.consume_frnd (c : Ctx) (rs : List (BitVec 5)) : (c.consume rs).frnd = c.frnd := by
  induction rs generalizing c with
  | nil => rfl
  | cons r rs ih => rw [Ctx.consume_cons, ih]; split <;> simp
@[simp] theorem Ctx.consume_fstat (c : Ctx) (rs : List (BitVec 5)) : (c.consume rs).fstat = c.fstat := by
  induction rs generalizing c with
  | nil => rfl
  | cons r rs ih => rw [Ctx.consume_cons, ih]; split <;> simp
@[simp] theorem Ctx.consume_livemask (c : Ctx) (rs : List (BitVec 5)) : (c.consume rs).livemask = c.livemask := by
  induction rs generalizing c with
  | nil => rfl
  | cons r rs ih => rw [Ctx.consume_cons, ih]; split <;> simp
@[simp] theorem Ctx.consume_pstat (c : Ctx) (rs : List (BitVec 5)) : (c.consume rs).pstat = c.pstat := by
  induction rs generalizing c with
  | nil => rfl
  | cons r rs ih => rw [Ctx.consume_cons, ih]; split <;> simp
@[simp] theorem Ctx.consume_pwatch (c : Ctx) (rs : List (BitVec 5)) : (c.consume rs).pwatch = c.pwatch := by
  induction rs generalizing c with
  | nil => rfl
  | cons r rs ih => rw [Ctx.consume_cons, ih]; split <;> simp
@[simp] theorem Ctx.consume_macc (c : Ctx) (rs : List (BitVec 5)) : (c.consume rs).macc = c.macc := by
  induction rs generalizing c with
  | nil => rfl
  | cons r rs ih => rw [Ctx.consume_cons, ih]; split <;> simp
@[simp] theorem Ctx.consume_instret (c : Ctx) (rs : List (BitVec 5)) : (c.consume rs).instret = c.instret := by
  induction rs generalizing c with
  | nil => rfl
  | cons r rs ih => rw [Ctx.consume_cons, ih]; split <;> simp
@[simp] theorem Ctx.consume_ld (c : Ctx) (rs : List (BitVec 5)) : (c.consume rs).ld = c.ld := by
  induction rs generalizing c with
  | nil => rfl
  | cons r rs ih => rw [Ctx.consume_cons, ih]; split <;> simp
@[simp] theorem Ctx.consume_st (c : Ctx) (rs : List (BitVec 5)) : (c.consume rs).st = c.st := by
  induction rs generalizing c with
  | nil => rfl
  | cons r rs ih => rw [Ctx.consume_cons, ih]; split <;> simp
@[simp] theorem Ctx.consume_cp (c : Ctx) (rs : List (BitVec 5)) : (c.consume rs).cp = c.cp := by
  induction rs generalizing c with
  | nil => rfl
  | cons r rs ih => rw [Ctx.consume_cons, ih]; split <;> simp
@[simp] theorem Ctx.consume_mx (c : Ctx) (rs : List (BitVec 5)) : (c.consume rs).mx = c.mx := by
  induction rs generalizing c with
  | nil => rfl
  | cons r rs ih => rw [Ctx.consume_cons, ih]; split <;> simp
@[simp] theorem Ctx.consume_state (c : Ctx) (rs : List (BitVec 5)) : (c.consume rs).state = c.state := by
  induction rs generalizing c with
  | nil => rfl
  | cons r rs ih => rw [Ctx.consume_cons, ih]; split <;> simp
@[simp] theorem Ctx.consume_park (c : Ctx) (rs : List (BitVec 5)) : (c.consume rs).park = c.park := by
  induction rs generalizing c with
  | nil => rfl
  | cons r rs ih => rw [Ctx.consume_cons, ih]; split <;> simp
@[simp] theorem Ctx.consume_woken (c : Ctx) (rs : List (BitVec 5)) : (c.consume rs).woken = c.woken := by
  induction rs generalizing c with
  | nil => rfl
  | cons r rs ih => rw [Ctx.consume_cons, ih]; split <;> simp
@[simp] theorem Ctx.consume_busy (c : Ctx) (rs : List (BitVec 5)) : (c.consume rs).busy = c.busy := by
  induction rs generalizing c with
  | nil => rfl
  | cons r rs ih => rw [Ctx.consume_cons, ih]; split <;> simp
@[simp] theorem Ctx.consume_held (c : Ctx) (rs : List (BitVec 5)) : (c.consume rs).held = c.held := by
  induction rs generalizing c with
  | nil => rfl
  | cons r rs ih => rw [Ctx.consume_cons, ih]; split <;> simp
@[simp] theorem Ctx.consume_fencing (c : Ctx) (rs : List (BitVec 5)) : (c.consume rs).fencing = c.fencing := by
  induction rs generalizing c with
  | nil => rfl
  | cons r rs ih => rw [Ctx.consume_cons, ih]; split <;> simp
@[simp] theorem Ctx.consume_reqs (c : Ctx) (rs : List (BitVec 5)) : (c.consume rs).reqs = c.reqs := by
  induction rs generalizing c with
  | nil => rfl
  | cons r rs ih => rw [Ctx.consume_cons, ih]; split <;> simp
@[simp] theorem Ctx.consume_seq (c : Ctx) (rs : List (BitVec 5)) : (c.consume rs).seq = c.seq := by
  induction rs generalizing c with
  | nil => rfl
  | cons r rs ih => rw [Ctx.consume_cons, ih]; split <;> simp
@[simp] theorem Ctx.consume_num (c : Ctx) (rs : List (BitVec 5)) : (c.consume rs).num = c.num := by
  induction rs generalizing c with
  | nil => rfl
  | cons r rs ih => rw [Ctx.consume_cons, ih]; split <;> simp
@[simp] theorem Ctx.consume_jobs (c : Ctx) (rs : List (BitVec 5)) : (c.consume rs).jobs = c.jobs := by
  induction rs generalizing c with
  | nil => rfl
  | cons r rs ih => rw [Ctx.consume_cons, ih]; split <;> simp
@[simp] theorem Ctx.consume_late (c : Ctx) (rs : List (BitVec 5)) : (c.consume rs).late = c.late := by
  induction rs generalizing c with
  | nil => rfl
  | cons r rs ih => rw [Ctx.consume_cons, ih]; split <;> simp
@[simp] theorem Ctx.consume_grant (c : Ctx) (rs : List (BitVec 5)) : (c.consume rs).grant = c.grant := by
  induction rs generalizing c with
  | nil => rfl
  | cons r rs ih => rw [Ctx.consume_cons, ih]; split <;> simp
@[simp] theorem Ctx.consume_fences (c : Ctx) (rs : List (BitVec 5)) : (c.consume rs).fences = c.fences := by
  induction rs generalizing c with
  | nil => rfl
  | cons r rs ih => rw [Ctx.consume_cons, ih]; split <;> simp
@[simp] theorem Ctx.consume_endStatus (c : Ctx) (rs : List (BitVec 5)) : (c.consume rs).endStatus = c.endStatus := by
  induction rs generalizing c with
  | nil => rfl
  | cons r rs ih => rw [Ctx.consume_cons, ih]; split <;> simp
@[simp] theorem Ctx.consume_stale (c : Ctx) (rs : List (BitVec 5)) : (c.consume rs).stale = c.stale := by
  induction rs generalizing c with
  | nil => rfl
  | cons r rs ih => rw [Ctx.consume_cons, ih]; split <;> simp
@[simp] theorem Ctx.consume_hop (c : Ctx) (rs : List (BitVec 5)) : (c.consume rs).hop = c.hop := by
  induction rs generalizing c with
  | nil => rfl
  | cons r rs ih => rw [Ctx.consume_cons, ih]; split <;> simp
@[simp] theorem Ctx.consume_killStatus (c : Ctx) (rs : List (BitVec 5)) : (c.consume rs).killStatus = c.killStatus := by
  induction rs generalizing c with
  | nil => rfl
  | cons r rs ih => rw [Ctx.consume_cons, ih]; split <;> simp
@[simp] theorem Ctx.consume_served (c : Ctx) (rs : List (BitVec 5)) : (c.consume rs).served = c.served := by
  induction rs generalizing c with
  | nil => rfl
  | cons r rs ih => rw [Ctx.consume_cons, ih]; split <;> simp
@[simp] theorem Ctx.consume_under (c : Ctx) (rs : List (BitVec 5)) : (c.consume rs).under = c.under := by
  induction rs generalizing c with
  | nil => rfl
  | cons r rs ih => rw [Ctx.consume_cons, ih]; split <;> simp
@[simp] theorem Ctx.consume_dead (c : Ctx) (rs : List (BitVec 5)) : (c.consume rs).dead = c.dead := by
  induction rs generalizing c with
  | nil => rfl
  | cons r rs ih => rw [Ctx.consume_cons, ih]; split <;> simp

end Sys2Proof.Machine
end

