-- ==== Sys2Proof/Laws/Regs.lean ====
section
/-! SUPPORT. Registers after a write, the register gate, and what a plain register instruction does. -/

namespace Sys2Proof.Machine

theorem getX_congr {c d : Ctx} (h : c.x = d.x) (r : BitVec 5) : c.getX r = d.getX r := by unfold Ctx.getX; rw [h]
theorem getV_congr {c d : Ctx} (h : c.v = d.v) (r : BitVec 4) : c.getV r = d.getV r := by unfold Ctx.getV; rw [h]
theorem getK_congr {c d : Ctx} (h : c.k = d.k) (r : BitVec 3) : c.getK r = d.getK r := by unfold Ctx.getK; rw [h]

/-- x0 reads 0 in every context (R26). -/
@[simp] theorem Ctx.getX_zero (c : Ctx) : c.getX 0 = 0 := rfl
/-- k0 reads all ones in every context (R26). -/
@[simp] theorem Ctx.getK_zero (c : Ctx) : c.getK 0 = -1 := rfl

/-- A write to a register other than x0 reads back. -/
theorem Ctx.getX_putX_same (c : Ctx) {r : BitVec 5} (h : r ≠ 0) (v : Word) : (c.putX r v).getX r = v := by
  unfold Ctx.putX; rw [if_neg h]; unfold Ctx.getX; rw [if_neg h]; exact Assoc.get_set_same 0 _ v c.x

/-- A write to x0 is discarded (R26). -/
@[simp] theorem Ctx.putX_zero (c : Ctx) (v : Word) : c.putX 0 v = c := rfl

theorem Ctx.getX_putX_other (c : Ctx) {r q : BitVec 5} (h : q ≠ r) (v : Word) : (c.putX r v).getX q = c.getX q := by
  unfold Ctx.putX
  split
  · rfl
  · unfold Ctx.getX
    split
    · rfl
    · exact Assoc.get_set_other 0 (fun e => h (BitVec.eq_of_toNat_eq e)) v c.x

@[simp] theorem Ctx.getX_setFull (c : Ctx) (r q : BitVec 5) (b : Bool) : (c.setFull r b).getX q = c.getX q :=
  getX_congr (Ctx.setFull_x c r b) q

@[simp] theorem Ctx.getX_consume (c : Ctx) (rs : List (BitVec 5)) (q : BitVec 5) : (c.consume rs).getX q = c.getX q :=
  getX_congr (Ctx.consume_x c rs) q

/-- x[r] after a write to it: the value, or 0 for x0 (R26, R47). -/
theorem Ctx.getX_setX_same (c : Ctx) (r : BitVec 5) (v : Word) : (c.setX r v).getX r = if r = 0 then 0 else v := by
  unfold Ctx.setX
  by_cases h : r = 0
  · subst h; rw [if_pos rfl]; split <;> rfl
  · rw [if_neg h]; split <;> simp only [Ctx.getX_setFull, Ctx.getX_putX_same c h]

theorem Ctx.getX_setX_other (c : Ctx) {r q : BitVec 5} (h : q ≠ r) (v : Word) : (c.setX r v).getX q = c.getX q := by
  unfold Ctx.setX
  split <;> simp only [Ctx.getX_setFull, Ctx.getX_putX_other c h]

theorem Ctx.getV_setV_same (c : Ctx) (r : BitVec 4) (v : VecBits) : (c.setV r v).getV r = v := by
  simp [Ctx.getV, Ctx.setV]

theorem Ctx.getV_setV_other (c : Ctx) {r q : BitVec 4} (h : q ≠ r) (v : VecBits) : (c.setV r v).getV q = c.getV q :=
  Assoc.get_set_other 0 (fun e => h (BitVec.eq_of_toNat_eq e)) v c.v

/-- k[r] after a write to it: the value, or all ones for k0 (R26). -/
theorem Ctx.getK_setK_same (c : Ctx) (r : BitVec 3) (v : Word) : (c.setK r v).getK r = if r = 0 then -1 else v := by
  unfold Ctx.setK
  by_cases h : r = 0
  · subst h; rfl
  · rw [if_neg h, if_neg h]; unfold Ctx.getK; rw [if_neg h]; exact Assoc.get_set_same 0 _ v c.k

theorem Ctx.getK_setK_other (c : Ctx) {r q : BitVec 3} (h : q ≠ r) (v : Word) : (c.setK r v).getK q = c.getK q := by
  unfold Ctx.setK
  split
  · rfl
  · unfold Ctx.getK
    split
    · rfl
    · exact Assoc.get_set_other 0 (fun e => h (BitVec.eq_of_toNat_eq e)) v c.k

@[simp] theorem Ctx.getX_retire (c : Ctx) (t n : Nat) (q : BitVec 5) : (c.retire t n).getX q = c.getX q := rfl
@[simp] theorem Ctx.getV_retire (c : Ctx) (t n : Nat) (q : BitVec 4) : (c.retire t n).getV q = c.getV q := rfl
@[simp] theorem Ctx.getK_retire (c : Ctx) (t n : Nat) (q : BitVec 3) : (c.retire t n).getK q = c.getK q := rfl

/-- The PC after an instruction that goes on to the next one. -/
@[simp] theorem Ctx.pcNow_retire (c : Ctx) (t n : Nat) : (c.retire t n).pcNow = c.pcNow + 4 := by
  simp only [Ctx.retire, Ctx.retireTo, Ctx.pcNow]; split <;> rfl

@[simp] theorem Ctx.pcNow_retireTo (c : Ctx) (t n : Nat) (p : Word) : (c.retireTo t n p).pcNow = p := by
  simp only [Ctx.retireTo, Ctx.pcNow]; split <;> rfl

end Sys2Proof.Machine
end

