-- ==== Sys2Proof/Laws/Frames.lean ====
section
/-! SUPPORT. What the shared operations of instructions leave as it was: a context's registers, its channels, the rest of
the package and memory. -/

namespace Sys2Proof.Machine

/-! ### Channels -/

theorem chanBit_getLsbD {r q : BitVec 5} (h : 24 ≤ r.toNat) (g : 24 ≤ q.toNat) :
    (chanBit r).getLsbD (q.toNat - 24) = decide (q = r) := by
  unfold chanBit
  have hq := q.isLt
  have hr := r.isLt
  rw [BitVec.getLsbD_shiftLeft]
  by_cases e : q = r
  · subst e
    simp
    omega
  · have : q.toNat ≠ r.toNat := fun e' => e (BitVec.eq_of_toNat_eq e')
    simp only [BitVec.getLsbD_one, e, decide_false]
    have h2 : ¬ (q.toNat - 24 - (r.toNat - 24) = 0 ∧ ¬ q.toNat - 24 < r.toNat - 24) := by omega
    by_cases h3 : q.toNat - 24 < r.toNat - 24
    · simp [h3]
    · have : q.toNat - 24 - (r.toNat - 24) ≠ 0 := fun e => h2 ⟨e, h3⟩
      simp [this]

theorem Ctx.isFull_congr {c d : Ctx} (h : c.full = d.full) (r : BitVec 5) : c.isFull r = d.isFull r := by
  unfold Ctx.isFull; rw [h]

theorem Ctx.isSync_congr {c d : Ctx} (h : c.qmode = d.qmode) (r : BitVec 5) : c.isSync r = d.isSync r := by
  unfold Ctx.isSync; rw [h]

@[simp] theorem Ctx.isSync_setFull (c : Ctx) (r q : BitVec 5) (b : Bool) : (c.setFull r b).isSync q = c.isSync q :=
  Ctx.isSync_congr (Ctx.setFull_qmode c r b) q

@[simp] theorem Ctx.isSync_consume (c : Ctx) (rs : List (BitVec 5)) (q : BitVec 5) : (c.consume rs).isSync q = c.isSync q :=
  Ctx.isSync_congr (Ctx.consume_qmode c rs) q

theorem Ctx.isSync_chan {c : Ctx} {r : BitVec 5} (h : c.isSync r = true) : 24 ≤ r.toNat := by
  unfold Ctx.isSync at h
  simp at h
  exact h.1

/-- The full bit of a channel register after a full bit has been set or cleared. -/
theorem Ctx.isFull_setFull (c : Ctx) {r : BitVec 5} (h : 24 ≤ r.toNat) (b : Bool) (q : BitVec 5) :
    (c.setFull r b).isFull q = if q = r then b else c.isFull q := by
  unfold Ctx.setFull
  rw [if_neg (by omega)]
  unfold Ctx.isFull
  by_cases g : 24 ≤ q.toNat
  · cases b
    · simp only [Bool.false_eq_true, if_false, BitVec.getLsbD_and, BitVec.getLsbD_not, chanBit_getLsbD h g]
      have := q.isLt
      have : q.toNat - 24 < 8 := by omega
      by_cases e : q = r <;> simp [e, this]
    · simp only [if_true, BitVec.getLsbD_or, chanBit_getLsbD h g]
      by_cases e : q = r
      · subst e; simp [g]
      · simp [e]
  · have e : q ≠ r := fun e => g (e ▸ h)
    simp [e, g]

/-- The full bits after sources are consumed: each synchronised one is empty (R113). -/
theorem Ctx.isFull_consume (rs : List (BitVec 5)) (c : Ctx) (q : BitVec 5) :
    (c.consume rs).isFull q = if c.isSync q ∧ q ∈ rs then false else c.isFull q := by
  induction rs generalizing c with
  | nil => simp [Ctx.consume]
  | cons r rs ih =>
    have step : c.consume (r :: rs) = (if c.isSync r then c.setFull r false else c).consume rs := rfl
    rw [step, ih]
    by_cases h : c.isSync r = true
    · rw [if_pos h, Ctx.isSync_setFull, Ctx.isFull_setFull c (Ctx.isSync_chan h)]
      by_cases e : q = r
      · subst e; simp [h]
      · simp [e]
    · rw [if_neg h]
      by_cases e : q = r
      · subst e; simp [h]
      · simp [e]

/-- The full bits after a register is written: a synchronised one is full (R114). -/
theorem Ctx.isFull_setX (c : Ctx) (r q : BitVec 5) (v : Word) :
    (c.setX r v).isFull q = if c.isSync q ∧ q = r then true else c.isFull q := by
  have hp : ∀ (c : Ctx), (c.putX r v).isFull q = c.isFull q := fun c => Ctx.isFull_congr (by unfold Ctx.putX; split <;> rfl) q
  unfold Ctx.setX
  by_cases h : c.isSync r = true
  · rw [if_pos h, Ctx.isFull_setFull _ (Ctx.isSync_chan h), hp]
    by_cases e : q = r
    · subst e; simp [h]
    · simp [e]
  · rw [if_neg h, hp]
    by_cases e : q = r
    · subst e; simp [h]
    · simp [e]

/-- Consuming sources changes full bits alone. -/
theorem Ctx.consume_eq (c : Ctx) (rs : List (BitVec 5)) : c.consume rs = { c with full := (c.consume rs).full } := by
  induction rs generalizing c with
  | nil => rfl
  | cons r rs ih =>
    have step : c.consume (r :: rs) = (if c.isSync r then c.setFull r false else c).consume rs := rfl
    rw [step, ih]
    split
    · unfold Ctx.setFull; split <;> rfl
    · rfl

/-- Writing a register changes x and the full bits alone. -/
theorem Ctx.setX_eq (c : Ctx) (r : BitVec 5) (v : Word) :
    c.setX r v = { c with x := (c.setX r v).x, full := (c.setX r v).full } := by
  unfold Ctx.setX Ctx.setFull Ctx.putX
  repeat' split
  all_goals rfl

/-- Sources consumed and a destination written: x and the full bits alone differ. -/
theorem Ctx.setX_consume_eq (c : Ctx) (rs : List (BitVec 5)) (r : BitVec 5) (v : Word) :
    (c.consume rs).setX r v = { c with x := ((c.consume rs).setX r v).x, full := ((c.consume rs).setX r v).full } := by
  have h := Ctx.setX_eq (c.consume rs) r v
  have g : ∀ (k : Ctx) (f : BitVec 8) (x : Assoc Word) (f' : BitVec 8), k = { c with full := f } →
      { k with x := x, full := f' } = { c with x := x, full := f' } := by
    intro k f x f' e; rw [e]
  rw [g _ _ _ _ (Ctx.consume_eq c rs)] at h
  exact h

/-! ### The rest of the package -/

/-- A tile's own fields are not its contexts. -/
theorem State.tile_setMe_rest (s : State) (c : Ctx) (t : TileNo) :
    (s.setMe c).tile t = { s.tile t with ctxs := ((s.setMe c).tile t).ctxs } := by
  by_cases e : t = s.cur.1
  · subst e
    unfold State.setMe
    rw [State.tile_setCtx]
    rfl
  · unfold State.setMe
    rw [State.tile_setCtx_other s e]

/-- Replacing the executing context leaves every byte of memory as it was. -/
theorem sameMemory_setMe (s : State) (c : Ctx) : SameMemory s (s.setMe c) := by
  intro p hp
  have h := State.tile_setMe_rest s c
  cases p with
  | ls t o => simp only [State.readPlace]; rw [h t]
  | istore t o => simp only [State.readPlace]; rw [h t]
  | history t o => simp only [State.readPlace]; rw [h t]
  | pick t o => simp only [State.readPlace]; rw [h t]
  | acc t o => simp only [State.readPlace]; rw [h t]
  | heddle t o => simp only [State.readPlace, Tile.heddleWord]; rw [h t]
  | main l => rfl
  | flag o => rfl
  | window t o => simp [Place.data] at hp
  | control t o => simp [Place.data] at hp

theorem onlyMe_setMe (s : State) (c : Ctx) : OnlyMe s (s.setMe c) :=
  ⟨by rw [State.me_setMe], sameMemory_setMe s c⟩

theorem onlyMe_done (s : State) (n : Nat) (c : Ctx) : OnlyMe s (s.done n c) := onlyMe_setMe s _

/-! ### Retiring -/

/-- An instruction that ends in the executing context alone retires, when its context has the sources consumed and the
destination written and is otherwise `k'`. -/
theorem retires_of {s : State} {k k' : Ctx} {xs : List (BitVec 5)} {xd : BitVec 5} {v pc : Word} {n : Nat}
    (hx : k.x = ((s.me.consume xs).setX xd v).x) (hf : k.full = ((s.me.consume xs).setX xd v).full)
    (ho : k = { k' with x := k.x, full := k.full, pc := s.me.pc, monPc := s.me.monPc, sup := s.me.sup, instret := s.me.instret, num := s.me.num })
    (hs : k'.sup = s.me.sup) :
    Retires s (s.setMe (k.retireTo s.time n pc)) xs [xd] n pc k' := by
  have hsup : k.sup = s.me.sup := by rw [ho]
  have hpc : k.pc = s.me.pc := by rw [ho]
  refine ⟨?_, ?_, ?_, ?_, ?_⟩
  · rw [State.me_setMe, Ctx.pcNow_retireTo]
  · intro h
    rw [State.me_setMe]
    show (if k.sup then k.pc else pc) = s.me.pc
    rw [hsup, if_pos h, hpc]
  · intro r hr
    rw [State.me_setMe]
    have h1 : (k.retireTo s.time n pc).getX r = ((s.me.consume xs).setX xd v).getX r := getX_congr hx r
    rw [h1, Ctx.getX_setX_other _ (by simpa using hr), Ctx.getX_consume]
  · intro r
    rw [State.me_setMe]
    have h1 : (k.retireTo s.time n pc).isFull r = ((s.me.consume xs).setX xd v).isFull r := Ctx.isFull_congr hf r
    rw [h1, Ctx.isFull_setX, Ctx.isSync_consume, Ctx.isFull_consume]
    simp
  · rw [State.me_setMe]
    rw [ho]
    simp [Ctx.retireTo, hs]

/-- A plain instruction computes. -/
theorem computes_of {s : State} {k k' : Ctx} {xs : List (BitVec 5)} {xd : BitVec 5} {v pc : Word} {n : Nat}
    (hx : k.x = ((s.me.consume xs).setX xd v).x) (hf : k.full = ((s.me.consume xs).setX xd v).full)
    (ho : k = { k' with x := k.x, full := k.full, pc := s.me.pc, monPc := s.me.monPc, sup := s.me.sup, instret := s.me.instret, num := s.me.num })
    (hs : k'.sup = s.me.sup) :
    Computes s (s.setMe (k.retireTo s.time n pc)) xs xd n pc v k' := by
  refine ⟨?_, retires_of hx hf ho hs, onlyMe_setMe s _⟩
  rw [State.me_setMe]
  have h1 : (k.retireTo s.time n pc).getX xd = ((s.me.consume xs).setX xd v).getX xd := getX_congr hx xd
  rw [h1, Ctx.getX_setX_same]

/-- What a register instruction whose registers are free does: it computes. -/
theorem State.regOp_computes {s : State} {xs : List (BitVec 5)} {xd : BitVec 5} (h : s.me.gate (Uses.x xs [xd]) = .go)
    (n : Nat) (f : Ctx → Word) : Computes s (s.regOp xs xd n f) xs xd n (s.me.pcNow + 4) (f s.me) s.me := by
  have e : s.regOp xs xd n f = s.done n ((s.me.consume xs).setX xd (f s.me)) := by
    unfold State.regOp State.gated; rw [h]
  rw [e]
  have hp : ((s.me.consume xs).setX xd (f s.me)).pcNow = s.me.pcNow := by
    simp [Ctx.pcNow]
  have := computes_of (s := s) (k := (s.me.consume xs).setX xd (f s.me)) (k' := s.me) (xs := xs) (xd := xd)
    (v := f s.me) (pc := s.me.pcNow + 4) (n := n) rfl rfl (Ctx.setX_consume_eq _ _ _ _) rfl
  unfold State.done Ctx.retire
  rw [hp]
  exact this

end Sys2Proof.Machine
end

