-- ==== Sys2Proof/Laws/Memory.lean ====
section
/-! SUPPORT. Every operation on the memories of the package keeps their canonical form, and the length of the buffered
lines. -/

namespace Sys2Proof.Machine

theorem Assoc.mem_put {α : Type} {k : Nat} {v : α} {l : Assoc α} {p : Nat × α} (h : p ∈ Assoc.put k v l) :
    p = (k, v) ∨ p ∈ l := by
  induction l with
  | nil => simpa [Assoc.put] using h
  | cons q r ih =>
    simp only [Assoc.put] at h
    split at h
    · rcases List.mem_cons.mp h with h | h
      · exact .inr (h ▸ List.mem_cons_self)
      · exact (ih h).imp id (List.mem_cons_of_mem _)
    · split at h <;> rcases List.mem_cons.mp h with h | h
      · exact .inl h
      · exact .inr (List.mem_cons_of_mem _ h)
      · exact .inl h
      · exact .inr h

theorem Assoc.mem_erase {α : Type} {k : Nat} {l : Assoc α} {p : Nat × α} (h : p ∈ Assoc.erase k l) : p ∈ l := by
  induction l with
  | nil => exact h
  | cons q r ih =>
    simp only [Assoc.erase] at h
    split at h
    · exact List.mem_cons_of_mem _ (ih h)
    · rcases List.mem_cons.mp h with h | h
      · exact h ▸ List.mem_cons_self
      · exact List.mem_cons_of_mem _ (ih h)

theorem Assoc.mem_set {α : Type} [DecidableEq α] {d : α} {k : Nat} {v : α} {l : Assoc α} {p : Nat × α}
    (h : p ∈ Assoc.set d k v l) : p = (k, v) ∨ p ∈ l := by
  unfold Assoc.set at h
  split at h
  · exact .inr (Assoc.mem_erase h)
  · exact Assoc.mem_put h

theorem Assoc.get_mem {α : Type} (d : α) (k : Nat) (l : Assoc α) : Assoc.get d k l = d ∨ ∃ p ∈ l, p.2 = Assoc.get d k l := by
  induction l with
  | nil => exact .inl rfl
  | cons q r ih =>
    simp only [Assoc.get]
    split
    · exact .inr ⟨q, List.mem_cons_self, rfl⟩
    · exact ih.imp id fun ⟨p, m, e⟩ => ⟨p, List.mem_cons_of_mem _ m, e⟩

/-! ### The canonical form -/

theorem Tile.memoryOk_reset : Tile.reset.MemoryOk := ⟨rfl, rfl, rfl, rfl⟩

theorem State.memoryOk_reset : State.reset.MemoryOk := ⟨rfl, rfl, fun _ h => nomatch h⟩

theorem State.linesOk_reset : State.reset.LinesOk := fun _ _ h => nomatch h

theorem State.MemoryOk.tile {s : State} (h : s.MemoryOk) (t : TileNo) : (s.tile t).MemoryOk := by
  rcases Assoc.get_mem Tile.reset t.toNat s.tiles with e | ⟨p, m, e⟩
  · unfold State.tile; rw [e]; exact Tile.memoryOk_reset
  · unfold State.tile; rw [← e]; exact h.2.2 p m

theorem State.MemoryOk.setTile {s : State} (h : s.MemoryOk) (t : TileNo) {tl : Tile} (ok : tl.MemoryOk) :
    (s.setTile t tl).MemoryOk :=
  ⟨h.1, h.2.1, fun p m => (Assoc.mem_set m).elim (fun e => e ▸ ok) (h.2.2 p)⟩

theorem State.MemoryOk.modTile {s : State} (h : s.MemoryOk) (t : TileNo) {f : Tile → Tile}
    (ok : ∀ tl, tl.MemoryOk → (f tl).MemoryOk) : (s.modTile t f).MemoryOk := h.setTile t (ok _ (h.tile t))

theorem State.MemoryOk.modCtx {s : State} (h : s.MemoryOk) (t : TileNo) (c : CtxNo) (f : Ctx → Ctx) :
    (s.modCtx t c f).MemoryOk := h.setTile t (tl := (s.tile t).setCtx c _) (h.tile t)

theorem State.MemoryOk.setMe {s : State} (h : s.MemoryOk) (k : Ctx) : (s.setMe k).MemoryOk :=
  h.setTile _ (tl := s.here.setCtx s.cur.2 k) (h.tile _)

theorem State.MemoryOk.setLine {s : State} (h : s.MemoryOk) (n : Nat) (l : Line) : (s.setLine n l).MemoryOk := h

theorem Memory.wf_foldl {α : Type} {f : Memory → α → Memory} (hf : ∀ m x, m.wf = true → (f m x).wf = true) {l : List α} {m : Memory}
    (h : m.wf = true) : (l.foldl f m).wf = true := by
  induction l generalizing m with
  | nil => exact h
  | cons x r ih => exact ih (hf _ _ h)

theorem State.MemoryOk.writeBack {s : State} (h : s.MemoryOk) (n : Nat) (drop : Bool) : (s.writeBack n drop).MemoryOk := by
  unfold State.writeBack
  dsimp only
  split
  · exact h
  · refine ⟨Memory.wf_foldl (fun m x ok => ?_) h.1, h.2⟩
    split
    · exact Memory.wf_write ok _ _
    · exact ok

theorem State.MemoryOk.makeRoom {s : State} (h : s.MemoryOk) (l : Nat) : (s.makeRoom l).MemoryOk := by
  unfold State.makeRoom
  dsimp only
  split
  · exact h
  · exact State.MemoryOk.writeBack (s := { s with freeCtr := s.freeCtr + 1 }) h _ _

theorem State.MemoryOk.touch {s : State} (h : s.MemoryOk) (l : Nat) (hv : Bool) : (s.touch l hv).MemoryOk := by
  unfold State.touch
  split
  · split
    · exact h.setLine _ _
    · exact h
  · exact (h.makeRoom l).setLine _ _

theorem State.MemoryOk.writePlace {s : State} (h : s.MemoryOk) (p : Place) (b : Byte) : (s.writePlace p b).MemoryOk := by
  cases p with
  | ls t o => exact h.modTile t fun _ ok => ⟨Memory.wf_write ok.1 _ _, ok.2⟩
  | istore t o => exact h.modTile t fun _ ok => ⟨ok.1, Memory.wf_write ok.2.1 _ _, ok.2.2⟩
  | history t o => exact h.modTile t fun _ ok => ⟨ok.1, ok.2.1, Memory.wf_write ok.2.2.1 _ _, ok.2.2.2⟩
  | pick t o => exact h.modTile t fun _ ok => ⟨ok.1, ok.2.1, ok.2.2.1, Memory.wf_write ok.2.2.2 _ _⟩
  | window t o =>
    unfold State.writePlace
    dsimp only
    split
    · exact h.modCtx _ _ _
    · exact h
  | acc t o => exact h.modTile t fun _ ok => ok
  | heddle t o => exact h
  | control t o => exact h
  | main l =>
    unfold State.writePlace
    dsimp only
    split
    · exact (h.touch l false).setLine _ _
    · exact h.touch l false
  | flag o => exact ⟨h.1, Memory.wf_write h.2.1 _ _, h.2.2⟩

theorem State.MemoryOk.writePlaces {s : State} (h : s.MemoryOk) (p : Place) (bs : List Byte) :
    (s.writePlaces p bs).MemoryOk := by
  induction bs generalizing s p with
  | nil => exact h
  | cons b r ih => exact ih (h.writePlace p b) _

theorem State.MemoryOk.writePhys {s : State} (h : s.MemoryOk) (pa : Nat) (bs : List Byte) : (s.writePhys pa bs).MemoryOk := by
  induction bs generalizing s pa with
  | nil => exact h
  | cons b r ih => exact ih (s := { s with backing := _ }) ⟨Memory.wf_write h.1 _ _, h.2⟩ _

theorem State.MemoryOk.cleanse {s : State} (h : s.MemoryOk) (p : Place) : (s.cleanse p).MemoryOk := by
  unfold State.cleanse
  split
  · exact h.modTile _ fun _ ok => ok
  · exact h.modTile _ fun _ ok => ok
  · exact h.modTile _ fun _ ok => ok
  · exact h
  · exact h

theorem State.MemoryOk.armTrigs {s : State} (h : s.MemoryOk) (w : Place) : (s.armTrigs w).MemoryOk := by
  unfold State.armTrigs
  split
  · dsimp only
    split
    · exact h.modTile _ fun _ ok => ok
    · exact h
  · exact h

theorem State.MemoryOk.note {s : State} (h : s.MemoryOk) (w : Place) : (s.note w).MemoryOk := by
  unfold State.note
  split
  · dsimp only
    split <;> exact h
  · exact h

theorem State.MemoryOk.foldl {α : Type} {f : State → α → State} (hf : ∀ s x, s.MemoryOk → (f s x).MemoryOk) {l : List α} {s : State}
    (h : s.MemoryOk) : (l.foldl f s).MemoryOk := by
  induction l generalizing s with
  | nil => exact h
  | cons x r ih => exact ih (hf _ _ h)

theorem State.MemoryOk.retest {s : State} (h : s.MemoryOk) (w : Place) : (s.retest w).MemoryOk := by
  unfold State.retest
  dsimp only
  split
  · exact h.armTrigs w
  · split
    · exact h.armTrigs w
    · exact State.MemoryOk.foldl (fun s x ok => ok.modCtx _ _ _) (h.armTrigs w)

theorem State.MemoryOk.wrote {s : State} (h : s.MemoryOk) (w : Place) (who : Option (TileNo × CtxNo)) : (s.wrote w who).MemoryOk := by
  unfold State.wrote
  dsimp only
  refine State.MemoryOk.retest ?_ w
  split
  · exact h.note w
  · split
    · exact h.note w
    · exact h.note w

theorem State.MemoryOk.store {s : State} (h : s.MemoryOk) (p : Place) (bs : List Byte) (who : Option (TileNo × CtxNo)) :
    (s.store p bs who).MemoryOk := by
  unfold State.store
  refine State.MemoryOk.wrote (State.MemoryOk.writePlaces ?_ _ _) _ _
  split
  · exact h.cleanse p
  · exact h

theorem State.MemoryOk.touchPlace {s : State} (h : s.MemoryOk) (p : Place) (hv : Bool) : (s.touchPlace p hv).MemoryOk := by
  unfold State.touchPlace
  split
  · exact h.touch _ hv
  · exact h

/-- A posted write, made at once or put in its word's FIFO, keeps the canonical form (R171). -/
theorem State.MemoryOk.post1 {s : State} (h : s.MemoryOk) (w : Writer) (p : Place) (hv : Bool) (bs : List Byte) :
    (s.post1 w p hv bs).MemoryOk := by
  unfold State.post1
  dsimp only
  split
  · refine State.MemoryOk.store ?_ _ _ _
    split
    · exact (h.touchPlace p hv).cleanse p
    · exact h.touchPlace p hv
  · exact h.touchPlace p hv

/-- A write of the queue processor keeps the canonical form (R158, R159). -/
theorem State.MemoryOk.postBacking {s : State} (h : s.MemoryOk) (w : Writer) (p : Place) (hv : Bool) (bs : List Byte) :
    (s.postBacking w p hv bs).MemoryOk := by
  unfold State.postBacking
  split
  · have k (m : Memory) (ok : m.wf) (l : Nat) : (bs.zipIdx.foldl (fun m b => Memory.write m (l + b.2) b.1) m).wf :=
      Memory.wf_foldl (fun _ _ w => Memory.wf_write w _ _) ok
    dsimp only
    split
    · exact ⟨k _ (h.cleanse _).1 _, (h.cleanse _).2⟩
    · exact ⟨k _ h.1 _, h.2⟩
  · exact h.post1 w p hv bs

/-- A write of the queue processor to main memory reads as before everywhere but in the backing copy (R159). -/
theorem State.postBacking_main_lines (s : State) (w : Writer) (l : Nat) (hv : Bool) (bs : List Byte) :
    (s.postBacking w (.main l) hv bs).lines = s.lines := by
  unfold State.postBacking
  dsimp only
  split <;> rfl

theorem Tile.MemoryOk.writeLs {tl : Tile} (h : tl.MemoryOk) (off : Nat) (bs : List Byte) (busy : List Nat) :
    (tl.writeLs off bs busy).MemoryOk := by
  refine ⟨?_, h.2⟩
  have keep (l : List Nat) (m : Memory) (ok : m.wf) :
      (l.foldl (fun m o => Memory.writeBytes m o (Memory.readBytes tl.ls o 8)) m).wf := by
    induction l generalizing m with
    | nil => exact ok
    | cons o r ih => exact ih _ (Memory.wf_writeBytes ok _ _)
  exact keep busy _ (Memory.wf_writeBytes h.1 _ _)

theorem Tile.MemoryOk.writeCode {tl : Tile} (h : tl.MemoryOk) (off : Nat) (bs : List Byte) : (tl.writeCode off bs).MemoryOk := by
  have keep (l : List Nat) (u : Tile) (ok : u.MemoryOk) : (l.foldl (fun tl i => tl.rememberStale (off + i)) u).MemoryOk := by
    induction l generalizing u with
    | nil => exact ok
    | cons x r ih => exact ih _ ok
  unfold Tile.writeCode
  dsimp only
  split
  · have k := keep (List.range bs.length) tl h
    exact ⟨k.1, Memory.wf_writeBytes k.2.1 _ _, k.2.2⟩
  · exact ⟨h.1, Memory.wf_writeBytes h.2.1 _ _, h.2.2⟩

/-! ### Buffered lines -/

theorem State.LinesOk.setLine {s : State} (h : s.LinesOk) (n : Nat) {l : Line} (ok : l.bytes = [] ∨ l.bytes.length = 64) :
    (s.setLine n l).LinesOk := by
  intro loc m e
  unfold State.line State.setLine at e
  dsimp only at e
  split at e
  · exact nomatch e
  · rename_i ne
    cases e
    by_cases k : loc / 64 = n
    · subst k
      rw [Assoc.get_set_same] at ne ⊢
      exact ok.resolve_left ne
    · rw [Assoc.get_set_other _ k] at ne ⊢
      exact h loc _ (by unfold State.line; dsimp only; rw [if_neg ne])

theorem Memory.length_readBytes (m : Memory) (a n : Nat) : (m.readBytes a n).length = n := by
  induction n generalizing a with
  | zero => rfl
  | succ n ih => simp [Memory.readBytes, ih]

theorem State.LinesOk.makeRoom {s : State} (h : s.LinesOk) (l : Nat) : (s.makeRoom l).LinesOk := by
  unfold State.makeRoom
  dsimp only
  split
  · exact h
  · unfold State.writeBack
    dsimp only
    split
    · exact h
    · exact State.LinesOk.setLine (s := { s with freeCtr := _, backing := _ }) h _ (.inl rfl)

theorem State.LinesOk.touch {s : State} (h : s.LinesOk) (l : Nat) (hv : Bool) : (s.touch l hv).LinesOk := by
  unfold State.touch
  split
  · rename_i n e
    split
    · exact h.setLine _ (.inr (h l n e))
    · exact h
  · exact (h.makeRoom l).setLine _ (.inr (Memory.length_readBytes _ _ _))

end Sys2Proof.Machine
end

