-- ==== Sys2Proof/Laws/Ops.lean ====
section
/-! SUPPORT. What each shared operation can do, said once: the register gate, ending an instruction, jumping, sending a
request, and taking an exception. -/

namespace Sys2Proof.Machine

/-! ### Memory stays as it is -/

theorem SameMemory.refl (s : State) : SameMemory s s := fun _ _ => rfl

theorem SameMemory.trans {s t u : State} (a : SameMemory s t) (b : SameMemory t u) : SameMemory s u :=
  fun p h => (b p h).trans (a p h)

/-- Two tiles hold the same data. -/
structure SameData (a b : Tile) : Prop where
  ls : b.ls = a.ls
  istore : b.istore = a.istore
  hist : b.hist = a.hist
  pickWin : b.pickWin = a.pickWin
  acc : b.acc = a.acc
  heddle : b.heddle = a.heddle

theorem sameMemory_of {s t : State} (tiles : ∀ u, SameData (s.tile u) (t.tile u)) (back : t.backing = s.backing)
    (lines : t.lines = s.lines) (flag : t.flag = s.flag) : SameMemory s t := by
  intro p hp
  cases p with
  | ls u o => simp only [State.readPlace, (tiles u).ls]
  | istore u o => simp only [State.readPlace, (tiles u).istore]
  | history u o => simp only [State.readPlace, (tiles u).hist]
  | pick u o => simp only [State.readPlace, (tiles u).pickWin]
  | acc u o => simp only [State.readPlace, (tiles u).acc]
  | heddle u o => simp only [State.readPlace, Tile.heddleWord, (tiles u).heddle]
  | main l => simp only [State.readPlace, State.line, lines, back]
  | flag o => simp only [State.readPlace, flag]
  | window u o => simp [Place.data] at hp
  | control u o => simp [Place.data] at hp

theorem sameMemory_of_tiles {s t : State} (tiles : t.tiles = s.tiles) (back : t.backing = s.backing)
    (lines : t.lines = s.lines) (flag : t.flag = s.flag) : SameMemory s t :=
  sameMemory_of (fun u => by unfold State.tile; rw [tiles]; exact ⟨rfl, rfl, rfl, rfl, rfl, rfl⟩) back lines flag

theorem sameMemory_setTile (s : State) (t : TileNo) {v : Tile} (h : SameData (s.tile t) v) : SameMemory s (s.setTile t v) := by
  refine sameMemory_of (fun u => ?_) rfl rfl rfl
  by_cases e : u = t
  · subst e; rw [State.tile_setTile]; exact h
  · rw [State.tile_setTile_other s e]; exact ⟨rfl, rfl, rfl, rfl, rfl, rfl⟩

theorem sameMemory_modTile (s : State) (t : TileNo) {f : Tile → Tile} (h : ∀ tl, SameData tl (f tl)) :
    SameMemory s (s.modTile t f) := sameMemory_setTile s t (h _)

theorem sameMemory_modCtx (s : State) (t : TileNo) (c : CtxNo) (f : Ctx → Ctx) : SameMemory s (s.modCtx t c f) :=
  sameMemory_setTile s t ⟨rfl, rfl, rfl, rfl, rfl, rfl⟩

/-! ### The register gate -/

/-- What the register gate can do: the effect runs, or the context is passed over for the cycle, or it parks with nothing done
(R113, R114, R301). -/
theorem State.gated_cases (s : State) (u : Uses) (eff : State → State) :
    (s.me.gate u = .go ∧ s.gated u eff = eff s) ∨ (s.me.gate u = .stall ∧ s.gated u eff = s.passOver) ∨
      ∃ r, s.me.gate u = .park r ∧ s.gated u eff = s.parkMe r := by
  unfold State.gated
  cases h : s.me.gate u with
  | go => exact .inl ⟨rfl, rfl⟩
  | stall => exact .inr (.inl ⟨rfl, rfl⟩)
  | park r => exact .inr (.inr ⟨r, rfl, rfl⟩)

theorem State.gated_go {s : State} {u : Uses} (h : s.me.gate u = .go) (eff : State → State) : s.gated u eff = eff s := by
  unfold State.gated; rw [h]

theorem onlyMe_holdMe (s : State) : OnlyMe s s.holdMe := onlyMe_setMe s _

theorem sameMemory_holdMe (s : State) : SameMemory s s.holdMe := (onlyMe_holdMe s).memory

/-- Being passed over leaves every byte of memory as it was. -/
theorem sameMemory_passOver (s : State) : SameMemory s s.passOver := by
  unfold State.passOver
  split
  · exact SameMemory.refl s
  · refine (sameMemory_setMe s { s.me with busy := s.time + 1 }).trans ?_
    refine (sameMemory_modTile _ s.cur.1 (f := fun tl => { tl with lastIssue := 0 }) fun _ => ⟨rfl, rfl, rfl, rfl, rfl, rfl⟩).trans ?_
    exact sameMemory_of_tiles rfl rfl rfl rfl

theorem onlyMe_parkMe (s : State) (r : Reason) : OnlyMe s (s.parkMe r) := onlyMe_setMe s _

/-! ### Jumps and branches -/

/-- A jump whose registers are free goes to its target, or raises 0x03 with it (R40, R358, R359). -/
theorem State.jump_cases (s : State) (xs : List (BitVec 5)) (xd : BitVec 5) (t : Word) :
    (t.extractLsb' 0 2 ≠ 0 ∧ s.jump xs xd t = s.trap 0x03 t) ∨
      (t.extractLsb' 0 2 = 0 ∧ Computes s (s.jump xs xd t) xs xd 4 t (s.me.pcNow + 4) s.me) := by
  unfold State.jump
  by_cases h : t.extractLsb' 0 2 = 0
  · rw [if_neg (not_not_intro h)]
    exact .inr ⟨h, computes_of (k' := s.me) rfl rfl (Ctx.setX_consume_eq _ _ _ _) rfl⟩
  · rw [if_pos h]
    exact .inl ⟨h, rfl⟩

/-- A branch whose registers are free: not taken, it ends at the next instruction; taken, it goes to its target or raises
0x03 with it (R339, R40). -/
theorem State.branch_cases {s : State} {xs1 xs2 : BitVec 5} (h : s.me.gate (Uses.x [xs1, xs2] []) = .go) (imm : BitVec 12)
    (taken : Word → Word → Bool) :
    let t := s.me.pcNow + immB imm
    s.branch xs1 xs2 imm taken =
      if taken (s.me.getX xs1) (s.me.getX xs2) = false then s.done 4 (s.me.consume [xs1, xs2])
      else if t.extractLsb' 0 2 ≠ 0 then s.trap 0x03 t else s.setMe ((s.me.consume [xs1, xs2]).retireTo s.time 4 t) := by
  unfold State.branch
  rw [State.gated_go h]
  cases taken (s.me.getX xs1) (s.me.getX xs2) <;> rfl

/-! ### Requests -/

/-- Sending a request appends it and raises its counter (R122). -/
theorem Ctx.send_reqs (c : Ctx) (q : Req) : (c.send q).reqs = c.reqs ++ [q] := rfl
theorem Ctx.send_getX (c : Ctx) (q : Req) (r : BitVec 5) : (c.send q).getX r = c.getX r := rfl
theorem Ctx.send_ld (c : Ctx) (q : Req) (h : q.kind.isLd = true) : (c.send q).ld = c.ld + 1 := if_pos h
theorem Ctx.send_st (c : Ctx) (q : Req) (h : q.kind.isSt = true) : (c.send q).st = c.st + 1 := if_pos h

/-! ### Taking an exception -/

theorem sameMemory_foldl {α : Type} {f : State → α → State} (hf : ∀ s x, SameMemory s (f s x)) (l : List α) (s : State) :
    SameMemory s (l.foldl f s) := by
  induction l generalizing s with
  | nil => exact SameMemory.refl s
  | cons x r ih => exact (hf s x).trans (ih _)

theorem sameMemory_noPost (s : State) (t : TileNo) (c : CtxNo) (seq : BitVec 16) : SameMemory s (s.noPost t c seq) :=
  sameMemory_of_tiles rfl rfl rfl rfl

theorem sameMemory_withdrawPost (s : State) (t : TileNo) (c : CtxNo) : SameMemory s (s.withdrawPost t c) := by
  unfold State.withdrawPost
  split
  · exact sameMemory_modCtx s t c _
  · dsimp only
    refine SameMemory.trans ?_ (sameMemory_modCtx _ t c _)
    refine SameMemory.trans ?_ (sameMemory_foldl (fun s (q : Req) => sameMemory_noPost s t c q.seq) _ _)
    exact sameMemory_of_tiles rfl rfl rfl rfl

theorem sameMemory_setHome (s : State) (h : Home) : SameMemory s (s.setHome h) :=
  sameMemory_of_tiles rfl rfl rfl rfl

/-- A write that comes to a word, in its turn or not, changes the word's home alone (R171, R173). -/
theorem State.turnAt_cases (s : State) (w : Place) (e : FifoEntry) :
    s.turnAt w e = (s, true) ∧ (s.home w).fifo = [] ∨
    (∃ f rest, (s.home w).fifo = f :: rest ∧ s.turnAt w e = (s.setHome { s.home w with fifo := rest }, true)) ∨
    s.turnAt w e = (s, false) ∨
    (s.fifoFull w = false ∧
      s.turnAt w e = (s.setHome { s.home w with fifo := (s.home w).fifo ++ [e] }, false)) := by
  cases hf : (s.home w).fifo with
  | nil => exact .inl ⟨by simp only [State.turnAt, hf], rfl⟩
  | cons f rest =>
    simp only [State.turnAt, hf]
    split
    · exact .inr (.inl ⟨f, rest, rfl, rfl⟩)
    · split
      · exact .inr (.inr (.inl rfl))
      · rename_i h
        exact .inr (.inr (.inr ⟨by simp only [Bool.or_eq_true, not_or, Bool.not_eq_true] at h; exact h.2, rfl⟩))

theorem sameMemory_turnAt (s : State) (w : Place) (e : FifoEntry) : SameMemory s (s.turnAt w e).1 := by
  obtain ⟨h, -⟩ | ⟨_, _, -, h⟩ | h | ⟨-, h⟩ := s.turnAt_cases w e <;> rw [h]
  · exact SameMemory.refl s
  · exact sameMemory_setHome s _
  · exact SameMemory.refl s
  · exact sameMemory_setHome s _

theorem sameMemory_dropPlaces (s : State) (p : FifoEntry → Bool) : SameMemory s (s.dropPlaces p) :=
  sameMemory_of_tiles rfl rfl rfl rfl

/-- A write of several words, in its turn or not, changes homes alone; it is made only where every FIFO is empty or has the write
itself at its head (R171, R173). -/
theorem sameMemory_turnsAt (s : State) (ws : List Place) (e : FifoEntry) : SameMemory s (s.turnsAt ws e).1 := by
  unfold State.turnsAt
  dsimp only
  repeat' split
  · exact SameMemory.refl s
  · exact sameMemory_dropPlaces s _
  · exact SameMemory.refl s
  · exact (sameMemory_dropPlaces s _).trans (sameMemory_foldl (fun s w => sameMemory_setHome s _) ws _)
  · exact sameMemory_dropPlaces s _

theorem State.turnsAt_free {s : State} {ws : List Place} (h : ∀ w ∈ ws, s.fifoEmpty w = true) (e : FifoEntry) :
    s.turnsAt ws e = (s, true) := if_pos (List.all_eq_true.mpr h)

theorem State.turnsAt_front {s : State} {ws : List Place} {e : FifoEntry} (h : (s.turnsAt ws e).2 = true) :
    ∀ w ∈ ws, ∀ f rest, (s.home w).fifo = f :: rest →
      (f.poster = e.poster ∧ f.tile = e.tile ∧ f.ctx = e.ctx ∧ f.seq = e.seq) := by
  intro w hw f rest hf
  unfold State.turnsAt at h
  dsimp only at h
  split at h
  · rename_i a
    have := List.all_eq_true.mp a w hw
    simp [State.fifoEmpty, hf] at this
  · split at h
    · rename_i a
      have := List.all_eq_true.mp a w hw
      simpa [hf, and_assoc] using this
    · split at h
      · exact nomatch h
      · split at h <;> exact nomatch h

/-- A step that writes only words with empty FIFOs finds room (R173). -/
theorem State.fits_free {s : State} {ws : List Place} (h : ∀ w ∈ ws, s.fifoEmpty w = true) : s.fits ws = true := by
  have : ws.filter (!s.fifoEmpty ·) = [] := List.filter_eq_nil_iff.mpr fun w hw => by simp [h w hw]
  simp [State.fits, this]

/-- A context that its STOP bit stops has it set (R306, R309). -/
theorem Tile.stopDue_stop {t : Tile} {c : CtxNo} (h : t.stopDue c = true) : t.stop.getLsbD c.toNat = true := by
  simp only [Tile.stopDue, Bool.and_eq_true] at h
  exact h.1

/-- An element is refused for an uncorrectable error only once the accesses that come before it are performed (R179, R386). -/
theorem elemRefusal_error {s : State} {t : TileNo} {c : CtxNo} {q : Req} {e : Elem} (h : s.elemRefusal t c q e = some 0x10) :
    s.mayPerform t c q [e] = true := by
  unfold State.elemRefusal at h
  split at h
  split at h <;> simp at h
  exact h.2

/-- Only the monitor changes `macc` through a register window (R199). -/
theorem Ctx.windowWrite_macc (k : Ctx) (o : Nat) (v : Word) (own : Option (Nat × Nat × Nat × Nat)) :
    (k.windowWrite false o v own).macc = k.macc := by
  unfold Ctx.windowWrite
  split
  · simp
  · split
    · simp
    · split
      · simp
      · split <;> first
          | rfl
          | (split <;> rfl)
          | (by_cases hl : 10 ≤ bits v 0 6 ∧ bits v 0 6 ≤ 40 <;> simp [hl])

/-- The range of a flush lies in its lines (R161). -/
theorem lineRange_covers (r : Nat × Nat) : (lineRange r).1 ≤ r.1 ∧ r.1 + r.2 ≤ (lineRange r).1 + (lineRange r).2 := by
  simp only [lineRange]
  omega

/-- The slot that takes an up chunk holds the endpoint that names its sender (R284). -/
theorem slotOf_names {e : List Word} {c : Chunk} {i : Nat} (h : slotOf e c = some i) :
    ∃ ep, (ttChildren e)[i]? = some ep ∧ epIs ep c.port c.fromTile = true := by
  have hf : (ttChildren e).findIdx? (fun ep => epIs ep c.port c.fromTile) = some i →
      ∃ ep, (ttChildren e)[i]? = some ep ∧ epIs ep c.port c.fromTile = true := fun h =>
    let ⟨hl, ht, _⟩ := List.findIdx?_eq_some_iff_getElem.mp h
    ⟨_, List.getElem?_eq_getElem hl, ht⟩
  unfold slotOf at h
  dsimp only at h
  cases k : (ttChildren e)[c.slot]? with
  | none => rw [k] at h; exact hf h
  | some ep =>
    rw [k] at h
    dsimp only at h
    split at h
    · rename_i a
      cases h
      exact ⟨ep, k, a⟩
    · exact hf h

theorem sameMemory_unwatch (s : State) (t : TileNo) (c : CtxNo) : SameMemory s (s.unwatch t c) :=
  sameMemory_of_tiles rfl rfl rfl rfl

theorem sameMemory_dropGrant (s : State) (t : TileNo) (c : CtxNo) : SameMemory s (s.dropGrant t c) := by
  unfold State.dropGrant
  split
  · exact SameMemory.refl s
  · refine SameMemory.trans ?_ (sameMemory_modCtx _ t c _)
    exact sameMemory_of_tiles rfl rfl rfl rfl

/-- Entering the monitor leaves every byte of memory as it was (R294). -/
theorem sameMemory_takeRecord (s : State) (t : TileNo) (r : Record) : SameMemory s (s.takeRecord t r) := by
  unfold State.takeRecord
  dsimp only
  refine SameMemory.trans ?_ (sameMemory_modCtx _ t 0 _)
  refine SameMemory.trans ?_ (sameMemory_dropGrant _ t 0)
  refine SameMemory.trans ?_ (sameMemory_unwatch _ t 0)
  refine SameMemory.trans ?_ (sameMemory_withdrawPost _ t 0)
  split
  · exact sameMemory_modTile s t fun _ => ⟨rfl, rfl, rfl, rfl, rfl, rfl⟩
  · refine SameMemory.trans ?_ (sameMemory_modCtx _ t _ _)
    exact sameMemory_modTile s t fun _ => ⟨rfl, rfl, rfl, rfl, rfl, rfl⟩

/-- What posting a record can do: nothing on a quarantined tile, wait while the monitor cannot be entered or behind another record, or
enter it (R294, R295, R304). -/
theorem State.post_cases (s : State) (t : TileNo) (r : Record) :
    ((s.tile t).quarantined = true ∧ s.post t r = s) ∨
    ((s.tile t).quarantined = false ∧ ((s.tile t).mayEnter = false ∨ (s.tile t).recs ≠ []) ∧
      s.post t r = s.setTile t { s.tile t with recs := (s.tile t).recs ++ [r] }) ∨
    ((s.tile t).quarantined = false ∧ (s.tile t).mayEnter = true ∧ (s.tile t).recs = [] ∧ s.post t r = s.takeRecord t r) := by
  unfold State.post
  dsimp only
  cases hq : (s.tile t).quarantined with
  | true => exact .inl ⟨rfl, rfl⟩
  | false =>
    rw [if_neg (by simp)]
    by_cases hm : (!(s.tile t).mayEnter || decide ((s.tile t).recs ≠ [])) = true
    · rw [if_pos hm]
      exact .inr (.inl ⟨rfl, by simpa using hm, rfl⟩)
    · rw [if_neg hm]
      simp only [Bool.or_eq_true, decide_eq_true_eq, not_or, Bool.not_eq_true, Bool.not_eq_false'] at hm
      exact .inr (.inr ⟨rfl, hm.1, Decidable.not_not.mp hm.2, rfl⟩)

theorem sameMemory_post (s : State) (t : TileNo) (r : Record) : SameMemory s (s.post t r) := by
  rcases s.post_cases t r with ⟨_, e⟩ | ⟨_, _, e⟩ | ⟨_, _, _, e⟩ <;> rw [e]
  · exact SameMemory.refl s
  · exact sameMemory_setTile s t ⟨rfl, rfl, rfl, rfl, rfl, rfl⟩
  · exact sameMemory_takeRecord s t r

/-- A synchronous cause of a task context: its grant, its post and its watches go, it is HELD at the instruction, and its
record is posted (R294, R299). -/
theorem State.trapCtx_task {s : State} {t : TileNo} {c : CtxNo} (h : (s.ctx t c).sup = false) (cause : BitVec 8)
    (val pc seq stat : Word) :
    s.trapCtx t c cause val pc seq stat =
      ((((s.dropGrant t c).withdrawPost t c).unwatch t c).modCtx t c fun k =>
        { k with held := false, fencing := false, state := .held, park := none, woken := false, pc := pc }).post t ⟨false, cause, val, seq, pc, stat, c⟩ := by
  unfold State.trapCtx
  rw [h]
  rfl

/-- A cause of the monitor is a double trap (R304). -/
theorem State.trapCtx_monitor {s : State} {t : TileNo} {c : CtxNo} (h : (s.ctx t c).sup = true) (cause : BitVec 8)
    (val pc seq stat : Word) : s.trapCtx t c cause val pc seq stat = s.quarantine t cause := by
  unfold State.trapCtx
  rw [h]
  rfl

theorem sameMemory_picksOver (s : State) (gone : Launch → Bool) : SameMemory s (s.picksOver gone) := by
  unfold State.picksOver
  exact sameMemory_foldl
    (fun s t => sameMemory_modTile s t (f := fun tl => { tl with slack := tl.slack && tl.quarantined }) fun _ => ⟨rfl, rfl, rfl, rfl, rfl, rfl⟩) _ s

theorem sameMemory_quarantine (s : State) (t : TileNo) (code : BitVec 8) : SameMemory s (s.quarantine t code) := by
  unfold State.quarantine
  split
  · exact SameMemory.refl s
  refine (sameMemory_picksOver s fun l => l.live.all (· == t)).trans ?_
  refine (sameMemory_modTile _ t
    (f := fun tl => { tl with qstat := (1#64 <<< 63) ||| (code.zeroExtend 64 <<< 8), slack := tl.slack || !tl.pdone })
    fun _ => ⟨rfl, rfl, rfl, rfl, rfl, rfl⟩).trans ?_
  exact sameMemory_of_tiles rfl rfl rfl rfl

/-- Taking an exception leaves every byte of memory as it was. -/
theorem sameMemory_trapCtx (s : State) (t : TileNo) (c : CtxNo) (cause : BitVec 8) (val pc seq stat : Word) :
    SameMemory s (s.trapCtx t c cause val pc seq stat) := by
  cases h : (s.ctx t c).sup with
  | true => rw [State.trapCtx_monitor h]; exact sameMemory_quarantine s t cause
  | false =>
    rw [State.trapCtx_task h]
    refine SameMemory.trans ?_ (sameMemory_post _ t _)
    refine SameMemory.trans ?_ (sameMemory_modCtx _ t c _)
    refine SameMemory.trans ?_ (sameMemory_unwatch _ t c)
    exact SameMemory.trans (sameMemory_dropGrant s t c) (sameMemory_withdrawPost _ t c)

/-- What raising a precise cause can do: wait for the release of a granted AMO, or take it (R26, R169). -/
theorem State.trap_cases (s : State) (cause : BitVec 8) (val : Word) :
    (s.me.amoHeld = true ∧ s.trap cause val = s.holdMe) ∨
      (s.me.amoHeld = false ∧
        s.trap cause val = s.trapCtx s.cur.1 s.cur.2 cause val s.me.pcNow 0 (tstatBits true false false false false)) := by
  unfold State.trap
  cases s.me.amoHeld with
  | true => exact .inl ⟨rfl, rfl⟩
  | false => exact .inr ⟨rfl, rfl⟩

theorem sameMemory_trap (s : State) (cause : BitVec 8) (val : Word) : SameMemory s (s.trap cause val) := by
  rcases s.trap_cases cause val with ⟨_, e⟩ | ⟨_, e⟩ <;> rw [e]
  · exact sameMemory_holdMe s
  · exact sameMemory_trapCtx s _ _ _ _ _ _ _

/-! ### Taking an exception keeps the canonical form -/

theorem State.MemoryOk.withdrawPost {s : State} (h : s.MemoryOk) (t : TileNo) (c : CtxNo) : (s.withdrawPost t c).MemoryOk := by
  unfold State.withdrawPost
  split
  · exact h.modCtx t c _
  · dsimp only
    refine State.MemoryOk.modCtx ?_ t c _
    exact State.MemoryOk.foldl (f := fun (s : State) (q : Req) => s.noPost t c q.seq) (fun _ _ ok => ok)
      (s := { s with hub := { s.hub with posts := s.hub.posts.filter fun p => !(p.1 == t && p.2.1 == c) } }) h

theorem State.MemoryOk.dropGrant {s : State} (h : s.MemoryOk) (t : TileNo) (c : CtxNo) : (s.dropGrant t c).MemoryOk := by
  unfold State.dropGrant
  split
  · exact h
  · dsimp only
    refine State.MemoryOk.modCtx ?_ t c _
    exact h

theorem State.MemoryOk.takeRecord {s : State} (h : s.MemoryOk) (t : TileNo) (r : Record) : (s.takeRecord t r).MemoryOk := by
  unfold State.takeRecord
  dsimp only
  refine State.MemoryOk.modCtx (State.MemoryOk.dropGrant ?_ t 0) t 0 _
  refine State.MemoryOk.withdrawPost ?_ t 0
  split
  · exact h.modTile t fun _ ok => ok
  · refine State.MemoryOk.modCtx ?_ t _ _
    exact h.modTile t fun _ ok => ok

theorem State.MemoryOk.post {s : State} (h : s.MemoryOk) (t : TileNo) (r : Record) : (s.post t r).MemoryOk := by
  rcases s.post_cases t r with ⟨_, e⟩ | ⟨_, _, e⟩ | ⟨_, _, _, e⟩ <;> rw [e]
  · exact h
  · exact h.setTile t (h.tile t)
  · exact h.takeRecord t r

theorem State.MemoryOk.picksOver {s : State} (h : s.MemoryOk) (gone : Launch → Bool) : (s.picksOver gone).MemoryOk := by
  unfold State.picksOver
  exact State.MemoryOk.foldl (fun s t ok => ok.modTile t (f := fun tl => { tl with slack := tl.slack && tl.quarantined }) fun _ k => k) h

theorem State.MemoryOk.quarantine {s : State} (h : s.MemoryOk) (t : TileNo) (code : BitVec 8) : (s.quarantine t code).MemoryOk := by
  unfold State.quarantine
  split
  · exact h
  · exact (h.picksOver fun l => l.live.all (· == t)).modTile t
      (f := fun tl => { tl with qstat := _, slack := tl.slack || !tl.pdone }) fun _ ok => ok

theorem State.MemoryOk.trapCtx {s : State} (h : s.MemoryOk) (t : TileNo) (c : CtxNo) (cause : BitVec 8) (val pc seq stat : Word) :
    (s.trapCtx t c cause val pc seq stat).MemoryOk := by
  cases e : (s.ctx t c).sup with
  | true => rw [State.trapCtx_monitor e]; exact h.quarantine t cause
  | false =>
    rw [State.trapCtx_task e]
    refine State.MemoryOk.post (State.MemoryOk.modCtx ?_ t c _) t _
    exact (h.dropGrant t c).withdrawPost t c

end Sys2Proof.Machine
end

