-- ==== Sys2Proof/Laws/PerInstr.lean ====
section
/-! SUPPORT. What is said of every instruction as syntax: the two low bits of its word are 0b11 (R39). -/

namespace Sys2Proof.Laws.Encoding

/-- Bits [1:0] of the word of an instruction are 0b11; a step without an encoding has no word (R39). -/
def Statement (i : Instr) : Prop := ∀ w, encode i = some w → fld w 0 2 = 3#2

theorem low_bits (w : InstWord) : fld w 0 2 = (fld w 0 7).extractLsb' 0 2 := by
  apply BitVec.eq_of_toNat_eq
  rw [fld_toNat, extract_toNat, fld_toNat]
  omega

theorem of_word {v w : InstWord} {op : BitVec 7} (h : some v = some w) (e : fld v 0 7 = op) (k : op.extractLsb' 0 2 = 3#2) :
    fld w 0 2 = 3#2 := by
  cases h
  rw [low_bits, e, k]

theorem lui (xd : BitVec 5) (imm : BitVec 20) : Statement (.lui xd imm) :=
  fun _ h => of_word h (encU_0_7 ..) rfl
theorem auipc (xd : BitVec 5) (imm : BitVec 20) : Statement (.auipc xd imm) :=
  fun _ h => of_word h (encU_0_7 ..) rfl
theorem jal (xd : BitVec 5) (imm : BitVec 20) : Statement (.jal xd imm) :=
  fun _ h => of_word h (encJ_0_7 ..) rfl
theorem jalr (xd xs1 : BitVec 5) (imm : BitVec 12) : Statement (.jalr xd xs1 imm) :=
  fun _ h => of_word h (encI_0_7 ..) rfl
theorem beq (xs1 xs2 : BitVec 5) (imm : BitVec 12) : Statement (.beq xs1 xs2 imm) :=
  fun _ h => of_word h (encB_0_7 ..) rfl
theorem bne (xs1 xs2 : BitVec 5) (imm : BitVec 12) : Statement (.bne xs1 xs2 imm) :=
  fun _ h => of_word h (encB_0_7 ..) rfl
theorem blt (xs1 xs2 : BitVec 5) (imm : BitVec 12) : Statement (.blt xs1 xs2 imm) :=
  fun _ h => of_word h (encB_0_7 ..) rfl
theorem bge (xs1 xs2 : BitVec 5) (imm : BitVec 12) : Statement (.bge xs1 xs2 imm) :=
  fun _ h => of_word h (encB_0_7 ..) rfl
theorem bltu (xs1 xs2 : BitVec 5) (imm : BitVec 12) : Statement (.bltu xs1 xs2 imm) :=
  fun _ h => of_word h (encB_0_7 ..) rfl
theorem bgeu (xs1 xs2 : BitVec 5) (imm : BitVec 12) : Statement (.bgeu xs1 xs2 imm) :=
  fun _ h => of_word h (encB_0_7 ..) rfl
theorem lb (xd xs1 : BitVec 5) (imm : BitVec 12) : Statement (.lb xd xs1 imm) :=
  fun _ h => of_word h (encI_0_7 ..) rfl
theorem lh (xd xs1 : BitVec 5) (imm : BitVec 12) : Statement (.lh xd xs1 imm) :=
  fun _ h => of_word h (encI_0_7 ..) rfl
theorem lw (xd xs1 : BitVec 5) (imm : BitVec 12) : Statement (.lw xd xs1 imm) :=
  fun _ h => of_word h (encI_0_7 ..) rfl
theorem ld (xd xs1 : BitVec 5) (imm : BitVec 12) : Statement (.ld xd xs1 imm) :=
  fun _ h => of_word h (encI_0_7 ..) rfl
theorem lbu (xd xs1 : BitVec 5) (imm : BitVec 12) : Statement (.lbu xd xs1 imm) :=
  fun _ h => of_word h (encI_0_7 ..) rfl
theorem lhu (xd xs1 : BitVec 5) (imm : BitVec 12) : Statement (.lhu xd xs1 imm) :=
  fun _ h => of_word h (encI_0_7 ..) rfl
theorem lwu (xd xs1 : BitVec 5) (imm : BitVec 12) : Statement (.lwu xd xs1 imm) :=
  fun _ h => of_word h (encI_0_7 ..) rfl
theorem sb (xs2 xs1 : BitVec 5) (imm : BitVec 12) : Statement (.sb xs2 xs1 imm) :=
  fun _ h => of_word h (encS_0_7 ..) rfl
theorem sh (xs2 xs1 : BitVec 5) (imm : BitVec 12) : Statement (.sh xs2 xs1 imm) :=
  fun _ h => of_word h (encS_0_7 ..) rfl
theorem sw (xs2 xs1 : BitVec 5) (imm : BitVec 12) : Statement (.sw xs2 xs1 imm) :=
  fun _ h => of_word h (encS_0_7 ..) rfl
theorem sd (xs2 xs1 : BitVec 5) (imm : BitVec 12) : Statement (.sd xs2 xs1 imm) :=
  fun _ h => of_word h (encS_0_7 ..) rfl
theorem addi (xd xs1 : BitVec 5) (imm : BitVec 12) : Statement (.addi xd xs1 imm) :=
  fun _ h => of_word h (encI_0_7 ..) rfl
theorem slti (xd xs1 : BitVec 5) (imm : BitVec 12) : Statement (.slti xd xs1 imm) :=
  fun _ h => of_word h (encI_0_7 ..) rfl
theorem sltiu (xd xs1 : BitVec 5) (imm : BitVec 12) : Statement (.sltiu xd xs1 imm) :=
  fun _ h => of_word h (encI_0_7 ..) rfl
theorem xori (xd xs1 : BitVec 5) (imm : BitVec 12) : Statement (.xori xd xs1 imm) :=
  fun _ h => of_word h (encI_0_7 ..) rfl
theorem ori (xd xs1 : BitVec 5) (imm : BitVec 12) : Statement (.ori xd xs1 imm) :=
  fun _ h => of_word h (encI_0_7 ..) rfl
theorem andi (xd xs1 : BitVec 5) (imm : BitVec 12) : Statement (.andi xd xs1 imm) :=
  fun _ h => of_word h (encI_0_7 ..) rfl
theorem slli (xd xs1 : BitVec 5) (sh : BitVec 6) : Statement (.slli xd xs1 sh) :=
  fun _ h => of_word h (encI_0_7 ..) rfl
theorem srli (xd xs1 : BitVec 5) (sh : BitVec 6) : Statement (.srli xd xs1 sh) :=
  fun _ h => of_word h (encI_0_7 ..) rfl
theorem srai (xd xs1 : BitVec 5) (sh : BitVec 6) : Statement (.srai xd xs1 sh) :=
  fun _ h => of_word h (encI_0_7 ..) rfl
theorem add (xd xs1 xs2 : BitVec 5) : Statement (.add xd xs1 xs2) :=
  fun _ h => of_word h (encR_0_7 ..) rfl
theorem sub (xd xs1 xs2 : BitVec 5) : Statement (.sub xd xs1 xs2) :=
  fun _ h => of_word h (encR_0_7 ..) rfl
theorem sll (xd xs1 xs2 : BitVec 5) : Statement (.sll xd xs1 xs2) :=
  fun _ h => of_word h (encR_0_7 ..) rfl
theorem slt (xd xs1 xs2 : BitVec 5) : Statement (.slt xd xs1 xs2) :=
  fun _ h => of_word h (encR_0_7 ..) rfl
theorem sltu (xd xs1 xs2 : BitVec 5) : Statement (.sltu xd xs1 xs2) :=
  fun _ h => of_word h (encR_0_7 ..) rfl
theorem xor (xd xs1 xs2 : BitVec 5) : Statement (.xor xd xs1 xs2) :=
  fun _ h => of_word h (encR_0_7 ..) rfl
theorem srl (xd xs1 xs2 : BitVec 5) : Statement (.srl xd xs1 xs2) :=
  fun _ h => of_word h (encR_0_7 ..) rfl
theorem sra (xd xs1 xs2 : BitVec 5) : Statement (.sra xd xs1 xs2) :=
  fun _ h => of_word h (encR_0_7 ..) rfl
theorem or (xd xs1 xs2 : BitVec 5) : Statement (.or xd xs1 xs2) :=
  fun _ h => of_word h (encR_0_7 ..) rfl
theorem and (xd xs1 xs2 : BitVec 5) : Statement (.and xd xs1 xs2) :=
  fun _ h => of_word h (encR_0_7 ..) rfl
theorem mul (xd xs1 xs2 : BitVec 5) : Statement (.mul xd xs1 xs2) :=
  fun _ h => of_word h (encR_0_7 ..) rfl
theorem mulh (xd xs1 xs2 : BitVec 5) : Statement (.mulh xd xs1 xs2) :=
  fun _ h => of_word h (encR_0_7 ..) rfl
theorem mulhsu (xd xs1 xs2 : BitVec 5) : Statement (.mulhsu xd xs1 xs2) :=
  fun _ h => of_word h (encR_0_7 ..) rfl
theorem mulhu (xd xs1 xs2 : BitVec 5) : Statement (.mulhu xd xs1 xs2) :=
  fun _ h => of_word h (encR_0_7 ..) rfl
theorem div (xd xs1 xs2 : BitVec 5) : Statement (.div xd xs1 xs2) :=
  fun _ h => of_word h (encR_0_7 ..) rfl
theorem divu (xd xs1 xs2 : BitVec 5) : Statement (.divu xd xs1 xs2) :=
  fun _ h => of_word h (encR_0_7 ..) rfl
theorem rem (xd xs1 xs2 : BitVec 5) : Statement (.rem xd xs1 xs2) :=
  fun _ h => of_word h (encR_0_7 ..) rfl
theorem remu (xd xs1 xs2 : BitVec 5) : Statement (.remu xd xs1 xs2) :=
  fun _ h => of_word h (encR_0_7 ..) rfl
theorem lr (xd xs1 : BitVec 5) (w aq rl : BitVec 1) : Statement (.lr xd xs1 w aq rl) :=
  fun _ h => of_word h (encA_0_7 ..) rfl
theorem sc (xd xs1 xs2 : BitVec 5) (w aq rl : BitVec 1) : Statement (.sc xd xs1 xs2 w aq rl) :=
  fun _ h => of_word h (encA_0_7 ..) rfl
theorem amoswap (xd xs1 xs2 : BitVec 5) (w aq rl : BitVec 1) : Statement (.amoswap xd xs1 xs2 w aq rl) :=
  fun _ h => of_word h (encA_0_7 ..) rfl
theorem amoadd (xd xs1 xs2 : BitVec 5) (w aq rl : BitVec 1) : Statement (.amoadd xd xs1 xs2 w aq rl) :=
  fun _ h => of_word h (encA_0_7 ..) rfl
theorem amoxor (xd xs1 xs2 : BitVec 5) (w aq rl : BitVec 1) : Statement (.amoxor xd xs1 xs2 w aq rl) :=
  fun _ h => of_word h (encA_0_7 ..) rfl
theorem amoand (xd xs1 xs2 : BitVec 5) (w aq rl : BitVec 1) : Statement (.amoand xd xs1 xs2 w aq rl) :=
  fun _ h => of_word h (encA_0_7 ..) rfl
theorem amoor (xd xs1 xs2 : BitVec 5) (w aq rl : BitVec 1) : Statement (.amoor xd xs1 xs2 w aq rl) :=
  fun _ h => of_word h (encA_0_7 ..) rfl
theorem amomin (xd xs1 xs2 : BitVec 5) (w aq rl : BitVec 1) : Statement (.amomin xd xs1 xs2 w aq rl) :=
  fun _ h => of_word h (encA_0_7 ..) rfl
theorem amomax (xd xs1 xs2 : BitVec 5) (w aq rl : BitVec 1) : Statement (.amomax xd xs1 xs2 w aq rl) :=
  fun _ h => of_word h (encA_0_7 ..) rfl
theorem amominu (xd xs1 xs2 : BitVec 5) (w aq rl : BitVec 1) : Statement (.amominu xd xs1 xs2 w aq rl) :=
  fun _ h => of_word h (encA_0_7 ..) rfl
theorem amomaxu (xd xs1 xs2 : BitVec 5) (w aq rl : BitVec 1) : Statement (.amomaxu xd xs1 xs2 w aq rl) :=
  fun _ h => of_word h (encA_0_7 ..) rfl
theorem fence (pred succ : BitVec 4) : Statement (.fence pred succ) :=
  fun _ h => of_word h (encI_0_7 ..) rfl
theorem fenceTso : Statement (.fenceTso) :=
  fun _ h => of_word h (encI_0_7 ..) rfl
theorem pause : Statement (.pause) :=
  fun _ h => of_word h (encI_0_7 ..) rfl
theorem fenceI : Statement (.fenceI) :=
  fun _ h => of_word h (encI_0_7 ..) rfl
theorem ecall : Statement (.ecall) :=
  fun _ h => of_word h (encI_0_7 ..) rfl
theorem ebreak : Statement (.ebreak) :=
  fun _ h => of_word h (encI_0_7 ..) rfl
theorem wrsNto : Statement (.wrsNto) :=
  fun _ h => of_word h (encI_0_7 ..) rfl
theorem wrsSto : Statement (.wrsSto) :=
  fun _ h => of_word h (encI_0_7 ..) rfl
theorem csrrw (xd : BitVec 5) (csr : BitVec 12) (xs1 : BitVec 5) : Statement (.csrrw xd csr xs1) :=
  fun _ h => of_word h (encI_0_7 ..) rfl
theorem csrrs (xd : BitVec 5) (csr : BitVec 12) (xs1 : BitVec 5) : Statement (.csrrs xd csr xs1) :=
  fun _ h => of_word h (encI_0_7 ..) rfl
theorem csrrc (xd : BitVec 5) (csr : BitVec 12) (xs1 : BitVec 5) : Statement (.csrrc xd csr xs1) :=
  fun _ h => of_word h (encI_0_7 ..) rfl
theorem csrrwi (xd : BitVec 5) (csr : BitVec 12) (uimm : BitVec 5) : Statement (.csrrwi xd csr uimm) :=
  fun _ h => of_word h (encI_0_7 ..) rfl
theorem csrrsi (xd : BitVec 5) (csr : BitVec 12) (uimm : BitVec 5) : Statement (.csrrsi xd csr uimm) :=
  fun _ h => of_word h (encI_0_7 ..) rfl
theorem csrrci (xd : BitVec 5) (csr : BitVec 12) (uimm : BitVec 5) : Statement (.csrrci xd csr uimm) :=
  fun _ h => of_word h (encI_0_7 ..) rfl
theorem vadd (ty : Ty) (vd vs1 vs2 : BitVec 4) (g : Guard) : Statement (.vadd ty vd vs1 vs2 g) :=
  fun _ h => of_word h (encV_0_7 ..) rfl
theorem vsub (ty : Ty) (vd vs1 vs2 : BitVec 4) (g : Guard) : Statement (.vsub ty vd vs1 vs2 g) :=
  fun _ h => of_word h (encV_0_7 ..) rfl
theorem vmul (ty : Ty) (vd vs1 vs2 : BitVec 4) (g : Guard) : Statement (.vmul ty vd vs1 vs2 g) :=
  fun _ h => of_word h (encV_0_7 ..) rfl
theorem vfma (ty : Ty) (vd vs1 vs2 : BitVec 4) (g : Guard) : Statement (.vfma ty vd vs1 vs2 g) :=
  fun _ h => of_word h (encV_0_7 ..) rfl
theorem vmin (ty : Ty) (vd vs1 vs2 : BitVec 4) (g : Guard) : Statement (.vmin ty vd vs1 vs2 g) :=
  fun _ h => of_word h (encV_0_7 ..) rfl
theorem vmax (ty : Ty) (vd vs1 vs2 : BitVec 4) (g : Guard) : Statement (.vmax ty vd vs1 vs2 g) :=
  fun _ h => of_word h (encV_0_7 ..) rfl
theorem vabs (ty : Ty) (vd vs1 : BitVec 4) (g : Guard) : Statement (.vabs ty vd vs1 g) :=
  fun _ h => of_word h (encV_0_7 ..) rfl
theorem vneg (ty : Ty) (vd vs1 : BitVec 4) (g : Guard) : Statement (.vneg ty vd vs1 g) :=
  fun _ h => of_word h (encV_0_7 ..) rfl
theorem vclamp (ty : Ty) (vd vs1 vs2 : BitVec 4) (g : Guard) : Statement (.vclamp ty vd vs1 vs2 g) :=
  fun _ h => of_word h (encV_0_7 ..) rfl
theorem vand (ty : Ty) (vd vs1 vs2 : BitVec 4) (g : Guard) : Statement (.vand ty vd vs1 vs2 g) :=
  fun _ h => of_word h (encV_0_7 ..) rfl
theorem vor (ty : Ty) (vd vs1 vs2 : BitVec 4) (g : Guard) : Statement (.vor ty vd vs1 vs2 g) :=
  fun _ h => of_word h (encV_0_7 ..) rfl
theorem vxor (ty : Ty) (vd vs1 vs2 : BitVec 4) (g : Guard) : Statement (.vxor ty vd vs1 vs2 g) :=
  fun _ h => of_word h (encV_0_7 ..) rfl
theorem vshl (ty : Ty) (vd vs1 vs2 : BitVec 4) (g : Guard) : Statement (.vshl ty vd vs1 vs2 g) :=
  fun _ h => of_word h (encV_0_7 ..) rfl
theorem vshr (ty : Ty) (vd vs1 vs2 : BitVec 4) (g : Guard) : Statement (.vshr ty vd vs1 vs2 g) :=
  fun _ h => of_word h (encV_0_7 ..) rfl
theorem vslide (ty : Ty) (vd vs1 n : BitVec 4) (g : Guard) : Statement (.vslide ty vd vs1 n g) :=
  fun _ h => of_word h (encV_0_7 ..) rfl
theorem vsel (ty : Ty) (vd vs1 vs2 : BitVec 4) (g : Guard) : Statement (.vsel ty vd vs1 vs2 g) :=
  fun _ h => of_word h (encV_0_7 ..) rfl
theorem vcvt (ty dt : Ty) (vd vs1 : BitVec 4) (g : Guard) : Statement (.vcvt ty dt vd vs1 g) :=
  fun _ h => of_word h (encV_0_7 ..) rfl
theorem vred (ty : Ty) (vd vs1 : BitVec 4) (rop : RedOp) (g : Guard) : Statement (.vred ty vd vs1 rop g) :=
  fun _ h => of_word h (encV_0_7 ..) rfl
theorem vperm (ty : Ty) (vd vs1 vs2 : BitVec 4) (g : Guard) : Statement (.vperm ty vd vs1 vs2 g) :=
  fun _ h => of_word h (encV_0_7 ..) rfl
theorem vdiv (ty : Ty) (vd vs1 vs2 : BitVec 4) (g : Guard) : Statement (.vdiv ty vd vs1 vs2 g) :=
  fun _ h => of_word h (encV_0_7 ..) rfl
theorem vsqrt (ty : Ty) (vd vs1 : BitVec 4) (g : Guard) : Statement (.vsqrt ty vd vs1 g) :=
  fun _ h => of_word h (encV_0_7 ..) rfl
theorem vexp2 (ty : Ty) (vd vs1 : BitVec 4) (g : Guard) : Statement (.vexp2 ty vd vs1 g) :=
  fun _ h => of_word h (encV_0_7 ..) rfl
theorem vlog2 (ty : Ty) (vd vs1 : BitVec 4) (g : Guard) : Statement (.vlog2 ty vd vs1 g) :=
  fun _ h => of_word h (encV_0_7 ..) rfl
theorem vrsqrt (ty : Ty) (vd vs1 : BitVec 4) (g : Guard) : Statement (.vrsqrt ty vd vs1 g) :=
  fun _ h => of_word h (encV_0_7 ..) rfl
theorem vcmp (pred : Pred) (ty : Ty) (kd : BitVec 3) (dual : BitVec 1) (vs1 vs2 : BitVec 4) (g : Guard) : Statement (.vcmp pred ty kd dual vs1 vs2 g) :=
  fun _ h => of_word h (encV_0_7 ..) rfl
theorem vbcast (wd : Width) (vd : BitVec 4) (xs1 : BitVec 5) (g : Guard) : Statement (.vbcast wd vd xs1 g) :=
  fun _ h => of_word h (encVX_0_7 ..) rfl
theorem vext (xd : BitVec 5) (vs1 : BitVec 4) (xs1 : BitVec 5) : Statement (.vext xd vs1 xs1) :=
  fun _ h => of_word h (encVX_0_7 ..) rfl
theorem vins (vd : BitVec 4) (xs1 xs2 : BitVec 5) : Statement (.vins vd xs1 xs2) :=
  fun _ h => of_word h (encVX_0_7 ..) rfl
theorem kmovx (xd : BitVec 5) (ks : BitVec 3) : Statement (.kmovx xd ks) :=
  fun _ h => of_word h (encVX_0_7 ..) rfl
theorem kmovk (kd : BitVec 3) (xs1 : BitVec 5) (g : Guard) : Statement (.kmovk kd xs1 g) :=
  fun _ h => of_word h (encVX_0_7 ..) rfl
theorem kpop (xd : BitVec 5) (ks : BitVec 3) (g : Guard) : Statement (.kpop xd ks g) :=
  fun _ h => of_word h (encVX_0_7 ..) rfl
theorem kop (op : KOp) (kd ka kb : BitVec 3) (g : Guard) : Statement (.kop op kd ka kb g) :=
  fun _ h => of_word h (encVX_0_7 ..) rfl
theorem vld (vd : BitVec 4) (xs1 off : BitVec 5) (g : Guard) : Statement (.vld vd xs1 off g) :=
  fun _ h => of_word h (encVX_0_7 ..) rfl
theorem vldsB (vd : BitVec 4) (xs1 xs2 : BitVec 5) (g : Guard) : Statement (.vldsB vd xs1 xs2 g) :=
  fun _ h => of_word h (encVX_0_7 ..) rfl
theorem vldsH (vd : BitVec 4) (xs1 xs2 : BitVec 5) (g : Guard) : Statement (.vldsH vd xs1 xs2 g) :=
  fun _ h => of_word h (encVX_0_7 ..) rfl
theorem vldsW (vd : BitVec 4) (xs1 xs2 : BitVec 5) (g : Guard) : Statement (.vldsW vd xs1 xs2 g) :=
  fun _ h => of_word h (encVX_0_7 ..) rfl
theorem vldxB (vd : BitVec 4) (xs1 : BitVec 5) (vs2 : BitVec 4) (g : Guard) : Statement (.vldxB vd xs1 vs2 g) :=
  fun _ h => of_word h (encVX_0_7 ..) rfl
theorem vldxH (vd : BitVec 4) (xs1 : BitVec 5) (vs2 : BitVec 4) (g : Guard) : Statement (.vldxH vd xs1 vs2 g) :=
  fun _ h => of_word h (encVX_0_7 ..) rfl
theorem vldxW (vd : BitVec 4) (xs1 : BitVec 5) (vs2 : BitVec 4) (g : Guard) : Statement (.vldxW vd xs1 vs2 g) :=
  fun _ h => of_word h (encVX_0_7 ..) rfl
theorem vst (vs : BitVec 4) (xs1 off : BitVec 5) (g : Guard) : Statement (.vst vs xs1 off g) :=
  fun _ h => of_word h (encVX_0_7 ..) rfl
theorem vstsB (vs : BitVec 4) (xs1 xs2 : BitVec 5) (g : Guard) : Statement (.vstsB vs xs1 xs2 g) :=
  fun _ h => of_word h (encVX_0_7 ..) rfl
theorem vstsH (vs : BitVec 4) (xs1 xs2 : BitVec 5) (g : Guard) : Statement (.vstsH vs xs1 xs2 g) :=
  fun _ h => of_word h (encVX_0_7 ..) rfl
theorem vstsW (vs : BitVec 4) (xs1 xs2 : BitVec 5) (g : Guard) : Statement (.vstsW vs xs1 xs2 g) :=
  fun _ h => of_word h (encVX_0_7 ..) rfl
theorem vstxB (vs : BitVec 4) (xs1 : BitVec 5) (vs2 : BitVec 4) (g : Guard) : Statement (.vstxB vs xs1 vs2 g) :=
  fun _ h => of_word h (encVX_0_7 ..) rfl
theorem vstxH (vs : BitVec 4) (xs1 : BitVec 5) (vs2 : BitVec 4) (g : Guard) : Statement (.vstxH vs xs1 vs2 g) :=
  fun _ h => of_word h (encVX_0_7 ..) rfl
theorem vstxW (vs : BitVec 4) (xs1 : BitVec 5) (vs2 : BitVec 4) (g : Guard) : Statement (.vstxW vs xs1 vs2 g) :=
  fun _ h => of_word h (encVX_0_7 ..) rfl
theorem tidset (xs1 xs2 : BitVec 5) : Statement (.tidset xs1 xs2) :=
  fun _ h => of_word h (encR_0_7 ..) rfl
theorem tidget (xd xs1 xs2 : BitVec 5) : Statement (.tidget xd xs1 xs2) :=
  fun _ h => of_word h (encR_0_7 ..) rfl
theorem mzero (m : BitVec 2) (xs1 xs2 : BitVec 5) : Statement (.mzero m xs1 xs2) :=
  fun _ h => of_word h (encR_0_7 ..) rfl
theorem mma (m : BitVec 2) (xs1 xs2 : BitVec 5) : Statement (.mma m xs1 xs2) :=
  fun _ h => of_word h (encR_0_7 ..) rfl
theorem mmav (m : BitVec 2) (xs1 : BitVec 5) : Statement (.mmav m xs1) :=
  fun _ h => of_word h (encR_0_7 ..) rfl
theorem mmas (m : BitVec 2) (xs1 xs2 : BitVec 5) : Statement (.mmas m xs1 xs2) :=
  fun _ h => of_word h (encR_0_7 ..) rfl
theorem mread (m : BitVec 2) (xs1 : BitVec 5) : Statement (.mread m xs1) :=
  fun _ h => of_word h (encR_0_7 ..) rfl
theorem mwrite (m : BitVec 2) (xs1 : BitVec 5) : Statement (.mwrite m xs1) :=
  fun _ h => of_word h (encR_0_7 ..) rfl
theorem fold (xd xs1 xs2 xs3 : BitVec 5) : Statement (.fold xd xs1 xs2 xs3) :=
  fun _ h => of_word h (encQ_0_7 ..) rfl
theorem scan (xd xs1 xs2 xs3 : BitVec 5) : Statement (.scan xd xs1 xs2 xs3) :=
  fun _ h => of_word h (encQ_0_7 ..) rfl
theorem zip (xd xs1 xs2 xs3 : BitVec 5) : Statement (.zip xd xs1 xs2 xs3) :=
  fun _ h => of_word h (encQ_0_7 ..) rfl
theorem outer (xd xs1 xs2 xs3 : BitVec 5) : Statement (.outer xd xs1 xs2 xs3) :=
  fun _ h => of_word h (encQ_0_7 ..) rfl
theorem xop (vi : BitVec 1) (slot : BitVec 3) (vd vs1 vs2 : BitVec 4) (g : Guard) : Statement (.xop vi slot vd vs1 vs2 g) :=
  fun _ h => of_word h (encVH_0_7 ..) rfl
theorem xcopy (xd xs1 xs2 : BitVec 5) : Statement (.xcopy xd xs1 xs2) :=
  fun _ h => of_word h (encR_0_7 ..) rfl
theorem xfill (xd xs1 xs2 : BitVec 5) : Statement (.xfill xd xs1 xs2) :=
  fun _ h => of_word h (encR_0_7 ..) rfl
theorem wenc (xd xs1 xs2 : BitVec 5) : Statement (.wenc xd xs1 xs2) :=
  fun _ h => of_word h (encR_0_7 ..) rfl
theorem jtime (xd xs1 : BitVec 5) : Statement (.jtime xd xs1) :=
  fun _ h => of_word h (encR_0_7 ..) rfl
theorem jwait (xs1 : BitVec 5) : Statement (.jwait xs1) :=
  fun _ h => of_word h (encR_0_7 ..) rfl
theorem ttset (xs1 xs2 : BitVec 5) : Statement (.ttset xs1 xs2) :=
  fun _ h => of_word h (encR_0_7 ..) rfl
theorem tready (xs1 : BitVec 5) : Statement (.tready xs1) :=
  fun _ h => of_word h (encR_0_7 ..) rfl
theorem tstat (xd xs1 : BitVec 5) : Statement (.tstat xd xs1) :=
  fun _ h => of_word h (encR_0_7 ..) rfl
theorem cwait (xs1 xs2 : BitVec 5) : Statement (.cwait xs1 xs2) :=
  fun _ h => of_word h (encR_0_7 ..) rfl
theorem padv : Statement (.padv) :=
  fun _ h => of_word h (encR_0_7 ..) rfl
theorem pread (xd xs1 xs2 : BitVec 5) : Statement (.pread xd xs1 xs2) :=
  fun _ h => of_word h (encR_0_7 ..) rfl
theorem pjoin : Statement (.pjoin) :=
  fun _ h => of_word h (encR_0_7 ..) rfl
theorem pleave : Statement (.pleave) :=
  fun _ h => of_word h (encR_0_7 ..) rfl
theorem hop (xs1 : BitVec 5) : Statement (.hop xs1) :=
  fun _ h => of_word h (encR_0_7 ..) rfl
theorem give (xs1 xs2 : BitVec 5) : Statement (.give xs1 xs2) :=
  fun _ h => of_word h (encR_0_7 ..) rfl
theorem qput (xd xs1 xs2 : BitVec 5) : Statement (.qput xd xs1 xs2) :=
  fun _ h => of_word h (encR_0_7 ..) rfl
theorem qputw (xd xs1 xs2 : BitVec 5) : Statement (.qputw xd xs1 xs2) :=
  fun _ h => of_word h (encR_0_7 ..) rfl
theorem qsig (xs1 xs2 : BitVec 5) : Statement (.qsig xs1 xs2) :=
  fun _ h => of_word h (encR_0_7 ..) rfl
theorem xcopym (xd xs1 xs2 xs3 : BitVec 5) : Statement (.xcopym xd xs1 xs2 xs3) :=
  fun _ h => of_word h (encQ_0_7 ..) rfl
theorem trig (xd xs1 xs2 xs3 : BitVec 5) : Statement (.trig xd xs1 xs2 xs3) :=
  fun _ h => of_word h (encQ_0_7 ..) rfl
theorem waitc (ld st cp mx : BitVec 5) : Statement (.waitc ld st cp mx) :=
  fun _ h => of_word h (encW_0_7 ..) rfl
theorem tspawn (xd xs1 xs2 : BitVec 5) : Statement (.tspawn xd xs1 xs2) :=
  fun _ h => of_word h (encR_0_7 ..) rfl
theorem treap (xd xs1 : BitVec 5) : Statement (.treap xd xs1) :=
  fun _ h => of_word h (encR_0_7 ..) rfl
theorem tkill (xs1 : BitVec 5) : Statement (.tkill xs1) :=
  fun _ h => of_word h (encR_0_7 ..) rfl
theorem texit : Statement (.texit) :=
  fun _ h => of_word h (encR_0_7 ..) rfl
theorem tslot (xs1 xs2 : BitVec 5) : Statement (.tslot xs1 xs2) :=
  fun _ h => of_word h (encR_0_7 ..) rfl
theorem tsleep (xs1 : BitVec 5) : Statement (.tsleep xs1) :=
  fun _ h => of_word h (encR_0_7 ..) rfl
theorem barreg (xs1 xs2 : BitVec 5) : Statement (.barreg xs1 xs2) :=
  fun _ h => of_word h (encR_0_7 ..) rfl
theorem bara : Statement (.bara) :=
  fun _ h => of_word h (encR_0_7 ..) rfl
theorem mflush (xs1 xs2 : BitVec 5) : Statement (.mflush xs1 xs2) :=
  fun _ h => of_word h (encR_0_7 ..) rfl
theorem minv (xs1 xs2 : BitVec 5) : Statement (.minv xs1 xs2) :=
  fun _ h => of_word h (encR_0_7 ..) rfl
theorem amodr (xd xs1 xs2 : BitVec 5) (slot : BitVec 3) : Statement (.amodr xd xs1 xs2 slot) :=
  fun _ h => of_word h (encR_0_7 ..) rfl
theorem hload (xs1 xs2 : BitVec 5) : Statement (.hload xs1 xs2) :=
  fun _ h => of_word h (encR_0_7 ..) rfl
theorem hdrop (xs1 : BitVec 5) : Statement (.hdrop xs1) :=
  fun _ h => of_word h (encR_0_7 ..) rfl
theorem xopx (xd xs1 xs2 : BitVec 5) (slot : BitVec 3) : Statement (.xopx xd xs1 xs2 slot) :=
  fun _ h => of_word h (encR_0_7 ..) rfl
theorem tret : Statement (.tret) :=
  fun _ h => of_word h (encR_0_7 ..) rfl
theorem fencex (sc : Scope) (pred succ : BitVec 4) : Statement (.fencex sc pred succ) :=
  fun _ h => of_word h (encI_0_7 ..) rfl
theorem illegalInstruction (w : InstWord) : Statement (.illegalInstruction w) :=
  fun _ h => nomatch h
theorem fetchOutsideTheIstore : Statement (.fetchOutsideTheIstore) :=
  fun _ h => nomatch h
theorem rotationBoundary (t : TileNo) : Statement (.rotationBoundary t) :=
  fun _ h => nomatch h
theorem parkWake (t : TileNo) (c : CtxNo) : Statement (.parkWake t c) :=
  fun _ h => nomatch h
theorem parkWatchdog (t : TileNo) (c : CtxNo) : Statement (.parkWatchdog t c) :=
  fun _ h => nomatch h
theorem delivery (t : TileNo) (c : CtxNo) (n : Nat) : Statement (.delivery t c n) :=
  fun _ h => nomatch h
theorem inboxLand (t : TileNo) (n : Nat) : Statement (.inboxLand t n) :=
  fun _ h => nomatch h
theorem registerWindowWrite (t : TileNo) (c : CtxNo) (n : Nat) : Statement (.registerWindowWrite t c n) :=
  fun _ h => nomatch h
theorem heldResume (t : TileNo) (c : CtxNo) (n : Nat) : Statement (.heldResume t c n) :=
  fun _ h => nomatch h
theorem endingToFree (t : TileNo) (c : CtxNo) : Statement (.endingToFree t c) :=
  fun _ h => nomatch h
theorem loadComplete (t : TileNo) (c : CtxNo) (n k : Nat) : Statement (.loadComplete t c n k) :=
  fun _ h => nomatch h
theorem storePerformed (t : TileNo) (c : CtxNo) (n k : Nat) : Statement (.storePerformed t c n k) :=
  fun _ h => nomatch h
theorem mflushDone (t : TileNo) (c : CtxNo) (n : Nat) : Statement (.mflushDone t c n) :=
  fun _ h => nomatch h
theorem hloadComplete (t : TileNo) (c : CtxNo) (n : Nat) : Statement (.hloadComplete t c n) :=
  fun _ h => nomatch h
theorem qputPost (t : TileNo) (c : CtxNo) (n : Nat) : Statement (.qputPost t c n) :=
  fun _ h => nomatch h
theorem qputReply (t : TileNo) (c : CtxNo) (n : Nat) : Statement (.qputReply t c n) :=
  fun _ h => nomatch h
theorem amoRequest (t : TileNo) (c : CtxNo) (n : Nat) : Statement (.amoRequest t c n) :=
  fun _ h => nomatch h
theorem amoGrant (t : TileNo) (c : CtxNo) (n : Nat) : Statement (.amoGrant t c n) :=
  fun _ h => nomatch h
theorem amoRelease (t : TileNo) (c : CtxNo) (n : Nat) : Statement (.amoRelease t c n) :=
  fun _ h => nomatch h
theorem amoAck (t : TileNo) (c : CtxNo) (n : Nat) : Statement (.amoAck t c n) :=
  fun _ h => nomatch h
theorem leaseExpiry (t : TileNo) (c : CtxNo) : Statement (.leaseExpiry t c) :=
  fun _ h => nomatch h
theorem wrsStoTimeout (t : TileNo) (c : CtxNo) : Statement (.wrsStoTimeout t c) :=
  fun _ h => nomatch h
theorem cwaitPoll (t : TileNo) (c : CtxNo) : Statement (.cwaitPoll t c) :=
  fun _ h => nomatch h
theorem hostAtomicop (op : HostAtomic) (pa : BitVec 40) (tbit : Bool) : Statement (.hostAtomicop op pa tbit) :=
  fun _ h => nomatch h
theorem lateRefusal (t : TileNo) (c : CtxNo) (n : Nat) : Statement (.lateRefusal t c n) :=
  fun _ h => nomatch h
theorem trapEntry (t : TileNo) : Statement (.trapEntry t) :=
  fun _ h => nomatch h
theorem loomTimeCompare (t : TileNo) : Statement (.loomTimeCompare t) :=
  fun _ h => nomatch h
theorem preemptOrder (t : TileNo) (launch : BitVec 2) (buf : Word) (resume : Bool) : Statement (.preemptOrder t launch buf resume) :=
  fun _ h => nomatch h
theorem uncorrectableError (site : EccSite) : Statement (.uncorrectableError site) :=
  fun _ h => nomatch h
theorem correctedError (t : TileNo) : Statement (.correctedError t) :=
  fun _ h => nomatch h
theorem matrixOpStart (t : TileNo) : Statement (.matrixOpStart t) :=
  fun _ h => nomatch h
theorem matrixOpComplete (t : TileNo) : Statement (.matrixOpComplete t) :=
  fun _ h => nomatch h
theorem cardSchedule (t : TileNo) (j : BitVec 16) : Statement (.cardSchedule t j) :=
  fun _ h => nomatch h
theorem engineAccept (t : TileNo) (j : BitVec 16) (e : BitVec 5) (p : Word) : Statement (.engineAccept t j e p) :=
  fun _ h => nomatch h
theorem cardCompletion (t : TileNo) (j : BitVec 16) (k : CardRun) : Statement (.cardCompletion t j k) :=
  fun _ h => nomatch h
theorem cardStop (t : TileNo) (j : BitVec 16) : Statement (.cardStop t j) :=
  fun _ h => nomatch h
theorem xcopymFollowOn (t : TileNo) (j : BitVec 16) : Statement (.xcopymFollowOn t j) :=
  fun _ h => nomatch h
theorem trigFire (t : TileNo) (j : BitVec 16) : Statement (.trigFire t j) :=
  fun _ h => nomatch h
theorem jobPromiseMissed (t : TileNo) (c : CtxNo) : Statement (.jobPromiseMissed t c) :=
  fun _ h => nomatch h
theorem jobctlSelect (t : TileNo) (c : CtxNo) (n : Nat) : Statement (.jobctlSelect t c n) :=
  fun _ h => nomatch h
theorem jobctlResume (t : TileNo) (c : CtxNo) (n : Nat) (p : Word) : Statement (.jobctlResume t c n p) :=
  fun _ h => nomatch h
theorem jobctlAbort (t : TileNo) (c : CtxNo) (n : Nat) : Statement (.jobctlAbort t c n) :=
  fun _ h => nomatch h
theorem reqctlReplay (t : TileNo) (c : CtxNo) (n : Nat) : Statement (.reqctlReplay t c n) :=
  fun _ h => nomatch h
theorem reqctlDrop (t : TileNo) (c : CtxNo) (n : Nat) : Statement (.reqctlDrop t c n) :=
  fun _ h => nomatch h
theorem stopctlStop (t : TileNo) (c : CtxNo) (n : Nat) : Statement (.stopctlStop t c n) :=
  fun _ h => nomatch h
theorem stopctlRelease (t : TileNo) (c : CtxNo) (n : Nat) : Statement (.stopctlRelease t c n) :=
  fun _ h => nomatch h
theorem drainComplete (t : TileNo) : Statement (.drainComplete t) :=
  fun _ h => nomatch h
theorem pres (t : TileNo) (c : CtxNo) (n : Nat) : Statement (.pres t c n) :=
  fun _ h => nomatch h
theorem phold (t : TileNo) (en : Bool) (p : BitVec 60) : Statement (.phold t en p) :=
  fun _ h => nomatch h
theorem pexcuse (t : TileNo) (c : CtxNo) (n : Nat) : Statement (.pexcuse t c n) :=
  fun _ h => nomatch h
theorem pickUpdate (n : Nat) : Statement (.pickUpdate n) :=
  fun _ h => nomatch h
theorem pickStall (t : TileNo) (c : CtxNo) : Statement (.pickStall t c) :=
  fun _ h => nomatch h
theorem preadRequest (t : TileNo) (c : CtxNo) (n : Nat) : Statement (.preadRequest t c n) :=
  fun _ h => nomatch h
theorem preadReply (t : TileNo) (c : CtxNo) (n : Nat) : Statement (.preadReply t c n) :=
  fun _ h => nomatch h
theorem shuttle (n : Nat) : Statement (.shuttle n) :=
  fun _ h => nomatch h
theorem shuttleRefusal (n : Nat) : Statement (.shuttleRefusal n) :=
  fun _ h => nomatch h
theorem shuttleResend (t : TileNo) (c : CtxNo) : Statement (.shuttleResend t c) :=
  fun _ h => nomatch h
theorem chunkArrival (p : PacketRef) : Statement (.chunkArrival p) :=
  fun _ h => nomatch h
theorem chunkAck (p : PacketRef) : Statement (.chunkAck p) :=
  fun _ h => nomatch h
theorem reduceCompletionNotice (p : PacketRef) : Statement (.reduceCompletionNotice p) :=
  fun _ h => nomatch h
theorem hopTimeout (t : TileNo) (e : BitVec 6) (k : Nat) : Statement (.hopTimeout t e k) :=
  fun _ h => nomatch h
theorem altRequest (p : PacketRef) : Statement (.altRequest p) :=
  fun _ h => nomatch h
theorem collectiveFailure (t : TileNo) (e : BitVec 6) : Statement (.collectiveFailure t e) :=
  fun _ h => nomatch h
theorem linkReplay (e : FlitError) : Statement (.linkReplay e) :=
  fun _ h => nomatch h
theorem auditSend (port : BitVec 4) : Statement (.auditSend port) :=
  fun _ h => nomatch h
theorem tableWalk (t : TileNo) (q : QueueNo) (va : Word) : Statement (.tableWalk t q va) :=
  fun _ h => nomatch h
theorem bufferEviction (line : Nat) : Statement (.bufferEviction line) :=
  fun _ h => nomatch h
theorem notifyWrite (q : QueueNo) : Statement (.notifyWrite q) :=
  fun _ h => nomatch h
theorem queueMapping (q : QueueNo) : Statement (.queueMapping q) :=
  fun _ h => nomatch h
theorem queueScheduleTick : Statement (.queueScheduleTick) :=
  fun _ h => nomatch h
theorem commandStart (q : QueueNo) : Statement (.commandStart q) :=
  fun _ h => nomatch h
theorem commandComplete (q : QueueNo) : Statement (.commandComplete q) :=
  fun _ h => nomatch h
theorem launch (q : QueueNo) : Statement (.launch q) :=
  fun _ h => nomatch h
theorem launchPlacementRetry (q : QueueNo) : Statement (.launchPlacementRetry q) :=
  fun _ h => nomatch h
theorem startMessage (n : Nat) : Statement (.startMessage n) :=
  fun _ h => nomatch h
theorem wait (q : QueueNo) : Statement (.wait q) :=
  fun _ h => nomatch h
theorem waitEvaluate (q : QueueNo) : Statement (.waitEvaluate q) :=
  fun _ h => nomatch h
theorem waitTimeout (q : QueueNo) : Statement (.waitTimeout q) :=
  fun _ h => nomatch h
theorem signal (q : QueueNo) : Statement (.signal q) :=
  fun _ h => nomatch h
theorem timed (q : QueueNo) : Statement (.timed q) :=
  fun _ h => nomatch h
theorem timedExpiry (q : QueueNo) : Statement (.timedExpiry q) :=
  fun _ h => nomatch h
theorem notbeforeExpiry (q : QueueNo) : Statement (.notbeforeExpiry q) :=
  fun _ h => nomatch h
theorem flush (q : QueueNo) : Statement (.flush q) :=
  fun _ h => nomatch h
theorem inv (q : QueueNo) : Statement (.inv q) :=
  fun _ h => nomatch h
theorem fenceCommand (q : QueueNo) : Statement (.fenceCommand q) :=
  fun _ h => nomatch h
theorem copy (q : QueueNo) : Statement (.copy q) :=
  fun _ h => nomatch h
theorem tlbinv (q : QueueNo) : Statement (.tlbinv q) :=
  fun _ h => nomatch h
theorem hostBar2Access (acc : HostAccess) (pa : BitVec 40) (tbit : Bool) : Statement (.hostBar2Access acc pa tbit) :=
  fun _ h => nomatch h
theorem hostFlagWindowAccess (acc : HostAccess) (off : BitVec 22) (tbit : Bool) : Statement (.hostFlagWindowAccess acc off tbit) :=
  fun _ h => nomatch h
theorem registerWrite (r : RegWrite) : Statement (.registerWrite r) :=
  fun _ h => nomatch h
theorem pkgerrClear (v : Word) (tbit : Bool) : Statement (.pkgerrClear v tbit) :=
  fun _ h => nomatch h
theorem monloadGo (v : Word) (tbit : Bool) : Statement (.monloadGo v tbit) :=
  fun _ h => nomatch h
theorem pwrctlWrite (v : Word) (tbit : Bool) : Statement (.pwrctlWrite v tbit) :=
  fun _ h => nomatch h
theorem standbyEntry : Statement (.standbyEntry) :=
  fun _ h => nomatch h
theorem thermalMeasurement (tmax : BitVec 8) : Statement (.thermalMeasurement tmax) :=
  fun _ h => nomatch h
theorem packageReset (img : BootInput) : Statement (.packageReset img) :=
  fun _ h => nomatch h
theorem lockInterface : Statement (.lockInterface) :=
  fun _ h => nomatch h
theorem startInterface : Statement (.startInterface) :=
  fun _ h => nomatch h
theorem stopInterface : Statement (.stopInterface) :=
  fun _ h => nomatch h
theorem ideIntegrityFailure : Statement (.ideIntegrityFailure) :=
  fun _ h => nomatch h
theorem getMeasurements (idx : BitVec 8) : Statement (.getMeasurements idx) :=
  fun _ h => nomatch h
theorem keyExchange : Statement (.keyExchange) :=
  fun _ h => nomatch h
theorem linkTraining (port : BitVec 4) (ok : Bool) (delay : BitVec 16) : Statement (.linkTraining port ok delay) :=
  fun _ h => nomatch h
theorem linkRetrain (port : BitVec 4) (ok : Bool) : Statement (.linkRetrain port ok) :=
  fun _ h => nomatch h
theorem auditFlit (port : BitVec 4) (sent credits : BitVec 32) (m : AuditMsg) : Statement (.auditFlit port sent credits m) :=
  fun _ h => nomatch h
theorem creditCounterParityError (port : BitVec 4) : Statement (.creditCounterParityError port) :=
  fun _ h => nomatch h

end Sys2Proof.Laws.Encoding
end

