-- ==== Sys2Proof/Tests/Slice0.lean ====
section
/-! SUPPORT. Tests of the model: ill-formed terms that the check refuses, words of the manual's tables that decode to their
instructions, single steps against the manual's worked values, and states that meet the hypotheses of the statements. -/

namespace Sys2Proof.Tests

open Sys2Proof Sys2Proof.Machine

/-! ### Ill-formed instructions (R45, R47, R51) -/

/-- One term for each check of Instr.wf: the sets of types, pairs, triples, double pairs and the reserved fence. -/
theorem test_ill_formed : ([
  .fence 1 0, .vadd .e4 1 2 3 Guard.none, .vsub .e5 1 2 3 Guard.none, .vmul .e4 1 2 3 Guard.none,
  .vfma .e4 1 2 3 Guard.none, .vmin .e5 1 2 3 Guard.none, .vmax .e4 1 2 3 Guard.none, .vabs .n8 1 2 Guard.none,
  .vneg .n32 1 2 Guard.none, .vclamp .e4 1 2 3 Guard.none, .vand .f16 1 2 3 Guard.none, .vor .f32 1 2 3 Guard.none,
  .vxor .bf16 1 2 3 Guard.none, .vshl .f32 1 2 3 Guard.none, .vshr .e5 1 2 3 Guard.none, .vred .f16 1 2 .xor Guard.none,
  .vred .e4 1 2 .add Guard.none, .vdiv .i32 1 2 3 Guard.none, .vsqrt .n8 1 2 Guard.none, .vexp2 .e4 1 2 Guard.none,
  .vlog2 .i16 1 2 Guard.none, .vrsqrt .e5 1 2 Guard.none, .vcmp .un .i8 1 0 2 3 Guard.none,
  .vcmp .eq .e4 1 0 2 3 Guard.none, .mzero 0 11 12, .mzero 0 12 13, .mma 0 12 13, .mmav 0 13, .mmas 0 30 12, .mmas 0 12 13,
  .mread 0 5, .mwrite 0 7, .fold 1 3 4 5, .scan 1 4 3 5, .zip 1 6 4 5, .zip 1 4 3 5, .outer 1 2 4 5, .xcopy 1 3 4,
  .xfill 1 2 3, .wenc 1 2 3, .xcopym 1 3 4 5, .trig 1 4 5 6] : List Instr).all (fun i => !i.wf) = true := by decide

/-! ### Words written from the encoding tables (R41 to R63) -/

/-- Whether a word decodes to an instruction. -/
def reads (p : InstWord × Instr) : Bool := match decode p.1 with | .ok i => i == p.2 | .error _ => false

/-- The name with which a word is refused. -/
def refusedAs (w : InstWord) (r : Reject) : Bool := match decode w with | .ok _ => false | .error e => e == r

/-- Words that no row assigns, each refused under its own name (R39, R41, R43, R47, R51, R52, R61, R63). -/
theorem test_refused : ([
  (0x00000000, .lowBits), (0x00000007, .reservedOpcode), (0x00002063, .unassigned), (0xFFFFF05B, .mustBeZero),
  (0x020010FB, .mustBeZero), (0x9A18B08B, .badType), (0x8B31018B, .badCode), (0x6000507B, .badCode), (0x0706A12B, .badBase)] :
    List (InstWord × Reject)).all (fun p => refusedAs p.1 p.2) = true := by decide

theorem test_decode_upper : ([
  (0x9A5C3337, .lui 6 632259),
  (0x9A5C3317, .auipc 6 632259)] : List (InstWord × Instr)).all reads = true := by decide

theorem test_decode_jumps : ([
  (0x9A5C336F, .jal 6 924882),
  (0xABC50367, .jalr 6 10 2748)] : List (InstWord × Instr)).all reads = true := by decide

theorem test_decode_branches : ([
  (0xAD4505E3, .beq 10 20 3429),
  (0xAD4515E3, .bne 10 20 3429),
  (0xAD4545E3, .blt 10 20 3429),
  (0xAD4555E3, .bge 10 20 3429),
  (0xAD4565E3, .bltu 10 20 3429),
  (0xAD4575E3, .bgeu 10 20 3429)] : List (InstWord × Instr)).all reads = true := by decide

theorem test_decode_loads : ([
  (0xABC50303, .lb 6 10 2748),
  (0xABC51303, .lh 6 10 2748),
  (0xABC52303, .lw 6 10 2748),
  (0xABC53303, .ld 6 10 2748),
  (0xABC54303, .lbu 6 10 2748),
  (0xABC55303, .lhu 6 10 2748),
  (0xABC56303, .lwu 6 10 2748)] : List (InstWord × Instr)).all reads = true := by decide

theorem test_decode_stores : ([
  (0xAD4505A3, .sb 20 10 2763),
  (0xAD4515A3, .sh 20 10 2763),
  (0xAD4525A3, .sw 20 10 2763),
  (0xAD4535A3, .sd 20 10 2763)] : List (InstWord × Instr)).all reads = true := by decide

theorem test_decode_immediate : ([
  (0xABC50313, .addi 6 10 2748),
  (0xABC52313, .slti 6 10 2748),
  (0xABC53313, .sltiu 6 10 2748),
  (0xABC54313, .xori 6 10 2748),
  (0xABC56313, .ori 6 10 2748),
  (0xABC57313, .andi 6 10 2748),
  (0x02651313, .slli 6 10 38),
  (0x02655313, .srli 6 10 38),
  (0x42655313, .srai 6 10 38)] : List (InstWord × Instr)).all reads = true := by decide

theorem test_decode_register : ([
  (0x01450333, .add 6 10 20),
  (0x41450333, .sub 6 10 20),
  (0x01451333, .sll 6 10 20),
  (0x01452333, .slt 6 10 20),
  (0x01453333, .sltu 6 10 20),
  (0x01454333, .xor 6 10 20),
  (0x01455333, .srl 6 10 20),
  (0x41455333, .sra 6 10 20),
  (0x01456333, .or 6 10 20),
  (0x01457333, .and 6 10 20),
  (0x03450333, .mul 6 10 20),
  (0x03451333, .mulh 6 10 20),
  (0x03452333, .mulhsu 6 10 20),
  (0x03453333, .mulhu 6 10 20),
  (0x03454333, .div 6 10 20),
  (0x03455333, .divu 6 10 20),
  (0x03456333, .rem 6 10 20),
  (0x03457333, .remu 6 10 20)] : List (InstWord × Instr)).all reads = true := by decide

theorem test_decode_atomics : ([
  (0x1405332F, .lr 6 10 1 1 0),
  (0x1D45332F, .sc 6 10 20 1 1 0),
  (0x0D45332F, .amoswap 6 10 20 1 1 0),
  (0x0545332F, .amoadd 6 10 20 1 1 0),
  (0x2545332F, .amoxor 6 10 20 1 1 0),
  (0x6545332F, .amoand 6 10 20 1 1 0),
  (0x4545332F, .amoor 6 10 20 1 1 0),
  (0x8545332F, .amomin 6 10 20 1 1 0),
  (0xA545332F, .amomax 6 10 20 1 1 0),
  (0xC545332F, .amominu 6 10 20 1 1 0),
  (0xE545332F, .amomaxu 6 10 20 1 1 0)] : List (InstWord × Instr)).all reads = true := by decide

theorem test_decode_fences : ([
  (0x0690000F, .fence 6 9),
  (0x8330000F, .fenceTso),
  (0x0100000F, .pause),
  (0x0000100F, .fenceI)] : List (InstWord × Instr)).all reads = true := by decide

theorem test_decode_system : ([
  (0x00000073, .ecall),
  (0x00100073, .ebreak),
  (0x00D00073, .wrsNto),
  (0x01D00073, .wrsSto),
  (0x80251373, .csrrw 6 2050 10),
  (0x80252373, .csrrs 6 2050 10),
  (0x80253373, .csrrc 6 2050 10),
  (0x8024D373, .csrrwi 6 2050 9),
  (0x8024E373, .csrrsi 6 2050 9),
  (0x8024F373, .csrrci 6 2050 9)] : List (InstWord × Instr)).all reads = true := by decide

theorem test_decode_vector_1 : ([
  (0x0176DB0B, .vadd .i16 6 13 14 ⟨5, 1⟩),
  (0x0976DB0B, .vsub .i16 6 13 14 ⟨5, 1⟩),
  (0x1176DB0B, .vmul .i16 6 13 14 ⟨5, 1⟩),
  (0x1976DB0B, .vfma .i16 6 13 14 ⟨5, 1⟩),
  (0x2176DB0B, .vmin .i16 6 13 14 ⟨5, 1⟩),
  (0x2976DB0B, .vmax .i16 6 13 14 ⟨5, 1⟩),
  (0x3106DB0B, .vabs .i16 6 13 ⟨5, 1⟩),
  (0x3906DB0B, .vneg .i16 6 13 ⟨5, 1⟩),
  (0x4176DB0B, .vclamp .i16 6 13 14 ⟨5, 1⟩),
  (0x4976DB0B, .vand .i16 6 13 14 ⟨5, 1⟩),
  (0x5176DB0B, .vor .i16 6 13 14 ⟨5, 1⟩),
  (0x5976DB0B, .vxor .i16 6 13 14 ⟨5, 1⟩),
  (0x6176DB0B, .vshl .i16 6 13 14 ⟨5, 1⟩),
  (0x6976DB0B, .vshr .i16 6 13 14 ⟨5, 1⟩),
  (0x715EDB0B, .vslide .i16 6 13 11 ⟨5, 1⟩),
  (0x7976DB0B, .vsel .i16 6 13 14 ⟨5, 1⟩),
  (0x8146DB0B, .vcvt .i16 .f32 6 13 ⟨5, 1⟩),
  (0x8B16DB0B, .vred .f16 6 13 .max ⟨5, 1⟩),
  (0x9176DB0B, .vperm .i16 6 13 14 ⟨5, 1⟩),
  (0x9B76DB0B, .vdiv .f16 6 13 14 ⟨5, 1⟩)] : List (InstWord × Instr)).all reads = true := by decide

theorem test_decode_vector_2 : ([
  (0xA306DB0B, .vsqrt .f16 6 13 ⟨5, 1⟩),
  (0xAB06DB0B, .vexp2 .f16 6 13 ⟨5, 1⟩),
  (0xB306DB0B, .vlog2 .f16 6 13 ⟨5, 1⟩),
  (0xBB06DB0B, .vrsqrt .f16 6 13 ⟨5, 1⟩),
  (0xE376DD8B, .vcmp .gt .f16 3 1 13 14 ⟨5, 1⟩)] : List (InstWord × Instr)).all reads = true := by decide

theorem test_decode_custom1_1 : ([
  (0x0A250B2B, .vbcast .w 6 10 ⟨5, 1⟩),
  (0x106504AB, .vext 6 9 10),
  (0x2145032B, .vins 6 10 20),
  (0x306001AB, .kmovx 6 3),
  (0x4A0509AB, .kmovk 3 10 ⟨5, 1⟩),
  (0x5A6009AB, .kpop 6 3 ⟨5, 1⟩),
  (0x6A6E09AB, .kop .andn 3 4 6 ⟨5, 1⟩),
  (0x0B651B2B, .vld 6 10 22 ⟨5, 1⟩),
  (0x1B451B2B, .vldsB 6 10 20 ⟨5, 1⟩),
  (0x2B451B2B, .vldsH 6 10 20 ⟨5, 1⟩),
  (0x3B451B2B, .vldsW 6 10 20 ⟨5, 1⟩),
  (0x4A951B2B, .vldxB 6 10 9 ⟨5, 1⟩),
  (0x5A951B2B, .vldxH 6 10 9 ⟨5, 1⟩),
  (0x6A951B2B, .vldxW 6 10 9 ⟨5, 1⟩),
  (0x8B651CAB, .vst 9 10 22 ⟨5, 1⟩),
  (0x9B451CAB, .vstsB 9 10 20 ⟨5, 1⟩),
  (0xAB451CAB, .vstsH 9 10 20 ⟨5, 1⟩),
  (0xBB451CAB, .vstsW 9 10 20 ⟨5, 1⟩),
  (0xCA951CAB, .vstxB 9 10 9 ⟨5, 1⟩),
  (0xDA951CAB, .vstxH 9 10 9 ⟨5, 1⟩)] : List (InstWord × Instr)).all reads = true := by decide

theorem test_decode_custom1_2 : ([
  (0xEA951CAB, .vstxW 9 10 9 ⟨5, 1⟩),
  (0x0145202B, .tidset 10 20),
  (0x0345232B, .tidget 6 10 20),
  (0x0545212B, .mzero 2 10 20),
  (0x0745212B, .mma 2 10 20),
  (0x0805212B, .mmav 2 10),
  (0x0B45212B, .mmas 2 10 20),
  (0x0C05212B, .mread 2 10),
  (0x0E05212B, .mwrite 2 10),
  (0xC945332B, .fold 6 10 20 25),
  (0xCB45332B, .scan 6 10 20 25),
  (0xCD46332B, .zip 6 12 20 25),
  (0xCF46332B, .outer 6 12 20 25),
  (0x3AF6CB2B, .xop 1 6 6 13 14 ⟨5, 1⟩)] : List (InstWord × Instr)).all reads = true := by decide

theorem test_decode_custom2_1 : ([
  (0x0145035B, .xcopy 6 10 20),
  (0x0345035B, .xfill 6 10 20),
  (0x0545035B, .wenc 6 10 20),
  (0x0605035B, .jtime 6 10),
  (0x0805005B, .jwait 10),
  (0x0145105B, .ttset 10 20),
  (0x0205105B, .tready 10),
  (0x0405135B, .tstat 6 10),
  (0x0745105B, .cwait 10 20),
  (0x0000205B, .padv),
  (0x0345235B, .pread 6 10 20),
  (0x0400205B, .pjoin),
  (0x0600205B, .pleave),
  (0x0005305B, .hop 10),
  (0x0345305B, .give 10 20),
  (0x0145435B, .qput 6 10 20),
  (0x0345435B, .qputw 6 10 20),
  (0x0545405B, .qsig 10 20),
  (0xC945535B, .xcopym 6 10 20 25),
  (0xCB45535B, .trig 6 10 20 25)] : List (InstWord × Instr)).all reads = true := by decide

theorem test_decode_custom2_2 : ([
  (0x03F67F5B, .waitc 30 12 31 1)] : List (InstWord × Instr)).all reads = true := by decide

theorem test_decode_custom3 : ([
  (0x0145037B, .tspawn 6 10 20),
  (0x0205037B, .treap 6 10),
  (0x0405007B, .tkill 10),
  (0x0600007B, .texit),
  (0x0945007B, .tslot 10 20),
  (0x0A05007B, .tsleep 10),
  (0x0145107B, .barreg 10 20),
  (0x0200107B, .bara),
  (0x0145207B, .mflush 10 20),
  (0x0345207B, .minv 10 20),
  (0x2D45237B, .amodr 6 10 20 6),
  (0x0145307B, .hload 10 20),
  (0x0205307B, .hdrop 10),
  (0x2D45337B, .xopx 6 10 20 6),
  (0x0000407B, .tret),
  (0x3690507B, .fencex .die 6 9)] : List (InstWord × Instr)).all reads = true := by decide

/-! ### Small states -/

/-- A context that runs. -/
def k0 : Ctx := { Ctx.reset with state := .ready }
/-- The same with some x registers. -/
def kx (x : List (Nat × Word)) : Ctx := { k0 with x := x }
/-- A package with one tile, whose context 1 executes. -/
def st (k : Ctx) (f : Tile → Tile := id) : State :=
  { State.reset with cur := (0, 1), tiles := [(0, f { Tile.reset with ctxs := [(1, k)] })] }
/-- The same with context 0 executing. -/
def st0 (k : Ctx) (f : Tile → Tile := id) : State :=
  { State.reset with cur := (0, 0), tiles := [(0, f { Tile.reset with ctxs := [(0, k)] })] }
/-- A launch resident in group 0, with every context of the tile. -/
def res : Resident :=
  { id := 1, queue := 0, ptroot := 0, group := 0, size := 16, weight := 1, cls := 0, ioff := 0, isize := 0x1000, tidFirst := 0, tidCnt := 4
    ttFirst := 0, ttCnt := 2, slotmask := 1, picks := true, rect := (0, 0, 1, 0), lidx := [0], ldim := [1], thread := none
    ended := false }
/-- A tile with the launch. -/
def live (t : Tile) : Tile := { t with split := 16, residents := [res] }
/-- The base of the LS window (R150). -/
def ls0 : Word := 0xFFFFFFFFFF000000
/-- An address in main memory, and one that no access may name. -/
def far : Word := 0x10000
def wild : Word := 0x8000000000000000

/-! ### Hypotheses of the statements are met -/

theorem witness_IntegerGroups : Free [1, 2] [3] (st k0) ∧ Free [24, 2] [25] (st { k0 with qmode := 3, full := 1 }) := ⟨rfl, rfl⟩

theorem witness_Divisions : Free [1, 2] [3] (st k0) ∧ ¬Free [24, 2] [3] (st { k0 with qmode := 1 }) :=
  ⟨rfl, by unfold Free; exact fun h => nomatch h⟩

theorem witness_UpperImmediate : Free [] [5] (st k0) ∧ ¬Free [] [24] (st { k0 with qmode := 1, full := 1 }) :=
  ⟨rfl, by unfold Free; exact fun h => nomatch h⟩

/-- Taken to an aligned target, taken to a misaligned one, not taken; a jump to each. -/
theorem witness_ControlTransfers :
    (Free [1, 2] [] (st k0) ∧ (st k0).me.getX 1 = (st k0).me.getX 2 ∧ ((st k0).me.pcNow + 8).toNat % 4 = 0 ∧
      ((st k0).me.pcNow + 2).toNat % 4 ≠ 0) ∧
    ((st (kx [(1, 1)])).me.getX 1 ≠ (st (kx [(1, 1)])).me.getX 2) ∧
    (Free [5] [1] (st (kx [(5, 6)])) ∧ ((st (kx [(5, 6)])).me.getX 5 &&& ~~~1).toNat % 4 ≠ 0) ∧
    ((st (kx [(5, 9)])).me.getX 5 &&& ~~~1).toNat % 4 = 0 :=
  ⟨⟨rfl, by decide, by decide, by decide⟩, by decide, ⟨rfl, by decide⟩, by decide⟩

/-- A load and a store that issue, that are misaligned by one, that are not allowed, and that find no room. -/
theorem witness_LoadStoreIssue :
    let s (a : Word) (n : Nat) : State := st { kx [(5, a)] with ld := n, st := n }
    Free [5] [6] (s ls0 15) ∧ Free [5, 6] [] (s ls0 15) ∧
    ((s ls0 15).checkAccess 0 1 false .scalar 8 ls0 = true ∧ (s ls0 15).checkAccess 0 1 true .scalar 8 ls0 = true) ∧
    ((s ls0 15).me.ld < 16 ∧ ¬(s ls0 16).me.ld < 16 ∧ (s ls0 15).translated 0 ls0 = false) ∧
    ((ls0 + 1).toNat % 2 ≠ 0) ∧
    (wild.toNat % 8 = 0 ∧ (s wild 0).checkAccess 0 1 false .scalar 8 wild = false ∧
      (s wild 0).checkAccess 0 1 true .scalar 8 wild = false) :=
  ⟨rfl, rfl, by decide, by decide, by decide, by decide⟩

/-- A load in flight, of the LS word at 0. -/
def loadReq : Req := (kx []).mkReq (.load true) 8 0 (.x 6 false) [⟨ls0, 8, 0, false, []⟩] false
/-- A store in flight, of two bytes to the LS word at 8. -/
def storeReq : Req := (kx []).mkReq .store 2 0x1234 .none [⟨ls0 + 8, 2, 0, false, [0x34, 0x12]⟩] false
/-- A context with one request in flight. -/
def kr (q : Req) : Ctx := { k0 with reqs := [q], ld := 1, st := 1, seq := 1, num := 1 }

/-- Entries of the FIFO of a word: a plain store of another context, an atomic of context 1. -/
def fe (c : CtxNo) (n : BitVec 16) (g : Bool) : FifoEntry := ⟨0, c, n, g, false, true, none, none, none, false⟩

/-- A load and a store that may be performed, the store with an empty FIFO, at the head of it, and behind another entry. -/
theorem witness_LoadStorePerformed :
    let s := st (kr loadReq)
    let u := st (kr storeReq)
    let e : Elem := ⟨ls0 + 8, 2, 0, false, [0x34, 0x12]⟩
    let w : Place := .ls 0 8
    let v : State := { u with homes := [⟨w, [fe 2 1 true], [], [], []⟩] }
    let z : State := { u with homes := [⟨w, [storeEntry 0 1 storeReq e], [], [], []⟩] }
    (s.req 0 1 0 = some loadReq ∧ loadReq.phase = .issued ∧ loadReq.kind = .load true ∧
      loadReq.elems = [⟨ls0, 8, 0, false, []⟩] ∧ loadReq.dst = .x 6 false ∧
      (∀ q ∈ (s.ctx 0 1).reqs, q.seq = loadReq.seq → q = loadReq) ∧
      s.mayPerform 0 1 loadReq [⟨ls0, 8, 0, false, []⟩] = true ∧
      s.reach 0 (s.tag 0 1) true false ls0 = .place (.ls 0 0) false false ∧ s.poisoned (.ls 0 0) = false ∧
      s.holds 0 1 (.ls 0 0) = false ∧ s.RoomAt (.ls 0 0)) ∧
    (∀ x ∈ [u, v, z], x.LinesOk ∧ x.RoomAt w) ∧
    (∀ x ∈ [u, v, z], x.req 0 1 0 = some storeReq ∧ (∀ q ∈ (x.ctx 0 1).reqs, q.seq = storeReq.seq → q = storeReq) ∧
      storeReq.elems[0]? = some e ∧ x.mayPerform 0 1 storeReq [e] = true ∧
      x.reach 0 (x.tag 0 1) false true (ls0 + 8) = .place w false false ∧ x.poisoned w = false ∧
      (∀ i < 2, (w.add i).stored = true ∧ (w.add i).word8 = w.word8) ∧ storeReq.together x.part 0 0 = [0]) ∧
    ((u.home w).fifo = [] ∧ (v.home w).fifo ≠ [] ∧ (v.home w).fifo.head? ≠ some (storeEntry 0 1 storeReq e) ∧
      (z.home w).fifo.head? = some (storeEntry 0 1 storeReq e)) := by
  refine ⟨⟨rfl, rfl, rfl, rfl, rfl, by decide, by decide, rfl, by decide, by decide, fun _ h => (nomatch h)⟩, ?_, ?_, by decide⟩
  · intro z hz
    refine ⟨fun l n h => ?_, fun _ h => (nomatch h)⟩
    simp only [List.mem_cons, List.not_mem_nil, or_false] at hz
    rcases hz with rfl | rfl | rfl <;> exact nomatch h
  · intro z hz
    simp only [List.mem_cons, List.not_mem_nil, or_false] at hz
    rcases hz with rfl | rfl | rfl <;> exact ⟨rfl, by decide, rfl, by decide, rfl, by decide, by decide, by decide⟩

/-- A vector load with one element left, and with two. -/
def vloadReq (done : Bool) : Req :=
  (kx []).mkReq .vload 4 0 (.v 3) [⟨ls0, 4, 0, false, []⟩, ⟨ls0 + 4, 4, 4, done, [1, 2, 3, 4]⟩] false

theorem witness_VectorLoads : ∀ b ∈ [false, true], let s := st (kr (vloadReq b))
    s.req 0 1 0 = some (vloadReq b) ∧ (vloadReq b).phase = .issued ∧ (vloadReq b).elems[0]? = some ⟨ls0, 4, 0, false, []⟩ ∧
    (∀ q ∈ (s.ctx 0 1).reqs, q.seq = (vloadReq b).seq → q = vloadReq b) ∧
    s.mayPerform 0 1 (vloadReq b) [⟨ls0, 4, 0, false, []⟩] = true ∧
    s.reach 0 (s.tag 0 1) true false ls0 = .place (.ls 0 0) false false ∧ s.poisoned (.ls 0 0) = false ∧
    s.holds 0 1 (.ls 0 0) = false ∧
    ((∀ e ∈ setNth 0 { (⟨ls0, 4, 0, false, []⟩ : Elem) with done := true, bytes := [0, 0, 0, 0] } (vloadReq b).elems, e.done = true) ↔ b = true) := by
  intro b hb
  simp only [List.mem_cons, List.not_mem_nil, or_false] at hb
  rcases hb with rfl | rfl <;> exact ⟨rfl, rfl, rfl, by decide, by decide, rfl, by decide, by decide, by decide⟩

/-- A vector store of one line to v2 of context 3 by another context. -/
def winLine : Req :=
  (kx []).mkReq .vstore 1 0 .none ((List.range 64).map fun i => ⟨ls0 + 0x123180 + BitVec.ofNat 64 i, 1, i, false, [BitVec.ofNat 8 i]⟩) false

set_option maxRecDepth 100000 in
theorem witness_WindowLine : let s := st { kr winLine with sup := true }
    s.req 0 1 0 = some winLine ∧ winLine.phase = .issued ∧ (∀ q ∈ (s.ctx 0 1).reqs, q.seq = winLine.seq → q = winLine) ∧
    (ls0 + 0x123180).toNat % 64 = 0 ∧ target s.part 0 (ls0 + 0x123180) = .chip 0 (0x120000 + 0x3180) true ∧
    (∀ e ∈ winLine.elems, s.mayPerform 0 1 winLine [e] = true) ∧ ∀ k < 8, (s.home (.window 0 (0x3180 + k / 8 * 8))).fifo = [] :=
  ⟨rfl, rfl, by decide, by decide, by decide, by decide, by decide⟩

theorem witness_AtomicIssue :
    let s (a : Word) (n : Nat) : State := st { kx [(5, a)] with ld := n, st := n }
    Free [5, 7] [6] (s ls0 0) ∧ (s ls0 0).atomicCheck 8 ls0 = none ∧ (s ls0 0).me.RoomFor true false false false false ∧
    (s ls0 0).atomicCheck 8 (ls0 + 4) = some 0x03 ∧ (s ls0 0).atomicCheck 8 wild = some 0x04 ∧
    ¬(s ls0 16).me.RoomFor true false false false false := by
  refine ⟨rfl, rfl, ?_, rfl, rfl, ?_⟩
  · simp [Ctx.RoomFor, st, kx, k0]; decide
  · intro h; exact absurd (h.1 rfl) (by decide)

/-- LR that issues with a grant held; SC with the grant (W = 1, W = 0), with the grant of another word, and without one; a
misaligned address. -/
theorem witness_ReservationIssue :
    let g (n : Nat) (w : Bool) : Grant := ⟨.ls 0 n, 1, w, 0⟩
    let s (r : Option Grant) : State := st { kx [(5, ls0)] with grant := r, seq := 1 }
    (∀ r ∈ [some (g 0 true), some (g 0 false), some (g 8 true), none],
      Free [5] [6] (s r) ∧ Free [5, 7] [6] (s r) ∧ (s r).atomicCheck 8 ls0 = none ∧ (s r).wordAt 0 1 ls0 = some (.ls 0 0) ∧
      (s r).me.reqs = [] ∧ (s r).me.RoomFor true true false false true) ∧
    (s none).atomicCheck 8 (ls0 + 4) = some 0x03 ∧ (s none).atomicCheck 4 (ls0 + 4) = none := by
  refine ⟨fun r h => ?_, rfl, rfl⟩
  simp only [List.mem_cons, List.not_mem_nil, or_false] at h
  rcases h with rfl | rfl | rfl | rfl <;> exact ⟨rfl, rfl, rfl, rfl, rfl, by unfold Ctx.RoomFor; decide⟩

/-- An SC with a grant whose release may go, and one that an own store to the word holds back (R171). -/
theorem witness_ReservationIssue_waits :
    let g : Grant := ⟨.ls 0 8, 9, true, 0⟩
    let a := ls0 + 8
    let q (s : State) : Req := { s.me.mkReq .sc 8 0 .none [Elem.one a 8 (leBytes 8 0)] false with seq := 9, phase := .granted 0 }
    let s (l : List Req) : State := st { kx [(5, a)] with grant := some g, reqs := l, seq := 1, num := 1, st := l.length }
    let word : Elem := ⟨BitVec.ofNat 64 (a.toNat / 8 * 8), 8, 0, false, []⟩
    (∀ l ∈ [[], [storeReq]], Free [5, 7] [6] (s l) ∧ (s l).atomicCheck 8 a = none ∧ (s l).wordAt 0 1 a = some g.word ∧
      (s l).me.RoomFor false true false false false) ∧
    (s []).mayPerform 0 1 (q (s [])) (q (s [])).elems = true ∧
    (s [storeReq]).mayPerform 0 1 (q (s [storeReq])) (q (s [storeReq])).elems = false ∧
    (s [storeReq]).me.reqs.any (fun q => q.kind.rights.2 && q.pending.any ((s [storeReq]).elemsMeet 0 ((s [storeReq]).tag 0 1) word)) = true := by
  refine ⟨fun l h => ?_, rfl, by decide, by decide⟩
  simp only [List.mem_cons, List.not_mem_nil, or_false] at h
  rcases h with rfl | rfl <;> exact ⟨rfl, rfl, rfl, by unfold Ctx.RoomFor; decide⟩

/-- A draft that takes `n` inputs and passes the first on. -/
def draftOf (n : Nat) : Draft := ⟨BitVec.ofNat 64 (4 * 2 ^ 16 + 32 * (n - 1)), [0x400081E]⟩

/-- An atomic request in each of its phases, and its home. -/
def amoReq (op : ReqKind) (p : Phase) : Req :=
  { (kx []).mkReq op 8 5 (.x 6 false) [⟨ls0, 8, 0, false, []⟩] false with phase := p }
def amoSt (op : ReqKind) (p : Phase) (f : List FifoEntry) : State :=
  { st (kr (amoReq op p)) with homes := [⟨.ls 0 0, f, [], [], []⟩] }

theorem witness_AtomicSteps :
    let f (g : Bool) := fe 1 1 g
    let kept : State := { amoSt (.amo .add) .issued [] with homes := [⟨.ls 0 0, [], [], [], [((0, 1, 1), 0)]⟩] }
    (∀ p ∈ [Phase.issued, .queued, .granted 7, .applied 7], ∀ o ∈ [ReqKind.amo .add, .lr], ∀ z ∈ [[], [f false]],
      let s := amoSt o p z
      s.req 0 1 0 = some (amoReq o p) ∧ (∀ q ∈ (s.ctx 0 1).reqs, q.seq = (amoReq o p).seq → q = amoReq o p)) ∧
    (let s := amoSt (.amo .add) .issued []
     s.mayPerform 0 1 (amoReq (.amo .add) .issued) [⟨ls0, 8, 0, false, []⟩] = true ∧
     s.reach 0 (s.tag 0 1) true true ls0 = .place (.ls 0 0) false false ∧ s.poisoned (.ls 0 0) = false ∧
     s.fifoFull (.ls 0 0) = false ∧ (s.home (.ls 0 0)).recorded (0, 1, 1) s.time = false ∧
     (kept.home (.ls 0 0)).recorded (0, 1, 1) kept.time = true ∧ ((s.ctx 0 1).state ≠ .ending)) ∧
    ((amoSt (.amo .add) .queued [f false]).homeOf 0 1 1 = some ⟨.ls 0 0, [f false], [], [], []⟩ ∧
     (amoSt .lr .queued [f false]).homeOf 0 1 1 = some ⟨.ls 0 0, [f false], [], [], []⟩) ∧
    (let s := amoSt (.amo .add) (.granted 7) [f true]
     s.LinesOk ∧ s.homeOf 0 1 1 = some ⟨.ls 0 0, [f true], [], [], []⟩ ∧
     ∀ i < 8, ((Place.ls 0 0).add (ls0.toNat % 8 + i)).stored = true ∧ ((Place.ls 0 0).add (ls0.toNat % 8 + i)).word8 = .ls 0 0) ∧
    (∀ d ∈ [draftOf 1], let q := { (kx []).mkReq (.amodr d) 4 5 (.x 6 false) [⟨ls0, 4, 0, false, []⟩] false with phase := .applied 7 }
     (st (kr q)).req 0 1 0 = some q ∧ q.phase = .applied 7) := by
  refine ⟨by decide, ⟨by decide, rfl, by decide, by decide⟩, ⟨rfl, rfl⟩, ⟨fun l n h => (nomatch h), rfl, by decide⟩, by decide⟩

/-- LR of 4 bytes in the upper half of its word; granted releases of SC, QSIG, a barrier's increment and AMODR. -/
theorem witness_AtomicSteps_releases :
    let f (g : Bool) := fe 1 1 g
    let h : Home := ⟨.ls 0 0, [f true], [], [], []⟩
    (let q : Req := { (kx []).mkReq .lr 4 0 (.x 6 false) [⟨ls0 + 4, 4, 0, false, []⟩] false with phase := .queued }
     let s : State := { st (kr q) with homes := [{ h with fifo := [f false] }] }
     s.req 0 1 0 = some q ∧ s.homeOf 0 1 1 = some { h with fifo := [f false] } ∧ (ls0 + 4).toNat % 4 = 0) ∧
    (∀ k ∈ [ReqKind.sc, .qsig, .barrier, .amodr (draftOf 1)],
      let q := amoReq k (.granted 7)
      let s := amoSt k (.granted 7) [f true]
      s.req 0 1 0 = some q ∧ q.size ≤ 8 ∧ s.homeOf 0 1 1 = some h ∧
      (∀ q' ∈ (s.ctx 0 1).reqs, q'.seq = q.seq → q' = q)) := by
  refine ⟨⟨rfl, rfl, by decide⟩, ?_⟩
  intro k hk
  simp only [List.mem_cons, List.not_mem_nil, or_false] at hk
  rcases hk with rfl | rfl | rfl | rfl <;> exact ⟨by decide, by decide, rfl, by decide⟩

/-- A fence that ends (an empty set, a clear context) and one that parks (a load in flight); FENCE.I with and without a store to
the I-store; counters at and above their bounds; a sleep that is over and one that is not; a grant, its home full or not. -/
theorem witness_FencesAndWaits :
    let busy := st (kr loadReq)
    let g : Grant := ⟨.ls 0 0, 1, true, 0⟩
    let w (n : Nat) : State := { st { k0 with grant := some g } with homes := [⟨.ls 0 0, [], List.replicate n (0, 2), [], []⟩] }
    ((0 : BitVec 4) = 0 ∧ (st k0).fenceClear 0 1 .package 15 = true ∧ busy.fenceClear 0 1 .package 15 = false) ∧
    ((st k0).istoreBusy 0 1 = false ∧
      (st (kr { storeReq with elems := [⟨0xFFFFFFFFFF100000, 4, 0, false, [0, 0, 0, 0]⟩] })).istoreBusy 0 1 = true) ∧
    (busy.me.ld = 1 ∧ busy.me.woken = false) ∧
    (Free [5] [] (st (kx [(5, 1)])) ∧ (st (kx [(5, 0)])).time = 0 ∧ (st (kx [(5, 1)])).time < ((st (kx [(5, 1)])).me.getX 5).toNat) ∧
    ((w 0).me.grant = some g ∧ (w 15).atUnit g.word (·.watchers.length) < 16 ∧ 16 ≤ (w 16).atUnit g.word (·.watchers.length)) := by
  refine ⟨by decide, by decide, by decide, ⟨rfl, by decide, by decide⟩, by decide⟩

/-- A task context, with nothing served, with a record served, and context 0 as a task. -/
theorem witness_Traps : (∀ s ∈ [st k0, st k0 (fun t => { t with monitor := true }), st0 k0],
    s.me.sup = false ∧ s.here.quarantined = false ∧ s.me.posted = none ∧ s.me.amoHeld = false) ∧
    (st (kr (amoReq (.amo .add) (.granted 7)))).me.amoHeld = true := by decide

/-- A number that names no CSR, a read-only one, a supervisor one in both modes, and a task CSR. -/
theorem witness_Csrs : csrExists 0x7FF = false ∧ (0xC00 : Nat) ≤ 0xC00 ∧ csrExists 0xC00 = true ∧
    ((st k0).me.sup = false ∧ csrExists 0x5C0 = true) ∧ (st0 { k0 with sup := true }).me.sup = true ∧ csrExists 0x802 = true ∧
    Free [5] [6] (st k0) ∧ Free [5] [6] (st0 { k0 with sup := true }) := ⟨rfl, by decide, rfl, ⟨rfl, rfl⟩, rfl, rfl, rfl, rfl⟩

theorem witness_LaneWise : FreeV [] [] [1, 2] [3] (st k0) ∧ FreeV [] [] [1] [3] (st k0) := ⟨rfl, rfl⟩

theorem witness_LaneSelection : FreeV [] [] [1, 2] [3] (st k0) ∧ FreeV [] [] [1] [1] (st k0) := ⟨rfl, rfl⟩

theorem witness_LaneAndScalarMoves : FreeV [] [] [1, 2] [3] (st k0) ∧ FreeV [] [] [1] [3] (st k0) ∧
    FreeV [5] [] [] [15] (st k0) ∧ FreeV [5] [6] [1] [] (st k0) ∧ FreeV [5, 6] [] [] [0] (st k0) := ⟨rfl, rfl, rfl, rfl, rfl⟩

theorem witness_Masks : FreeK [] [] [0] (st k0) ∧ FreeK [5] [] [7] (st k0) ∧ Free [] [5] (st k0) ∧
    FreeK [] [1, 2] [2, 3] (st k0) ∧ FreeK [] [1, 2] [2] (st k0) := ⟨rfl, rfl, rfl, rfl, rfl⟩

/-- Elements that are aligned and allowed, with room; an address that is misaligned, and one that is not allowed. -/
theorem witness_VectorMemory :
    let s (a b : Word) : State := st (kx [(5, a), (6, b)])
    FreeV [5, 6] [] [] [1] (s ls0 4) ∧ FreeV [5] [] [1, 2] [] (s ls0 4) ∧
    (∀ i < 16, ((s ls0 4).me.getX 5 + BitVec.ofNat 64 i * (s ls0 4).me.getX 6).toNat % 4 = 0 ∧
      (s ls0 4).checkAccess 0 1 false (.vector false) 4 (ls0 + BitVec.ofNat 64 i * 4) = true) ∧
    ((s ls0 4).me.RoomFor true true false false true) ∧
    ((ls0 + 1 * 2).toNat % 4 ≠ 0) ∧ (wild.toNat % 4 = 0 ∧ (s wild 4).checkAccess 0 1 true (.vector false) 4 wild = false) := by
  refine ⟨rfl, rfl, by decide, by unfold Ctx.RoomFor; decide, by decide, by decide⟩

/-- A TID entry of one tile: its format code, rows, columns, and its row table (R194). -/
def tid (f rows cols : Nat) (tab : Nat := 0) : Tid :=
  ⟨BitVec.ofNat 64 (2 ^ 32 + 256 + f), BitVec.ofNat 64 (cols * 2 ^ 32 + rows), BitVec.ofNat 64 tab, 0⟩
/-- The first word of a descriptor pair for bytes at an LS offset. -/
def dw (n off : Nat) : Word := BitVec.ofNat 64 (n * 2 ^ 56 + 0xFFFFFF000000 + off)
/-- Context 1 of a launch, with TID entries, and x registers from x6 on. -/
def stT (tids : List Tid) (xs : List Word) (f : Tile → Tile := id) (k : Ctx := k0) : State :=
  st { k with x := (xs.zipIdx.map fun p => (p.2 + 6, p.1)).filter fun p => p.2 != 0, macc := 1 } fun t =>
    f { live t with tids := tids.zipIdx.map fun p => (p.2, p.1) }

theorem witness_TidAndSlotTables :
    let s (n : Nat) (a : Word) : State := stT [] [BitVec.ofNat 64 n, a]
    Free [6, 7] [] (s 0 ls0) ∧ Free [6, 7] [5] (s 0 ls0) ∧ (s 4 ls0).tidAllowed 0 1 4 = false ∧ (s 3 ls0).tidAllowed 0 1 3 = true ∧
    (ls0 + 16).toNat % 32 ≠ 0 ∧ isLsAddr (ls0 - 32) = false ∧ (ls0.toNat % 32 = 0 ∧ isLsAddr ls0 = true ∧ (s 0 ls0).lsError ls0 32 = none) ∧
    (s 0 ls0).me.sup = false ∧ (let z := st0 { k0 with sup := true }; z.me.sup = true ∧ Free [6, 7] [] z) :=
  ⟨rfl, rfl, rfl, rfl, by decide, rfl, ⟨rfl, rfl, rfl⟩, rfl, rfl, rfl⟩

/-- A state in which every matrix form passes its checks: A is 1 × 4 at x6, the metadata record x8, B 4 × 1 at x10, A of MMAV
1 × 32 at x12, B of MMAS 8 × 1 at x14. -/
def matSt (mx : Nat) : State :=
  stT [tid 6 1 4, tid 6 4 1, tid 6 1 32, tid 6 8 1] [dw 0 0, 0, 0x0008FFFFFF001000, 0, dw 1 0x100, 0, dw 2 0x200, 0, dw 3 0x300, 0]
    id { k0 with mx := mx }

theorem witness_MatrixIssue :
    let s := matSt 3
    FreeV [6, 7, 10, 11] [] [] [] s ∧ FreeV [12, 13] [] ((List.range 16).map (BitVec.ofNat 4)) [] s ∧
    FreeV [6, 7, 8, 14, 15] [] [] [] s ∧ (s.me.macc.getLsbD 0 = true ∧ s.me.macc.getLsbD 1 = false) ∧
    s.mzeroStatus 0 1 (s.pair 6) (s.pair 10) = none ∧ s.mmaStatus 0 1 .mma (s.pair 6) (s.pair 10) 0 = none ∧
    s.mmaStatus 0 1 .mmav (s.pair 12) Operand.none 0 = none ∧ s.mmaStatus 0 1 .mmas (s.pair 6) (s.pair 14) (s.me.getX 8) = none ∧
    s.mreadStatus 0 1 (s.pair 6) = none ∧ s.mmaStatus 0 1 .mma (s.pair 6) (s.pair 6) 0 = some 0x12 ∧
    s.me.mx < 4 ∧ 4 ≤ (matSt 4).me.mx :=
  ⟨rfl, rfl, rfl, ⟨rfl, rfl⟩, by decide, by decide, by decide, by decide, by decide, by decide, by decide, by decide⟩

/-- A matrix operation: an MZERO, started or not. -/
def mop (b : Option Nat) : MatOp :=
  { ctx := 1, num := 0, kind := .mzero, m := 0, a := ⟨dw 0 0, 0, tid 6 1 4⟩, b := ⟨dw 1 0x100, 0, tid 6 4 1⟩, mrec := 0, vregs := []
    reads := [], writes := [], started := b, job := none, sup := false, posted := none }
def mopSt (b : Option Nat) (time : Nat) : State := { st k0 (fun t => { t with mats := [mop b] }) with time := time }

theorem witness_MatrixSteps :
    (mopSt none 0).fenceHolds 0 1 0 8 ((mop none).reads ++ (mop none).writes) = false ∧
    ((mopSt (some 0) 8).time = 8 ∧ (mop (some 0)).cycles ((mopSt (some 0) 8).hub.actual == 1) ≤ 8) ∧
    (mopSt (some 0) 8).postedBy 0 (.matrix 0) = false ∧
    (let s : State := { mopSt (some 0) 8 with homes := [⟨.ls 0 0, [fe 2 1 true, { fe 0 0 false with poster := some (.matrix 0) }], [], [], []⟩] }
     s.postedBy 0 (.matrix 0) = true) ∧
    ∃ s' fl inex, (mopSt (some 0) 8).runMat 0 (mop (some 0)) = .done s' fl inex ∧ s'.postedBy 0 (.matrix 0) = false :=
  ⟨by decide, ⟨rfl, by decide⟩, by decide, by decide, _, _, _, rfl, by decide +kernel⟩

/-- Two launches on one tile. -/
def two (t : Tile) : Tile :=
  { t with split := 8, ocperm := 0xFFF, residents := [{ res with size := 8 }, { res with id := 2, group := 1, size := 8 }] }
/-- A copy of 1 × 4 half floats from offset 0 to `d`. -/
def cpSt (d : Nat) : State := stT [tid 4 1 2, tid 6 1 1] [dw 0 0, 0, dw 0 d, 0] two

theorem witness_CardIssue :
    -- XCOPY: it issues, a check fails, an address is refused, a delivery is another launch's
    (let g := (tid 4 1 2).geo
     let st (d : Nat) := (cpSt d).copyStatus ((cpSt d).pair 6) ((cpSt d).pair 8) false
     let fp (d : Nat) (r : BitVec 5) := ((cpSt d).pair r).footprint 0 g
     let refusal (d : Nat) := (cpSt d).cardRefusal 0 1 (fp d 6) (fp d 8)
     let foreign (d : Nat) := (cpSt d).foreignDelivery 0 1 (fp d 8)
     Free [6, 7, 8, 9] [5] (cpSt 0x100) ∧ (cpSt 0x100).me.RoomFor false false true true false ∧
     (st 0x100 = none ∧ refusal 0x100 = none ∧ foreign 0x100 = false) ∧ st 4 = some 0x13 ∧
     (st 0x114000 = none ∧ refusal 0x114000 = some 0xFFFFF00000114000) ∧
     (st 0x1280C0 = none ∧ refusal 0x1280C0 = none ∧ foreign 0x1280C0 = true)) ∧
    -- WENC
    (let s := stT [tid 9 1 32, tid 11 1 32 0xFFFFFF002000] [dw 0 0, 0, dw 1 0x100, 0]
     let g := (s.pair 6).tid.geo
     s.descStatus 0 1 (s.pair 6) g false = none ∧ s.descStatus 0 1 (s.pair 8) g false = none ∧
     (s.pair 6).fmt = .ty .e4 ∧ (s.pair 8).fmt = .weft8 ∧
     anyMeet ((s.pair 6).footprint 0 g) (wencRanges 0 (s.pair 8) g) = false) ∧
    -- XCOPYM: the copy is A, the other pair x10 is B; a bad command word, and an accumulator that is not given
    (let s := stT [tid 6 1 4, tid 6 4 1] [dw 0 0, 0, dw 0 0x100, 0, dw 1 0x200, 0, 0xA8]
     let w := s.me.getX 12
     cmdOk w = true ∧ s.me.macc.getLsbD (w.toNat % 4) = true ∧ w.extractLsb' 4 5 = 10 ∧ s.copyStatus (s.pair 6) (s.pair 8) true = none ∧
     s.mmaStatus 0 1 .mma (s.pair 8) (s.pair 10) 0 = none ∧ s.mzeroStatus 0 1 (s.pair 8) (s.pair 10) = none ∧
     Free [6, 7, 8, 9, 12, 10, 11] [5] s ∧ cmdOk 0x200 = false ∧ cmdOk 1 = true ∧ s.me.macc.getLsbD 1 = false) ∧
    -- FOLD and SCAN over rows, ZIP, OUTER; a draft on a part without heddle hardware
    (let s (d : Word) := stT [tid 6 1 4, tid 6 1 1, tid 6 4 4] [dw 0 0, 0, dw 0 0x80, 0, d, 0, 0]
     let z := s (dw 0 0x100)
     z.hofStatus .fold 12 0 0 (z.pair 6) Operand.none ((s (dw 1 0x100)).pair 10) = none ∧
     z.hofStatus .scan 12 0 0 (z.pair 6) Operand.none (z.pair 10) = none ∧
     z.hofStatus .zip 12 0 0 (z.pair 6) (z.pair 8) (z.pair 10) = none ∧
     z.hofStatus .outer 12 0 0 (z.pair 6) (z.pair 8) ((s (dw 2 0x100)).pair 10) = none ∧
     Free [6, 7, 10, 11, 12] [5] z ∧ Free [6, 7, 8, 9, 10, 11, 12] [5] z ∧ ({ z with part := .spn4400 } : State).part.heddle = false ∧ z.part.heddle = true ∧ handleDraft 16 = true ∧
     handleDraft 15 = false) := by
  refine ⟨⟨rfl, by unfold Ctx.RoomFor; decide, by decide, by decide, by decide, by decide⟩, by decide, ?_, ?_⟩
  · exact ⟨by decide, by decide, by decide, by decide, by decide, by decide, rfl, by decide, by decide, by decide⟩
  · exact ⟨by decide, by decide, by decide, by decide, rfl, rfl, rfl, rfl, rfl, rfl⟩

/-- A card of context 1, and the tile that holds it with its record. -/
def card (kind : CardKind) (d : Nat) (s : CardState) : Card :=
  let a : Operand := ⟨dw 0 0, 0, tid 6 1 1⟩
  let o : Operand := ⟨BitVec.ofNat 64 d, 0, tid 6 1 1⟩
  { Card.mk0 kind a o (a.footprint 0 a.tid.geo) (o.footprint 0 o.tid.geo) with job := 1, ctx := 1, state := s }
def cardSt (k : Card) (r : List Req := []) : State :=
  st { k0 with jobs := [⟨1, false, none, 0, 0⟩], cp := 1, reqs := r } fun t => { live t with cards := [k] }

theorem witness_CardSteps :
    (let s := cardSt (card .xcopy 0xFFFFFF000100 .queued)
     (s.tile 0).card 1 = some (card .xcopy 0xFFFFFF000100 .queued) ∧ s.cardFree 0 (card .xcopy 0xFFFFFF000100 .queued) = true) ∧
    ((0 : Word).toNat / 2 ^ 32 ≤
      (leWord (Memory.readBytes ((cardSt (card .trig 0xFFFFFF000100 .unfired)).tile 0).ls ((0 : Word).toNat % 2 ^ 20) 8)).toNat ∧
      (cardSt (card .trig 0xFFFFFF000100 .unfired)).cardHolds (.ls 0 ((0 : Word).toNat % 2 ^ 20)) = false) ∧
    (let k := card .xcopy 0xFFFFFF000100 .scheduled
     k.onMatrix = false ∧ (cardSt k).isNext 0 k = true ∧ (cardSt k).promiseOk 0 k 100 = true) := by
  refine ⟨by decide, by decide, by decide⟩

/-- A write of 1 to `jobctl` at operation `op`. -/
def ctlReq (op : Nat) : Req :=
  (kx []).mkReq (.control 0) 8 (BitVec.ofNat 64 (op * 2 ^ 16 + 1)) .none [⟨ls0 + 0x150100, 8, 0, false, []⟩] false

theorem witness_CardEnds :
    (let k := { card .xcopy 0xFFFFFF000100 .running with prog := 1 }
     let s := cardSt k
     (s.tile 0).card 1 = some k ∧ k.onMatrix = false ∧ ∃ s' k' x, s.cardUnit 0 k 0 = (s', .finish k' x) ∧ k'.kind ≠ .xcopym ∧ k'.job = 1) ∧
    (let k := card .xcopy 0x10000 .running
     ∃ s' k' x a, (cardSt k).cardUnit 0 k 0 = (s', .stop k' x a) ∧ x ≠ 0x28) ∧
    (let k := { card .xcopym 0xFFFFFF000100 .running with prog := 1 }
     ∃ s' k' x, k.kind = .xcopym ∧ (cardSt k).cardUnit 0 k 0 = (s', .finish k' x)) ∧
    (let k := card .xcopy 0xFFFFFF000100 .stopped
     (∀ op ∈ [0, 1, 2], (cardSt k [ctlReq op]).jobctl 0 1 0 = some (ctlReq op, 0, op, some k)) ∧
     (cardSt k [ctlReq 1]).promiseOk 0 k 1320 = true ∧ k.onMatrix = false ∧ (cardSt k).postedBy 0 (.card 1) = false ∧
     ({ cardSt k with homes := [⟨.ls 0 0, [{ fe 0 0 false with poster := some (.card 1) }], [], [], []⟩] } : State).postedBy 0 (.card 1) = true) := by
  refine ⟨⟨by decide, by decide, _, _, _, rfl, by decide, rfl⟩, ⟨_, _, _, _, rfl, by decide⟩, ⟨_, _, _, rfl, rfl⟩, by decide, by decide,
    by decide⟩

theorem witness_JobWords :
    let s (l : List JobRec) (n : Nat) : State := { st { kx [(6, 1)] with jobs := l } with time := n }
    Free [6] [5] (s [] 0) ∧ Free [6] [] (s [] 0) ∧ (s [] 0).me.job 1 = none ∧
    (s [⟨1, true, none, 0, 0⟩] 0).me.job 1 = some ⟨1, true, none, 0, 0⟩ ∧
    (s [⟨1, false, none, 0, 0⟩] 0).me.job 1 = some ⟨1, false, none, 0, 0⟩ ∧
    (s [⟨1, false, some 5, 0, 0⟩] 4).me.job 1 = some ⟨1, false, some 5, 0, 0⟩ ∧ (s [] 4).time < 5 ∧ 5 ≤ (s [] 5).time :=
  ⟨rfl, rfl, rfl, rfl, rfl, rfl, by decide, by decide⟩

/-- The image of a tile table entry that is a root with no child: KIND `k`, the sum of one 32-bit integer. -/
def ttImage (k : Nat) (parent kids : Nat := 0) : List Word :=
  [BitVec.ofNat 64 (2 ^ 55 + k * 2 ^ 52 + 4 * 2 ^ 48 + (if k = 2 then 0 else 1)), 1, 0, 0, BitVec.ofNat 64 (kids * 2 ^ 20 + parent), 0, 0, 0]
def ttSt (e : List Word) (p : TtPhase) (n : Nat) (l : Assoc Byte := []) : State :=
  stT [] [BitVec.ofNat 64 n, ls0] fun t =>
    { t.setTt n e with ls := l, ttState := [(n, ⟨p, 0, 0, false, 0, 0, 0, 1, 1, 0, none, 0, 0⟩)] }

theorem witness_TileTable :
    let s (p : TtPhase) (n : Nat) := ttSt (ttImage 0) p n [(0, 1), (6, 0x84), (8, 1)]
    let image (s : State) : List Word := (List.range 8).map fun i => leWord ((List.range 8).map fun b => s.readPlace (.ls 0 (8 * i + b)))
    Free [6, 7] [] (s .idle 1) ∧ Free [6] [5] (s .idle 1) ∧ Free [6] [] (s .idle 1) ∧
    (s .idle 1).ttAllowed 1 = true ∧ (s .idle 2).ttAllowed 2 = false ∧ (ls0.toNat % 64 = 0 ∧ isLsAddr ls0 = true) ∧
    (s .idle 1).lsError ls0 64 = none ∧ ttOper (image (s .idle 1)) < 16 ∧ (s .idle 1).ttStatus 0 1 (image (s .idle 1)) false = none ∧
    (s .idle 1).ttStatus 0 1 (image (ttSt (ttImage 0) .idle 1)) false = some 0x10 ∧
    ((s .up 1).here.ttSt 1).phase.busy = true ∧ ((s .idle 1).here.ttSt 1).phase.busy = false ∧
    (s .idle 1).here.badTts.contains 1 = false ∧ (s .idle 1).ttStatus 0 1 ((s .idle 1).here.tt 1) true = none ∧
    ttKind (ttImage 0) = 0 ∧ ttRoot (ttImage 0) = true ∧ (ttKind (ttImage 2 (2 ^ 19)) = 2 ∧ ttRoot (ttImage 2 (2 ^ 19)) = false) ∧
    (ttSt (ttImage 2 (2 ^ 19)) .idle 1).ttStatus 0 1 (ttImage 2 (2 ^ 19)) true = none := by
  refine ⟨rfl, rfl, rfl, rfl, rfl, by decide, by decide, by decide, by decide, by decide, rfl, rfl, rfl, by decide, by decide, by decide,
    by decide, by decide⟩

/-- Queue 0 mapped, its ring at 0x1000, its first GiB of addresses the first of main memory (R163). -/
def desc0 : List Word := [0x40B, 0x1000, 8, 0, 0x200000, 0, 0, 0]
def mapped (s : State) (c : Option Cmd := none) : State :=
  { s with
    backing := [(s.part.loc 0x200000 false, 0x0F)]
    hub := { s.hub with qtcount := 1, stage := 5, ready := true, slots := [⟨0, desc0, 0, c⟩] } }

/-- A packet of entry 1 of tile 0, from tile 5. -/
def chunk (kind : ChunkKind) (gen : BitVec 16) : Chunk :=
  { kind := kind, fromTile := 5, node := 0, dest := 0, port := none, entry := 1, gen := gen, num := 0, slot := 0, data := [7]
    cls := 0, born := 0, since := 0, acked := false, moved := false, prog := 0 }
/-- Entry 1 in a generation, whose child, or parent, is tile 5; a packet on its way, and packets the router retains. -/
def colSt (e : List Word) (k : List Chunk) (r : List Chunk) (time : Nat) : State :=
  { ttSt e .up 1 with
    chunks := k, time := time
    tiles := [(0, { (ttSt e .up 1).tile 0 with retained := r }), (5, ({ Tile.reset with split := 16, residents := [res] } : Tile).setTt 1
      [0, 0, 0, 0, 0, 2 ^ 52 + 6 * 2 ^ 40, 0, 0])] }

def kidE : List Word := [0x84 * 2 ^ 48 + 1, 1, 0, 0, (2 ^ 19 + 5) * 2 ^ 20, 0, 0, 0]
def parE : List Word := [0x94 * 2 ^ 48 + 1, 1, 0, 0, 2 ^ 19 + 5, 0, 0, 0]

theorem witness_Collectives_chunks :
    (((0 : BitVec 16) - 0xFFFF).toNat = 1 ∧ ((0 : BitVec 16) - 0x8001).toNat = 2 ^ 15 - 1) ∧
    (∀ k ∈ [ChunkKind.up, .down, .notice, .alt, .ackUp], (colSt kidE [chunk k 0xFFFF] [] 0).chunks[0]? = some (chunk k 0xFFFF)) ∧
    (let s := colSt kidE [chunk .up 0] [] 0
     s.chunks[0]? = some (chunk .up 0) ∧ ((s.tile 0).ttSt 1).gen = 0 ∧ ((s.tile 0).ttSt 1).phase = .up ∧
      (ttChildren ((s.tile 0).tt 1))[0]? = some (2 ^ 19 + 5) ∧ epIs (2 ^ 19 + 5) none 5 = true ∧ s.chunkFirst 0 (chunk .up 0) = true ∧
      ((s.tile 0).ttSt 1).sent ≤ 0 ∧ 0 < ttChunks ((s.tile 0).tt 1) ∧ (s.tile 0).chunks = []) := by
  refine ⟨⟨rfl, rfl⟩, by decide, ?_⟩
  exact ⟨by decide, by decide, by decide, by decide, by decide, by decide, by decide, by decide, by decide⟩

theorem witness_Collectives_notice :
    let s := colSt parE [chunk .notice 0] [] 0
    s.chunks[0]? = some (chunk .notice 0) ∧ ((s.tile 0).ttSt 1).phase.busy = true ∧ ttKind ((s.tile 0).tt 1) = 1 ∧
      epIs (ttParent ((s.tile 0).tt 1)) none 5 = true ∧ (s.tile 0).chunks = [] :=
  ⟨by decide, by decide, by decide, by decide, by decide⟩

theorem witness_Collectives_alt :
    let s := colSt parE [chunk .alt 0] [chunk .up 0] 0
    s.chunks[0]? = some (chunk .alt 0) ∧
    (s.tile 0).retained.find? (fun x => x.kind == .up && x.entry == 1 && x.gen == 0 && x.num == 0) = some (chunk .up 0) := by decide

theorem witness_Collectives_timeout :
    ttTimeout (((colSt parE [] [] 0).tile 0).tt 1) = 4096 ∧
    (∀ k ∈ [chunk .alt 0, chunk .up 9, { chunk .down 0 with node := 5, moved := true }, { chunk .down 0 with node := 5 }],
       ((colSt parE [] [k] 4096).tile 0).retained.find? (fun x => x.late 1 0 4096 4096) = some k) ∧
     ttAlt (((colSt parE [] [] 0).tile 5).tt 1) = some 6 ∧ ((((colSt parE [] [] 16384).tile 0)).ttSt 1).heard = 0 :=
  ⟨by decide, by decide, by decide, by decide⟩

/-- A heddle slot that holds a draft, and a context of its launch. -/
def hedSt (n : Nat) (loaded : Bool) (x7 : Word := 0) : State :=
  stT [] [0, x7] fun t => t.setHeddle 0 ⟨true, 0, loaded, draftOf n, 0⟩

theorem witness_HeddleIssue :
    ({ hedSt 1 true with part := .spn4400 } : State).part.heddle = false ∧
    (∀ n ∈ [1, 2, 3, 4], let s := hedSt n true
      s.part.heddle = true ∧ s.ownsSlot 0 = true ∧ (s.here.slot 0).loaded = true ∧ (s.here.slot 0).draft.nin = n ∧
      (s.here.slot 0).draft.nout = 1) ∧
    ((hedSt 1 true).ownsSlot 1 = false ∧ ((hedSt 1 false).here.slot 0).loaded = false) ∧
    (FreeV [] [] [1, 2, 4, 5] [4] (hedSt 4 true) ∧ FreeV [] [] [1, 2, 4, 5] [4, 5] (hedSt 4 true) ∧ Free [6, 7] [5] (hedSt 2 true) ∧
      Free [6, 7] [4, 5] (hedSt 2 true)) ∧
    (let s := hedSt 2 true ls0
     s.atomicCheck 4 (s.me.getX 7) = none ∧ s.me.RoomFor true false false false (s.translated 0 (s.me.getX 7)) ∧
     (hedSt 2 true).atomicCheck 4 2 = some 0x03) ∧
    (let s := hedSt 2 true ls0
     Free [6, 7] [] s ∧ Free [6] [] s ∧ ls0.toNat % 8 = 0 ∧ s.checkAccess 0 1 false .scalar 8 ls0 = true ∧ s.me.ld < 16 ∧
     (ls0 + 4).toNat % 8 ≠ 0 ∧ s.checkAccess 0 1 false .scalar 8 wild = false) := by
  refine ⟨rfl, by decide, by decide, ⟨rfl, rfl, rfl, rfl⟩, ⟨by decide, by unfold Ctx.RoomFor; decide, by decide⟩, ?_⟩
  exact ⟨rfl, rfl, by decide, by decide, by decide, by decide, by decide⟩

/-- A request in flight of context 1, and a tile. -/
def reqSt (q : Req) (f : Tile → Tile := id) (k : Ctx → Ctx := id) : State := st (k (kr q)) fun t => f (live t)
def delReq (c : CtxNo) (give : Bool := false) : Req := (kx []).mkReq (.delivery 0 c 24 give) 8 5 .none [] false
def winReq (off : Nat) (v : Word) (sup : Bool) : Req :=
  { (kx []).mkReq (.window 0) 8 v .none [⟨ls0 + BitVec.ofNat 64 (0x120000 + off), 8, 0, false, []⟩] false with sup := sup }

theorem witness_GiveAndDelivery :
    -- GIVE to a context of the launch (8) and to another launch's; the inbox with and without room
    (let s (w : Word) (f : Tile → Tile) : State := st (kx [(6, w)]) fun t => f (two t)
     let e : InboxEntry := ⟨2, 24, 0, 0, 1, none, none, true⟩
     Free [6, 7] [] (s 2 id) ∧ (s 2 id).launchOf 0 1 = some { res with size := 8 } ∧
     ((s 7 id).ctxOfLaunch 0 7 1 = true ∧ (s 8 id).ctxOfLaunch 0 8 1 = false) ∧ (s 2 id).me.st < 16 ∧
     (s 2 id).here.inboxFull 2 24 = false ∧
     (s 2 (fun t => { t with ctxs := (2, { k0 with qmode := 1, full := 1 }) :: t.ctxs, inbox := List.replicate 16 e })).here.inboxFull 2 24 = true) ∧
    -- a delivery to an empty channel register, to a full one, and to a plain one
    (let q := delReq 1
     let s (m f : BitVec 8) : State := reqSt q id fun k => { k with qmode := m, full := f }
     (∀ m ∈ [(0 : BitVec 8), 1], ∀ f ∈ [(0 : BitVec 8), 1], (s m f).req 0 1 0 = some q ∧ (s m f).mayPerform 0 1 q q.elems = true ∧
       ((s m f).tile 0).landing = [] ∧ ((s m f).tile 0).spills 1 = false ∧
       (∀ q' ∈ ((s m f).ctx 0 1).reqs, q'.seq = q.seq → q' = q)) ∧
     q.phase = .issued ∧ ((s 0 0).ctx 0 1).isSync 24 = false ∧ ((s 1 0).ctx 0 1).isSync 24 = true ∧ ((s 1 0).ctx 0 1).canLand 24 = true ∧
     ((s 1 0).tile 0).inboxHas 1 24 = false ∧ ((s 1 1).ctx 0 1).canLand 24 = false ∧ ((s 1 1).tile 0).inbox.length < 16) ∧
    -- an inbox entry
    (let e : InboxEntry := ⟨1, 31, 9, 0, 1, none, none, true⟩
     let s : State := st { k0 with qmode := 0x80 } fun t => { t with inbox := [e] }
     (s.tile 0).inbox[0]? = some e ∧ (s.tile 0).spills 1 = false ∧ (s.tile 0).landing = [] ∧ ((s.tile 0).ctx 1).canLand 31 = true) ∧
    -- window writes: x1, x31, k1, qmode, full, pc, and the state field of a HELD context
    (∀ off ∈ [8, 0xF8, 0x508, 0x540, 0x548, 0x558, 0x560], let q := winReq (0x1000 + off) 1 false
      q.windowOff = 0x1000 + off ∧ (reqSt q).req 0 1 0 = some q ∧ (reqSt q).mayPerform 0 1 q q.elems = true ∧
      (reqSt q).resumes 0 q = false) ∧
    (let q := winReq 0x2560 1 true
     let s : State := { reqSt q with tiles := [(0, { Tile.reset with ctxs := [(1, kr q), (2, { k0 with state := .held })] })] }
     s.req 0 1 0 = some q ∧ s.mayPerform 0 1 q q.elems = true ∧ s.resumes 0 q = true) := by
  refine ⟨⟨rfl, rfl, by decide, by decide, by decide, by decide⟩, by decide, by decide, by decide, by decide⟩

theorem witness_PostsAndFlushes :
    let s (x6 x7 : Word) (n : Nat) : State := st { kx [(6, x6), (7, x7)] with ld := n, st := n }
    Free [6, 7] [5] (s 0 ls0 15) ∧ Free [6, 7] [] (s 0 0 0) ∧ (ls0.toNat % 64 = 0 ∧ isLsAddr ls0 = true ∧ (s 0 ls0 0).lsError ls0 64 = none) ∧
    (ls0 + 32).toNat % 64 ≠ 0 ∧ isLsAddr (ls0 - 64) = false ∧ (s 0 ls0 15).me.ld < 16 ∧
    flushBad far.toNat 64 = none ∧ flushBad far.toNat 0 = none ∧ flushBad wild.toNat 1 = some wild.toNat ∧
    (s far 64 15).me.RoomFor false true false false true := by
  refine ⟨rfl, rfl, by decide, by decide, by decide, by decide, by decide, by decide, by decide, by unfold Ctx.RoomFor; decide⟩

def postReq (wait : Bool) (p : Phase) : Req :=
  { (kx []).mkReq (if wait then .qputw 0 (List.replicate 64 0) else .qput 0 (List.replicate 64 0)) 64 0 (.x 5 false) [] false with
    phase := p }
def hloadReq : Req := (kx []).mkReq (.hload 0) 8 0 .none [⟨ls0, 8, 0, false, []⟩] false

set_option maxRecDepth 100000 in
theorem witness_PostsAndLoads :
    (∀ w ∈ [false, true], ∀ p ∈ [Phase.issued, .answered 0 0], (reqSt (postReq w p)).req 0 1 0 = some (postReq w p)) ∧
    (reqSt (postReq false .issued)).posting 0 = .refused ∧
    ({ mapped (reqSt (postReq false .issued)) with flag := [(8, 16)] } : State).posting 0 = .full ∧
    ((mapped (reqSt (postReq false .issued))).posting 0 = .go 0x1000 0 ∧ (mapped (reqSt (postReq false .issued))).hub.posts = []) ∧
    (let s := reqSt hloadReq fun t => { t with ls := [(2, 4), (8, 0x1E), (9, 8), (11, 4)] }
     hloadReq.phase = .issued ∧ s.mayPerform 0 1 hloadReq [⟨ls0, 264, 0, false, []⟩] = true ∧
     (draftOf 1).okTile = true ∧ ∃ s1 s2, s.readWords 0 (s.tag 0 1) ls0.toNat 1 = (s1, .ok [(draftOf 1).header]) ∧
       s1.readWords 0 (s.tag 0 1) (ls0.toNat + 8) 1 = (s2, .ok (draftOf 1).nodes)) := by
  refine ⟨by decide, by rfl, by rfl, ⟨by rfl, rfl⟩, rfl, by decide, by decide, _, _, rfl, rfl⟩

/-- CWAIT on a word that has its bound (0) and on one below it, latched or not, misaligned, and not allowed; the same of a parked
context. -/
theorem witness_CwaitStates :
    let s (a : Word) (w : Bool) : State := st { kx [(6, a), (7, 1)] with woken := w }
    let pk : State := st { k0 with state := .parked, park := some ⟨.cwait ls0 1, 0⟩ }
    let word : List Host.Cell := [(0, 1)]
    Free [6, 7] [] (s ls0 false) ∧ (ls0 + 4).toNat % 8 ≠ 0 ∧
    (wild.toNat % 8 = 0 ∧ (s wild false).checkAccess 0 1 false .scalar 8 wild = false) ∧
    (ls0.toNat % 8 = 0 ∧ (s ls0 false).checkAccess 0 1 false .scalar 8 ls0 = true ∧ hasHome .spn4800 0 ls0 = true) ∧
    ((s ls0 true).me.woken = true ∧ (s ls0 false).me.woken = false) ∧
    (∀ z ∈ [s ls0 false, pk], z.reach 0 (z.tag 0 1) true false ls0 = .place (.ls 0 0) false false ∧ z.poisoned (.ls 0 0) = false ∧
      z.mayPerform 0 1 ((z.ctx 0 1).cwaitRead ls0) [⟨ls0, 8, 0, false, []⟩] = true ∧ leNat (z.readPlaces (.ls 0 0) 8) < 1 ∧
      1 ≤ leNat ((z.modTile 0 fun t => { t with ls := word }).readPlaces (.ls 0 0) 8)) ∧
    ((pk.ctx 0 1).park = some ⟨.cwait ls0 1, 0⟩ ∧ (pk.ctx 0 1).woken = false) := by
  refine ⟨rfl, by decide, by decide, by decide, by decide, by decide, by decide⟩

/-- Context 0, the root of the launch in its group, and the other contexts of the tile. -/
def rt (x : List (Nat × Word)) (f : Tile → Tile := id) (k : Ctx := k0) : State := st0 { k with x := x } fun t => f (live t)
def withCtx (c : Nat) (k : Ctx) (t : Tile) : Tile := { t with ctxs := t.ctxs ++ [(c, k)] }

theorem witness_Threads :
    let s (o : Word) : State := rt [(6, o)]
    let alone : State := rt [(6, 0x100)] fun t => { t with residents := [{ res with size := 1 }] }
    let free (z : State) (m : CtxNo) : Prop := (z.here.ctx m).state = .free ∧ m ≠ res.root
    (∀ z ∈ [s 0x100, s 1, alone], z.me.sup = false ∧ z.me.st = 0 ∧ z.me.quiet = true ∧ z.here.arrivals = [] ∧ z.inPicks 0 0 = none ∧
      Free [6, 7] [5] z ∧ Free [6] [5] z ∧ Free [6] [] z) ∧
    ((s 0).here.residentOf 0 = some res ∧ res.root = 0 ∧ alone.here.residentOf 0 = some { res with size := 1 }) ∧
    ((st (kx [])).here.residentOf 1 = none ∧ (st (kx [])).me.sup = false) ∧
    ((2 : Word).toNat % 4 ≠ 0 ∧ res.ioff + res.isize = 0x1000 ∧ (0xFFC : Word).toNat % 4 = 0) ∧
    ((∀ m ∈ ({ res with size := 1 } : Resident).members, ¬free alone m) ∧
      res.members = [0] ++ 1 :: (List.range 14).map (fun i => BitVec.ofNat 4 (i + 2)) ∧ free (s 0x100) 1 ∧ ¬free (s 0x100) 0) ∧
    (res.other 0 = false ∧ res.other 15 = true ∧ ((s 15).here.ctx 15).isFree = true ∧
      (let z := rt [(6, 2)] (withCtx 2 k0)
       (z.here.ctx 2).isFree = false ∧ (z.here.ctx 2).state = .ready ∧ (z.here.ctx 2).sup = false ∧ z.here.cards = [] ∧
       (∀ f ∈ [CtxState.parked, .held, .stopped], let y := rt [(6, 2)] (withCtx 2 { k0 with state := f })
         (y.here.ctx 2).state = f ∧ (y.here.ctx 2).isFree = false ∧ (y.here.ctx 2).sup = false ∧ y.here.residentOf 2 = some res) ∧
       z.here.residentOf 2 = some res ∧ (∃ m ∈ res.members, m ≠ 0 ∧ (z.here.ctx m).state.live = true))) ∧
    (∀ m ∈ res.members, m ≠ 0 → ((s 0).here.ctx m).state.live = false) ∧
    (let z (n : Nat) : State := st { k0 with ld := n } live
     (z 0).here.residentOf 1 = some res ∧ (z 0).me.quiet = true ∧ (z 1).me.quiet = false ∧ (z 0).here.arrivals = []) ∧
    (st0 { k0 with sup := true }).me.sup = true := by
  refine ⟨?_, by decide, by decide, by decide, by decide, by decide, by decide, by decide, rfl⟩
  intro z hz
  simp only [List.mem_cons, List.not_mem_nil, or_false] at hz
  rcases hz with rfl | rfl | rfl <;> exact ⟨rfl, rfl, rfl, rfl, rfl, rfl, rfl, rfl⟩

theorem witness_Barriers :
    let s (b : Barrier) (n : Nat) (a : Word) : State := st { kx [(7, a)] with ld := n } fun t => { live t with barriers := [(0, b)] }
    Free [6, 7] [] (s noBarrier 0 ls0) ∧ (s noBarrier 0 ls0).atomicCheck 8 ls0 = none ∧ (s noBarrier 0 (ls0 + 4)).atomicCheck 8 (ls0 + 4) = some 0x03 ∧
    (s noBarrier 0 ls0).here.residentOf 1 = some res ∧ (st k0).here.residentOf 1 = none ∧
    (∀ m ∈ res.members, ((s noBarrier 0 ls0).here.ctx m).park = none) ∧ (s noBarrier 1 ls0).me.ld = 1 ∧
    ((s noBarrier 0 ls0).me.ld = 0 ∧ (s noBarrier 0 ls0).me.st = 0) ∧
    (let b (mask arrived : BitVec 16) : Barrier := Assoc.get noBarrier 0 (s ⟨mask, ls0, arrived, 0⟩ 0 ls0).here.barriers
     (b 1 0).mask.getLsbD 1 = false ∧ ((b 3 2).mask.getLsbD 1 = true ∧ (b 3 2).arrived.getLsbD 1 = true) ∧
     ((b 3 0).arrived.getLsbD 1 = false ∧ ((b 3 0).arrived ||| 2) &&& (b 3 0).mask ≠ (b 3 0).mask) ∧
     ((b 3 1).arrived.getLsbD 1 = false ∧ ((b 3 1).arrived ||| 2) &&& (b 3 1).mask = (b 3 1).mask)) := by
  refine ⟨rfl, rfl, rfl, rfl, rfl, by decide, rfl, ⟨rfl, rfl⟩, by decide⟩

/-- The group of a barrier in generation 4, where context 2 has arrived and is parked in BARA: named by the new mask with context 1, and
alone. -/
theorem witness_Barriers_parked :
    let k2 : Ctx := { k0 with state := .parked, park := some ⟨.barrier 4, 0⟩ }
    let s (mask : Word) : State :=
      st (kx [(6, mask), (7, ls0)]) fun t => { withCtx 2 k2 (live t) with barriers := [(0, ⟨6, ls0, 4, 4⟩)] }
    let b (m : Word) : Barrier := Assoc.get noBarrier res.group (s m).here.barriers
    (∀ m ∈ [(6 : Word), 4], Free [6, 7] [] (s m) ∧ (s m).atomicCheck 8 ls0 = none ∧ (s m).here.residentOf 1 = some res ∧
      ((s m).me.getX 6).extractLsb' 0 16 &&& res.groupMask = m.extractLsb' 0 16 ∧ res.members.Nodup ∧
      ((2 : CtxNo) ∈ res.members ∧ ((s m).here.ctx 2).park = some ⟨.barrier (b m).gen, 0⟩) ∧
      ∀ c : CtxNo, (4 : BitVec 16).getLsbD c.toNat = true ↔
        (c ∈ res.members ∧ c ≠ 1 ∧ ((s m).here.ctx c).park = some ⟨.barrier 4, 0⟩) ∧ (m.extractLsb' 0 16).getLsbD c.toNat = true) ∧
    ¬((6 : BitVec 16) ≠ 0 ∧ (4 : BitVec 16) = 6) ∧ (4 : BitVec 16) ≠ 0 ∧
    (st (kx [(7, ls0)])).atomicCheck 8 ls0 = none ∧ (st (kx [(7, ls0)])).here.residentOf 1 = none := by
  refine ⟨fun m h => ?_, by decide, by decide, rfl, rfl⟩
  simp only [List.mem_cons, List.not_mem_nil, or_false] at h
  rcases h with rfl | rfl <;> exact ⟨rfl, rfl, rfl, by decide, by decide, by decide, by decide⟩

/-- A root in the pick domain at pick 3, with its right neighbour at pick `n`. -/
def pickSt (j : Bool) (n ld : Nat) (hold : Word) (x6 : Word := 0) : State :=
  rt [(6, x6)] (fun t => { t with joined := j, pick := 3, phold := hold, nbrs := (List.range 4).map fun d => (d, ⟨true, false, false, n⟩) })
    { k0 with ld := ld }

theorem witness_Picks :
    let s := pickSt true 3 0 0
    (st k0).isRoot 0 1 = false ∧ s.isRoot 0 0 = true ∧ (st0 k0).pickLaunch 0 0 = none ∧ (pickSt false 3 0 0).inPicks 0 0 = none ∧
    ((pickSt false 3 0 0).pickLaunch 0 0 = some res ∧ (pickSt false 3 0 0).here.joined = false) ∧
    s.inPicks 0 0 = some res ∧ ((pickSt true 3 1 0).me.ld = 1 ∧ s.me.ld = 0 ∧ s.me.st = 0) ∧
    ((pickSt true 3 0 0x8000000000000003).here.phold.getLsbD 63 = true ∧ (pickSt true 3 0 0x8000000000000003).here.phold.toNat % 2 ^ 60 = 3) ∧
    s.lagging 0 res 3 = none ∧ (pickSt true 2 0 0).lagging 0 res 3 = some (1, 0) ∧ s.here.slack = false ∧
    Free [6, 7] [5] s ∧ inRect res.rect 1 = true ∧ inRect res.rect 2 = false ∧ ((0xFF : Word).extractLsb' 0 8).toInt = -1 := by
  refine ⟨rfl, rfl, rfl, rfl, ⟨rfl, rfl⟩, rfl, ⟨rfl, rfl, rfl⟩, ⟨rfl, by decide⟩, by decide, by decide, rfl, rfl, by decide, by decide, by decide⟩

def preadReq (p : Phase) : Req := { (kx []).mkReq (.pread 1 0 0 0) 8 0 (.x 5 false) [] false with phase := p }
/-- A shuttle from context 1 of tile 0 to tile 1. -/
def sh (refused : Bool) : Shuttle :=
  { fromTile := 0, fromCtx := 1, dest := 1, launch := 1, pc := 0x104, regs := [(1, 7)], frnd := 0, fstat := 0, livemask := 0xFFFFFE
    pwatch := 20, qmode := 0, base := 6, refused := refused }
def shSt (h : HopState) (l : List Shuttle) : State :=
  { st { k0 with state := .parked, hop := h } live with
    shuttles := l, time := 64
    tiles := [(0, { live Tile.reset with ctxs := [(1, { k0 with state := .parked, hop := h })] }), (1, live Tile.reset)] }

theorem witness_MeshSteps :
    (let u : PickUpdate := ⟨1, 0, ⟨true, false, false, 5⟩⟩
     let s : State := { st k0 with picks := [u] }
     s.picks[0]? = some u ∧ s.picks.take 0 = [] ∧ (List.range 4).find? (fun d => neighbour s.part 0 d == some 1) = some 0) ∧
    (let s (p : Phase) : State := reqSt (preadReq p)
     (s .issued).req 0 1 0 = some (preadReq .issued) ∧ (s .issued).mayPerform 0 1 (preadReq .issued) [] = true ∧
     ((s .issued).tile 1).answer 0 0 = none ∧ (s (.answered 0 0)).req 0 1 0 = some (preadReq (.answered 0 0))) ∧
    (let t : Tile := { Tile.reset with joined := true, pick := 255 }
     t.slack = false ∧ t.joined = true ∧ t.pdone = false ∧ t.pick < 0 + 256 ∧ (0 : Int) + 256 ≤ ({ t with pick := 256 } : Tile).pick ∧
     (reqSt (preadReq .recycled)).req 0 1 0 = some (preadReq .recycled)) ∧
    (let s := shSt (.sent 0) [sh false]
     s.shuttles[0]? = some (sh false) ∧ (s.tile 1).launchStopped 1 = false ∧ (s.tile 1).residentId 1 = some res ∧
     (s.tile 1).freeCtx 1 = some (0, res) ∧ (s.tile 1).stop.getLsbD 0 = false ∧ (1 : TileNo) ≠ 0 ∧ (s.ctx 0 1).state = .parked ∧
     (s.tile 0).arrivals = []) ∧
    (let s := shSt (.sent 6) [sh true]
     s.shuttles[0]? = some (sh true) ∧ (s.ctx 0 1).hop = .sent 6 ∧ (s.ctx 0 1).state = .parked) ∧
    (let s := shSt (.backoff (sh false) 0 64) []
     (s.ctx 0 1).hop = .backoff (sh false) 0 64 ∧ 64 ≤ s.time) := by
  refine ⟨by decide, by decide, by decide, by decide, by decide, by decide⟩

theorem witness_HopIssue :
    let s (a : Word) (n : Nat) (f : Tile → Tile) : State :=
      { st { kx [(6, a)] with ld := n } with
        tiles := [(0, f { Tile.reset with ctxs := [(1, { kx [(6, a)] with ld := n })] }), (1, live Tile.reset)] }
    Free [6] [] (s ls0 0 live) ∧ (rt []).isRoot 0 0 = true ∧ (s ls0 0 live).isRoot 0 1 = false ∧
    target .spn4800 0 far = .mem ∧ target .spn4800 0 ls0 = .chip 0 0 true ∧ target .spn4800 0 0xFFFFF00001000000 = .chip 1 0 false ∧
    target .spn4800 0 0xFFFFF00002000000 = .chip 2 0 false ∧
    (s ls0 0 id).launchOf 0 1 = none ∧ (s ls0 0 live).launchOf 0 1 = some res ∧
    ((s ls0 0 live).hasTask 2 1 = false ∧ (s ls0 0 live).hasTask 0 1 = true ∧ (s ls0 0 live).hasTask 1 1 = true) ∧
    ((s ls0 1 live).me.quiet = false ∧ (s ls0 0 live).me.quiet = true) := by
  refine ⟨rfl, rfl, rfl, by decide, by decide, by decide, by decide, rfl, rfl, by decide, by decide⟩

/-- The monitor on context 0, serving context 1, which is HELD; the action of TRET, and the records that wait. -/
def monSt (act : Nat) (recs : List Record) (intr : Bool) : State :=
  let tl : Tile := Tile.reset
  let m := { k0 with sup := true, under := .ready }
  { st0 m with
    tiles := [(0, { tl with
      ctxs := [(0, m), (1, { k0 with state := .held, served := true })], monitor := true, recs := recs
      tctx := BitVec.ofNat 64 (act * 256 + 1), tcause := if intr then 0x8000000000000002 else 4, residents := [res], split := 16 })] }

theorem witness_TrapReturn :
    (st0 k0).me.sup = false ∧
    (∀ a ∈ [0, 1, 2, 3], let s := monSt a [] false
      s.me.sup = true ∧ s.here.recs = [] ∧ s.here.tcause.getLsbD 63 = false ∧ (s.here.ctx 1).served = true ∧
      (s.here.ctx 1).state = .held ∧ (s.here.ctx 1).sup = false ∧ s.me.under = .ready ∧ s.here.stop.getLsbD 0 = false ∧
      s.here.tstat.getLsbD 5 = false ∧ s.here.tctx.toNat / 2 ^ 8 % 4 = a ∧ s.here.tctx.toNat % 16 = 1 ∧
      s.here.residentOf 1 = some res ∧ res.root ≠ 1) ∧
    (let s := monSt 0 [⟨false, 4, 5, 0, 0, 1, 2⟩] true
     s.here.tcause.getLsbD 63 = true ∧ s.here.quarantined = false ∧ s.me.posted = none ∧ s.here.recs ≠ []) := by decide

/-- A parked context, its park of a reason since loom time 0. -/
def parkSt (r : Reason) (time : Nat) (k : Ctx := k0) (f : Tile → Tile := id) : State :=
  { st { k with state := .parked, park := some ⟨r, 0⟩ } f with time := time }

theorem witness_Parks :
    ((parkSt .ldst 0).wakes 0 1 .ldst = true ∧ (((parkSt .ldst 0).ctx 0 1).park = some ⟨.ldst, 0⟩)) ∧
    ((parkSt (.waitc 0 0 0 0) 0).wakes 0 1 (.waitc 0 0 0 0) = true ∧ ((parkSt (.waitc 0 0 0 0) 0).ctx 0 1).park = some ⟨.waitc 0 0 0 0, 0⟩) ∧
    ((⟨.wrs true, 0⟩ : Park).since + 512 ≤ (parkSt (.wrs true) 512).time) ∧
    (let k := (st { k0 with state := .ending }).ctx 0 1
     k.sup = false ∧ k.state = .ending ∧ k.quiet = true ∧ k.hop = .none ∧ (st k0).here.arrivals = []) ∧
    (let s := parkSt (.sources 1) (2 ^ 22)
     (Reason.sources 1).watched = true ∧ 0 + 2 ^ (s.tile 0).pwlog ≤ s.time ∧ (s.ctx 0 1).posted = none) ∧
    (let s := parkSt (.promise 1 5) 5 { k0 with jobs := [⟨1, false, some 5, 0, 0⟩] }
     (5 : Word).toNat ≤ s.time ∧ (s.ctx 0 1).job 1 = some ⟨1, false, some 5, 0, 0⟩) ∧
    (let s := parkSt .neighbours (2 ^ 20) k0 fun t => { live t with joined := true, pick := 3 }
     0 + 2 ^ (s.ctx 0 1).pwatch ≤ s.time ∧ s.pickLaunch 0 1 = some res ∧ s.lagging 0 res (s.tile 0).pick = some (1, 0)) := by
  refine ⟨by decide, by decide, by decide, by decide, by decide, by decide, by decide⟩

theorem witness_TileTime :
    let s : State := { st { k0 with grant := some ⟨.ls 0 0, 1, true, 0⟩ } (fun t => { t with tcmp := 256 }) with time := 256 }
    s.time % 16 = 0 ∧ ((s.tile 0).tcmp ≠ 0 ∧ (s.tile 0).tcmp.toNat ≤ s.time) ∧
    ((s.ctx 0 1).grant = some ⟨.ls 0 0, 1, true, 0⟩ ∧ 0 + 256 ≤ s.time) := by decide

theorem witness_SlotLending :
    let t (w : Word) (f : CtxState) : Tile := { Tile.reset with slots := [(0, w)], ctxs := [(1, { k0 with state := f }), (2, k0)] }
    let held : Tile := { Tile.reset with slots := [(0, 0x101)], ctxs := [(1, { k0 with held := true }), (2, k0)] }
    (t 0x101 .ready).stop.getLsbD 1 = false ∧ (t 0x101 .ready).quarantined = false ∧ ((t 0x101 .ready).ctx 1).reqs = [] ∧
    ((t 0x101 .ready).mayIssue 0 0 1 = true ∧ (t 0x101 .ready).choose 0 0 = some 1) ∧
    ((t 0x101 .parked).mayIssue 0 0 1 = false ∧ (t 0x101 .parked).choose 0 0 = some 2) ∧
    (held.mayIssue 0 0 1 = false ∧ held.choose 0 0 = some 2) ∧
    ((0x001 : Word).getLsbD 8 = false ∧ (t 0x001 .ready).choose 0 0 = some 1) := by
  refine ⟨by decide, by decide, rfl, by decide, by decide, by decide, by decide⟩

theorem witness_HostMemory :
    let s := mapped (st k0)
    s.mainServed false = true ∧ s.memServed true = true ∧
    ({ s with hub := { s.hub with tdi := .run } } : State).memServed false = false ∧
    (let z : State := { s with hub := { s.hub with powered := false } }
     z.mainServed true = false ∧ z.memServed true = true) ∧
    (s.part.inMemory 0 64 = true ∧ s.part.memEnd < 0x9000000000 + 1) ∧ ((0x3FFFC0 : BitVec 22).toNat + 64 ≤ 0x400000) ∧
    (0x400000 < (0x3FFFC1 : BitVec 22).toNat + 64) ∧
    (far.toNat % 8 = 0 ∧ inFlag far.toNat 8 = false ∧ (s.home (Place.main (s.part.loc far.toNat false)).word8).fifo = []) ∧
    (inFlag 0xF000000008 8 = true ∧ (s.home (Place.flag 8).word8).fifo = []) := by
  refine ⟨rfl, rfl, rfl, by decide, by decide, by decide, by decide, by decide, by decide⟩

theorem witness_HostMemory_lines : (mapped (st k0)).LinesOk := fun _ _ h => nomatch h

/-- A logged load of an address that no table maps, and the same once it has been refused. -/
def farReq (p : Phase) : Req := { (kx []).mkReq (.load true) 8 0 (.x 5 false) [⟨far, 8, 0, false, []⟩] true with phase := p }
/-- A store of the monitor to the tile control register at an offset. -/
def ctlSt (off : Nat) (v : Word) (other : Ctx) (f : Tile → Tile := id) : State :=
  let q := { (kx []).mkReq (.control 0) 8 v .none [⟨ls0 + BitVec.ofNat 64 (0x150000 + off), 8, 0, false, []⟩] false with sup := true }
  let m := { kr q with sup := true, under := .free }
  { State.reset with cur := (0, 0), tiles := [(0, f { live Tile.reset with ctxs := [(0, m), (1, other)] })] }

theorem witness_RefusedRequests :
    (let s := reqSt (farReq .issued)
     s.req 0 1 0 = some (farReq .issued) ∧ (farReq .issued).logged = true ∧ s.refusal 0 1 (farReq .issued) = some (0x05, far)) ∧
    (∀ op ∈ [0, 1, 2, 3], let v := BitVec.ofNat 64 (op * 2 ^ 16 + 1)
      let s := ctlSt 0x170 v { kr (farReq (.refused 0x05 far)) with state := .held } fun t => { t with tctx := 1 }
      ((s.ctl 0 0 0 0x170).map fun x => (x.1.data, x.2)) = some (v, 0) ∧ s.reqctl 0 v = some (1, farReq (.refused 0x05 far)) ∧
      v.toNat / 2 ^ 16 % 4 = op) := by
  refine ⟨by decide, by decide⟩

/-- A vector load whose lowest refused element follows one that is done and one that is reached. -/
theorem witness_RefusedRequests_vload :
    let e (a : Word) (d : Bool) : Elem := ⟨a, 4, 0, d, []⟩
    let q : Req := { (kx []).mkReq .vload 4 0 (.v 3) [e wild true, e ls0 false, e far false] true with phase := .issued }
    let s := reqSt q
    q.elems = [e wild true, e ls0 false] ++ e far false :: [] ∧ (e far false).done = false ∧
    s.elemRefusal 0 1 q (e far false) = some 0x05 ∧ (e wild true).done = true ∧ s.elemRefusal 0 1 q (e ls0 false) = none ∧
    s.refusalOpen 0 1 q (e ls0 false) = false := by
  refine ⟨rfl, rfl, by decide, rfl, by decide, by decide⟩

def flReq (n : Nat) (a : Word) : Req := (kx []).mkReq .mflush 0 0 .none [⟨a, n, 0, false, []⟩] (n != 0)
def gib : TlbEntry := ⟨0, 0, 30, 0, false, false, false, true, true⟩

theorem witness_BuffersWalksErrors :
    (let s : State := { st k0 with lines := [(5, ⟨List.replicate 64 1, 3, false⟩)] }
     (Assoc.get Line.none 5 s.lines).bytes ≠ [] ∧ (Assoc.get Line.none 5 s.lines).bytes.length ≤ 64) ∧
    (let s (n : Nat) := mapped (reqSt (flReq n far) fun t => { t with tlb := [gib] })
     (s 0).req 0 1 0 = some (flReq 0 far) ∧ (s 0).mayPerform 0 1 (flReq 0 far) (flReq 0 far).elems = true ∧
     ((s 0).ctx 0 1).allBefore 0 = true ∧ (s 64).mayPerform 0 1 (flReq 64 far) (flReq 64 far).elems = true ∧
     (s 64).translated 0 far = true ∧ (s 64).translation 0 ((s 64).tag 0 1) far = some gib) ∧
    (let w (root : Nat) : Walk := ⟨⟨0, root, 0⟩, 0x10000, 0, true⟩
     let s (root : Nat) (z : State) : State := { z with regions := [(regionOf 0, ⟨[], [w root]⟩)] }
     let m := mapped (st k0)
     let pending (z : State) := (Assoc.get (⟨[], []⟩ : Region) (regionOf 0) z.regions).pending
     (∀ z ∈ [s 0x200000 m, s 0 m], (pending z).find? (fun w => w.started && w.tag.queue == 0 && w.base / 2 ^ 16 == va48 far / 2 ^ 16) =
       (pending z).head? ∧ (pending z).length = 1) ∧
     (m.walkReads (va48 far) 0x200000 3 0).any m.badPhys = false ∧
     (let bad : State := { m with badMain := [m.part.loc 0x200000 false] }
      (bad.walkReads (va48 far) 0x200000 3 0).any bad.badPhys = true) ∧
     m.walk ⟨0, 0x200000, 0⟩ far = some gib ∧ m.walk ⟨0, 0, 0⟩ far = none) ∧
    (let s := st k0 fun t => { t with recs := [⟨false, 4, 5, 0, 0, 1, 2⟩] }
     (s.tile 0).monitor = false ∧ (s.tile 0).quarantined = false ∧ (s.tile 0).recs ≠ []) := by
  refine ⟨by decide, ?_, ?_, by decide⟩
  · exact ⟨by decide, by decide, by decide, by decide, by decide, by decide⟩
  · exact ⟨by decide, by decide, by decide, by decide, by decide⟩

theorem witness_StopAndHold :
    (let s (old : BitVec 16) (v : Word) (k : Ctx) := ctlSt 0x180 v k fun t => { t with stop := old }
     (((s 0 2 k0).ctl 0 0 0 0x180).map fun x => (x.1.data, x.2)) = some (2, 0) ∧
     ((2 : BitVec 16) &&& ~~~0 ≠ 0 ∧ ((s 0 2 k0).ctx 0 1).state = .ready ∧ ((s 0 2 k0).ctx 0 1).hop = .none ∧
       ((s 0 2 k0).ctx 0 1).posted = none ∧ ((s 0 2 k0).ctx 0 1).sup = false) ∧
     (((s 2 0 { k0 with state := .stopped }).ctl 0 0 0 0x180).map fun x => (x.1.data, x.2)) = some (0, 0) ∧
     ((0 : BitVec 16) &&& ~~~2 = 0 ∧ ((2 : BitVec 16) &&& ~~~0).getLsbD 1 = true ∧
       ((s 2 0 { k0 with state := .stopped }).ctx 0 1).state = .stopped ∧ ((s 2 0 { k0 with state := .stopped }).ctx 0 1).killStatus = 0)) ∧
    (let s := mapped (st { k0 with state := .stopped } fun t => { live t with stop := 2, tlb := [gib] })
     (s.tile 0).stop ≠ 0 ∧ (s.tile 0).drained = false ∧ (s.tile 0).arrivals = [] ∧ (s.tile 0).cards = [] ∧
     (∀ i < 16, let m := BitVec.ofNat 4 i
       (s.tile 0).stop.getLsbD m.toNat = true → (s.ctx 0 m).sup = false ∧ (s.ctx 0 m).state = .stopped ∧ (s.tile 0).ctxDrained [] m = true) ∧
     (s.writeCounts 0).2 = true) ∧
    (let s := ctlSt 0x140 0x100 k0
     ((s.ctl 0 0 0 0x140).map fun x => (x.1.data, x.2)) = some (0x100, 0) ∧ neighbour s.part 0 0 = some 1 ∧
     (s.pnbr 0 0).getLsbD 63 = true ∧ (s.tile 1).pdone = false ∧ (s.tile 1).slack = false) := by
  refine ⟨⟨by decide, by decide, by decide, by decide⟩, ⟨by decide, by decide, by decide, by decide, by decide, by decide⟩, by decide⟩

theorem witness_Preemption :
    (((st k0 live).tile 0).residents.find? (fun r => !r.ended && r.index == 0) = some res) ∧ res.picks = true ∧
    ((st k0 fun t => { live t with phold := 0x8000000000000000 }).tile 0).phold.getLsbD 63 = true ∧
    (let m := mapped (ctlSt 0x1A8 0x40000 k0 fun t => { t with stop := 1, tlb := [gib] })
     ((m.ctl 0 0 0 0x1A8).map fun x => (x.1.data, x.2)) = some (0x40000, 0) ∧ m.postedBy 0 .spill = false ∧
     m.bufWalk 0 0x40000 = none ∧ m.bufLaunch 0 0x40000 = some res ∧
     [(0x40000 : Word), 0x60000].any (m.unreachable 0 res.tag) = false ∧
     (∃ s1 s2, m.loadWords 0 res.tag [0x40008, 0x40010] = (s1, some [0, 0]) ∧ s1.loadWords 0 res.tag [] = (s2, some []))) ∧
    -- a buffer whose walk is still to be made, one whose second page is not mapped, and one that no stopped launch translates
    (let page : TlbEntry := ⟨0, 4, 16, 0x40000, false, false, false, true, true⟩
     let r : Resident := { res with ptroot := 0x200000 }
     let w := mapped (ctlSt 0x1A8 0x40000 k0 fun t => { t with stop := 1, residents := [r] })
     let h := mapped (ctlSt 0x1A8 0x40000 k0 fun t => { t with stop := 1, tlb := [page] })
     let z := mapped (ctlSt 0x1A8 0x40000 k0 fun t => { t with stop := 1 })
     w.bufWalk 0 0x40000 = some r ∧
     (h.bufWalk 0 0x40000 = none ∧ h.bufLaunch 0 0x40000 = some res ∧ [(0x40000 : Word), 0x60000].any (h.unreachable 0 res.tag) = true) ∧
     (z.bufWalk 0 0x40000 = none ∧ z.bufLaunch 0 0x40000 = none)) := by
  refine ⟨by decide, rfl, by decide, ⟨by decide, by decide, by decide, by decide, by decide, _, _, rfl, rfl⟩,
    by decide, by decide, by decide⟩

/-- A package whose port 0 has a link. -/
def linkSt (f : Link → Link) (time : Nat := 0) : State :=
  { mapped (st k0) with links := [(0, f { Link.reset with trained := true })], time := time }

theorem witness_Links :
    (let s := linkSt id
     (0 : BitVec 4).toNat < s.part.ports ∧ s.loomRuns = true ∧ s.linkUp 0 = true ∧
       (s.link 0).retraining = false ∧ s.time % 65536 = 0 ∧ (s.link 0).replay = []) ∧
    (let s (n : Nat) := linkSt (fun l => { l with replay := [(0, 0)] }) n
     (s 0).link 0 ≠ Link.reset ∧ ((s 4096).link 0).replay = [(0, 0)] ∧ 0 + 4096 ≤ (s 4096).time ∧ (s 4095).time < 0 + 4096) ∧
    (let s := linkSt (fun l => { l with auditDue := true }) 1
     s.time % 65536 ≠ 0 ∧ (s.link 0).auditDue = true ∧ s.linkUp 0 = true) ∧
    (let s := linkSt (fun l => { l with mismatches := [0, 1], recv := 5 }) 2
     ((5 : BitVec 32) = (s.link 0).recv ∧ (0 : BitVec 32) = (s.link 0).returned) ∧ ¬((4 : BitVec 32) = (s.link 0).recv) ∧
     2 ≤ ((s.link 0).mismatches.filter fun m => decide (s.time < m + 2 ^ 20)).length) ∧
    (let s := linkSt (fun l => { l with retraining := true, replay := [(0, 0)] })
     s.linkUp 0 = true ∧ (s.link 0).retraining = true ∧ (s.link 0).held = [] ∧ (s.link 0).replay ≠ []) := by
  refine ⟨by decide, by decide, by decide, by decide, by decide⟩

/-- A ready package with some bytes of main memory and of the flag window. -/
def memSt (bytes : List (Nat × Byte)) (flag : List Host.Cell) (c : Option Cmd := none) (map : Bool := true) : State :=
  let s := mapped (st k0) c
  let s := bytes.foldl (fun s b => s.writePhys b.1 [b.2]) s
  { s with flag := flag, hub := { s.hub with slots := if map then s.hub.slots else [], qtbase := 0x30000 } }
/-- The descriptor of queue 0 in the table. -/
def descBytes : List (Nat × Byte) := [(0x30000, 0x0B), (0x30001, 4), (0x30009, 0x10), (0x30010, 8), (0x30022, 0x20)]

theorem witness_QueueSteps :
    (let s (w : Byte) : State := let z := memSt descBytes [(8, w)]; { z with hub := { z.hub with notes := [0] } }
     (s 1).hub.notes.contains 0 = true ∧ ((s 1).qslot 0).isSome = true ∧ (s 1).readIdx 0 = 0 ∧ (s 16).posted ((s 16).desc 0) = 16 ∧
     descSize ((s 1).desc 0) = 16 ∧ (s 17).posted ((s 17).desc 0) = 17 ∧ (s 1).hub.pending.contains 0 = false) ∧
    (let s (b : List (Nat × Byte)) : State := memSt b [(8, 1)] none false
     (s descBytes).queuesRun = true ∧ (s descBytes).topRank (s descBytes).unmapped = some 0 ∧ (s descBytes).roomFor 0 = some none ∧
     (s descBytes).descOk 0 ((s descBytes).readDesc 0) = true ∧ (s (descBytes ++ [(0x30038, 1)])).topRank (s (descBytes ++ [(0x30038, 1)])).unmapped = some 0 ∧
     (s (descBytes ++ [(0x30038, 1)])).descOk 0 ((s (descBytes ++ [(0x30038, 1)])).readDesc 0) = false) ∧
    (let s (b : List (Nat × Byte)) : State := memSt (descBytes ++ b) [(8, 1)]
     let read (z : State) := z.qBytes 0 (descRing desc0 + BitVec.ofNat 64 (64 * (0 % descSize desc0))) 64
     let first (z : State) : Option (List Word) := (read z).toOption.map wordsOf
     (s []).qslot 0 = some ⟨0, desc0, 0, none⟩ ∧ descEnable ((memSt [] []).readDesc 0) = false ∧ descEnable ((s []).readDesc 0) = true ∧
     ((s []).nextStart.map (·.1)) = some 0 ∧ (s []).posted desc0 = 1 ∧
     first (s [(0x1000, 7), (0x1038, 5)]) = some [7, 0, 0, 0, 0, 0, 0, 5] ∧
     cmdStatus [7, 0, 0, 0, 0, 0, 0, 0] = none ∧ cmdStatus [0, 0, 0, 0, 0, 0, 0, 0] = some 0x01) ∧
    (let s (p : CmdPhase) : State := mapped (st k0) (some ⟨[7, 0, 0, 0, 0, 0, 0, 0], p, none⟩)
     (((s .held).qslot 0).bind (·.cmd)) = some ⟨[7, 0, 0, 0, 0, 0, 0, 0], .held, none⟩ ∧ (s .done).endedLaunch 0 true = none) := by
  refine ⟨⟨by decide, by decide, by decide, by decide, by decide, by decide, by decide⟩,
    ⟨by decide, by decide, by decide, by decide, by decide, by decide⟩,
    ⟨by decide, by decide, by decide, by decide, by decide, by decide, by decide, by decide⟩, by decide⟩

/-- A queue whose next command its NOTBEFORE holds back. -/
theorem witness_QueueSteps_held :
    let s : State := memSt (descBytes ++ [(0x1000, 7), (0x1038, 5)]) [(8, 1)]
    s.qslot 0 = some ⟨0, desc0, 0, none⟩ ∧ s.queuesRun = true ∧ descEnable (s.readDesc 0) = true ∧ s.posted desc0 = 1 ∧
    (s.qBytes 0 (descRing desc0 + BitVec.ofNat 64 (64 * (0 % descSize desc0))) 64).toOption.map
      (fun b => decide (s.time < ((wordsOf b).getD 7 0).toNat)) = some true ∧
    s.canStart ⟨0, desc0, 0, none⟩ = false := by
  refine ⟨by decide, by decide, by decide, by decide, by decide, by decide⟩

/-- A command of queue 0 in progress. -/
def cmdSt (w : List Word) (p : CmdPhase) (bytes : List (Nat × Byte) := []) : State := memSt bytes [] (some ⟨w, p, none⟩)

set_option maxRecDepth 10000 in
theorem witness_QueueCommands :
    (∀ op ∈ [1, 2, 3, 4, 5, 6, 7, 8, 9], (cmdSt [BitVec.ofNat 64 op] .started).cmdIn 0 op .started = some ⟨[BitVec.ofNat 64 op], .started, none⟩) ∧
    (∀ op ∈ [1, 2, 4], (cmdSt [BitVec.ofNat 64 op] .waiting).cmdIn 0 op .waiting = some ⟨[BitVec.ofNat 64 op], .waiting, none⟩) ∧
    -- WAIT: a word that meets its comparison (0 ≥ 0), one that does not (0 ≥ 1), and no translation; its timeout
    (let s := cmdSt [2, 0x8000, 0, 0] .started
     s.semaphore 0 true false 0x8000 = .ok (.main (s.part.loc 0x8000 false), false) ∧
     waitHolds 0 (leWord ((s.touchPlace (.main (s.part.loc 0x8000 false)) false).readPlaces (.main (s.part.loc 0x8000 false)) 8)) 0 = true ∧
     waitHolds 0 (leWord ((s.touchPlace (.main (s.part.loc 0x8000 false)) false).readPlaces (.main (s.part.loc 0x8000 false)) 8)) 1 = false ∧
     s.fifoEmpty (Place.main (s.part.loc 0x8000 false)).word8 = true ∧ s.semaphore 0 true true 0x40000000 = .error false ∧
     (let z := cmdSt [2, 0x8000, 1, 0, 8] .waiting
      ({ z with time := 8, hub := { z.hub with waitSince := [(0, 1)] } } : State).waitLate 0 ⟨[2, 0x8000, 1, 0, 8], .waiting, none⟩ = true)) ∧
    -- TIMED: before its time, at its time, with and without a word
    ((cmdSt [4, 5] .waiting).time < (5 : Word).toNat ∧ (0 : Word).toNat ≤ (cmdSt [4, 0] .waiting).time ∧
      (cmdSt [4, 0, 0x8000] .waiting).qPlace 0 false true (sext48 0x8000) = some (.main ((cmdSt [] .waiting).part.loc 0x8000 false), false)) ∧
    -- FLUSH of a range, FENCE with and without a launch of the queue, COPY, TLBINV
    (let s := cmdSt [] .started
     flushBad 0x8000 64 = none ∧ s.flushSpans 0 (flushPages 0x8000 64) 0x8000 0x8040 = some [(gib, 0x8000, 64)] ∧
     s.hub.launches = [] ∧
     s.copyPlaces 0 false 0x8000 1 = .ok [(.main (s.part.loc 0x8000 false), false)] ∧
     s.copyPlaces 0 true 0x9000 1 = .ok [(.main (s.part.loc 0x9000 false), false)] ∧
     s.fifoEmpty (Place.main (s.part.loc 0x9000 false)).word8 = true ∧ s.usesRange 0 false 0x8000 1 = false ∧ s.usesRange 0 true 0 0 = false) := by
  refine ⟨by decide, by decide, ⟨?_, by decide, by decide, by decide, ?_, by decide⟩, ⟨by decide, by decide, by decide⟩, ?_⟩
  · rfl
  · rfl
  · exact ⟨by decide, by decide, rfl, rfl, rfl, by decide, by decide, by decide⟩

/-- A launch record at 0x10000: one task on tile 0 at offset 0 of 4 KiB, its task at 0x20000. -/
def recBytes : List (Nat × Byte) := [(0x10000, 0x11), (0x10004, 1), (0x1000A, 2), (0x1001B, 0x10), (0x10040, 0x16), (0x10042, 1)]
def startSt (sup : Bool) : State :=
  { memSt [] [] with
    starts := [⟨0, 0, 0x100, 7, 1⟩]
    tiles := [(0, { live Tile.reset with ctxs := [(0, { Ctx.reset with sup := sup })] })] }

set_option maxRecDepth 100000 in
theorem witness_Launches :
    (let s (r : List Resident) : State := { cmdSt [1, 0x10000] .started recBytes with tiles := [(0, { Tile.reset with residents := r, split := 16 })] }
     s [] |>.hub.actual ≠ 2) ∧
    (∃ ld gs im, let s : State := { cmdSt [1, 0x10000] .started recBytes with tiles := [] }
      s.hub.actual ≠ 2 ∧ s.loadRecord 0 0x10000 = .ok ld ∧ s.placeAll ld.rec' (ld.tasks.map (·.tile)) = .ok (some gs) ∧
      s.readImages 0 ld.rec' = .ok im ∧
      ({ s with tiles := [(0, { Tile.reset with residents := [{ res with ioff := 0x8000 }], split := 16 })] } : State).placeAll ld.rec'
        (ld.tasks.map (·.tile)) = .ok none ∧
      ({ s with tiles := [(0, { Tile.reset with residents := [res], split := 16 })] } : State).placeAll ld.rec'
        (ld.tasks.map (·.tile)) = .error 0x06) ∧
    (cmdSt [1, 0x10000] .started).loadRecord 0 0x10000 = .error (0x05, false) ∧
    (({ live Tile.reset with residents := [{ res with ended := true }] } : Tile).residentId 1 = some { res with ended := true }) ∧
    (∀ b ∈ [false, true], (startSt b).starts[0]? = some ⟨0, 0, 0x100, 7, 1⟩ ∧ ((startSt b).tile 0).residentId 1 = some res ∧ res.ended = false ∧
      ((startSt b).tile 0).quarantined = false ∧ res.root = 0 ∧ (((startSt b).tile 0).ctx 0).sup = b) := by
  refine ⟨by decide, ⟨_, _, _, by decide, rfl, rfl, rfl, rfl, rfl⟩, rfl, rfl, by decide⟩

theorem witness_HostRegisters :
    (let s := mapped (st k0)
     ({ s with hub := { s.hub with tdi := .run } } : State).barServed false = false ∧ s.barServed false = true ∧ s.barServed true = true ∧
     (s.hub.tdi = .unlocked ∧ s.hub.ready = true ∧ s.hub.thermForce = false ∧ s.hub.pforce = 0) ∧
     (st k0 live).noResident = false ∧ s.noResident = true ∧
     (let z : State := { s with hub := { s.hub with ready := false, pstate := 2 } }
      z.hub.stage = 5 ∧ z.hub.bootCode = 0 ∧ z.hub.monload = 0 ∧ z.hub.pstate = 2 ∧ z.noResident = true) ∧
     (1 : Word) &&& 0xFFFFFF000000003E = 0 ∧ (0x30000 : Word) &&& 0xFFFFFF0000000FFF = 0 ∧ (0x30001 : Word) &&& 0xFFFFFF0000000FFF ≠ 0 ∧
     (4096 : Word).toNat ≤ 4096 ∧ bits (0x3C0000000000 : Word) 40 8 = 60 ∧ bits (0x640000000000 : Word) 40 8 = 100 ∧
     (s.hub.tlim.toNat ≤ 95 ∧ 89 + 5 < s.hub.tlim.toNat ∧ s.hub.tlim.toNat ≤ 90 + 5 ∧ 90 < s.hub.tlim.toNat)) ∧
    (let s := ctlSt 0x10 5 k0
     ctlOwn 0x10 = false ∧ ((s.ctl 0 0 0 0x10).map fun x => (x.1.data, x.2)) = some (5, 0)) := by
  refine ⟨⟨by decide, by decide, by decide, by decide, by decide, by decide, by decide, by decide, by decide, by decide, by decide,
    by decide, by decide, by decide⟩, by decide⟩

theorem witness_BootAndAssignment :
    let s := mapped (st k0)
    let z (t : Tdi) : State := { s with hub := { s.hub with tdi := t, ide := true, slots := [] } }
    s.hub.ide = false ∧ s.hub.tdi = .unlocked ∧ (s.hub.slots ≠ []) ∧
    ((z .unlocked).hub.tdi = .unlocked ∧ (z .unlocked).noResident = true ∧ (z .unlocked).hub.slots = [] ∧ (z .unlocked).hub.launches = [] ∧
      (z .unlocked).hub.ide = true) ∧
    ((z .locked).hub.tdi = .locked ∧ (z .run).hub.tdi = .run ∧ (z .run).hub.tdi ≠ .unlocked) ∧
    s.measurement 2 = some 0 ∧ 5 < (6 : BitVec 8).toNat := by
  refine ⟨rfl, rfl, by decide, by decide, by decide, rfl, by decide⟩

/-- Tile 0's port is next, at a context with a program counter and some I-store bytes. -/
def runSt (pc : Word) (b : List Host.Cell) (k : Ctx := k0) : State :=
  { st { k with pc := pc } (fun t => { t with istore := b }) with agenda := [.issue 0, .tick], hub := { State.reset.hub with stage := 4 } }

set_option maxRecDepth 10000 in
theorem witness_StepRunsDecoded :
    (∀ pc ∈ [(0 : Word), 0xFFFC, 0x10000], let s := runSt pc [(0, 0x13)]
      s.agenda = .issue 0 :: [.tick] ∧ s.loomRuns = true ∧ (s.tile 0).lastIssue ≠ s.time + 1 ∧ (s.tile 0).choose s.time 0 = some 1 ∧
      (s.ctx 0 1).late = [] ∧ (s.ctx 0 1).stale = [] ∧ (s.ctx 0 1).pcNow = pc) ∧
    ((runSt 0 []).poisoned (.istore 0 0) = false ∧ reads (wordOfBytes 0x13 0 0 0, .addi 0 0 0) = true ∧
      refusedAs (wordOfBytes 0 0 0 0) .lowBits = true) ∧
    ((runSt 0 [] Ctx.reset).tile 0).choose 0 0 = none ∧ unitStep (.rotationBoundary 0) = true := by
  refine ⟨fun pc h => ?_, by decide, by decide, by decide⟩
  simp only [List.mem_cons, List.not_mem_nil, or_false] at h
  rcases h with rfl | rfl | rfl <;> exact ⟨rfl, rfl, by decide, by decide, rfl, rfl, rfl⟩

theorem witness_WriteThenRead : State.reset.LinesOk ∧ (Place.ls 0 0xFFFFF).data = true ∧ (Place.main 0).data = true ∧
    Place.ls 0 0xFFFFF ≠ Place.main 0 := ⟨State.linesOk_reset, rfl, rfl, by decide⟩

theorem witness_EncodeDecode : (Instr.addi 31 1 0xFFF).wf = true ∧ encode (.addi 31 1 0xFFF) = some 0xFFF08F93 := by decide

theorem witness_DecodeEncode : reads (0xFFF08F93, .addi 31 1 0xFFF) = true ∧ reads (0x0310818B, .vadd .f16 3 1 2 Guard.none) = true := by
  decide

set_option maxRecDepth 10000 in
theorem witness_StepKeepsMemory : ∃ t, ({ State.reset with agenda := [.tick] } : State).MemoryOk ∧
    ({ State.reset with agenda := [.tick] } : State).LinesOk ∧ step { State.reset with agenda := [.tick] } = .next t :=
  ⟨_, State.memoryOk_reset, State.linesOk_reset, rfl⟩

/-! ### Hypotheses of further clauses -/

/-- TRET that ends an interrupt; that ends a record of context 0's own task, with each action; with a record behind a synchronous
one. -/
def ownSt (act : Nat) : State :=
  let m := { k0 with sup := true, under := .held, served := true }
  { st0 m with tiles := [(0, { live Tile.reset with
      ctxs := [(0, m)], monitor := true, tctx := BitVec.ofNat 64 (act * 256), tcause := 4 })] }

theorem witness_TrapReturn_own :
    (∀ a ∈ [0, 1, 2], let s := ownSt a
      s.me.sup = true ∧ s.cur.2 = 0 ∧ s.here.tcause.getLsbD 63 = false ∧ s.here.tctx.toNat % 16 = 0 ∧ s.me.served = true ∧
      s.me.under = .held ∧ s.here.recs = [] ∧ s.here.tctx.toNat / 2 ^ 8 % 4 = a ∧ s.here.tstat.getLsbD 5 = false ∧
      s.me.dead = false ∧ s.here.waitStart = none ∧ s.here.arrivals = []) ∧
    (let s := monSt 0 [] true
     s.here.recs = [] ∧ s.here.tcause.getLsbD 63 = true ∧ s.me.under = .ready ∧ s.here.stop.getLsbD 0 = false) ∧
    (let s := monSt 0 [⟨false, 4, 5, 0, 0, 1, 2⟩] false
     s.here.recs ≠ [] ∧ s.here.tcause.getLsbD 63 = false ∧ (s.here.ctx 1).served = true ∧ (s.here.ctx 1).state = .held ∧
     (s.here.ctx 1).dead = false ∧ s.here.tstat.getLsbD 5 = false ∧ s.me.posted = none) := by decide

theorem witness_SlotShares :
    let tl (s : State) := s.tile 0
    let rs (s : State) := (tl s).residents.filter fun r => !r.ended && (r.members.filter fun c => ((tl s).ctx c).state.live) != []
    let s : State := st k0 two
    (s.time % 16 = 0 ∧ rs (st k0) = [] ∧ rs s = [{ res with size := 8 }] ∧ ((rs s).map (·.index)).Nodup ∧
      (∀ r ∈ rs s, 0 < r.weight ∧ r.members.Nodup ∧ ((rs s).map (·.weight)).sum ≤ 16 * r.weight)) := by
  decide

/-- A FOLD whose draft, at offset 0x200 of the LS, fails its checks. -/
def faultCard : Card := { card .fold 0xFFFFFF000100 .running with handle := 0xFFFFFF000200 }

theorem witness_DraftFault :
    (let k := faultCard
     let s := cardSt k
     (s.tile 0).card 1 = some k ∧ k.state = .running ∧ k.onMatrix = false ∧
     ∃ s' d a, s.cardUnit 0 k 0 = (s', .stop d 0x28 a) ∧ d.job = 1 ∧ ((s'.tile 0).card 1).isSome = true) ∧
    -- in the matrix unit, which has started it
    (let k : Card := { faultCard with handle := 0x100FFFFFF000200 }
     let s := (cardSt k).modTile 0 fun tl => { tl with mats := [{ k.matOp with started := some 0 }] }
     (s.tile 0).card 1 = some k ∧ k.onMatrix = true ∧ (s.tile 0).cardStarted 1 ≠ none ∧
     ∃ s' d a, s.cardUnit 0 k 0 = (s', .stop d 0x28 a) ∧ d.job = 1 ∧ ((s'.tile 0).card 1).isSome = true) := by
  refine ⟨⟨by decide, rfl, by decide, _, _, _, rfl, rfl, by decide +kernel⟩,
    by decide, by decide, by decide, _, _, _, rfl, rfl, by decide +kernel⟩

theorem witness_GiveAndDelivery_waits :
    (let s : State := { st { kx [(6, 2)] with reqs := [delReq 2] } with cur := (0, 1) }
     let e : Elem := ⟨ls0 + 0x120000 + 0x20C0, 8, 0, false, []⟩
     s.mayPerform 0 1 (delReq 2) [e] = true) ∧
    (let q := delReq 1
     let s : State := reqSt q (fun t => { t with inbox := List.replicate 16 ⟨2, 24, 0, 0, 1, none, none, true⟩ }) id
     s.req 0 1 0 = some q ∧ q.kind = .delivery 0 1 24 false ∧ 16 ≤ (s.tile 0).inboxUsed ∧ (s.tile 0).spills 1 = false ∧
     s.mayPerform 0 1 q q.elems = true) := by
  refine ⟨by decide, by decide⟩


theorem witness_Parks_amo : let k := kr (amoReq (.amo .add) (.granted 7))
    (parkSt (.sources 1) 0 k).me.amoHeld = true ∧ (parkSt (.sources 1) 0).me.amoHeld = false ∧
    ((parkSt (.sources 1) 0 k).ctx 0 1).park = some ⟨.sources 1, 0⟩ := by decide

/-- A CWAIT behind a store to its word; one whose word a card that has not ended wrote. -/
theorem witness_CwaitStates_waits :
    (let s : State := st { kx [(6, ls0), (7, 1)] with num := 1, seq := 1, reqs := [{ storeReq with elems := [⟨ls0, 2, 0, false, [1, 0]⟩] }] }
     s.mayPerform 0 1 (s.me.cwaitRead ls0) [⟨ls0, 8, 0, false, []⟩] = false) ∧
    (let s (w : List Place) : State := cardSt { card .xcopy 0xFFFFFF000100 .running with wrote := w }
     (s [.ls 0 0]).cardHolds (.ls 0 0) = true ∧ (s []).cardHolds (.ls 0 0) = false) := by
  refine ⟨by decide, by decide⟩

set_option maxRecDepth 100000 in
theorem witness_PostsAndLoads_waits :
    let full (p : Phase) : State := { mapped (reqSt (postReq true p)) with flag := [(8, 16)] }
    (∀ p ∈ [Phase.issued, .waiting], (full p).req 0 1 0 = some (postReq true p)) ∧ (full .issued).posting 0 = .full ∧
    (let s : State := mapped (reqSt (postReq true .waiting))
     let z : State := { s with hub := { s.hub with posts := [(0, 1, 1)] } }
     z.posting 0 = .go 0x1000 0 ∧ z.hub.posts.head? = some (0, 1, 1) ∧ z.req 0 1 0 = some (postReq true .waiting)) ∧
    (let s : State := { mapped (reqSt (postReq false .issued)) with backing := [] }
     s.posting 0 = .error false 0) ∧
    (let s := reqSt hloadReq fun t => t.setHeddle 0 ⟨true, 0, false, Draft.empty, 0⟩
     s.refusal 0 1 hloadReq = none ∧ (Draft.okTile ⟨0, [0]⟩ = false) ∧ (s.tile 0).stillOwns 1 0 = true ∧
     ∃ s1 s2, s.readWords 0 (s.tag 0 1) ls0.toNat 1 = (s1, .ok [0]) ∧ s1.readWords 0 (s.tag 0 1) (ls0.toNat + 8) 1 = (s2, .ok [0])) := by
  refine ⟨by decide, by rfl, ⟨by rfl, rfl, rfl⟩, by rfl, by decide, by decide, by decide, _, _, rfl, rfl⟩

/-- A shuttle behind an earlier one of its way, and one that is first. -/
theorem witness_MeshSteps_first :
    let s := shSt (.sent 0) [sh false, sh true]
    s.shuttleFirst 0 (sh false) = true ∧ s.shuttleFirst 1 (sh true) = true ∧ res.ended = false ∧
    (s.tile 0).stop.getLsbD 1 = false := by decide

/-- The hub's entry of the launch, alive on tile 0. -/
def launch0 : Launch :=
  { id := 1, queue := 0, index := 0, async := false, cls := 0, ptroot := 0, picks := true, tasks := [(0, 0)], live := [0]
    started := true, quarantined := false, saved := [], resuming := false, ordered := false }

theorem witness_StopAndHold_phold :
    let s (f : Tile → Tile) : State :=
      let z := st0 k0 fun t => f { live t with joined := true, pick := 3 }
      { z with hub := { z.hub with launches := [launch0] } }
    (s id).domain 0 = [0] ∧ ((s id).tile 0).joined = true ∧ ((s id).tile 0).pick = 3 ∧ ((s id).tile 0).restored = true ∧
    ((s fun t => { t with stop := 1 }).tile 0).restored = false ∧ (s fun t => { t with stop := 1 }).domain 0 = [0] ∧
    ((ctlSt 0x180 2 k0).ctx 0 1).amoHeld = false ∧ ((ctlSt 0x180 2 k0).tile 0).beforeBoundary 1 = false ∧
    ((ctlSt 0x180 2 k0).ctx 0 1).dead = false := by decide

theorem witness_Preemption_shuttle :
    (let s : State := st0 k0 live
     (s.tile 0).atBoundary res = false ∧
     ((st0 k0 fun t => { live t with phold := 0x8000000000000000, pdone := true }).tile 0).atBoundary res = true) ∧
    (let z := mapped (ctlSt 0x1A8 0x40000 k0 fun t => { t with stop := 5, tlb := [gib] })
     let s := (z.writePhys 0x40010 [1]).writePhys 0x690E8 [1]
     s.postedBy 0 .spill = false ∧ s.bufWalk 0 0x40000 = none ∧ s.bufLaunch 0 0x40000 = some res ∧
     [(0x40000 : Word), 0x60000].any (s.unreachable 0 res.tag) = false ∧
     ∃ s1 s2 ws, s.loadWords 0 res.tag [0x40008, 0x40010] = (s1, some [0, 1]) ∧
       s1.loadWords 0 res.tag ((List.range 30).map fun i => 0x40000 + BitVec.ofNat 64 (0x29000 + 8 * i)) = (s2, some ws) ∧
       ws.length = 30 ∧ (s2.tile 0).landing = [] ∧ ((s2.tile 0).freeCtx res.id).isSome = true ∧
       (s2.tile 0).imageLaunch ws = some res.id ∧
       ({ s2.tile 0 with restoring := (s2.tile 0).restoring ||| res.groupMask } : Tile).launchStopped res.id = false ∧
       ∀ x ∈ (s2.tile 0).inbox, x.ctx ∉ res.members) := by
  refine ⟨by decide, by decide, by decide, by decide, by decide, _, _, _, rfl, rfl, rfl, rfl, by decide +kernel, by decide +kernel,
    by decide +kernel, by decide +kernel⟩

theorem witness_Links_credits :
    (let s := linkSt fun l => { l with used := [(Vc.wave.key, Config.linkSlots)] }
     (s.link 0).room (flitsOf 64) = false ∧ (s.link 0).retraining = false ∧ (s.link 0).held = []) := by
  refine ⟨by simp [Link.room, flitsOf, linkSt, State.link, Assoc.get], rfl, rfl⟩

/-- A chunk sent up that times out, with an alternate placement of the parent; one of another generation; a failing entry. -/
theorem witness_Collectives_up :
    (let s := colSt parE [] [chunk .up 0] 4096
     (s.tile 0).retained.find? (fun x => x.late 1 0 4096 4096) = some (chunk .up 0) ∧ (chunk .up 0).gen = ((s.tile 0).ttSt 1).gen ∧
     epRemote (ttParent ((s.tile 0).tt 1)) = false ∧
     ttAlt ((s.tile (epTile (ttParent ((s.tile 0).tt 1)))).tt 1) = some 6) ∧
    (let s := colSt parE [] [chunk .alt 9] 4096
     (s.tile 0).retained.find? (fun x => x.late 1 0 4096 4096) = some (chunk .alt 9) ∧ (9 : BitVec 16) ≠ ((s.tile 0).ttSt 1).gen) := by
  decide

theorem witness_HostMemory_fifo :
    (mapped (st k0)).homes = [] ∧
    (let s : State := { mapped (st k0) with homes := [⟨.flag 8, [fe 1 0 true], [], [], []⟩] }
     s.memServed true = true ∧ s.fifoEmpty (.flag 8) = false ∧ s.fifoFull (.flag 8) = false) := by decide

theorem witness_HostRegisters_bar0 :
    let s : State := mapped (st k0)
    s.hubRead 0x28 = some 1 ∧ s.hubRead 0x600 = none ∧ s.vector0 = false ∧
    ({ s with hub := { s.hub with pkgMem := true } } : State).vector0 = true := by decide

theorem witness_QueueSteps_errors :
    (let s (b : List (Nat × Byte)) : State := let z := memSt (descBytes ++ b) [(8, 1)] none false; { z with hub := { z.hub with notes := [0] } }
     (s [(0x30038, 1)]).hub.notes.contains 0 = true ∧ (s [(0x30038, 1)]).qslot 0 = none ∧
     (s [(0x30038, 1)]).descOk 0 ((s [(0x30038, 1)]).desc 0) = false ∧ (s [(0x30038, 1)]).descBad 0 = false ∧
     (s []).descOk 0 ((s []).desc 0) = true) ∧
    (let s : State := memSt descBytes [(8, 1)] none false
     ({ s with badMain := [s.part.loc 0x30000 false / 8 * 8] } : State).descBad 0 = true) ∧
    (let s : State := memSt descBytes [(8, 1)]
     (s.qBytes 0 (descRing desc0) 64).toOption.map (fun b => cmdStatus (wordsOf b)) = some (some 0x01)) := by
  refine ⟨⟨by decide, by decide, by decide, by decide, by decide⟩, by decide, by decide⟩

set_option maxRecDepth 10000 in
/-- A COPY from main memory to the flag window, mapped by a page of 2 MiB at 0x4000_0000, and a TIMED there. -/
theorem witness_QueueCommands_copy :
    let page : List (Nat × Byte) := [(0x200008, 1), (0x20000A, 0x30), (0x300000, 0x0F), (0x300004, 0xF0)]
    let d (_ : State) : Place := .flag 0
    let s (n : Nat) : State :=
      let z := cmdSt [8, 0x8000, 0x40000000, 1] .started page
      { z with homes := [⟨(d z).word8, List.replicate n (fe 1 0 true), [], [], []⟩] }
    ((s 1).copyPlaces 0 true 0x40000000 1 = .ok [(d (s 1), false)] ∧
      (cmdSt [4, 0, 0x40000000] .waiting page).qPlace 0 false true (sext48 0x40000000) = some (.flag 0, false)) ∧
    (cmdSt [8] .waiting).cmdIn 0 8 .started = none ∧ (cmdSt [8] .waiting).postedBy 0 (.copy 0) = false ∧
    (let fits (z : State) : Bool := z.fits ((copyPieces [((d z, false), 0)]).map (·.1.word8))
     (s 1).fifoEmpty (d (s 1)).word8 = false ∧ fits (s 1) = true ∧ (s 256).fifoFull (d (s 256)).word8 = true ∧ fits (s 256) = false) ∧
    (cmdSt [2, 0x8000, 0, 0] .started).waitLate 0 ⟨[2, 0x8000, 0, 0], .started, none⟩ = false := by
  refine ⟨⟨rfl, by decide +kernel⟩, by decide, by decide, ⟨by decide, by decide, by decide +kernel, by decide +kernel⟩, by decide⟩

set_option maxRecDepth 10000 in
/-- A tile whose launch is stopped, with a shuttle queued before the stop, and without one: the next is spilled (R306). -/
theorem witness_MeshSteps_spill :
    let z := mapped (shSt (.sent 0) [sh false])
    let s (l : List Shuttle) : State :=
      { z with tiles := z.tiles.map fun p => if p.1 = 1 then (1, { p.2 with stop := 1, tlb := [gib], arrivals := l }) else p }
    (∀ l ∈ [[sh false], []], (s l).shuttles[0]? = some (sh false) ∧ (s l).shuttleFirst 0 (sh false) = true ∧
      ((s l).tile 1).launchStopped 1 = true ∧ ((s l).tile 1).sspill < 8 ∧ ((s l).tile 1).arrivals = l) ∧
    (∃ v, (s []).spillShuttle 1 (sh false) = (v, true) ∧ (v.tile 0).arrivals = [] ∧ (v.ctx 0 1).state = .parked) ∧
    ∃ v, (s [sh false]).spillShuttle 1 (sh false) = (v, true) :=
  ⟨by decide, ⟨_, rfl, rfl, rfl⟩, _, rfl⟩

/-- The first fetch of a monitor entry, inside and outside the code that the tile holds; loom dies held in reset. -/
theorem witness_StepRunsDecoded_monitor :
    (let s : State := runSt 0 [] { k0 with sup := true }
     (s.ctx 0 1).sup = true ∧ (s.tile 0).entering = false) ∧
    ((st k0 live).holdsCode 0 0xFFC = true ∧ (st k0 live).holdsCode 0 0x1000 = false) ∧
    (let s : State := runSt 0 []
     ({ s with hub := { s.hub with bootCode := 5 } } : State).loomRuns = false ∧ State.reset.loomRuns = false ∧ hubAnswers (.rotationBoundary 0) = false ∧
     hubAnswers .keyExchange = true ∧ unitStep .keyExchange = true) := by decide

theorem witness_TileStepsComplete :
    (let s := reqSt (farReq .issued)
     s.req 0 1 0 = some (farReq .issued) ∧ s.refusal 0 1 (farReq .issued) = some (0x05, far) ∧ (s.ctx 0 1).sup = false ∧
     (farReq .issued).sup = false ∧ (s.ctx 0 1).posted = none ∧ (s.ctx 0 1).late = [] ∧
     (reqSt (farReq .issued) id fun k => { k with num := 2 }).me.num = 2) ∧
    (let s : State := { st k0 (fun t => { live t with tcmp := 9 }) with time := 9 }
     (s.tile 0).recs = [] ∧ (s.tile 0).monitor = false ∧ (s.tile 0).quarantined = false ∧
     (s.tile 0).residents.find? (fun r => !r.ended && r.index == 0) = some res ∧ ({ res with picks := false } : Resident).picks = false) ∧
    (let s := ctlSt 0x170 0x10001 { kr (farReq (.refused 0x05 far)) with state := .held } fun t => { t with tctx := 1 }
     ((0 : TileNo), (1 : CtxNo)) ≠ (0, 0) ∧ s.reqctl 0 0x10001 = some (1, farReq (.refused 0x05 far)) ∧
     (farReq (.refused 0x05 far)).dst = .x 5 false) ∧
    (let s := colSt parE [chunk .alt 0xFFFF] [] 0
     s.chunks[0]? = some (chunk .alt 0xFFFF) ∧ s.chunkFirst 0 (chunk .alt 0xFFFF) = true ∧ (((s.tile 0).ttSt 1).gen - 0xFFFF).toNat = 1) := by
  refine ⟨by decide, by decide, by decide, by decide⟩

set_option maxRecDepth 100000 in
theorem witness_CommandStepsComplete :
    let s := cmdSt [3, 0x8000, 1, 1] .started
    let p : Place := .main (s.part.loc 0x8000 false)
    s.semaphore 0 true true 0x8000 = .ok (p, false) ∧ s.fifoEmpty p.word8 = true ∧ s.RoomAt p ∧ s.LinesOk ∧
    (∀ i < 8, (p.add i).stored = true ∧ (p.add i).word8 = p.word8) ∧
    (cmdSt [5, 0, 0] .started).cmdIn 0 5 .started = some ⟨[5, 0, 0], .started, none⟩ ∧
    (reqSt (postReq true (.answered 0 0)) id fun k => { k with state := .parked }).me.state = .parked ∧
    (let z := mapped (reqSt (postReq false .issued))
     z.posting 0 = .go 0x1000 0 ∧ (∀ x ∈ slotWords 0x1000, z.fifoEmpty x = true) ∧
     z.fenceHoldsAt 0 1 (postReq false .issued).num 2 (z.postLocs 0) = false) := by
  refine ⟨by rfl, by decide, fun l h => ?_, fun _ _ h => (nomatch h), by decide, by decide, rfl, by rfl, by decide, by decide⟩
  cases h; exact .inr (by decide)

/-! ### Hypotheses of further clauses -/

/-- A destination that is also a source named through the command word: it is full, and the gate opens (R113, R114). -/
theorem witness_CardIssue_named :
    let s := stT [] [] id { k0 with qmode := 1, full := 1 }
    Free [6, 7, 8, 9, 12] [] s ∧ Free [6, 7, 8, 9, 12, 24, 25] [24] s := ⟨rfl, rfl⟩

/-- TREADY of an entry that is not valid, in a generation, in error, and with a draft without heddle hardware. -/
theorem witness_TileTable_tready :
    let bad : List Word := [0, 1, 0, 0, 0, 0, 0, 0]
    (ttSt bad .idle 1).ttStatus 0 1 bad true = some 0x10 ∧ ((ttSt (ttImage 0) .up 1).here.ttSt 1).phase.busy = true ∧
    (stT [] [1] fun t => { t with badTts := [1] }).here.badTts.contains 1 = true ∧
    ttOper [0x10, 1] = 16 ∧ ({ ttSt (ttImage 0) .idle 1 with part := .spn4400 } : State).part.heddle = false := by
  refine ⟨by decide, rfl, rfl, by decide, rfl⟩

set_option maxRecDepth 10000 in
/-- A CWAIT whose read misses, with a walk that finds the page and with one that does not. -/
theorem witness_CwaitStates_miss :
    let s (root : Nat) : State := mapped (st { kx [(6, far)] with num := 1 } fun t => { t with split := 16, residents := [{ res with ptroot := root }] })
    (∀ z ∈ [s 0x200000, s 0], Free [6, 7] [] z ∧ z.checkAccess 0 1 false .scalar 8 far = true ∧ hasHome z.part 0 far = true ∧
      z.mayPerform 0 1 (z.me.cwaitRead far) [⟨far, 8, 0, false, []⟩] = true ∧ z.reach 0 (z.tag 0 1) true false far = .miss) ∧
    ((s 0x200000).walk ((s 0x200000).tag 0 1) far).isSome = true ∧ (s 0).walk ((s 0).tag 0 1) far = none := by
  refine ⟨fun z h => ?_, by decide, by decide⟩
  simp only [List.mem_cons, List.not_mem_nil, or_false] at h
  rcases h with rfl | rfl <;> exact ⟨rfl, by decide, by decide, by decide, by decide⟩

/-- The turn of a write at a word: with the FIFO empty, and behind an atomic. -/
theorem witness_PostsAndLoads_turn :
    let s := mapped (reqSt (postReq false .issued))
    let z (f : List FifoEntry) : State := { s with homes := [⟨.flag 8, f, [], [], []⟩] }
    let at' (z : State) (pa : Nat) := (z.turnsAt (.flag 8 :: slotWords pa) (placeEntry 0 1 1 .post false)).2
    descNotify (s.desc 0) = 8 ∧ slotWords 0x1000 = [] ∧ at' (z []) 0x1000 = true ∧ at' (z [fe 2 1 true]) 0x1000 = false ∧
    s.fifoEmpty (.flag 8) = true ∧ s.fenceHoldsAt 0 1 (postReq false .issued).num 2 (s.postLocs 0) = false ∧
    -- a ring in the flag window, at the word 8 of which an atomic stands
    (slotWords (flagBase + 0x40)).head? = some (.flag 0x40) ∧ at' (z []) (flagBase + 0x40) = true ∧
    at' { s with homes := [⟨.flag 0x48, [fe 2 1 true], [], [], []⟩] } (flagBase + 0x40) = false := by
  refine ⟨by decide, by decide, by decide, by decide, by decide, by decide, by decide, by decide, by decide⟩

/-- Cards for the matrix unit, with nothing in its order, and the counter of a TRIG that a card has written. -/
theorem witness_CardSteps_matrix :
    (let k := { card .fold 0xFFFFFF000100 .queued with handle := 2 ^ 56 }
     k.onMatrix = true ∧ (cardSt k).cardFree 0 k = true ∧ ((cardSt k).tile 0).mats = []) ∧
    ((cardSt (card .trig 0xFFFFFF000100 .armed)).cardHolds (.ls 0 0) = false) := by decide

theorem witness_StopAndHold_saved :
    let s (l : Launch) : State := let z := st0 k0 live; { z with hub := { z.hub with launches := [l] } }
    let saved : Launch := { launch0 with saved := [0], ordered := true }
    let resumed : Launch := { launch0 with ordered := true }
    ((s launch0).domainLaunch 0 = some launch0 ∧ launch0.ordered = false ∧ launch0.away = [] ∧ (s launch0).domain 0 = [0] ∧
      ((s launch0).tile 0).pick < 1 ∧ (0 : BitVec 60).toNat ≤ ((s launch0).tile 0).pick) ∧
    ((s saved).domainLaunch 0 = some saved ∧ saved.away ≠ []) ∧
    ((s resumed).domainLaunch 0 = some resumed ∧ resumed.away = [] ∧ ((s resumed).tile 0).restored = true) := by decide

/-- A tile of a launch with picks that may be saved, and one that may resume. -/
theorem witness_Preemption_whole :
    let l : Launch := { launch0 with saved := [0] }
    let s (l : Launch) : State :=
      let z := st0 k0 fun t => { live t with phold := 0x8000000000000000, pdone := true }
      { z with hub := { z.hub with launches := [l] } }
    (s launch0).hub.launches.find? (·.id == res.id) = some launch0 ∧ ((s launch0).tile 0).atBoundary res = true ∧ launch0.resuming = false ∧
    (s l).hub.launches.find? (·.id == res.id) = some l ∧ (0 ∈ l.saved ∧ 0 ∈ l.live ∧ ∀ o ∈ l.live, o ∈ l.saved) ∧
    (ctlSt 0x1A8 0x40000 k0).postedBy 0 .spill = false ∧
    ({ ctlSt 0x1A8 0x40000 k0 with homes := [⟨.main 0, [{ fe 1 1 false with poster := some .spill }], [], [], []⟩] } : State).postedBy 0 .spill = true := by
  decide

/-- A shuttle that finds no FREE context and four arrivals. -/
theorem witness_MeshSteps_refused :
    let z := shSt (.sent 0) [sh false]
    let full : Tile := { live Tile.reset with ctxs := (List.range 16).map fun n => (n, k0), arrivals := List.replicate 4 (sh false) }
    let s : State := { z with tiles := [(1, full)] }
    s.shuttleFirst 0 (sh false) = true ∧ (s.tile 1).launchStopped 1 = false ∧ (s.tile 1).residentId 1 = some res ∧
    (s.tile 1).freeCtx 1 = none ∧ 4 ≤ (s.tile 1).arrivals.length := by decide

/-- A packet whose slot does not name its sender, which the router's entry names in slot 0. -/
theorem witness_Collectives_slot :
    let k : Chunk := { chunk .up 0 with slot := 3 }
    let s := colSt kidE [k] [] 0
    let kids := ttChildren ((s.tile 0).tt 1)
    s.chunks[0]? = some k ∧ s.chunkFirst 0 k = true ∧ kids[k.slot]? = none ∧
    kids.findIdx? (fun ep => epIs ep k.port k.fromTile) = some 0 := by decide

/-- A packet of a child on another package, whose slot names another child: the entry names its sender in slot 1. -/
theorem witness_Collectives_remote :
    let k : Chunk := { chunk .up 0 with port := some 3 }
    let ep (p : Nat) : Nat := 2 ^ 19 + 2 ^ 18 + p * 2 ^ 12 + 5
    let s := colSt [0x84 * 2 ^ 48 + 1, 1, 0, 0, BitVec.ofNat 64 (ep 2 * 2 ^ 20 + ep 3 * 2 ^ 40), 0, 0, 0] [k] [] 0
    let kids := ttChildren ((s.tile 0).tt 1)
    s.chunks[0]? = some k ∧ s.chunkFirst 0 k = true ∧ kids[k.slot]? = some (ep 2) ∧ epIs (ep 2) k.port k.fromTile = false ∧
    kids.findIdx? (fun ep => epIs ep k.port k.fromTile) = some 1 := by decide +kernel

/-- A packet behind an earlier one of its way, which waits, and one that is first. -/
theorem witness_Collectives_first :
    let s := colSt kidE [chunk .up 0, { chunk .up 0 with num := 1 }] [] 0
    s.chunkFirst 0 (chunk .up 0) = true ∧ s.chunkFirst 1 { chunk .up 0 with num := 1 } = false ∧
    (colSt parE [chunk .notice 0] [] 0).chunkFirst 0 (chunk .notice 0) = true := by decide

theorem witness_Links_audit :
    let s := linkSt (fun l => { l with retraining := true, auditDue := true }) 1
    s.linkUp 0 = true ∧ (s.link 0).retraining = true ∧ (s.link 0).auditDue = true := by decide

set_option maxRecDepth 100000 in
/-- A launch with an LS image: with the FIFOs of the LS free, and full; images that wait. -/
theorem witness_Launches_images :
    (∃ ld gs im, let s : State := { cmdSt [1, 0x10000] .started (recBytes ++ [(0x1002A, 0x80)]) with tiles := [] }
      s.loadRecord 0 0x10000 = .ok ld ∧ s.placeAll ld.rec' (ld.tasks.map (·.tile)) = .ok (some gs) ∧ s.readImages 0 ld.rec' = .ok im ∧
      s.imagesBlocked ld.rec' im (gs.map (·.1)) = false ∧
      ({ s with homes := [⟨.ls 0 0, List.replicate 32 (fe 1 0 true), [], [], []⟩] } : State).imagesBlocked ld.rec' im (gs.map (·.1)) = true) ∧
    (startSt false).imagesPending 1 = false ∧
    ({ startSt false with homes := [⟨.ls 0 0, [{ fe 0 0 false with poster := some (.launch 1) }], [], [], []⟩] } : State).imagesPending 1 = true := by
  refine ⟨⟨_, _, _, rfl, rfl, rfl, rfl, rfl⟩, by decide, by decide⟩

/-- A context that its instruction occupies tries it again. -/
theorem witness_StepRunsDecoded_retry :
    let s (h : Bool) : State := { runSt 0 [(0, 0x13)] { k0 with held := h } with agenda := [.retry 0 1, .tick] }
    (s true).agenda = .retry 0 1 :: [.tick] ∧ (s true).loomRuns = true ∧ ((s true).tile 0).mayRetry 1 = true ∧
    ((s false).tile 0).mayRetry 1 = false := by decide

set_option maxRecDepth 100000 in
/-- PRES of a buffer with one spilled delivery, to a plain register. -/
theorem witness_TileStepsComplete_pres :
    let z := mapped (ctlSt 0x1A8 0x40000 k0 fun t => { t with stop := 3, tlb := [gib], pbuf := 0x40000 })
    let s := (z.writePhys 0x40008 [1]).writePhys 0x68008 [1]
    s.postedBy 0 .spill = false ∧ s.bufWalk 0 0x40000 = none ∧ s.bufLaunch 0 0x40000 = some res ∧ (s.tile 0).pbuf = 0x40000 ∧
    res.slotmask.getLsbD 0 = true ∧ [(0x40000 : Word), 0x60000].any (s.unreachable 0 res.tag) = false ∧
    ∃ s1 s2, s.loadWords 0 res.tag [0x40008, 0x40010] = (s1, some [1, 0]) ∧
      s1.loadWords 0 res.tag [0x68000, 0x68008] = (s2, some [0, 1]) ∧ (s2.tile 0).landing = [] ∧
      ((s2.tile 0).ctx 1).isSync 24 = false ∧ res.groupMask.getLsbD 1 = true ∧ (∀ x ∈ (s2.tile 0).inbox, x.ctx ∉ res.members) := by
  refine ⟨by decide, by decide, by decide, by decide, by decide, by decide, _, _, rfl, rfl, by decide, by decide, by decide, by decide⟩

set_option maxRecDepth 10000 in
/-- A load whose walk meets an uncorrectable error in a table word. -/
theorem witness_RefusedRequests_table :
    let z := mapped (reqSt (farReq .issued) fun t => { t with residents := [{ res with ptroot := 0x200000 }] })
    let s : State := { z with badMain := [z.part.loc 0x200000 false] }
    s.refusal 0 1 (farReq .issued) = some (0x05, far) ∧ (s.translation 0 (s.tag 0 1) far).isNone = true ∧
    (s.walkReads (va48 far) (s.tag 0 1).root 3 0).any s.badPhys = true := by
  refine ⟨by decide, by decide, by decide⟩

/-- A draft load of the monitor. -/
theorem witness_CommandStepsComplete_hload :
    let q : Req := { hloadReq with sup := true }
    let s := reqSt q fun t => { t with ls := [(2, 4), (8, 0x1E), (9, 8), (11, 4)] }
    s.req 0 1 0 = some q ∧ s.mayPerform 0 1 q [⟨ls0, 264, 0, false, []⟩] = true ∧ s.refusal 0 1 q = none ∧
    ∃ s1 s2, s.readWords 0 (s.tag 0 1) ls0.toNat 1 = (s1, .ok [(draftOf 1).header]) ∧
      s1.readWords 0 (s.tag 0 1) (ls0.toNat + 8) 1 = (s2, .ok (draftOf 1).nodes) := by
  refine ⟨by decide, by decide, by decide, _, _, rfl, rfl⟩

/-! ### Premises of single clauses -/

/-- The home word of an atomic needs no line, so that it has room. -/
theorem witness_AtomicSteps_room :
    (∀ p ∈ [Phase.queued, .granted 7], (amoSt (.amo .add) p [fe 1 1 true]).RoomAt (.ls 0 0)) ∧
    ((amoSt (.amo .add) (.granted 7) [fe 1 1 true]).ctx 0 1).late = [] ∧ (amoSt (.amo .add) .queued []).poisoned (.ls 0 0) = false := by
  refine ⟨fun p _ l h => (nomatch h), by decide, by decide⟩

/-- A record meets the monitor free, running, and behind a FENCE.I of context 0. -/
theorem witness_Traps_fencing :
    let s (f : Bool) : State :=
      { st k0 with tiles := [(0, { Tile.reset with ctxs := [(0, { k0 with held := f, fencing := f }), (1, k0)] })] }
    (s true).here.monitor = false ∧ (s true).here.recs = [] ∧ ((s true).here.ctx 0).fencing = true ∧ (s true).here.mayEnter = false ∧
    (s false).here.mayEnter = true ∧ (s true).me.sup = false ∧ (s true).me.amoHeld = false := by decide

/-- The monitor serves context 1, which it has resumed, and which has parked since. -/
theorem witness_TrapReturn_resumed :
    ∀ z ∈ [CtxState.ready, .parked], let m := monSt 1 [] false
      let s := m.modCtx 0 1 fun k => { k with state := z }
      s.me.sup = true ∧ s.cur.2 = 0 ∧ s.here.tcause.getLsbD 63 = false ∧ (s.here.ctx 1).served = true ∧ (s.here.ctx 1).sup = false ∧
      (s.here.ctx 1).state = z ∧ s.here.tctx.toNat / 2 ^ 8 % 4 = 1 ∧ s.here.tctx.toNat % 16 = 1 ∧ s.here.residentOf 1 = some res ∧
      res.root ≠ 1 ∧ s.here.recs = [] ∧ s.me.under = .ready ∧ s.here.stop.getLsbD 0 = false := by decide

/-- A PADV parked on a tile that has become slack, and on one that has not. -/
theorem witness_Parks_slack :
    let s (b : Bool) : State := parkSt .neighbours (2 ^ 20) k0 fun t => { live t with joined := true, pick := 3, slack := b }
    ((s true).ctx 0 1).park = some ⟨.neighbours, 0⟩ ∧ ((s true).ctx 0 1).amoHeld = false ∧ ((s true).tile 0).slack = true ∧
    ((s false).tile 0).slack = false := by decide

/-- Queue 0, not mapped, its notify word written: in error by STATE = 2, or since the queue processor put it there; its descriptor
passes, or fails, its checks, and its value is in range, or out of it. -/
theorem witness_QueueSteps_inError :
    let s (b : List (Nat × Byte)) (w : Byte) (f : List QueueNo) : State :=
      let z := memSt (descBytes ++ b) [(8, w)] none false
      { z with hub := { z.hub with notes := [0], failed := f } }
    (∀ f ∈ [[], [(0 : QueueNo)]], (s [] 1 f).hub.notes.contains 0 = true ∧ (s [] 1 f).qslot 0 = none) ∧
    descState ((s [(0x30002, 2)] 1 []).desc 0) = 2 ∧ descState ((s [] 1 []).desc 0) = 0 ∧ (s [] 1 [0]).hub.failed.contains 0 = true ∧
    (s [] 1 [0]).descOk 0 ((s [] 1 [0]).desc 0) = true ∧ (s [] 1 [0]).posted ((s [] 1 [0]).desc 0) = 1 ∧ (s [] 1 [0]).readIdx 0 = 0 ∧
    (s [] 17 [0]).posted ((s [] 17 [0]).desc 0) = 17 ∧ descSize ((s [] 17 [0]).desc 0) = 16 ∧
    (s [(0x30038, 1)] 1 [0]).descOk 0 ((s [(0x30038, 1)] 1 [0]).desc 0) = false ∧ (s [(0x30038, 1)] 1 [0]).descBad 0 = false := by
  refine ⟨by decide, by decide, by decide, by decide, by decide, by decide, by decide, by decide, by decide, by decide, by decide⟩

/-- A command that is done while an ASYNC launch of its queue has ended. -/
theorem witness_QueueSteps_done :
    let s : State :=
      let z := mapped (st k0) (some ⟨[7, 0, 0, 0, 0, 0, 0, 0], .done, none⟩)
      { z with hub := { z.hub with launches := [{ launch0 with async := true, live := [], quarantined := true }] } }
    (s.qslot 0).bind (·.cmd) = some ⟨[7, 0, 0, 0, 0, 0, 0, 0], .done, none⟩ ∧ (s.endedLaunch 0 true).isSome = true := by decide

/-- SIGNAL of a word whose FIFO is empty, at the head of the FIFO by its place, and behind an atomic. -/
theorem witness_QueueCommands_signal :
    let page : List (Nat × Byte) := [(0x200008, 1), (0x20000A, 0x30), (0x300000, 0x0F), (0x300004, 0xF0)]
    let s (l : List FifoEntry) : State :=
      { cmdSt [3, 0x40000000, 1, 1] .started page with homes := [⟨.flag 0, l, [], [], []⟩] }
    let e := placeEntry 0 0 0 (.signal 0) false
    ((s []).semaphore 0 true true 0x40000000).toOption = some (.flag 0, false) ∧
    (s []).cmdIn 0 3 .started = some ⟨[3, 0x40000000, 1, 1], .started, none⟩ ∧ ((s []).turnAt (.flag 0) e).2 = true ∧
    ((s [e]).turnAt (.flag 0) e).2 = true ∧ ((s [fe 1 0 true]).turnAt (.flag 0) e).2 = false ∧
    (((s [fe 1 0 true]).turnAt (.flag 0) e).1.home (.flag 0)).fifo = [fe 1 0 true, e] := by
  refine ⟨by decide +kernel, by decide, by decide, by decide, by decide, by decide⟩

/-- A post to a queue that is not mapped, whose descriptor fails its checks. -/
theorem witness_PostsAndLoads_invalid :
    let s : State :=
      let z := memSt (descBytes ++ [(0x30038, 1)]) [] none false
      { z with tiles := (reqSt (postReq false .issued)).tiles }
    s.req 0 1 0 = some (postReq false .issued) ∧ s.posting 0 = .invalid := by
  refine ⟨by decide, by rfl⟩

/-- A tile whose monitor may be entered; one without a delivery in its inbox when PRES is written. -/
theorem witness_TileStepsComplete_entry :
    (st k0 live).here.mayEnter = true ∧ (st k0 live).here.quarantined = false ∧
    (∀ x ∈ (st k0 live).here.inbox, x.ctx ∉ res.members) := by decide

/-- Queue 0, its notify word written, behind a command that is done, and behind a LAUNCH whose task has ended, on a sound tile or not. -/
theorem witness_QueueSteps_settle :
    let s (p : CmdPhase) (l : Option Nat) (q : Bool) : State :=
      let z := mapped (st k0) (some ⟨[1, 0, 0, 0, 0, 0, 0, 0], p, l⟩)
      { z with hub := { z.hub with notes := [0], launches := [{ launch0 with live := [], quarantined := q }] } }
    ((s .done none false).settle 0).map (fun u => (u.readIdx 0, ((u.qslot 0).bind (·.cmd)).isNone)) = some (1, true) ∧
    ((s .waiting none false).settle 0).isNone = true ∧
    (∀ q ∈ [false, true], ((s .waiting (some 1) q).endedLaunch 0 false).map (·.quarantined) = some q) ∧
    (((s .waiting (some 1) true).settle 0).map fun u => (u.qslot 0).isNone) = some true ∧
    (s .waiting (some 1) true).hub.notes.contains 0 = true := by
  refine ⟨by decide, by decide, by decide, by decide +kernel, by decide⟩

/-- The monitor's write of 1 to the state field of a HELD context, with a record of it waiting, and without. -/
theorem witness_GiveAndDelivery_recorded :
    let s (recs : List Record) : State := (monSt 0 recs false).modTile 0 fun t => { t with residents := [] }
    let q := winReq 0x1560 1 true
    (s [⟨false, 4, 5, 0, 0, 1, 1⟩]).resumes 0 q = false ∧ ((s [⟨false, 4, 5, 0, 0, 1, 1⟩]).tile 0).recorded 1 = true ∧
    (s []).resumes 0 q = true := by decide

/-! ### Worked values of the manual -/

/-- 449 in FP32 converts to FP8 E4 under RUP with NP = 0 as 448, with OF and NX (R77, its example). -/
theorem test_convert_449 : convert .f32 .e4 .rup false 0x43E08000 = (0x7E, ⟨false, false, true, false, true⟩) := by decide

/-- Row 5 of a rotated operand at base 0x4_0000 with pitch 1024 and c = 1 (R155, its example). -/
theorem test_rotation : rotate 1 5 0x41400 = 0x41540 := by decide

/-- The two DIV corners of R344: a divisor of 0, and the least number by −1. -/
theorem test_div_corners :
    ((match exec (.div 5 6 7) (st (kx [(6, 9)])) with | .next t => t.me.getX 5 | _ => 0) = -1) ∧
    (match exec (.div 5 6 7) (st (kx [(6, 0x8000000000000000), (7, -1)])) with | .next t => t.me.getX 5 | _ => 0) = 0x8000000000000000 := by
  decide

/-- The mask group's worked values: k1 = 0xF0, k2 = 0xCC, k3 = 0 (R362). -/
def km : State := st { k0 with k := [(1, 0xF0), (2, 0xCC)] }
theorem test_kop_andn : (match exec (.kop .andn 3 1 2 Guard.none) km with | .next t => t.me.getK 3 | _ => 0) = 0x30 := by decide
theorem test_kpop : (match exec (.kpop 5 2 ⟨1, 0⟩) km with | .next t => t.me.getX 5 | _ => 0) = 2 := by decide
theorem test_kmovx : (match exec (.kmovx 6 0) km with | .next t => t.me.getX 6 | _ => 0) = 0xFFFFFFFFFFFFFFFF := by decide

/-- The cycles 96 to 101 of the slot lending example: slot s owned by context s mod 4, context 1 parked, context 3 occupied until
107; which context issues when contexts 0 and 2 are occupied until `a` and `b` (R104). -/
def lend (a b : Nat) : Tile :=
  { Tile.reset with
    slots := (List.range 16).map fun n => (n, BitVec.ofNat 64 (0x100 + n % 4))
    ctxs := [(0, { k0 with busy := a }), (1, { k0 with state := .parked }), (2, { k0 with busy := b }), (3, { k0 with busy := 107 })] }
theorem test_lending : (lend 0 0).choose 96 0 = some 0 ∧ (lend 100 0).choose 97 0 = some 2 ∧ (lend 100 101).choose 98 0 = none ∧
    (lend 100 101).choose 99 0 = none ∧ (lend 100 101).choose 100 0 = some 0 := by decide

/-- The walk of VA 0x0000_0040_0000_0100 in the manual's worked table, with PTROOT at 0x20_0000 (R163 to R165). -/
theorem test_walk :
    let s := memSt [(0x200000, 0), (0x200800, 1), (0x200802, 1), (0x10000, 0x1F), (0x10002, 0x20)] []
    ((s.walk ⟨0, 0x200000, 0⟩ 0x0000004000000100).map fun e => (e.frame + 0x100, e.hv, e.r, e.w)) = some (0x200100, true, true, true) := by decide

/-- Two F8E4 elements of the worked WEFT8 block: element 2 is 1.0, element 3 is −1.5 (R82 to R84). -/
theorem test_weft :
    ((weftBlock ([0x08, 0x7C] ++ (List.range 16).map (fun i => if i % 2 = 0 then 0 else 0xC0) ++ List.replicate 8 0x78)).map
      fun l => (l.length, l.getD 3 (.nan false))) = some (32, .fin true 12 (-3)) := by decide

/-- The worked FP8 step: 448 × 448 + 2^-18 into a fresh accumulator with E = −18, then to FP32 under RNE (R88, R90). -/
theorem test_acc :
    accStep (Acc.mk 0 (-18)) (.fin false 52613349377 (-18)) = (Acc.mk 52613349377 (-18), false) ∧
    (accTo .f32 .rne false (Acc.mk 52613349377 (-18))).1 = 0x48440000 := by decide

/-- SIGNAL behind an atomic at its word takes a place in the FIFO, in the order of arrival (R169). -/
theorem test_signal_place :
    let page : List (Nat × Byte) := [(0x200008, 1), (0x20000A, 0x30), (0x300000, 0x0F), (0x300004, 0xF0)]
    let s : State := { cmdSt [3, 0x40000000, 1, 1] .started page with homes := [⟨.flag 0, [fe 1 0 true], [], [], []⟩] }
    (match exec (.signal 0) s with | .next u => (u.home (.flag 0)).fifo.length | _ => 0) = 2 := by decide +kernel

/-- BARREG of contexts 0 to 3 after two arrivals that did not park: neither counts in the new generation (R338). -/
theorem test_barreg_discards :
    let s : State := st (kx [(5, 15), (6, ls0)]) fun t => { live t with barriers := [(0, ⟨15, ls0, 3, 4⟩)] }
    let b (u : State) : Barrier := Assoc.get noBarrier 0 u.here.barriers
    (match exec (.barreg 5 6) s with | .next u => ((b u).arrived, (b u).gen) | _ => (0, 0)) = (0, 5) := by decide

/-- A vector store to the history ring is not allowed, in any mode (R408). -/
theorem test_history_store :
    (st0 { k0 with sup := true }).allowed 0 0 true (.vector true) 64 (.history 0 0) = false ∧
    (st0 { k0 with sup := true }).allowed 0 0 true .scalar 8 (.history 0 0) = true := by decide

/-- XCOPY to a WEFT8 destination from a source of 2 columns fails with 0x11 (R214). -/
theorem test_xcopy_weft :
    let s := stT [tid 4 1 2, tid 11 1 32] [dw 0 0, 0, dw 1 0x1000, 0] two
    s.copyStatus (s.pair 6) (s.pair 8) false = some 0x11 := by decide

end Sys2Proof.Tests
end

section
/-! PROOFS. What reset leaves, and pre-emption: the order of a save or a resume, and what PRES lands (R23, R305, R308, R309, R312). -/

namespace Sys2Proof.Machine

/-! ### Reset -/

theorem State.tile_reset (t : TileNo) : State.reset.tile t = Tile.reset := rfl

theorem State.ctx_reset (t : TileNo) (c : CtxNo) : State.reset.ctx t c = Ctx.reset := rfl

/-- Settles O54: no tile is listed after reset, so that every tile and context is the one of the tables. -/
theorem resetState : Obligations.ResetState := by
  unfold Obligations.ResetState
  refine ⟨State.memoryOk_reset, State.linesOk_reset, rfl, rfl, rfl, rfl, rfl, rfl, rfl, rfl, rfl, fun t => ?_⟩
  rw [State.tile_reset]
  refine ⟨rfl, rfl, rfl, fun _ => rfl, fun _ => rfl, fun c => ?_⟩
  rw [State.ctx_reset]
  exact ⟨rfl, rfl, rfl, rfl, rfl⟩

/-! ### The end of a request -/

/-- A request that leaves a context changes the requests in flight and the counters of loads and stores alone (R122). -/
theorem Ctx.dropReq_frame (k : Ctx) (seq : BitVec 16) :
    ∃ reqs ld st, k.dropReq seq = { k with reqs := reqs, ld := ld, st := st } := by
  unfold Ctx.dropReq
  split
  · exact ⟨k.reqs, k.ld, k.st, rfl⟩
  · exact ⟨_, _, _, rfl⟩

/-- A request that ends with no result leaves of every context all but its requests in flight and its counters. -/
theorem State.ctx_endReq_frame (s : State) (t o : TileNo) (c d : CtxNo) (q : Req) :
    ∃ reqs ld st, (s.endReq t c q id).ctx o d = { s.ctx o d with reqs := reqs, ld := ld, st := st } := by
  by_cases h : o = t ∧ d = c
  · obtain ⟨rfl, rfl⟩ := h
    rw [State.endReq, State.modCtx_eq]
    exact Ctx.dropReq_frame _ _
  · rw [State.endReq, State.modCtx, State.ctx_setCtx_other s h]
    exact ⟨_, _, _, rfl⟩

/-! ### The order of a save or a resume (R23, R305, R309) -/

/-- Interrupt 1 of an order: the buffer, the launch and the direction (R305). -/
def State.orderInterrupt (s : State) (t : TileNo) (l : BitVec 2) (buf : Word) (resume : Bool) : State :=
  s.interrupt t 1 ((buf &&& 0xFFFFFFFFFFFF0000) ||| (l.zeroExtend 64 <<< 2) ||| boolWord resume)

/-- The launches of the hub, the one of a number changed. -/
def State.modLaunch (s : State) (id : Nat) (f : Launch → Launch) : State :=
  { s with hub := { s.hub with launches := s.hub.launches.map fun x => if x.id == id then f x else x } }

/-- A tile may be ordered to resume once its save and that of every tile with a task were ordered (R23). -/
theorem Launch.mayResume_iff (k : Launch) (t : TileNo) : k.mayResume t = true ↔
    t ∈ k.saved ∧ t ∈ k.live ∧ (k.resuming = true ∨ ∀ o ∈ k.live, o ∈ k.saved) := by
  simp [Launch.mayResume, Launch.away, and_assoc]

theorem exec_preemptOrder (t : TileNo) (l : BitVec 2) (buf : Word) (resume : Bool) (s : State) :
    exec (.preemptOrder t l buf resume) s = execPreemptOrder t l buf resume s := rfl

section
variable {s : State} {t : TileNo} {l : BitVec 2} {r : Resident}

/-- A launch without picks: the order is given. -/
theorem exec_preemptOrder_plain (hr : (s.tile t).residents.find? (fun r => !r.ended && r.index == l) = some r)
    (hp : r.picks = false) (buf : Word) (resume : Bool) :
    exec (.preemptOrder t l buf resume) s = .next (s.orderInterrupt t l buf resume) := by
  simp only [exec_preemptOrder, execPreemptOrder, hr, hp, Bool.not_false, if_true]
  rfl

section
variable (hr : (s.tile t).residents.find? (fun r => !r.ended && r.index == l) = some r) (hp : r.picks = true) {k : Launch}
  (hk : s.hub.launches.find? (·.id == r.id) = some k)
include hr hp hk

/-- A launch with picks: the order is given where it may be, and the hub keeps it. -/
theorem exec_preemptOrder_given {resume : Bool}
    (may : (if resume then k.mayResume t else (s.tile t).atBoundary r && !k.resuming) = true) (buf : Word) :
    exec (.preemptOrder t l buf resume) s = .next ((s.modLaunch r.id (·.order t resume)).orderInterrupt t l buf resume) := by
  simp only [exec_preemptOrder, execPreemptOrder, hr, hp, hk, may, Bool.not_true, Bool.false_eq_true, if_false, if_true]
  rfl

/-- A launch with picks whose tile may not be ordered so yet: nothing happens. -/
theorem exec_preemptOrder_waits {resume : Bool}
    (may : (if resume then k.mayResume t else (s.tile t).atBoundary r && !k.resuming) = false) (buf : Word) :
    exec (.preemptOrder t l buf resume) s = .next s := by
  simp only [exec_preemptOrder, execPreemptOrder, hr, hp, hk, may, Bool.not_true, Bool.false_eq_true, if_false]

end

end

/-! ### What PRES lands (R308, R312) -/

theorem exec_pres (t : TileNo) (c : CtxNo) (n : Nat) (s : State) : exec (.pres t c n) s = execPres t c n s := rfl

/-- The delivery that two words of the delivery spill hold (R307). -/
def spilledEntry (o : TileNo) (ws : List Word) (i : Nat) : InboxEntry :=
  let d := ws.getD (2 * i + 1) 0
  ⟨d.extractLsb' 0 4, (3 : BitVec 2) ++ d.extractLsb' 4 3, ws.getD (2 * i) 0, o, 0, none, none, false⟩

/-- The image of a spilled shuttle, behind `nd` deliveries. -/
def spilledImage (nd : Nat) (ws : List Word) (j : Nat) : List Word := (ws.drop (2 * nd + 30 * j)).take 30

/-- The shuttles of a buffer whose launch still has a task on the tile (log 59). -/
def Tile.spilledShuttles (tl : Tile) (o : TileNo) (nd ns : Nat) (ws : List Word) : List Shuttle :=
  (List.range ns).filterMap fun j => (tl.imageLaunch (spilledImage nd ws j)).map fun l => Shuttle.ofImage o l (spilledImage nd ws j)

/-- The words of a buffer that hold `nd` deliveries and `ns` shuttles (R307). -/
def spillWords (a : Word) (nd ns : Nat) : List Word :=
  (List.range (2 * nd)).map (fun i => a + BitVec.ofNat 64 (0x28000 + 8 * i)) ++
    (List.range ns).flatMap fun j => (List.range 30).map fun i => a + BitVec.ofNat 64 (0x29000 + 256 * j + 8 * i)

/-- A tile that takes the deliveries of the buffer at `a` for a stopped launch, which they lead (R308; logs 20 and 51). -/
def Tile.takeBuffer (tl : Tile) (a : Word) (b : Resident) (es : List InboxEntry) : Tile :=
  let own : Bool := a == tl.pbuf &&& 0xFFFFFFFFFFFF0000
  { tl.unload b with
    restoring := tl.restoring ||| b.groupMask
    landing := es ++ (tl.inbox.filter fun e => b.members.contains e.ctx) ++ tl.landing
    inbox := tl.inbox.filter fun e => !b.members.contains e.ctx
    dspill := if own then 0 else tl.dspill, sspill := if own then 0 else tl.sspill }

/-- The tile `o` takes the deliveries of a buffer. -/
def State.takeBuffer (s : State) (o : TileNo) (a : Word) (b : Resident) (es : List InboxEntry) : State :=
  s.modTile o fun tl => tl.takeBuffer a b es

section
variable {s : State} {t o : TileNo} {c : CtxNo} {n : Nat} {q : Req}

/-- PRES waits while a spill of the tile is not yet written. -/
theorem exec_pres_posted (hc : s.ctl t c n 0x1A8 = some (q, o)) (hp : s.postedBy o .spill = true) :
    exec (.pres t c n) s = .next s := by
  simp only [exec_pres, execPres, hc, hp, if_true]

/-- PRES opens the walk for the header of its buffer. -/
theorem exec_pres_walk (hc : s.ctl t c n 0x1A8 = some (q, o)) (hp : s.postedBy o .spill = false) {b : Resident}
    (hw : s.bufWalk o (q.data &&& 0xFFFFFFFFFFFF0000) = some b) :
    exec (.pres t c n) s = .next (s.openWalk o b.tag ((q.data &&& 0xFFFFFFFFFFFF0000) + 24)) := by
  simp only [exec_pres, execPres, hc, hp, hw, Bool.false_eq_true, if_false]

/-- The header of the buffer names no stopped launch: nothing lands (log 19). -/
theorem exec_pres_unnamed (hc : s.ctl t c n 0x1A8 = some (q, o)) (hp : s.postedBy o .spill = false)
    (hw : s.bufWalk o (q.data &&& 0xFFFFFFFFFFFF0000) = none) (hb : s.bufLaunch o (q.data &&& 0xFFFFFFFFFFFF0000) = none) :
    exec (.pres t c n) s = .next (((s.tile o).stoppedLaunches.foldl
      (fun s b => s.walkFault o b.tag ((q.data &&& 0xFFFFFFFFFFFF0000) + 24)) s).endReq t c q id) := by
  simp only [exec_pres, execPres, hc, hp, hw, hb, Bool.false_eq_true, if_false]

section
variable {b : Resident} (hc : s.ctl t c n 0x1A8 = some (q, o)) (hp : s.postedBy o .spill = false)
  (hw : s.bufWalk o (q.data &&& 0xFFFFFFFFFFFF0000) = none) (hb : s.bufLaunch o (q.data &&& 0xFFFFFFFFFFFF0000) = some b)
include hc hp hw hb

/-- A page of the buffer is not mapped: nothing lands (log 19). -/
theorem exec_pres_unmapped {a : Word} (ha : q.data &&& 0xFFFFFFFFFFFF0000 = a)
    (hu : [a, a + 0x20000].any (s.unreachable o b.tag) = true) :
    exec (.pres t c n) s = .next (([a, a + 0x20000].foldl (fun s a => s.walkFault o b.tag a) s).endReq t c q id) := by
  subst ha
  simp only [exec_pres, execPres, hc, hp, hw, hb, hu, Bool.false_eq_true, if_false, if_true]

/-- What the buffer counts lands: the deliveries first, then the shuttles, each in the order of its spill (R308). -/
theorem exec_pres_lands {a : Word} (ha : q.data &&& 0xFFFFFFFFFFFF0000 = a)
    (hu : [a, a + 0x20000].any (s.unreachable o b.tag) = false) {s1 s2 : State} {nd ns : Word} {ws : List Word}
    (h1 : s.loadWords o b.tag [a + 8, a + 16] = (s1, some [nd, ns])) (hnd : nd.toNat ≤ 256) (hns : ns.toNat ≤ 8)
    (h2 : s1.loadWords o b.tag (spillWords a nd.toNat ns.toNat) = (s2, some ws)) :
    exec (.pres t c n) s = .next (((s2.tile o).spilledShuttles o nd.toNat ns.toNat ws).foldl (fun s sh => s.restoreShuttle o sh)
      ((s2.takeBuffer o a b ((List.range nd.toNat).map (spilledEntry o ws))).refill o
        ((s2.takeBuffer o a b ((List.range nd.toNat).map (spilledEntry o ws))).tile o).landing.length) |>.endReq t c q id) := by
  subst ha
  unfold spillWords at h2
  simp only [exec_pres, execPres, hc, hp, hw, hb, hu, h1, h2, Nat.min_eq_left hnd, Nat.min_eq_left hns, Bool.false_eq_true, if_false]
  rfl

end

end

/-! ### A spilled shuttle starts (R308) -/

theorem Assoc.get_append {α : Type} {d : α} {k : Nat} (l : Assoc α) {m : Assoc α} (h : Assoc.get d k m = d) :
    Assoc.get d k (l ++ m) = Assoc.get d k l := by
  induction l with
  | nil => exact h
  | cons p r ih => simp only [List.cons_append, Assoc.get, ih]

theorem Assoc.get_filter_out {α : Type} {d : α} {k : Nat} {p : Nat × α → Bool} (h : ∀ v, p (k, v) = false) (l : Assoc α) :
    Assoc.get d k (l.filter p) = d := by
  induction l with
  | nil => rfl
  | cons e r ih =>
    obtain ⟨j, v⟩ := e
    by_cases hj : j = k
    · subst hj; rw [List.filter_cons_of_neg (by simp [h]), ih]
    · rw [List.filter_cons]; split
      · rw [Assoc.get, if_neg hj, ih]
      · exact ih

/-- The values `f 1` to `f n`, set at the keys 1 to n. -/
theorem Assoc.get_setUpTo (f : Nat → Word) {n k : Nat} (h0 : 0 < k) (hn : k ≤ n) :
    Assoc.get 0 k ((List.range n).foldl (fun m i => Assoc.set 0 (i + 1) (f (i + 1)) m) []) = f k := by
  induction n with
  | zero => omega
  | succ n ih =>
    rw [List.range_succ, List.foldl_append, List.foldl_cons, List.foldl_nil]
    by_cases h : k = n + 1
    · rw [h, Assoc.get_set_same]
    · rw [Assoc.get_set_other 0 h, ih (by omega)]

/-- A context that a shuttle with this image has just started on, with its STOP bit (R270, R308). -/
structure StartedFrom (k : Ctx) (ws : List Word) (stop : Bool) : Prop where
  pc : k.pc = ws.getD 0 0
  state : k.state = if stop then .stopped else .ready
  regs : ∀ x : BitVec 5, x ≠ 0 → x ≠ 3 → x.toNat < 24 → k.getX x = ws.getD x.toNat 0
  frnd : k.frnd = (ws.getD 24 0).extractLsb' 0 4 &&& 0b1011
  fstat : k.fstat = (ws.getD 25 0).extractLsb' 0 12 &&& 0xF1F
  livemask : k.livemask = (ws.getD 26 0).extractLsb' 0 24 &&& 0xFFFFFE
  pwatch : k.pwatch = (ws.getD 27 0).toNat % 64
  qmode : k.qmode = (ws.getD 28 0).extractLsb' 0 8

/-- The registers of an image, but x3, stand in the context that its shuttle starts on. -/
theorem Tile.getX_land_ofImage (tl : Tile) (o : TileNo) (l : Nat) (ws : List Word) (d : CtxNo) (r : Resident) {x : BitVec 5}
    (h0 : x ≠ 0) (h3 : x ≠ 3) (hx : x.toNat < 24) : ((tl.land (Shuttle.ofImage o l ws) d r).ctx d).getX x = ws.getD x.toNat 0 := by
  have pos : 0 < x.toNat := Nat.pos_of_ne_zero fun e => h0 (BitVec.eq_of_toNat_eq e)
  have ne3 : x.toNat ≠ 3 := fun e => h3 (BitVec.eq_of_toNat_eq e)
  have low : ∀ v : Word, decide (24 ≤ ((x.toNat, v) : Nat × Word).1) = false := fun _ => decide_eq_false (by omega)
  rw [Tile.land, Tile.ctx_setCtx, Ctx.getX, if_neg h0, Assoc.get_set_other 0 ne3,
    Assoc.get_append _ (Assoc.get_filter_out low _)]
  exact Assoc.get_setUpTo (fun i => ws.getD i 0) pos (by omega)

/-- The shuttle of an image starts on a context with the PC, the registers and the CSRs of the image. -/
theorem Tile.startedFrom_land (tl : Tile) (o : TileNo) (l : Nat) (ws : List Word) (d : CtxNo) (r : Resident) :
    StartedFrom ((tl.land (Shuttle.ofImage o l ws) d r).ctx d) ws (tl.stop.getLsbD d.toNat) := by
  have regs {x : BitVec 5} := tl.getX_land_ofImage o l ws d r (x := x)
  have pwatch : bits (ws.getD 27 0) 0 6 = (ws.getD 27 0).toNat % 64 := by simp [bits]
  rw [Tile.land, Tile.ctx_setCtx] at regs ⊢
  exact ⟨rfl, rfl, fun _ => regs, rfl, rfl, rfl, pwatch, rfl⟩

/-- What a shuttle starts does not depend on the requests in flight. -/
theorem StartedFrom.endReq {s : State} {o : TileNo} {d : CtxNo} {ws : List Word} {stop : Bool} (h : StartedFrom (s.ctx o d) ws stop)
    (t : TileNo) (c : CtxNo) (q : Req) : StartedFrom ((s.endReq t c q id).ctx o d) ws stop := by
  obtain ⟨reqs, ld, st, e⟩ := s.ctx_endReq_frame t o c d q
  rw [e]
  exact { h with }

/-- A spilled shuttle of a launch that is not stopped starts on the lowest FREE context of the launch. -/
theorem State.restoreShuttle_free {s : State} {o : TileNo} {sh : Shuttle} {d : CtxNo} {r : Resident}
    (hs : (s.tile o).launchStopped sh.launch = false) (hf : (s.tile o).freeCtx sh.launch = some (d, r)) :
    s.restoreShuttle o sh = s.setTile o ((s.tile o).land sh d r) := by
  simp only [State.restoreShuttle, hs, hf, Bool.false_eq_true, if_false]

/-! ### What taking a buffer leaves of a tile -/

/-- The unload of slots changes the heddle slots alone. -/
theorem Tile.unload_frame (tl : Tile) (b : Resident) : ∃ h, tl.unload b = { tl with heddle := h } := by
  unfold Tile.unload
  generalize (List.range 8).filter b.slotmask.getLsbD = ns
  induction ns generalizing tl with
  | nil => exact ⟨tl.heddle, rfl⟩
  | cons n ns ih => exact ih _

section
variable (tl : Tile) (a : Word) (b : Resident) (es : List InboxEntry)

@[simp] theorem Tile.takeBuffer_stop : (tl.takeBuffer a b es).stop = tl.stop := by
  obtain ⟨h, e⟩ := tl.unload_frame b
  rw [Tile.takeBuffer, e]

@[simp] theorem Tile.takeBuffer_residents : (tl.takeBuffer a b es).residents = tl.residents := by
  obtain ⟨h, e⟩ := tl.unload_frame b
  rw [Tile.takeBuffer, e]

@[simp] theorem Tile.takeBuffer_ctx (d : CtxNo) : (tl.takeBuffer a b es).ctx d = tl.ctx d := by
  obtain ⟨h, e⟩ := tl.unload_frame b
  rw [Tile.takeBuffer, e]
  rfl

@[simp] theorem Tile.takeBuffer_freeCtx (id : Nat) : (tl.takeBuffer a b es).freeCtx id = tl.freeCtx id := by
  simp [Tile.freeCtx]

end

/-- Nothing waits to land where the buffer holds no delivery and the tile none for the launch. -/
theorem Tile.takeBuffer_landing_nil {tl : Tile} {b : Resident} (hl : tl.landing = []) (hi : ∀ x ∈ tl.inbox, x.ctx ∉ b.members)
    (a : Word) : (tl.takeBuffer a b []).landing = [] := by
  have none : (tl.inbox.filter fun e => b.members.contains e.ctx) = [] :=
    List.filter_eq_nil_iff.mpr fun x hx => by simpa using hi x hx
  simp only [Tile.takeBuffer, none, hl, List.append_nil]

@[simp] theorem State.tile_takeBuffer (s : State) (o : TileNo) (a : Word) (b : Resident) (es : List InboxEntry) :
    (s.takeBuffer o a b es).tile o = (s.tile o).takeBuffer a b es := State.tile_modTile s o _

/-- The one shuttle of a buffer of 30 words that names its launch. -/
theorem Tile.spilledShuttles_one {tl : Tile} {ws : List Word} {l : Nat} (hw : ws.length = 30) (hl : tl.imageLaunch ws = some l)
    (o : TileNo) : tl.spilledShuttles o 0 1 ws = [Shuttle.ofImage o l ws] := by
  have whole : spilledImage 0 ws 0 = ws := List.take_of_length_le (Nat.le_of_eq hw)
  simp [Tile.spilledShuttles, whole, hl]

/-- Of a buffer with no delivery and one shuttle, on a tile with nothing else to land, the shuttle alone lands. -/
theorem land_one_shuttle {s : State} {o : TileNo} {b : Resident} {ws : List Word} {l : Nat} (hl : (s.tile o).landing = [])
    (hi : ∀ x ∈ (s.tile o).inbox, x.ctx ∉ b.members) (hw : ws.length = 30) (him : (s.tile o).imageLaunch ws = some l) (a : Word) :
    ((s.tile o).spilledShuttles o 0 1 ws).foldl (fun s sh => s.restoreShuttle o sh)
      ((s.takeBuffer o a b []).refill o ((s.takeBuffer o a b []).tile o).landing.length) =
    (s.takeBuffer o a b []).restoreShuttle o (Shuttle.ofImage o l ws) := by
  rw [Tile.spilledShuttles_one hw him, State.tile_takeBuffer, Tile.takeBuffer_landing_nil hl hi]
  rfl

/-- A shuttle of the buffer's launch, once that is not stopped, starts on the lowest FREE context of the launch. -/
theorem startedFrom_takeBuffer {s : State} {o : TileNo} {b : Resident} {d : CtxNo} {r : Resident} {a : Word}
    (hf : (s.tile o).freeCtx b.id = some (d, r)) (hs : ((s.takeBuffer o a b []).tile o).launchStopped b.id = false) (ws : List Word) :
    StartedFrom (((s.takeBuffer o a b []).restoreShuttle o (Shuttle.ofImage o b.id ws)).ctx o d) ws
      ((s.tile o).stop.getLsbD d.toNat) := by
  have free : ((s.takeBuffer o a b []).tile o).freeCtx b.id = some (d, r) := by simpa using hf
  have started := ((s.tile o).takeBuffer a b []).startedFrom_land o b.id ws d r
  rw [State.restoreShuttle_free hs free, State.ctx, State.tile_setTile, State.tile_takeBuffer]
  rwa [Tile.takeBuffer_stop] at started

/-! ### The statement -/

/-- Settles O45: each case of an order, then each case of PRES. -/
theorem preemption : Obligations.Preemption := by
  unfold Obligations.Preemption
  intro t o c n l buf resume s q r
  refine ⟨fun hr => ⟨fun hp => exec_preemptOrder_plain hr hp buf resume, fun k hp hk => ⟨?save, ?noSave, ?resume, ?noResume⟩⟩,
    fun hc => ⟨exec_pres_posted hc, fun b hp hw => exec_pres_walk hc hp hw, exec_pres_unnamed hc,
      fun b hp hw hb => ⟨exec_pres_unmapped hc hp hw hb rfl, ?lands⟩⟩⟩
  case save =>
    rintro rfl hb hn
    exact exec_preemptOrder_given hr hp hk (by simp [hb, hn]) buf
  case noSave =>
    rintro rfl h
    exact exec_preemptOrder_waits hr hp hk (by rcases h with h | h <;> simp [h]) buf
  case resume =>
    rintro rfl h
    exact exec_preemptOrder_given (resume := true) hr hp hk ((k.mayResume_iff t).mpr h) buf
  case noResume =>
    rintro rfl h
    exact exec_preemptOrder_waits (resume := true) hr hp hk (Bool.eq_false_iff.mpr (mt (k.mayResume_iff t).mp h)) buf
  case lands =>
    intro s1 s2 nd ns ws hu h1 hnd hns h2
    have lands := exec_pres_lands hc hp hw hb rfl hu h1 hnd hns h2
    refine ⟨lands, ?_⟩
    rintro rfl rfl hl hi d r' hf hw30 him hs
    have alone := land_one_shuttle hl hi hw30 him (q.data &&& 0xFFFFFFFFFFFF0000)
    obtain ⟨pc, state, regs, frnd, fstat, livemask, pwatch, qmode⟩ := (startedFrom_takeBuffer hf hs ws).endReq t c q
    exact ⟨_, lands.trans (congrArg (fun u : State => Host.Outcome.next (u.endReq t c q id)) alone),
      pc, state, regs, frnd, fstat, livemask, pwatch, qmode⟩

end Sys2Proof.Machine
end

section
/-! PROOFS. Taking an exception and entering the monitor: what each leaves of the tile and of the context (R26, R170, R294, R295,
R298, R299). -/

namespace Sys2Proof.Machine

/-! ### A change of one context of a tile -/

/-- `u` is `s` as far as tile `t` shows, its context `c` apart. -/
structure AtCtx (s u : State) (t : TileNo) (c : CtxNo) : Prop where
  cur : u.cur = s.cur
  tile : ∃ cs, u.tile t = { s.tile t with ctxs := cs }
  others : ∀ d, d ≠ c → u.ctx t d = s.ctx t d

theorem AtCtx.trans {s u w : State} {t : TileNo} {c : CtxNo} (a : AtCtx s u t c) (b : AtCtx u w t c) : AtCtx s w t c := by
  obtain ⟨_, eu⟩ := a.tile
  obtain ⟨cs, ew⟩ := b.tile
  exact ⟨b.cur.trans a.cur, ⟨cs, by rw [ew, eu]⟩, fun d h => (b.others d h).trans (a.others d h)⟩

theorem atCtx_modCtx (s : State) (t : TileNo) (c : CtxNo) (f : Ctx → Ctx) : AtCtx s (s.modCtx t c f) t c :=
  ⟨rfl, ⟨_, State.tile_setCtx s t c _⟩, fun _ h => State.ctx_setCtx_other s (fun e => h e.2) _⟩

section
variable {s u : State} (cur : u.cur = s.cur) (tiles : u.tiles = s.tiles)
include tiles

theorem State.tile_of_tiles (t : TileNo) : u.tile t = s.tile t := by rw [State.tile, tiles]; rfl

theorem State.ctx_of_tiles (t : TileNo) (c : CtxNo) : u.ctx t c = s.ctx t c := congrArg (·.ctx c) (State.tile_of_tiles tiles t)

include cur

/-- A step that writes no tile leaves every tile as it was. -/
theorem atCtx_of_tiles (t : TileNo) (c : CtxNo) : AtCtx s u t c :=
  ⟨cur, ⟨_, State.tile_of_tiles tiles t⟩, fun d _ => State.ctx_of_tiles tiles t d⟩

/-- The change of a context after a step that writes no tile. -/
theorem atCtx_modCtx_of_tiles (t : TileNo) (c : CtxNo) (f : Ctx → Ctx) : AtCtx s (u.modCtx t c f) t c :=
  (atCtx_of_tiles cur tiles t c).trans (atCtx_modCtx u t c f)

end

/-! ### What a context gives up -/

/-- A context whose posts are withdrawn (R145). -/
def Ctx.withoutPosts (k : Ctx) : Ctx :=
  { k with reqs := k.reqs.filter fun q => !(match q.kind with | .qputw .. => true | _ => false) }

theorem atCtx_unwatch (s : State) (t : TileNo) (c : CtxNo) : AtCtx s (s.unwatch t c) t c :=
  atCtx_of_tiles (s := s) (u := s.unwatch t c) rfl rfl t c

/-- A grant that is given up leaves its FIFO and the context (R170). -/
theorem State.dropGrant_granted {s : State} {t : TileNo} {c : CtxNo} {g : Grant} (h : (s.ctx t c).grant = some g) :
    ∃ u : State, u.cur = s.cur ∧ u.tiles = s.tiles ∧ s.dropGrant t c = u.modCtx t c fun k => { k with grant := none } := by
  unfold State.dropGrant
  rw [h]
  refine ⟨_, ?cur, ?tiles, rfl⟩ <;> rfl

theorem State.dropGrant_none {s : State} {t : TileNo} {c : CtxNo} (h : (s.ctx t c).grant = none) : s.dropGrant t c = s := by
  unfold State.dropGrant
  rw [h]

theorem atCtx_dropGrant (s : State) (t : TileNo) (c : CtxNo) : AtCtx s (s.dropGrant t c) t c := by
  cases h : (s.ctx t c).grant with
  | none =>
    rw [State.dropGrant_none h]
    exact atCtx_of_tiles rfl rfl t c
  | some g =>
    obtain ⟨u, cur, tiles, e⟩ := State.dropGrant_granted h
    rw [e]
    exact atCtx_modCtx_of_tiles cur tiles t c _

theorem State.ctx_dropGrant (s : State) (t : TileNo) (c : CtxNo) :
    (s.dropGrant t c).ctx t c = { s.ctx t c with grant := none } := by
  cases h : (s.ctx t c).grant with
  | none => rw [State.dropGrant_none h, ← h]
  | some g =>
    obtain ⟨u, -, tiles, e⟩ := State.dropGrant_granted h
    rw [e, State.modCtx_eq, State.ctx_of_tiles tiles]

/-- The places that posts give up in FIFOs are no part of a tile. -/
theorem State.noPosts_frame (qs : List Req) (s : State) (t : TileNo) (c : CtxNo) :
    (qs.foldl (fun s q => s.noPost t c q.seq) s).cur = s.cur ∧ (qs.foldl (fun s q => s.noPost t c q.seq) s).tiles = s.tiles := by
  induction qs generalizing s with
  | nil => exact ⟨rfl, rfl⟩
  | cons q qs ih => exact ih _

/-- Where no post has been made, those that wait leave the queue processor, the FIFOs and the context (R145, R384). -/
theorem State.withdrawPost_unposted {s : State} {t : TileNo} {c : CtxNo} (h : (s.ctx t c).posted = none) :
    ∃ u : State, u.cur = s.cur ∧ u.tiles = s.tiles ∧ s.withdrawPost t c = u.modCtx t c Ctx.withoutPosts := by
  unfold State.withdrawPost
  rw [h]
  refine ⟨_, ?cur, ?tiles, rfl⟩
  case cur => exact (State.noPosts_frame _ _ t c).1
  case tiles => exact (State.noPosts_frame _ _ t c).2

theorem atCtx_withdrawPost (s : State) (t : TileNo) (c : CtxNo) : AtCtx s (s.withdrawPost t c) t c := by
  cases h : (s.ctx t c).posted with
  | none =>
    obtain ⟨u, cur, tiles, e⟩ := State.withdrawPost_unposted h
    rw [e]
    exact atCtx_modCtx_of_tiles cur tiles t c _
  | some p =>
    unfold State.withdrawPost
    rw [h]
    exact atCtx_modCtx s t c _

theorem State.ctx_withdrawPost {s : State} {t : TileNo} {c : CtxNo} (h : (s.ctx t c).posted = none) :
    (s.withdrawPost t c).ctx t c = (s.ctx t c).withoutPosts := by
  obtain ⟨u, -, tiles, e⟩ := State.withdrawPost_unposted h
  rw [e, State.modCtx_eq, State.ctx_of_tiles tiles]

/-- A context without posts has made none. -/
theorem Ctx.posted_withoutPosts (k : Ctx) : k.withoutPosts.posted = none := by
  rw [Ctx.posted, List.findSome?_eq_none_iff]
  intro q hq
  have kind := (List.mem_filter.mp hq).2
  split
  next e _ => simp [e] at kind
  next => rfl

/-! ### A context stops at its instruction (R294, R299) -/

/-- The context that a synchronous cause stops: HELD with its PC at the instruction, its grant, its posts and its park given up. -/
def Ctx.stopAt (k : Ctx) (pc : Word) : Ctx :=
  { k.withoutPosts with grant := none, held := false, fencing := false, state := .held, park := none, woken := false, pc := pc }

/-- The state in which the record of the cause is posted. -/
def State.stopAt (s : State) (t : TileNo) (c : CtxNo) (pc : Word) : State :=
  (((s.dropGrant t c).withdrawPost t c).unwatch t c).modCtx t c fun k =>
    { k with held := false, fencing := false, state := .held, park := none, woken := false, pc := pc }

theorem State.trapCtx_stopAt {s : State} {t : TileNo} {c : CtxNo} (h : (s.ctx t c).sup = false) (cause : BitVec 8)
    (val pc seq stat : Word) :
    s.trapCtx t c cause val pc seq stat = (s.stopAt t c pc).post t ⟨false, cause, val, seq, pc, stat, c⟩ :=
  State.trapCtx_task h cause val pc seq stat

theorem atCtx_stopAt (s : State) (t : TileNo) (c : CtxNo) (pc : Word) : AtCtx s (s.stopAt t c pc) t c :=
  (((atCtx_dropGrant s t c).trans (atCtx_withdrawPost _ t c)).trans (atCtx_unwatch _ t c)).trans (atCtx_modCtx _ t c _)

theorem State.ctx_stopAt {s : State} {t : TileNo} {c : CtxNo} (h : (s.ctx t c).posted = none) (pc : Word) :
    (s.stopAt t c pc).ctx t c = (s.ctx t c).stopAt pc := by
  have unposted : ((s.dropGrant t c).ctx t c).posted = none := by rw [State.ctx_dropGrant]; exact h
  have given : (((s.dropGrant t c).withdrawPost t c).unwatch t c).ctx t c = { (s.ctx t c).withoutPosts with grant := none } :=
    (State.ctx_withdrawPost unposted).trans (by rw [State.ctx_dropGrant]; rfl)
  rw [State.stopAt, State.modCtx_eq, given]
  rfl

/-! ### The monitor is entered (R294, R298) -/

/-- The trap CSRs of a tile, loaded from a record; the monitor runs. -/
def Tile.loadRecord (tl : Tile) (r : Record) : Tile :=
  { tl with
    monitor := true, entering := true
    tcause := (if r.intr then 1#64 <<< 63 else 0) ||| r.code.zeroExtend 64
    tval := r.val, tseq := r.seq
    tstat := r.stat ||| (boolWord (r.intr && (tl.ctx 0).state == .parked) <<< 2)
      ||| (boolWord (!r.intr && (tl.ctx r.ctx).dead) <<< 5) ||| (BitVec.ofNat 64 (tl.recs.length % 32) <<< 8)
    tctx := r.ctx.zeroExtend 64 }

/-- The cause of a record of a context has bit 63, which marks an interrupt, clear (R298). -/
theorem Tile.tcause_loadRecord (tl : Tile) {r : Record} (h : r.intr = false) : (tl.loadRecord r).tcause = r.code.zeroExtend 64 := by
  rw [Tile.loadRecord, h]
  exact BitVec.zero_or

/-- The context of a record that is served. -/
def Ctx.serve (k : Ctx) (r : Record) : Ctx := { k with pc := r.pc, served := true }

/-- Context 0 in supervisor mode at `tvec`, with x4 = MBASE. -/
def Ctx.enterMonitor (k : Ctx) (tvec mbase : Word) : Ctx :=
  { k with
    sup := true, monPc := BitVec.ofNat 64 (bits tvec 2 14 * 4), held := false, fencing := false, state := .ready, park := none
    woken := false, under := if k.sup then k.under else if k.state = .parked then .ready else k.state
    x := Assoc.set 0 4 mbase k.x }

/-- The record is loaded, and its context served. -/
def State.serveRecord (s : State) (t : TileNo) (r : Record) : State :=
  if r.intr then s.modTile t (·.loadRecord r) else (s.modTile t (·.loadRecord r)).modCtx t r.ctx (·.serve r)

/-- Context 0 gives up what its task waits for. -/
def State.clearMonitor (s : State) (t : TileNo) : State := ((s.withdrawPost t 0).unwatch t 0).dropGrant t 0

theorem State.takeRecord_stages (s : State) (t : TileNo) (r : Record) :
    s.takeRecord t r = ((s.serveRecord t r).clearMonitor t).modCtx t 0
      (·.enterMonitor ((s.serveRecord t r).tile t).tvec (((s.serveRecord t r).clearMonitor t).tile t).mbase) := rfl

theorem State.cur_serveRecord (s : State) (t : TileNo) (r : Record) : (s.serveRecord t r).cur = s.cur := by
  unfold State.serveRecord
  split <;> rfl

theorem State.tile_serveRecord (s : State) (t : TileNo) (r : Record) :
    ∃ cs, (s.serveRecord t r).tile t = { (s.tile t).loadRecord r with ctxs := cs } := by
  unfold State.serveRecord
  split
  · exact ⟨_, State.tile_modTile s t _⟩
  · obtain ⟨cs, e⟩ := (atCtx_modCtx (s.modTile t (·.loadRecord r)) t r.ctx (·.serve r)).tile
    exact ⟨cs, by rw [e, State.tile_modTile]⟩

/-- A record of a context changes that context alone as it is loaded. -/
theorem State.ctx_serveRecord {r : Record} (h : r.intr = false) (s : State) (t : TileNo) (d : CtxNo) :
    (s.serveRecord t r).ctx t d = if d = r.ctx then (s.ctx t d).serve r else s.ctx t d := by
  have loaded (d : CtxNo) : (s.modTile t (·.loadRecord r)).ctx t d = s.ctx t d := by
    rw [State.ctx, State.tile_modTile]; rfl
  rw [State.serveRecord, if_neg (by simp [h])]
  split
  next e => subst e; rw [State.modCtx_eq, loaded]
  next e => rw [(atCtx_modCtx _ t r.ctx _).others d e, loaded]

theorem atCtx_clearMonitor (s : State) (t : TileNo) : AtCtx s (s.clearMonitor t) t 0 :=
  ((atCtx_withdrawPost s t 0).trans (atCtx_unwatch _ t 0)).trans (atCtx_dropGrant _ t 0)

theorem State.ctx_clearMonitor {s : State} {t : TileNo} (h : (s.ctx t 0).posted = none) :
    (s.clearMonitor t).ctx t 0 = { (s.ctx t 0).withoutPosts with grant := none } := by
  rw [← State.ctx_withdrawPost h]
  exact State.ctx_dropGrant _ t 0

/-- Entering the monitor: the trap CSRs loaded, context 0 cleared and in supervisor mode. -/
theorem State.takeRecord_eq (s : State) (t : TileNo) (r : Record) :
    s.takeRecord t r = ((s.serveRecord t r).clearMonitor t).modCtx t 0 (·.enterMonitor (s.tile t).tvec (s.tile t).mbase) := by
  obtain ⟨_, loaded⟩ := s.tile_serveRecord t r
  obtain ⟨_, cleared⟩ := (atCtx_clearMonitor (s.serveRecord t r) t).tile
  rw [State.takeRecord_stages, cleared, loaded]
  rfl

theorem State.cur_takeRecord (s : State) (t : TileNo) (r : Record) : (s.takeRecord t r).cur = s.cur := by
  rw [State.takeRecord_eq, State.modCtx_cur, (atCtx_clearMonitor _ t).cur, State.cur_serveRecord]

theorem State.tile_takeRecord (s : State) (t : TileNo) (r : Record) :
    ∃ cs, (s.takeRecord t r).tile t = { (s.tile t).loadRecord r with ctxs := cs } := by
  obtain ⟨_, loaded⟩ := s.tile_serveRecord t r
  obtain ⟨cs, entered⟩ := ((atCtx_clearMonitor (s.serveRecord t r) t).trans
    (atCtx_modCtx _ t 0 (·.enterMonitor (s.tile t).tvec (s.tile t).mbase))).tile
  exact ⟨cs, by rw [State.takeRecord_eq, entered, loaded]⟩

/-- Whatever context 0 ran before, it enters the monitor. -/
theorem State.ctx_takeRecord_monitor (s : State) (t : TileNo) (r : Record) :
    ∃ k : Ctx, (s.takeRecord t r).ctx t 0 = k.enterMonitor (s.tile t).tvec (s.tile t).mbase :=
  ⟨_, by rw [State.takeRecord_eq, State.modCtx_eq]⟩

/-- A context other than 0, as its record is taken. -/
theorem State.ctx_takeRecord_other {r : Record} (h : r.intr = false) (h0 : r.ctx ≠ 0) (s : State) (t : TileNo) :
    (s.takeRecord t r).ctx t r.ctx = (s.ctx t r.ctx).serve r := by
  rw [State.takeRecord_eq, (atCtx_modCtx _ t 0 _).others _ h0, (atCtx_clearMonitor _ t).others _ h0, State.ctx_serveRecord h,
    if_pos rfl]

/-- Context 0, as a record of its own task is taken. -/
theorem State.ctx_takeRecord_zero {s : State} {t : TileNo} {r : Record} (h : r.intr = false) (h0 : r.ctx = 0)
    (hp : (s.ctx t 0).posted = none) :
    (s.takeRecord t r).ctx t 0 =
      Ctx.enterMonitor { ((s.ctx t 0).serve r).withoutPosts with grant := none } (s.tile t).tvec (s.tile t).mbase := by
  have loaded : (s.serveRecord t r).ctx t 0 = (s.ctx t 0).serve r := by rw [State.ctx_serveRecord h, if_pos h0.symm]
  have unposted : ((s.serveRecord t r).ctx t 0).posted = none := by rw [loaded]; exact hp
  rw [State.takeRecord_eq, State.modCtx_eq, State.ctx_clearMonitor unposted, loaded]

/-- The entry of the monitor is `tvec`, bit by bit, with the bits other than [15:2] cleared (R298). -/
theorem monitorEntry_eq (v : Word) : BitVec.ofNat 64 (bits v 2 14 * 4) = v &&& 0xFFFC := by
  have mask : (0xFFFC : Word).toNat = (2 ^ 14 - 1) * 2 ^ 2 := rfl
  have small : bits v 2 14 * 4 < 2 ^ 64 := by unfold bits; omega
  apply BitVec.eq_of_toNat_eq
  rw [BitVec.toNat_ofNat, Nat.mod_eq_of_lt small, BitVec.toNat_and, mask]
  refine Nat.eq_of_testBit_eq fun i => ?_
  show (bits v 2 14 * 2 ^ 2).testBit i = _
  simp only [bits, Nat.testBit_and, Nat.testBit_mul_two_pow, Nat.testBit_mod_two_pow, Nat.testBit_div_two_pow,
    Nat.testBit_two_pow_sub_one]
  by_cases h : 2 ≤ i
  · simp [h, Bool.and_comm]
  · simp [h]

theorem Ctx.enterMonitor_monPc (k : Ctx) (tvec mbase : Word) : (k.enterMonitor tvec mbase).monPc = tvec &&& 0xFFFC :=
  monitorEntry_eq tvec

theorem Ctx.getX_four_enterMonitor (k : Ctx) (tvec mbase : Word) : (k.enterMonitor tvec mbase).getX 4 = mbase :=
  Assoc.get_set_same 0 4 mbase k.x

theorem Ctx.getX_other_enterMonitor (k : Ctx) (tvec mbase : Word) {r : BitVec 5} (h : r ≠ 4) :
    (k.enterMonitor tvec mbase).getX r = k.getX r := by
  have key : r.toNat ≠ 4 := fun e => h (BitVec.eq_of_toNat_eq e)
  rw [Ctx.getX, Ctx.enterMonitor, Assoc.get_set_other 0 key]
  rfl

/-! ### A precise cause of the executing context -/

theorem Tile.mayEnter_iff (tl : Tile) : tl.mayEnter = true ↔ tl.monitor = false ∧ (tl.ctx 0).fencing = false := by
  simp [Tile.mayEnter]

/-- What posting a record does on a tile that is not in quarantine. -/
theorem State.post_enters {s : State} {t : TileNo} (hq : (s.tile t).quarantined = false) (he : (s.tile t).mayEnter = true)
    (hr : (s.tile t).recs = []) (r : Record) : s.post t r = s.takeRecord t r := by
  simp [State.post, hq, he, hr]

theorem State.post_waits {s : State} {t : TileNo} (hq : (s.tile t).quarantined = false)
    (hw : ¬((s.tile t).mayEnter = true ∧ (s.tile t).recs = [])) (r : Record) :
    s.post t r = s.modTile t fun tl => { tl with recs := tl.recs ++ [r] } := by
  rcases s.post_cases t r with ⟨h, _⟩ | ⟨_, _, e⟩ | ⟨_, he, hr, _⟩
  · rw [hq] at h; exact nomatch h
  · exact e
  · exact absurd ⟨he, hr⟩ hw

/-- The executing context's record of a precise cause (R298, R299). -/
def State.preciseRecord (s : State) (cause : BitVec 8) (v : Word) : Record := ⟨false, cause, v, 0, s.me.pc, 1, s.cur.2⟩

/-- The executing context stopped at its instruction. -/
def State.stopMe (s : State) : State := s.stopAt s.cur.1 s.cur.2 s.me.pc

/-- A record of the executing context would be taken at once: the monitor does not run, no record waits, and context 0, unless its
own instruction has the cause, is in no FENCE.I (log 69). -/
def State.entersNow (s : State) : Prop :=
  s.here.monitor = false ∧ s.here.recs = [] ∧ (s.cur.2 ≠ 0 → (s.here.ctx 0).fencing = false)

section
variable {s : State}

/-- While the release of a granted AMO is to be sent, the instruction waits (R169). -/
theorem State.trap_amoHeld (h : s.me.amoHeld = true) (cause : BitVec 8) (v : Word) : s.trap cause v = s.holdMe := if_pos h

theorem State.trap_task (hsup : s.me.sup = false) (hamo : s.me.amoHeld = false) (cause : BitVec 8) (v : Word) :
    s.trap cause v = s.stopMe.post s.cur.1 (s.preciseRecord cause v) := by
  have pc : s.me.pcNow = s.me.pc := if_neg (by simp [hsup])
  have stat : tstatBits true false false false false = 1 := by decide
  rw [State.trap, if_neg (by simp [hamo]), pc, stat]
  exact State.trapCtx_stopAt hsup cause v _ 0 1

theorem atCtx_stopMe (s : State) : AtCtx s s.stopMe s.cur.1 s.cur.2 := atCtx_stopAt s _ _ _

theorem State.ctx_stopMe (hp : s.me.posted = none) : s.stopMe.ctx s.cur.1 s.cur.2 = s.me.stopAt s.me.pc := State.ctx_stopAt hp _

theorem State.quarantined_stopMe : (s.stopMe.tile s.cur.1).quarantined = s.here.quarantined := by
  obtain ⟨_, e⟩ := (atCtx_stopMe s).tile
  rw [e]
  rfl

/-- With the executing context stopped, the monitor may be entered and no record waits. -/
theorem State.entersNow_iff (hp : s.me.posted = none) :
    s.entersNow ↔ (s.stopMe.tile s.cur.1).mayEnter = true ∧ (s.stopMe.tile s.cur.1).recs = [] := by
  have fencing : (s.stopMe.ctx s.cur.1 0).fencing = false ↔ (s.cur.2 ≠ 0 → (s.here.ctx 0).fencing = false) := by
    by_cases h : s.cur.2 = 0
    · have stopped : s.stopMe.ctx s.cur.1 0 = s.me.stopAt s.me.pc := by rw [← h]; exact State.ctx_stopMe hp
      rw [stopped]
      simp [h, Ctx.stopAt]
    · rw [(atCtx_stopMe s).others 0 (Ne.symm h)]
      exact ⟨fun e _ => e, fun e => e h⟩
  obtain ⟨_, e⟩ := (atCtx_stopMe s).tile
  have monitor : (s.stopMe.tile s.cur.1).monitor = s.here.monitor := by rw [e]; rfl
  have recs : (s.stopMe.tile s.cur.1).recs = s.here.recs := by rw [e]; rfl
  rw [Tile.mayEnter_iff, monitor, recs, State.entersNow, ← fencing]
  exact ⟨fun ⟨a, b, c⟩ => ⟨⟨a, c⟩, b⟩, fun ⟨⟨a, c⟩, b⟩ => ⟨a, b, c⟩⟩

/-- `b` is the context `a`, number `c` of its tile, with its task stopped: PC and registers as they were, x4 of context 0 apart. -/
structure StoppedTask (c : CtxNo) (a b : Ctx) : Prop where
  pc : b.pc = a.pc
  v : b.v = a.v
  k : b.k = a.k
  fstat : b.fstat = a.fstat
  full : b.full = a.full
  x : ∀ r, r ≠ 4 ∨ c ≠ 0 → b.getX r = a.getX r

theorem stoppedTask_stopAt (c : CtxNo) (k : Ctx) : StoppedTask c k (k.stopAt k.pc) :=
  ⟨rfl, rfl, rfl, rfl, rfl, fun _ _ => rfl⟩

/-- To serve the record of a stopped task changes nothing of it but its PC, which the record gives. -/
theorem StoppedTask.serve {c : CtxNo} {a b : Ctx} (h : StoppedTask c a b) {r : Record} (pc : r.pc = a.pc) :
    StoppedTask c a (b.serve r) := { h with pc := pc }

theorem StoppedTask.cleared {c : CtxNo} {a b : Ctx} (h : StoppedTask c a b) :
    StoppedTask c a { b.withoutPosts with grant := none } := { h with }

/-- The monitor takes x4 of context 0 alone. -/
theorem StoppedTask.enterMonitor {a b : Ctx} (h : StoppedTask 0 a b) (tvec mbase : Word) :
    StoppedTask 0 a (b.enterMonitor tvec mbase) where
  pc := h.pc
  v := h.v
  k := h.k
  fstat := h.fstat
  full := h.full
  x r hr := (b.getX_other_enterMonitor tvec mbase (hr.resolve_right (not_not_intro rfl))).trans (h.x r hr)

section
variable (hsup : s.me.sup = false) (hq : s.here.quarantined = false) (hp : s.me.posted = none) (hamo : s.me.amoHeld = false)
include hsup hq hp hamo

theorem State.trap_enters (he : s.entersNow) (cause : BitVec 8) (v : Word) :
    s.trap cause v = s.stopMe.takeRecord s.cur.1 (s.preciseRecord cause v) := by
  obtain ⟨may, recs⟩ := (State.entersNow_iff hp).mp he
  rw [State.trap_task hsup hamo, State.post_enters (State.quarantined_stopMe.trans hq) may recs]

theorem State.trap_waits (hw : ¬s.entersNow) (cause : BitVec 8) (v : Word) :
    s.trap cause v = s.stopMe.modTile s.cur.1 fun tl => { tl with recs := tl.recs ++ [s.preciseRecord cause v] } := by
  rw [State.trap_task hsup hamo,
    State.post_waits (State.quarantined_stopMe.trans hq) (mt (State.entersNow_iff hp).mpr hw)]

/-- The executing context, when its record waits. -/
theorem State.me_trap_waits (hw : ¬s.entersNow) (cause : BitVec 8) (v : Word) :
    (s.trap cause v).me = s.me.stopAt s.me.pc := by
  rw [State.trap_waits hsup hq hp hamo hw, State.me, State.modTile_cur, (atCtx_stopMe s).cur, ← State.ctx_stopMe hp,
    State.ctx, State.tile_modTile]
  rfl

/-- The executing context, not context 0, when its record is taken. -/
theorem State.me_trap_enters (he : s.entersNow) (hc : s.cur.2 ≠ 0) (cause : BitVec 8) (v : Word) :
    (s.trap cause v).me = (s.me.stopAt s.me.pc).serve (s.preciseRecord cause v) := by
  rw [State.trap_enters hsup hq hp hamo he, State.me, State.cur_takeRecord, (atCtx_stopMe s).cur, ← State.ctx_stopMe hp]
  exact State.ctx_takeRecord_other rfl hc _ _

/-- Context 0, when the record of its task is taken. -/
theorem State.me_trap_enters_zero (he : s.entersNow) (hc : s.cur.2 = 0) (cause : BitVec 8) (v : Word) :
    (s.trap cause v).me = Ctx.enterMonitor { ((s.me.stopAt s.me.pc).serve (s.preciseRecord cause v)).withoutPosts with grant := none }
      s.here.tvec s.here.mbase := by
  have stopped : s.stopMe.ctx s.cur.1 0 = s.me.stopAt s.me.pc := by rw [← hc]; exact State.ctx_stopMe hp
  have unposted : (s.stopMe.ctx s.cur.1 0).posted = none := by rw [stopped]; exact s.me.posted_withoutPosts
  obtain ⟨_, e⟩ := (atCtx_stopMe s).tile
  rw [State.trap_enters hsup hq hp hamo he, State.me, State.cur_takeRecord, (atCtx_stopMe s).cur, hc,
    State.ctx_takeRecord_zero rfl hc unposted, stopped, e]
  rfl

/-- The tile of a context whose record is taken: the record is loaded. -/
theorem State.here_trap_enters (he : s.entersNow) (cause : BitVec 8) (v : Word) :
    ∃ cs, (s.trap cause v).here = { (s.stopMe.tile s.cur.1).loadRecord (s.preciseRecord cause v) with ctxs := cs } := by
  rw [State.trap_enters hsup hq hp hamo he, State.here, State.cur_takeRecord, (atCtx_stopMe s).cur]
  exact s.stopMe.tile_takeRecord s.cur.1 (s.preciseRecord cause v)

/-- Context 0 of the tile of a context whose record is taken. -/
theorem State.monitor_trap_enters (he : s.entersNow) (cause : BitVec 8) (v : Word) :
    ∃ k : Ctx, (s.trap cause v).ctx s.cur.1 0 = k.enterMonitor s.here.tvec s.here.mbase := by
  obtain ⟨_, stopped⟩ := (atCtx_stopMe s).tile
  obtain ⟨k, entered⟩ := s.stopMe.ctx_takeRecord_monitor s.cur.1 (s.preciseRecord cause v)
  exact ⟨k, by rw [State.trap_enters hsup hq hp hamo he, entered, stopped]; rfl⟩

/-- The tile of a context whose record waits: the record is behind those before it. -/
theorem State.here_trap_waits (hw : ¬s.entersNow) (cause : BitVec 8) (v : Word) :
    ∃ cs, (s.trap cause v).here = { s.here with recs := s.here.recs ++ [s.preciseRecord cause v], ctxs := cs } := by
  obtain ⟨cs, stopped⟩ := (atCtx_stopMe s).tile
  refine ⟨cs, ?_⟩
  rw [State.trap_waits hsup hq hp hamo hw, State.here, State.modTile_cur, (atCtx_stopMe s).cur, State.tile_modTile, stopped]
  rfl

/-- Whether its record is taken or waits, the cause stops the executing context's task alone. -/
theorem State.stoppedTask_trap (cause : BitVec 8) (v : Word) : StoppedTask s.cur.2 s.me (s.trap cause v).me := by
  have stopped := stoppedTask_stopAt s.cur.2 s.me
  have served := stopped.serve (r := s.preciseRecord cause v) rfl
  by_cases he : s.entersNow
  · by_cases hc : s.cur.2 = 0
    · rw [State.me_trap_enters_zero hsup hq hp hamo he hc]
      rw [hc] at served ⊢
      exact served.cleared.enterMonitor _ _
    · rwa [State.me_trap_enters hsup hq hp hamo he hc]
  · rwa [State.me_trap_waits hsup hq hp hamo he]

/-- The task is HELD, beneath the monitor where that runs on its context. -/
theorem State.held_trap (cause : BitVec 8) (v : Word) :
    (if s.cur.2 = 0 ∧ s.here.monitor = false ∧ s.here.recs = [] then (s.trap cause v).me.under else (s.trap cause v).me.state) =
      .held := by
  by_cases he : s.entersNow
  · obtain ⟨monitor, recs, -⟩ := id he
    by_cases hc : s.cur.2 = 0
    · rw [if_pos ⟨hc, monitor, recs⟩, State.me_trap_enters_zero hsup hq hp hamo he hc]
      simp [Ctx.enterMonitor, Ctx.serve, Ctx.withoutPosts, Ctx.stopAt, hsup]
    · rw [if_neg fun h => hc h.1, State.me_trap_enters hsup hq hp hamo he hc]
      rfl
  · have waits : ¬(s.cur.2 = 0 ∧ s.here.monitor = false ∧ s.here.recs = []) :=
      fun ⟨hc, monitor, recs⟩ => he ⟨monitor, recs, fun h => absurd hc h⟩
    rw [if_neg waits, State.me_trap_waits hsup hq hp hamo he]
    rfl

end

end

/-! ### The statement -/

/-- Settles O11: the record of the cause is taken at once, or waits; of the context, the task is stopped in either case. -/
theorem traps : Obligations.Traps := by
  unfold Obligations.Traps
  intro s w
  refine ⟨rfl, rfl, rfl, rfl, fun cause v hsup hq hp => ⟨fun h => State.trap_amoHeld h cause v, fun hamo => ?_⟩⟩
  obtain ⟨pc, vs, ks, fstat, full, x⟩ := State.stoppedTask_trap hsup hq hp hamo cause v
  refine ⟨sameMemory_trap s cause v, State.held_trap hsup hq hp hamo cause v, pc, vs, ks, fstat, full, x, fun enters => ?taken,
    fun waits => ?waits⟩
  case taken =>
    obtain ⟨_, here⟩ := State.here_trap_enters hsup hq hp hamo enters cause v
    obtain ⟨k, monitor⟩ := State.monitor_trap_enters hsup hq hp hamo enters cause v
    rw [here, monitor]
    exact ⟨rfl, (s.stopMe.tile s.cur.1).tcause_loadRecord rfl, rfl, rfl, rfl, rfl, rfl, k.enterMonitor_monPc _ _,
      k.getX_four_enterMonitor _ _⟩
  case waits =>
    obtain ⟨_, here⟩ := State.here_trap_waits hsup hq hp hamo waits cause v
    rw [here]
    exact ⟨rfl, rfl⟩

end Sys2Proof.Machine
end

section
/-! PROOFS. Fences and the instructions that wait: when each ends, what it waits for, and what it leaves (R125, R170, R181, R182, R217,
R346 to R348, R396, R417). -/

namespace Sys2Proof.Machine

/-! ### Ending and parking -/

/-- A context with its fence marks and its older I-store bytes replaced. -/
def Ctx.withFences (k : Ctx) (fs : List FenceMark) (ys : List Host.Cell) : Ctx := { k with fences := fs, stale := ys }

/-- An instruction that writes no register and changes nothing else of its context but its fence marks and its older I-store bytes
retires. -/
theorem retires_of_me {s t : State} {fs : List FenceMark} {ys : List Host.Cell} {xs : List (BitVec 5)} {n : Nat}
    (me : t.me = ((s.me.withFences fs ys).consume xs).retire s.time n) :
    Retires s t xs [] n (s.me.pcNow + 4) (s.me.withFences fs ys) where
  next := by
    rw [me, Ctx.pcNow_retire, Ctx.consume_eq]
    rfl
  task sup := by
    rw [me, Ctx.consume_eq]
    exact if_pos sup
  regs r _ := by
    rw [me, Ctx.getX_retire, Ctx.getX_consume]
    rfl
  chans r := by
    rw [me]
    simp only [List.not_mem_nil, and_false, if_false]
    exact Ctx.isFull_consume xs (s.me.withFences fs ys) r
  others := by
    rw [me, Ctx.consume_eq]
    rfl

theorem retires_done (s : State) (fs : List FenceMark) (ys : List Host.Cell) (xs : List (BitVec 5)) (n : Nat) :
    Retires s (s.done n ((s.me.withFences fs ys).consume xs)) xs [] n (s.me.pcNow + 4) (s.me.withFences fs ys) :=
  retires_of_me (State.me_done s n _)

/-- A plain instruction that only reads registers retires, and nothing outside its context changes. -/
theorem exec_plain {i : Instr} {s : State} {xs : List (BitVec 5)} {n : Nat} (h : exec i s = .next (s.done n (s.me.consume xs))) :
    ∃ t, exec i s = .next t ∧ Retires s t xs [] n (s.me.pcNow + 4) s.me ∧ OnlyMe s t :=
  ⟨_, h, retires_done s s.me.fences s.me.stale xs n, onlyMe_done s n _⟩

/-! ### Fences (R181, R182) -/

theorem State.fenceMe_eq (s : State) (sc : Scope) (pred succ : BitVec 4) : ∃ fs, s.fenceMe sc pred succ =
    if pred = 0 ∨ succ = 0 then s.done 4 s.me
    else if s.fenceClear s.cur.1 s.cur.2 sc pred then s.done 4 (s.me.withFences fs s.me.stale) else s.parkMe (.fence sc pred) :=
  ⟨_, rfl⟩

theorem State.fenceMe_ends {s : State} {sc : Scope} {pred succ : BitVec 4}
    (h : pred = 0 ∨ succ = 0 ∨ s.fenceClear s.cur.1 s.cur.2 sc pred = true) :
    ∃ fs, s.fenceMe sc pred succ = s.done 4 (s.me.withFences fs s.me.stale) := by
  obtain ⟨fs, e⟩ := s.fenceMe_eq sc pred succ
  by_cases empty : pred = 0 ∨ succ = 0
  · exact ⟨s.me.fences, e.trans (if_pos empty)⟩
  · have clear := (or_assoc.mpr h).resolve_left empty
    exact ⟨fs, by rw [e, if_neg empty, if_pos clear]⟩

theorem State.fenceMe_parks {s : State} {sc : Scope} {pred succ : BitVec 4}
    (h : ¬(pred = 0 ∨ succ = 0 ∨ s.fenceClear s.cur.1 s.cur.2 sc pred = true)) :
    s.fenceMe sc pred succ = s.parkMe (.fence sc pred) := by
  obtain ⟨_, e⟩ := s.fenceMe_eq sc pred succ
  obtain ⟨nonempty, waits⟩ := not_or.mp (mt or_assoc.mp h)
  rw [e, if_neg nonempty, if_neg waits]

/-- An instruction that is a fence ends, with fence marks of its own, or parks. -/
theorem exec_fenceMe {i : Instr} {s : State} {sc : Scope} {pred succ : BitVec 4} (h : exec i s = .next (s.fenceMe sc pred succ)) :
    ((pred = 0 ∨ succ = 0 ∨ s.fenceClear s.cur.1 s.cur.2 sc pred = true) →
      ∃ t, exec i s = .next t ∧ Retires s t [] [] 4 (s.me.pcNow + 4) { s.me with fences := t.me.fences } ∧ OnlyMe s t) ∧
    (¬(pred = 0 ∨ succ = 0 ∨ s.fenceClear s.cur.1 s.cur.2 sc pred = true) → exec i s = .next (s.parkMe (.fence sc pred))) := by
  constructor
  · intro ends
    obtain ⟨fs, e⟩ := State.fenceMe_ends (succ := succ) ends
    rw [h, e]
    refine ⟨_, rfl, ?_, onlyMe_done s 4 _⟩
    rw [State.me_done]
    exact retires_done s fs s.me.stale [] 4
  · intro waits
    rw [h, State.fenceMe_parks waits]

/-- The classes of a FENCE set: bit 0, loads, from I and R; bit 1, stores, from O and W (R182). -/
theorem fenceClasses_eq : ∀ x : BitVec 4, fenceClasses x =
    (0 : BitVec 2) ++ BitVec.ofBool (x.getLsbD 2 || x.getLsbD 0) ++ BitVec.ofBool (x.getLsbD 3 || x.getLsbD 1) := by
  decide

/-! ### FENCE.I (R127, R347) -/

/-- A tile none of whose contexts fetches an older byte of the I-store any more (log 3). -/
def Tile.fetchFresh (tl : Tile) : Tile := { tl with ctxs := tl.ctxs.map fun p => (p.1, p.2.withFences p.2.fences []) }

theorem Assoc.get_map {α β : Type} (f : α → β) (d : α) (k : Nat) (l : Assoc α) :
    Assoc.get (f d) k (l.map fun p => (p.1, f p.2)) = f (Assoc.get d k l) := by
  induction l with
  | nil => rfl
  | cons p l ih =>
    simp only [List.map_cons, Assoc.get]
    split
    next => rfl
    next => exact ih

/-- A context that the tile does not list has no older byte either. -/
theorem Tile.ctx_fetchFresh (tl : Tile) (c : CtxNo) : tl.fetchFresh.ctx c = (tl.ctx c).withFences (tl.ctx c).fences [] :=
  Assoc.get_map (fun k : Ctx => k.withFences k.fences []) Ctx.reset c.toNat tl.ctxs

/-- The state in which FENCE.I ends. -/
def State.fetchFresh (s : State) : State := s.modTile s.cur.1 Tile.fetchFresh

theorem State.ctx_fetchFresh (s : State) (c : CtxNo) :
    s.fetchFresh.ctx s.cur.1 c = (s.ctx s.cur.1 c).withFences (s.ctx s.cur.1 c).fences [] := by
  rw [State.ctx, State.fetchFresh, State.tile_modTile, Tile.ctx_fetchFresh]
  rfl

theorem State.me_fetchFresh (s : State) : s.fetchFresh.me = s.me.withFences s.me.fences [] := s.ctx_fetchFresh s.cur.2

theorem exec_fenceI (s : State) : exec .fenceI s = .next
    (if s.istoreBusy s.cur.1 s.cur.2 then s.modMe fun k => { k with held := true, fencing := true }
     else s.fetchFresh.done 4 s.fetchFresh.me) := rfl

theorem stale_done_fetchFresh (s : State) (c : CtxNo) :
    ((s.fetchFresh.done 4 s.fetchFresh.me).ctx s.cur.1 c).stale = [] := by
  by_cases h : c = s.cur.2
  · subst h
    show (s.fetchFresh.done 4 s.fetchFresh.me).me.stale = []
    rw [State.me_done, State.me_fetchFresh]
    rfl
  · have other : (s.cur.1, c) ≠ s.fetchFresh.cur := fun e => h (congrArg Prod.snd e)
    rw [State.done, State.ctx_setMe_other _ other, State.ctx_fetchFresh]
    rfl

theorem sameMemory_done_fetchFresh (s : State) : SameMemory s (s.fetchFresh.done 4 s.fetchFresh.me) :=
  (sameMemory_modTile s s.cur.1 (f := Tile.fetchFresh) fun _ => ⟨rfl, rfl, rfl, rfl, rfl, rfl⟩).trans (onlyMe_done _ _ _).memory

theorem retires_done_fetchFresh (s : State) : Retires s (s.fetchFresh.done 4 s.fetchFresh.me) [] [] 4 (s.me.pcNow + 4)
    (s.me.withFences s.me.fences []) := by
  apply retires_of_me
  rw [State.me_done, State.me_fetchFresh]
  rfl

/-! ### WAITC (R125) -/

theorem Ctx.meets_iff (k : Ctx) (ld st cp mx : BitVec 5) : k.meets ld st cp mx = true ↔
    (ld = 31 ∨ k.ld ≤ ld.toNat) ∧ (st = 31 ∨ k.st ≤ st.toNat) ∧ (cp = 31 ∨ k.cp ≤ cp.toNat) ∧ (mx = 31 ∨ k.mx ≤ mx.toNat) := by
  simp [Ctx.meets, and_assoc]

theorem exec_waitc (ld st cp mx : BitVec 5) (s : State) : exec (.waitc ld st cp mx) s =
    .next (if s.me.meets ld st cp mx then s.done 4 s.me else s.parkMe (.waitc ld st cp mx)) := rfl

/-! ### TSLEEP (R217, R396) -/

theorem exec_tsleep {xs1 : BitVec 5} {s : State} (free : Free [xs1] [] s) : exec (.tsleep xs1) s =
    .next (if (s.me.getX xs1).toNat ≤ s.time ∨ s.me.woken then s.done 4 (s.me.consume [xs1]) else s.parkMe (.sleep (s.me.getX xs1))) :=
  congrArg Host.Outcome.next (State.gated_go free _)

/-! ### WRS (R170, R417) -/

theorem State.home_word (s : State) (w : Place) : (s.home w).word = w := by
  unfold State.home
  split
  next h found => simpa using List.find?_some found
  next => rfl

/-- A home that something waits at is found under its word. -/
theorem State.home_setHome {h : Home} (waits : ¬(h.fifo = [] ∧ h.watchers = [] ∧ h.watches = [] ∧ h.applied = [])) (s : State) :
    (s.setHome h).home h.word = h := by
  have gone : (s.homes.filter (·.word != h.word)).find? (·.word == h.word) = none := by
    simp [List.find?_eq_none]
  have found : (s.setHome h).homes.find? (·.word == h.word) = some h := by
    simp only [State.setHome, if_neg waits, List.find?_append, gone]
    simp
  rw [State.home, found]

/-- A context joins those that watch a word (R417). -/
def State.joinWatchers (s : State) (w : Place) (o : TileNo × CtxNo) : State :=
  s.setHome { s.home w with watchers := (s.home w).watchers ++ [o] }

theorem State.mem_watchers_joinWatchers (s : State) (w : Place) (o : TileNo × CtxNo) : o ∈ ((s.joinWatchers w o).home w).watchers := by
  have found := State.home_setHome (h := { s.home w with watchers := (s.home w).watchers ++ [o] }) (by simp) s
  rw [State.home_word] at found
  rw [State.joinWatchers, found]
  simp

/-- Without a grant, or when the home has no free watcher entry, WRS ends at once. -/
theorem State.wrs_ends {s : State} (h : s.me.grant = none ∨ ∃ g, s.me.grant = some g ∧ 16 ≤ s.atUnit g.word (·.watchers.length))
    (limit : Bool) : s.wrs limit = s.done 4 s.me := by
  unfold State.wrs
  obtain ungranted | ⟨g, granted, full⟩ := h
  · simp [ungranted]
  · simp [granted, full]

/-- The state of a WRS whose grant is given up, at the word it is to watch. -/
def State.watching (s : State) (w : Place) : State := (s.dropGrant s.cur.1 s.cur.2).joinWatchers w s.cur

theorem State.wrs_parks {s : State} {g : Grant} (granted : s.me.grant = some g)
    (room : s.atUnit g.word (·.watchers.length) < 16) (asleep : s.me.woken = false) (limit : Bool) :
    s.wrs limit = (s.watching g.word).parkMe (.wrs limit) := by
  unfold State.wrs
  simp only [asleep, granted, if_neg (Nat.not_le.mpr room), Bool.false_eq_true, if_false]
  rfl

theorem State.me_watching (s : State) (w : Place) : (s.watching w).me = { s.me with grant := none } := by
  have dropped := atCtx_dropGrant s s.cur.1 s.cur.2
  have cur : (s.watching w).cur = s.cur := dropped.cur
  rw [State.me, cur]
  exact s.ctx_dropGrant s.cur.1 s.cur.2

theorem sameMemory_watching (s : State) (w : Place) : SameMemory s (s.watching w) :=
  (sameMemory_dropGrant s s.cur.1 s.cur.2).trans (sameMemory_setHome _ _)

/-- An instruction that is a WRS with a grant and a free watcher entry gives its grant up and watches the word, parked. -/
theorem exec_wrs_parks {i : Instr} {s : State} {limit : Bool} (h : exec i s = .next (s.wrs limit)) {g : Grant}
    (granted : s.me.grant = some g) (room : s.atUnit g.word (·.watchers.length) < 16) (asleep : s.me.woken = false) :
    ∃ t, exec i s = .next t ∧ t.me.grant = none ∧ t.me.state = .parked ∧ t.me.pcNow = s.me.pcNow ∧
      (∃ p, t.me.park = some p ∧ p.reason = .wrs limit) ∧ s.cur ∈ (t.home g.word).watchers ∧ SameMemory s t := by
  have parks := h.trans (congrArg _ (State.wrs_parks granted room asleep limit))
  have watches := State.mem_watchers_joinWatchers (s.dropGrant s.cur.1 s.cur.2) g.word s.cur
  have memory := (sameMemory_watching s g.word).trans (onlyMe_parkMe _ (.wrs limit)).memory
  refine ⟨_, parks, ?_⟩
  rw [State.me_parkMe, State.me_watching]
  exact ⟨rfl, rfl, rfl, ⟨_, rfl, rfl⟩, watches, memory⟩

/-! ### The statement -/

/-- Settles O10: each fence, then each instruction that waits, where its condition holds and where it does not. -/
theorem fencesAndWaits : Obligations.FencesAndWaits := by
  unfold Obligations.FencesAndWaits
  constructor
  · intro sc pred succ s
    refine ⟨exec_fenceMe rfl, exec_fenceMe ?fence, exec_fenceMe rfl, exec_plain (xs := []) rfl, fun clear => ?clear, fun busy => ?busy⟩
    case fence =>
      simp only [← fenceClasses_eq]
      rfl
    case clear =>
      have ended : exec .fenceI s = .next (s.fetchFresh.done 4 s.fetchFresh.me) :=
        (exec_fenceI s).trans (congrArg _ (if_neg (by simp [clear])))
      exact ⟨_, ended, stale_done_fetchFresh s, sameMemory_done_fetchFresh s, retires_done_fetchFresh s⟩
    case busy => rw [exec_fenceI, if_pos busy]
  · intro ld st cp mx xs1 s
    refine ⟨fun met => ?met, fun unmet => ?unmet, fun free reached => ?reached, fun free early asleep => ?early, fun i limit hi => ?wrs⟩
    case met =>
      have meets := (s.me.meets_iff ld st cp mx).mpr met
      exact exec_plain (xs := []) (by rw [exec_waitc, if_pos meets]; rfl)
    case unmet =>
      have misses := mt (s.me.meets_iff ld st cp mx).mp unmet
      exact (exec_waitc ld st cp mx s).trans (congrArg _ (if_neg misses))
    case reached => exact exec_plain (by rw [exec_tsleep free, if_pos (.inl reached)])
    case early =>
      have sleeps : ¬((s.me.getX xs1).toNat ≤ s.time ∨ s.me.woken = true) := by simp [asleep, early]
      exact (exec_tsleep free).trans (congrArg _ (if_neg sleeps))
    case wrs =>
      have wrs : exec i s = .next (s.wrs limit) := by
        obtain ⟨rfl, rfl⟩ | ⟨rfl, rfl⟩ := hi <;> rfl
      exact ⟨fun h => exec_plain (xs := []) (wrs.trans (congrArg _ (State.wrs_ends h limit))),
        fun g granted room asleep => exec_wrs_parks wrs granted room asleep⟩

end Sys2Proof.Machine
end
